-- ==== Sys2Proof/Word.lean ====
section
/-! DEFINITION. Word.lean: the word types of the machine and the shape of sparse storage (00 R5, R6). -/

namespace Sys2Proof

/-- One byte of any memory. -/
abbrev Byte := BitVec 8
/-- A 32-bit lane register (R178). -/
abbrev W32 := BitVec 32
/-- A uniform register, a latch, an address (R181). -/
abbrev W64 := BitVec 64
/-- A register quad (R35). -/
abbrev W128 := BitVec 128
/-- One bit per lane of a gang (R10). -/
abbrev Mask := BitVec 64

/-- Sparse storage in one canonical form: keys strictly rising, no entry equal to what an
unlisted key reads as. The predicate is `Machine.swf`. -/
abbrev Store (α : Type) := List (Nat × α)

end Sys2Proof
end

