-- ==== Sys2Proof/Syntax.lean ====
section
/-! DEFINITION. Syntax.lean: one constructor of `Instr` per row of spec/opcode_table.json. Encoded
instructions carry their operand fields (02 R31 to R42); machine events, packets, commands and host
actions carry the choice that the spec leaves to timing or to the outside world. -/

namespace Sys2Proof

/-- Lane type codes 0x0 to 0xD (R40). -/
inductive LaneTy where
  | n32 | s32 | n64 | s64 | f32 | f16 | bf16 | f16x2 | bf16x2 | n8 | s8 | n16 | s16 | b128
  deriving DecidableEq, Repr

/-- Format codes 0x00 to 0x14 (R41). -/
inductive Fmt where
  | n8 | s8 | n16 | s16 | n32 | s32 | n64 | s64 | f32 | f16 | bf16
  | e4m3 | e5m2 | e3m2 | e2m3 | e2m1 | s4 | bf16x2 | f16x2 | parcel | terrace
  deriving DecidableEq, Repr

/-- Rounding codes 0 to 5 (R42, R83). -/
inductive Rnd where
  | rne | rz | rdn | rup | rna | rsr
  deriving DecidableEq, Repr

/-- Scope codes 0 to 5 (R42, R270). -/
inductive Scope where
  | none | blk | clu | die | dev | sys
  deriving DecidableEq, Repr

/-- Access kind codes 0 to 3 (R42). -/
inductive Kind where
  | weak | strong | acq | rel
  deriving DecidableEq, Repr

/-- Integer condition codes (R42). -/
inductive ICond where
  | eq | ne | lt | le | gt | ge
  deriving DecidableEq, Repr

/-- FCMP condition codes (R42). -/
inductive FCond where
  | eq | ne | lt | le | gt | ge | ord | uno
  deriving DecidableEq, Repr

/-- Order codes of the atomics group (R39). -/
inductive Order where
  | relaxed | acq | rel | ar
  deriving DecidableEq, Repr

/-- A guard: predicate index (7 is the always-true one) and negation (R32). -/
structure Guard where
  neg : Bool
  idx : BitVec 3
  deriving DecidableEq, Repr

/-- The unconditional guard, pt or qt. -/
def Guard.always : Guard := ⟨false, 7⟩

/-- A predicate named in a control field of SEL, KSEL or VOTE (R211, R226, R231). -/
structure PSel where
  neg : Bool
  idx : BitVec 3
  deriving DecidableEq, Repr

/-- A source operand (R34), or the immediate that replaces it (R36). -/
inductive Src where
  | v (i : BitVec 8)
  | o (i : BitVec 3)
  | l (i : BitVec 2)
  | k (i : BitVec 6)
  | inl (i : BitVec 8)
  | imm (w : BitVec 32)
  | imm62 (w : BitVec 62)
  deriving DecidableEq, Repr

/-- A lane destination (R33): `none` is write-back suppressed, the result goes to L0 only. -/
inductive Dst where
  | v (i : BitVec 8)
  | o (i : BitVec 3)
  | none
  deriving DecidableEq, Repr

/-- The three lengths of R29; only NOP carries its length (R301). -/
inductive LenForm where
  | base | ext | long
  deriving DecidableEq, Repr

/-- What EVBIND binds (R308). -/
inductive EvSpec where
  | none
  | bar (b : Src) (disp : BitVec 32)
  | gauge (ka : BitVec 6) (target : Src) (disp : BitVec 32)
  | mbox (m : Src) (disp : BitVec 32)
  | gate (disp : BitVec 32)
  | rq (kq : BitVec 6) (disp : BitVec 32)
  deriving DecidableEq, Repr

/-- FENCE subops (R286). -/
inductive FenceKind where
  | acq | rel | ar
  deriving DecidableEq, Repr

/-- RNG and RNGX result forms (R235). -/
inductive RngForm where
  | b32 | b64 | b128 | f32
  deriving DecidableEq, Repr

/-- WAITC classes (R208). -/
inductive WaitClass where
  | ld | st | at | dr | all
  deriving DecidableEq, Repr

/-- BMASK match rules (R215). -/
inductive MaskRule where
  | eq | rng | set
  deriving DecidableEq, Repr

/-- SHFL modes (R226). -/
inductive ShflMode where
  | idx | up | dn | xor
  deriving DecidableEq, Repr

/-- VOTE forms with their destinations (R226). -/
inductive VoteSpec where
  | any (pd : BitVec 3)
  | all (pd : BitVec 3)
  | ballot (d : Dst)
  deriving DecidableEq, Repr

/-- MATCH forms with their destinations (R226). -/
inductive MatchSpec where
  | any (d : Dst)
  | all (pd : BitVec 3)
  deriving DecidableEq, Repr

/-- Fold operators of SCAN and RED (R226); SCAN has the first four. -/
inductive FoldOp where
  | add | xor | min | max | and | or
  deriving DecidableEq, Repr

/-- Operations of ATOM and ATOMS (R204). -/
inductive AtomOp where
  | add | smin | smax | and | or | xor | exch | nmin | nmax
  deriving DecidableEq, Repr

/-- Operations of ATOMF (R206). -/
inductive AtomFOp where
  | add | min | max
  deriving DecidableEq, Repr

/-- Forms of MLDW (R259); `dm1` is d − 1. -/
inductive MldwSpec where
  | bare (f : Fmt) (ka : BitVec 6)
  | par (f : Fmt) (ka : BitVec 6)
  | ter (ka : BitVec 6) (tp : Src) (dm1 : BitVec 3)
  deriving DecidableEq, Repr

/-- Index forms of SGATHER (R163). -/
inductive GatherForm where
  | x32 | x64 | ter
  deriving DecidableEq, Repr

/-- Destination of SFILL (R163): scratchpad, or memory at ka. -/
inductive FillDst where
  | sp
  | mem (ka : BitVec 6)
  deriving DecidableEq, Repr

/-- Forms of SETGS other than .clr (R166). -/
inductive SetgsSpec where
  | t | f
  | ks (k : BitVec 6)
  deriving DecidableEq, Repr

/-- Forms of BARINIT (R168). -/
inductive BarinitSpec where
  | counted (n : Src)
  | blk | blkf
  deriving DecidableEq, Repr

/-- Fork scopes (R39, R104). -/
inductive ForkScope where
  | block | cluster | die | chip
  deriving DecidableEq, Repr

/-- A host function: the PF or a VF (R377, R380). -/
inductive Fn where
  | pf
  | vf (n : Nat)
  deriving DecidableEq, Repr

/-- A party of a block for waiting and events: a gang, or the feeder (R269). -/
inductive Party where
  | gang (i : Nat)
  | feeder
  deriving DecidableEq, Repr

/-- Where an uncorrectable error lies (R75). -/
inductive ErrLoc where
  | hbm (sector : Nat)
  | l2 (sector : Nat)
  | forkState (fork : Nat) (child : Nat) (granule : Nat)
  | twin (fork : Nat) (granule : Nat)
  | scratch (blk : Nat) (word : Nat)
  | mainReg (blk gang lane reg : Nat)
  | opReg (blk gang lane reg : Nat)
  | latch (blk gang lane i : Nat) (high : Bool)
  | uniReg (blk : Nat) (p : Party) (i : Nat) (high : Bool)
  | acc (core bank row col : Nat)
  | keySlot (i : Nat)
  | spill (blk gang lane place : Nat)
  deriving DecidableEq, Repr

/-- The operation of an atomic request. -/
inductive AtomKind where
  | int (op : AtomOp)
  | cas
  | flt (op : AtomFOp)
  deriving DecidableEq, Repr

/-- What a peer asks of this device's memory (R403). An atomic carries, in lane order, the operand and the compare value of each
lane that addresses the location (R196). -/
inductive RemoteOp where
  | load (bytes : Nat)
  | store (data : List Byte)
  | atomic (kind : AtomKind) (w64 : Bool) (lanes : List (BitVec 64 × BitVec 64))
  | gaugeAdd (amount : BitVec 64)
  deriving DecidableEq, Repr

/-- A fault report (R353), field by field; `encodeReport` lays out its 128 bytes. -/
structure Report where
  cls : Nat := 0
  cause : Nat := 0
  kind : Nat := 0
  level : Nat := 0
  flags : Nat := 0
  ctx : Nat := 0
  gang : Nat := 0xFFFF
  lane : Nat := 0xFF
  access : Nat := 0
  addr : W64 := 0
  mask : Mask := 0
  va : W64 := 0
  blkIdx : W64 := 0
  regions : W64 := 0
  die : Nat := 0
  clu : Nat := 0
  core : Nat := 0
  tlevel : Nat := 0
  child : Nat := 0xFFFF_FFFF
  insn : W128 := 0
  w : List W64 := []
  deriving DecidableEq, Repr

/-- One contribution of a child to a slice (R128): the granule offsets in the window and their bytes; of a child that has
failed finally its last fault and the reruns it used. -/
structure Contribution where
  win : Nat
  slice : Nat
  child : Nat
  backup : Bool
  device : Nat
  final : Bool
  data : List (Nat × BitVec 256)
  report : Report := {}
  reruns : Nat := 0
  deriving DecidableEq, Repr

/-- One committed slice as it is broadcast, with how its bucket fails there: the failing child, its reruns, the report of
what ended the fork and the child's last fault (R130). -/
structure Broadcast where
  win : Nat
  slice : Nat
  outcome : Nat
  merged : Nat
  mflags : BitVec 5
  data : List (Nat × BitVec 256)
  child : Nat := 0
  reruns : Nat := 0
  report : Report := {}
  last : Option Report := none
  deriving DecidableEq, Repr

/-- What the Reeve finds when it verifies one firmware image (R393): its SHA-384 digest, the digest of the public key that comes with
it, whether ECDSA with that key accepts the signature of that digest, and its security version. -/
structure FwImage where
  sigOk : Bool
  version : BitVec 6
  key : BitVec 384 := 0
  digest : BitVec 384 := 0
  deriving DecidableEq, Repr

/-- A 256-byte management request (R381), byte 0 in the low bits. -/
abbrev Request := BitVec 2048

/-- One direction of a Plolux Link port (R404). -/
structure LinkDir where
  port : Nat
  out : Bool
  deriving DecidableEq, Repr

/-- One constructor per row of spec/opcode_table.json. -/
inductive Instr where
  -- control
  | nop (g : Guard) (f : LenForm)
  | bra (g : Guard) (disp : BitVec 32)
  | brx (g : Guard) (a : Src)
  | brxu (g : Guard) (a : Src)
  | call (g : Guard) (disp : BitVec 32)
  | callx (g : Guard) (a : Src)
  | callxu (g : Guard) (a : Src)
  | ret (g : Guard)
  | exit (g : Guard)
  | yield (g : Guard)
  | trap (g : Guard) (n : Src)
  | bkpt (g : Guard)
  | rte
  | rteSkip
  | rteRd (kd : BitVec 6) (w : BitVec 4)
  | waitany (g : Guard) (c : Src)
  | waitanyPoll (g : Guard) (c : Src)
  | evbind (g : Guard) (slot : BitVec 4) (e : EvSpec)
  | evctlMask (g : Guard) (m : Src)
  | evctlUnmask (g : Guard) (m : Src)
  | evctlClr (g : Guard) (m : Src)
  | evctlRaise (g : Guard) (m : Src)
  | evctlRead (g : Guard) (kd : BitVec 6)
  -- system
  | plop (g : Guard) (q : Bool) (d a b c : BitVec 3) (lut : BitVec 8)
  | sread (g : Guard) (sr : BitVec 8) (d : Dst)
  | sreadK (g : Guard) (sr : BitVec 8) (kd : BitVec 6)
  | swrite (g : Guard) (sr : BitVec 8) (a : Src)
  | fence (g : Guard) (f : FenceKind) (sc : Scope)
  | clk (g : Guard) (d : Dst)
  | rng (g : Guard) (f : RngForm) (d : Dst)
  | rngx (g : Guard) (f : RngForm) (d : Dst) (a : Src)
  | rgenter (g : Guard) (id : Src)
  | rgleave (g : Guard) (id : Src)
  | monitor (g : Guard) (ka : BitVec 6) (off : Src)
  | monitorClr (g : Guard)
  | mwait (g : Guard) (kd : BitVec 6)
  | waitc (g : Guard) (c : WaitClass) (n : Src)
  | grow (g : Guard) (n : Src)
  | shrink (g : Guard) (n : Src)
  | phase (g : Guard)
  -- integer
  | iadd (g : Guard) (t : LaneTy) (sat : Bool) (d : Dst) (a b : Src)
  | isub (g : Guard) (t : LaneTy) (sat : Bool) (d : Dst) (a b : Src)
  | iadd3 (g : Guard) (t : LaneTy) (sat : Bool) (d : Dst) (a b c : Src)
  | imul (g : Guard) (t : LaneTy) (d : Dst) (a b : Src)
  | imulh (g : Guard) (t : LaneTy) (d : Dst) (a b : Src)
  | imad (g : Guard) (t : LaneTy) (sat : Bool) (d : Dst) (a b c : Src)
  | idiv (g : Guard) (t : LaneTy) (d : Dst) (a b : Src)
  | irem (g : Guard) (t : LaneTy) (d : Dst) (a b : Src)
  | imin (g : Guard) (t : LaneTy) (d : Dst) (a b : Src)
  | imax (g : Guard) (t : LaneTy) (d : Dst) (a b : Src)
  | iabs (g : Guard) (t : LaneTy) (sat : Bool) (d : Dst) (a : Src)
  | ineg (g : Guard) (t : LaneTy) (sat : Bool) (d : Dst) (a : Src)
  | and (g : Guard) (t : LaneTy) (d : Dst) (a b : Src)
  | or (g : Guard) (t : LaneTy) (d : Dst) (a b : Src)
  | xor (g : Guard) (t : LaneTy) (d : Dst) (a b : Src)
  | andn (g : Guard) (t : LaneTy) (d : Dst) (a b : Src)
  | not (g : Guard) (t : LaneTy) (d : Dst) (a : Src)
  | shl (g : Guard) (t : LaneTy) (d : Dst) (a b : Src)
  | shr (g : Guard) (t : LaneTy) (d : Dst) (a b : Src)
  | sar (g : Guard) (t : LaneTy) (d : Dst) (a b : Src)
  | rot (g : Guard) (t : LaneTy) (d : Dst) (a b : Src)
  | fshl (g : Guard) (t : LaneTy) (d : Dst) (a b c : Src)
  | popc (g : Guard) (t : LaneTy) (d : Dst) (a : Src)
  | clz (g : Guard) (t : LaneTy) (d : Dst) (a : Src)
  | ctz (g : Guard) (t : LaneTy) (d : Dst) (a : Src)
  | brev (g : Guard) (t : LaneTy) (d : Dst) (a : Src)
  | bfe (g : Guard) (t : LaneTy) (d : Dst) (a b : Src)
  | bfi (g : Guard) (t : LaneTy) (d : Dst) (a b c : Src)
  | prmb (g : Guard) (d : Dst) (a b c : Src)
  | bmask (g : Guard) (r : MaskRule) (t : LaneTy) (d : Dst) (a b c : Src)
  | clmul (g : Guard) (d : Dst) (a b : Src)
  | clmulh (g : Guard) (d : Dst) (a b : Src)
  | icmp (g : Guard) (c : ICond) (t : LaneTy) (pd : BitVec 3) (a b : Src)
  | sel (g : Guard) (t : LaneTy) (d : Dst) (a b : Src) (ps : PSel)
  | lea (g : Guard) (t : LaneTy) (d : Dst) (a b : Src) (sh : BitVec 5)
  | mov (g : Guard) (t : LaneTy) (d : Dst) (a : Src)
  | movi (g : Guard) (t : LaneTy) (d : Dst) (a b : Src)
  -- float
  | fadd (g : Guard) (t : LaneTy) (r : Rnd) (d : Dst) (a b : Src)
  | fsub (g : Guard) (t : LaneTy) (r : Rnd) (d : Dst) (a b : Src)
  | fmul (g : Guard) (t : LaneTy) (r : Rnd) (d : Dst) (a b : Src)
  | ffma (g : Guard) (t : LaneTy) (r : Rnd) (d : Dst) (a b c : Src)
  | fmin (g : Guard) (t : LaneTy) (d : Dst) (a b : Src)
  | fmax (g : Guard) (t : LaneTy) (d : Dst) (a b : Src)
  | fcmp (g : Guard) (c : FCond) (t : LaneTy) (pd : BitVec 3) (a b : Src)
  | fclass (g : Guard) (t : LaneTy) (d : Dst) (a : Src)
  | frcp (g : Guard) (r : Rnd) (d : Dst) (a : Src)
  | frsq (g : Guard) (r : Rnd) (d : Dst) (a : Src)
  | fsqrt (g : Guard) (r : Rnd) (d : Dst) (a : Src)
  | fdiv (g : Guard) (r : Rnd) (d : Dst) (a b : Src)
  | fexp2 (g : Guard) (d : Dst) (a : Src)
  | flog2 (g : Guard) (d : Dst) (a : Src)
  | fsin (g : Guard) (d : Dst) (a : Src)
  | fcos (g : Guard) (d : Dst) (a : Src)
  | ftanh (g : Guard) (d : Dst) (a : Src)
  | fsigm (g : Guard) (d : Dst) (a : Src)
  | fscale (g : Guard) (t : LaneTy) (r : Rnd) (d : Dst) (a b : Src)
  | frnd (g : Guard) (t : LaneTy) (r : Rnd) (d : Dst) (a : Src)
  | fcopys (g : Guard) (t : LaneTy) (d : Dst) (a b : Src)
  -- conversion
  | cvt (g : Guard) (res op : Fmt) (r : Rnd) (nan sat : Bool) (d : Dst) (a : Src) (b : Option Src)
  | qgrp (g : Guard) (e op : Fmt) (r : Rnd) (d : Dst) (a : Src)
  | dqgrp (g : Guard) (res e : Fmt) (d : Dst) (a : Src)
  | pkparcel (g : Guard) (e : Fmt) (d : Dst) (q : Src) (grp : BitVec 8)
  | unparcel (g : Guard) (e : Fmt) (d : Dst) (img : Src) (grp : BitVec 8)
  | planes (g : Guard) (d : Dst) (a : Src) (p : BitVec 3)
  -- cross-lane
  | shfl (g : Guard) (m : ShflMode) (t : LaneTy) (d : Dst) (a b : Src)
  | vote (g : Guard) (m : VoteSpec) (ps : PSel)
  | matchv (g : Guard) (m : MatchSpec) (t : LaneTy) (a : Src)
  | scan (g : Guard) (op : FoldOp) (t : LaneTy) (excl : Bool) (d : Dst) (a : Src)
  | red (g : Guard) (op : FoldOp) (t : LaneTy) (d : Dst) (a : Src)
  | topk (g : Guard) (d : Dst) (a b k : Src)
  -- loads, stores, atomics
  | ld (g : Guard) (t : LaneTy) (kd : Kind) (sc : Scope) (d : Dst) (base off : Src)
  | lds (g : Guard) (t : LaneTy) (kd : Kind) (sc : Scope) (d : Dst) (base off : Src)
  | ldc (g : Guard) (t : LaneTy) (kd : Kind) (sc : Scope) (d : Dst) (base c off : Src)
  | ldk (g : Guard) (t : LaneTy) (ln : Bool) (d : Dst) (ka : BitVec 6) (off : Src)
  | st (g : Guard) (t : LaneTy) (kd : Kind) (sc : Scope) (base off data : Src)
  | sts (g : Guard) (t : LaneTy) (kd : Kind) (sc : Scope) (base off data : Src)
  | stc (g : Guard) (t : LaneTy) (kd : Kind) (sc : Scope) (base c data off : Src)
  | stk (g : Guard) (t : LaneTy) (kd : Kind) (sc : Scope) (ka : BitVec 6) (off data : Src)
  | ldq (g : Guard) (t : LaneTy) (d : Dst) (base off : Src) (ter : Bool) (dm1 : BitVec 3) (grp : BitVec 6)
  | pfetch (g : Guard) (base off : Src)
  | atom (g : Guard) (op : AtomOp) (w64 : Bool) (ord : Order) (sc : Scope) (d : Dst) (base off v : Src)
  | atoms (g : Guard) (op : AtomOp) (w64 : Bool) (ord : Order) (d : Dst) (base off v : Src)
  | atomcas (g : Guard) (w64 : Bool) (ord : Order) (sc : Scope) (d : Dst) (base cmp new off : Src)
  | atomscas (g : Guard) (w64 : Bool) (ord : Order) (d : Dst) (base cmp new off : Src)
  | atomf (g : Guard) (op : AtomFOp) (ord : Order) (sc : Scope) (d : Dst) (base off v : Src)
  | wsig (g : Guard) (w64 : Bool) (sc : Scope) (base data gaddr off : Src)
  -- matrix
  | mldw (g : Guard) (m : MldwSpec)
  | mswap (g : Guard)
  | mstr (g : Guard) (par : Bool) (f : Fmt) (bank : Bool) (va : Src) (gm1 : BitVec 3)
  | mzero (g : Guard) (s32 : Bool) (bank : Bool)
  | mdrain (g : Guard) (rel coop : Bool) (f : Fmt) (bank : Bool) (ka : BitVec 6) (pitch : Src) (nrm1 : BitVec 7)
  | mgateTake (g : Guard)
  | mgateTry (g : Guard) (qd : BitVec 3)
  | mgateGive (g : Guard)
  | mcoop (g : Guard) (kd : BitVec 6) (shape : Src) (kg : BitVec 6)
  | mcoopClr (g : Guard)
  | mrestart (g : Guard) (disp : BitVec 32)
  | mend (g : Guard)
  | mstatSt (g : Guard) (kd : BitVec 6)
  | mstatAcc (g : Guard) (bank : Bool) (kd : BitVec 6) (pos : Src)
  | mstatBal (g : Guard) (kd : BitVec 6)
  -- streamer and synchronisation
  | scopy (g : Guard) (nm1 : BitVec 2) (toMem : Bool) (ch : BitVec 2) (tag : Option (BitVec 3)) (ka kb kn : BitVec 6)
  | sgather (g : Guard) (f : GatherForm) (ls : Bool) (ch : BitVec 2) (tag : Option (BitVec 3)) (ka kb kn : BitVec 6)
  | sscatter (g : Guard) (x64 : Bool) (ls : Bool) (ch : BitVec 2) (tag : Option (BitVec 3)) (ka kb kn : BitVec 6)
  | sfill (g : Guard) (nm1 : BitVec 2) (fdst : FillDst) (ch : BitVec 2) (tag : Option (BitVec 3)) (kb kn : BitVec 6)
  | pushq (g : Guard) (q : BitVec 2) (gang ks : Src)
  | popq (g : Guard) (kd : BitVec 6) (q : BitVec 2)
  | setgs (g : Guard) (slot : BitVec 3) (m : SetgsSpec)
  | setgsClr (g : Guard) (slot : BitVec 3)
  | loopk (g : Guard) (kc : BitVec 6) (disp : BitVec 32)
  | barinit (g : Guard) (b : Src) (m : BarinitSpec)
  | bararr (g : Guard) (qd : BitVec 3) (b n : Src)
  | barexp (g : Guard) (b bytes : Src)
  | barwait (g : Guard) (b : Src) (qs : BitVec 3)
  | gaugeadd (g : Guard) (sc : Scope) (ka : BitVec 6) (amount : Src)
  | gaugewait (g : Guard) (sc : Scope) (ka : BitVec 6) (target : Src)
  | mbsend (g : Guard) (target ks : Src)
  | mbsendTry (g : Guard) (qd : BitVec 3) (target ks : Src)
  | mbrecv (g : Guard) (kd : BitVec 6) (m : Src)
  -- uniform
  | kmov (g : Guard) (t : LaneTy) (kd : BitVec 6) (a : Src)
  | kmovi (g : Guard) (t : LaneTy) (hi : Bool) (kd : BitVec 6) (a : Src)
  | kadd (g : Guard) (t : LaneTy) (sat : Bool) (kd : BitVec 6) (a b : Src)
  | ksub (g : Guard) (t : LaneTy) (sat : Bool) (kd : BitVec 6) (a b : Src)
  | kmul (g : Guard) (t : LaneTy) (kd : BitVec 6) (a b : Src)
  | kmad (g : Guard) (t : LaneTy) (sat : Bool) (kd : BitVec 6) (a b c : Src)
  | kand (g : Guard) (t : LaneTy) (kd : BitVec 6) (a b : Src)
  | kor (g : Guard) (t : LaneTy) (kd : BitVec 6) (a b : Src)
  | kxor (g : Guard) (t : LaneTy) (kd : BitVec 6) (a b : Src)
  | kshl (g : Guard) (t : LaneTy) (kd : BitVec 6) (a b : Src)
  | kshr (g : Guard) (t : LaneTy) (kd : BitVec 6) (a b : Src)
  | ksar (g : Guard) (t : LaneTy) (kd : BitVec 6) (a b : Src)
  | kmin (g : Guard) (t : LaneTy) (kd : BitVec 6) (a b : Src)
  | kmax (g : Guard) (t : LaneTy) (kd : BitVec 6) (a b : Src)
  | kcmp (g : Guard) (c : ICond) (t : LaneTy) (qd : BitVec 3) (a b : Src)
  | ksel (g : Guard) (t : LaneTy) (kd : BitVec 6) (a b : Src) (qs : PSel)
  | kld (g : Guard) (t : LaneTy) (kd : BitVec 6) (ka : BitVec 6) (off : Src)
  | kst (g : Guard) (t : LaneTy) (ka : BitVec 6) (off ks : Src)
  | kreadlane (g : Guard) (t : LaneTy) (kd : BitVec 6) (a n : Src)
  | kbcast (g : Guard) (t : LaneTy) (d : Dst) (a : Src)
  -- pair: the lane operation carries the pair's uniform guard
  | pair (lane uni : Instr)
  -- fork and task
  | fork (g : Guard) (sc : ForkScope) (ka : BitVec 6)
  | join (g : Guard) (kd : BitVec 6) (tag : Src)
  | abandon (g : Guard)
  | viewInfo (g : Guard) (kd : BitVec 6)
  | viewAddr (g : Guard) (kd : BitVec 6) (ka : BitVec 6) (off : Src)
  | range (g : Guard) (kd : BitVec 6)
  | launch (g : Guard) (ka : BitVec 6)
  | rqalloc (g : Guard) (kd kq : BitVec 6)
  | rqallocTry (g : Guard) (kd kq : BitVec 6)
  | rqcommit (g : Guard) (kq ka : BitVec 6) (key : Src)
  | rqclose (g : Guard) (kq : BitVec 6)
  -- issue
  | issueCycle (core : Nat)
  | entryStarved (core : Nat) (addr : W64)
  | feederIssue (core : Nat)
  | activeSetSwap (core : Nat)
  -- completions
  | loadComplete (blk gang op : Nat)
  | storePerformed (blk gang op : Nat)
  | atomicPerformed (req : Nat)
  | wsigSignal (blk gang op : Nat)
  | mwaitWake (blk gang : Nat)
  | walkComplete (die walk : Nat)
  | commandStart (blk ch : Nat)
  | pieceDelivered (blk cmd piece : Nat)
  | commandComplete (blk cmd : Nat)
  | commandDiscarded (blk ch : Nat)
  | barwaitResume (blk : Nat) (p : Party)
  | gaugewaitResume (blk : Nat) (p : Party)
  | mbrecvResume (blk gang : Nat)
  | mbsendAppend (blk : Nat) (p : Party)
  | popqResume (blk gang : Nat)
  | pushqAppend (blk : Nat)
  | eventDispatch (blk : Nat) (p : Party)
  | gateGrant (core : Nat)
  | growGrant (core : Nat)
  | poolStandstillEvict (core : Nat)
  | mdrainComplete (blk gang op : Nat)
  | blockEnd (blk : Nat)
  -- forks
  | prefixStep (fork : Nat)
  | slotGrant (fork : Nat)
  | forkRollback (fork : Nat)
  | contributionArrival (fork : Nat) (c : Contribution)
  | sliceBroadcast (fork : Nat) (b : Broadcast)
  -- scheduling
  | dispatch (die : Nat)
  | weirInterval (die : Nat)
  | recordQueueLaunch (rq : Nat)
  | recordQueueTimer (rq : Nat)
  | rqallocResume (blk gang : Nat)
  | gridRetire (grid : Nat)
  -- faults, pre-emption, observation
  | asyncFaultTaken (blk : Nat)
  | dumpWrite (ctx core : Nat)
  | preemptStop (blk : Nat)
  | preemptSave (blk : Nat)
  | restore (blk : Nat)
  | checksumArrival (blk gang : Nat)
  | samplePeriod (ctx : Nat)
  | scrubPeriod (stack : Nat) (bad : List Nat)
  | uncorrectableError (loc : ErrLoc)
  -- host memory access and peers
  | hostRead (pa len : Nat)
  | hostWrite (pa : Nat) (data : List Byte)
  | remoteAccess (ctx : Nat) (serial : W64) (peerCtx pa : Nat) (op : RemoteOp)
  -- packets
  | launchPacket (q : Nat)
  | forkchipOpen (q : Nat)
  | forkchipCancel (q : Nat)
  | levelPacket (q : Nat)
  | levelChange (ctx : Nat)
  | fencePacket (q : Nat)
  | gwait (q : Nat)
  | gadd (q : Nat)
  | captureStart (q : Nat)
  | captureStop (q : Nat)
  | regionPacket (q : Nat)
  | regionRoot (q : Nat)
  | powerPacket (q : Nat)
  -- queue registers
  | queueTailWrite (fn : Fn) (q : Nat) (tail : BitVec 32)
  | queueRestart (fn : Fn) (q : Nat)
  | queueSkip (fn : Fn) (q : Nat)
  -- management commands
  | ctxCreate (fn : Fn) (req : Request)
  | ctxDestroy (fn : Fn) (req : Request)
  | ctxReset (fn : Fn) (req : Request)
  | mapPages (fn : Fn) (req : Request)
  | unmapPages (fn : Fn) (req : Request)
  | queueBind (fn : Fn) (req : Request)
  | preempt (fn : Fn) (req : Request)
  | resume (fn : Fn) (req : Request)
  | importImages (fn : Fn) (req : Request)
  | query (fn : Fn) (req : Request)
  | debugMode (fn : Fn) (req : Request)
  | peerEntry (fn : Fn) (req : Request)
  | setReservoir (fn : Fn) (req : Request)
  | setScrubPeriod (fn : Fn) (req : Request)
  | setRiseLimit (fn : Fn) (req : Request)
  | setFallLimit (fn : Fn) (req : Request)
  | setAgingThreshold (fn : Fn) (req : Request)
  | setPowerState (fn : Fn) (req : Request)
  | setErrorLogRing (fn : Fn) (req : Request)
  | setErrorLogEntries (fn : Fn) (req : Request)
  | fwStage (fn : Fn) (req : Request) (img : FwImage)
  -- attestation
  | getVersion (fn : Fn) (msg : List Byte)
  | getCapabilities (fn : Fn) (msg : List Byte)
  | negotiateAlgorithms (fn : Fn) (msg : List Byte)
  | getDigests (fn : Fn) (msg : List Byte)
  | getCertificate (fn : Fn) (msg : List Byte)
  | challenge (fn : Fn) (msg : List Byte)
  | getMeasurements (fn : Fn) (index : Nat)
  | keyExchange (fn : Fn) (msg : List Byte)
  | finish (fn : Fn) (macOk : Bool) (msg : List Byte)
  | keyUpdate (fn : Fn) (msg : List Byte)
  | heartbeat (fn : Fn) (msg : List Byte)
  | endSession (fn : Fn) (msg : List Byte)
  | keyLoad (fn : Fn) (ctx : Nat) (key : Option (BitVec 512))
  | keyGrant (fn : Fn) (keyId ctx : Nat)
  | keyRemove (fn : Fn) (keyId ctx : Nat)
  -- device
  | deviceReset (reeve queueProc dispatcher : FwImage)
  | thermalTrip (die : Nat)
  | powerStateChange (die : Nat)
  | vfLeavesRun (vf : Nat)
  | linkTagFail (port : Nat)
  | linkPortDown (port : Nat)
  | linkRekey (dir : LinkDir)
  | correctedError (unit : Nat) (addr : Nat)
  | linkPortReturn (port : Nat)
  | linkCheckReplay (port : Nat)
  | powerRemoval
  | instructionFetchComplete (core : Nat) (addr : W64)
  | vfEntersRun (vf : Nat)
  deriving DecidableEq, Repr

end Sys2Proof
end

