-- ==== Sys2Proof/WellFormed.lean ====
section
/-! DEFINITION. WellFormed.lean: the instructions that the encodings of the spec admit (02 R29 to R43 and
the entries of chapters 06 to 13). Rows that are not encoded instructions are well formed as they stand. -/

namespace Sys2Proof

/-- Register words of one operand of the type (R35). -/
def LaneTy.regs : LaneTy → Nat
  | .n64 | .s64 => 2
  | .b128 => 4
  | _ => 1

/-- Codes 0x0 to 0x3 ("all" in R211). -/
def LaneTy.isInt : LaneTy → Bool
  | .n32 | .s32 | .n64 | .s64 => true
  | _ => false

/-- Codes 0x0 and 0x2 ("b" in R211). -/
def LaneTy.isB : LaneTy → Bool
  | .n32 | .n64 => true
  | _ => false

/-- The signed integer types. -/
def LaneTy.isS : LaneTy → Bool
  | .s32 | .s64 => true
  | _ => false

/-- f32, f16 and bf16. -/
def LaneTy.isF : LaneTy → Bool
  | .f32 | .f16 | .bf16 => true
  | _ => false

/-- The five types of FADD (R217). -/
def LaneTy.isFP : LaneTy → Bool
  | .f32 | .f16 | .bf16 | .f16x2 | .bf16x2 => true
  | _ => false

/-- Widths of loads and stores (R188). -/
def LaneTy.isMem : LaneTy → Bool
  | .f32 | .f16 | .bf16 | .f16x2 | .bf16x2 => false
  | _ => true

/-- Widths of KLD and KST (R232). -/
def LaneTy.isKMem : LaneTy → Bool
  | .b128 => false
  | t => t.isMem

/-- Width in bits of a format (R78, R81). -/
def Fmt.width : Fmt → Nat
  | .n8 | .s8 | .e4m3 | .e5m2 => 8
  | .n16 | .s16 | .f16 | .bf16 => 16
  | .n64 | .s64 => 64
  | .e3m2 | .e2m3 => 6
  | .e2m1 | .s4 => 4
  | .parcel | .terrace => 0
  | _ => 32

/-- The integer formats. -/
def Fmt.isIntF : Fmt → Bool
  | .n8 | .s8 | .n16 | .s16 | .n32 | .s32 | .n64 | .s64 | .s4 => true
  | _ => false

/-- Element formats of QGRP, DQGRP, PKPARCEL and UNPARCEL (R220). -/
def Fmt.isElem : Fmt → Bool
  | .e4m3 | .e5m2 | .e3m2 | .e2m3 | .e2m1 | .s8 | .s4 => true
  | _ => false

/-- Groups per parcel by element format (R90). -/
def Fmt.groups (f : Fmt) : Nat := if f.width = 8 then 5 else if f.width = 6 then 6 else 9

/-- Operand formats of CVT: a scalar code except 0x10 to 0x12 (R220). -/
def Fmt.isCvtOp : Fmt → Bool
  | .s4 | .bf16x2 | .f16x2 | .parcel | .terrace => false
  | _ => true

/-- Result formats of CVT (R220). -/
def Fmt.isCvtRes : Fmt → Bool
  | .s4 | .parcel | .terrace => false
  | _ => true

/-- The packed results, which take two sources. -/
def Fmt.isPacked : Fmt → Bool
  | .bf16x2 | .f16x2 => true
  | _ => false

/-- f32 or bf16 (R220). -/
def Fmt.isWide : Fmt → Bool
  | .f32 | .bf16 => true
  | _ => false

/-- Registers of a conversion operand or result (R221). -/
def Fmt.regs (f : Fmt) : Nat := if f.width = 64 then 2 else 1

/-- Formats of bare and parcel MLDW and MSTR and of MDRAIN (R259, R261, R263). -/
def Fmt.isBareW : Fmt → Bool
  | .f32 | .f16 | .bf16 => true
  | _ => false
def Fmt.isBareA : Fmt → Bool
  | .f32 | .f16 | .bf16 | .e4m3 => true
  | _ => false
def Fmt.isParM : Fmt → Bool
  | .e4m3 | .e5m2 | .e2m1 | .s8 | .s4 => true
  | _ => false
def Fmt.isDrain : Fmt → Bool
  | .f32 | .bf16 | .s32 | .e4m3 | .e5m2 | .e2m1 | .s8 => true
  | _ => false

/-- The operands a source field accepts (R34, R35, and the entries). -/
inductive SrcCls where
  /-- v, o, latch, k or inline, aligned to n words (R209). -/
  | lane (n : Nat)
  /-- v or o only, aligned to n words. -/
  | vo (n : Nat)
  /-- A 64-bit address: v pair or k (R187). -/
  | base64
  /-- A 32-bit base: v, o, latch or k (R187). -/
  | base32
  /-- A branch target: v or o pair, latch or k (R300). -/
  | target
  /-- k only. -/
  | k
  /-- k or an inline integer from lo to hi. -/
  | kInl (lo hi : Int)
  /-- An inline integer from lo to hi. -/
  | inl (lo hi : Int)
  deriving DecidableEq, Repr

/-- How an immediate in the slot is read, and which extended forms exist (R36). -/
inductive ImmTy where
  /-- No extended form. -/
  | no
  /-- 32-bit word. -/
  | w32
  /-- Narrow type: bits at and above n are zero. -/
  | low (n : Nat)
  /-- 64-bit type or offset: the 128-bit form exists too. -/
  | w64
  deriving DecidableEq, Repr

/-- The operands of a class, with no immediate. Of four registers no latch, k register or inline code is one: R35 and R36 give those
no reading of 128 bits (DESIGN CHOICE, log 61). -/
def SrcCls.accepts : SrcCls → Src → Bool
  | .lane n, .v i => i.toNat % n = 0
  | .lane n, .o i => i.toNat % n = 0
  | .lane n, .l _ => n ≤ 2
  | .lane n, .k _ => n ≤ 2
  | .lane n, .inl _ => n ≤ 2
  | .vo n, .v i => i.toNat % n = 0
  | .vo n, .o i => i.toNat % n = 0
  | .base64, .v i => i.toNat % 2 = 0
  | .base64, .k _ => true
  | .base32, .v _ => true
  | .base32, .o _ => true
  | .base32, .l _ => true
  | .base32, .k _ => true
  | .target, .v i => i.toNat % 2 = 0
  | .target, .o i => i.toNat % 2 = 0
  | .target, .l _ => true
  | .target, .k _ => true
  | .k, .k _ => true
  | .kInl _ _, .k _ => true
  | .kInl lo hi, .inl i => decide (lo ≤ i.toInt) && decide (i.toInt ≤ hi)
  | .inl lo hi, .inl i => decide (lo ≤ i.toInt) && decide (i.toInt ≤ hi)
  | _, _ => false

/-- The immediates that a slot admits. -/
def ImmTy.accepts : ImmTy → Src → Bool
  | .w32, .imm _ => true
  | .low n, .imm w => w.toNat < 2 ^ n
  | .w64, .imm _ => true
  | .w64, .imm62 _ => true
  | _, _ => false

/-- An operand of class `c` whose slot admits the immediates of `t`. -/
def Src.ok (c : SrcCls) (t : ImmTy) (s : Src) : Bool := c.accepts s || t.accepts s

/-- Any inline integer. -/
abbrev anyInl : SrcCls := .inl (-128) 127
/-- k or any inline integer. -/
abbrev kOrInl : SrcCls := .kInl (-128) 127

/-- A lane destination of n words (R33, R35). -/
def Dst.ok (n : Nat) : Dst → Bool
  | .v i => i.toNat % n = 0
  | .o i => i.toNat % n = 0
  | .none => true

/-- Guard code 1111 is illegal (R32). -/
def Guard.ok (g : Guard) : Bool := !(g.neg && g.idx == 7)

/-- How an immediate of an integer type is read (R36); of 128 bits there is none (DESIGN CHOICE, log 61). -/
def LaneTy.imm (t : LaneTy) : ImmTy :=
  match t.regs with
  | 1 => .w32
  | 2 => .w64
  | _ => .no

/-- How an immediate of a float type is read (R36). -/
def LaneTy.fimm : LaneTy → ImmTy
  | .f16 | .bf16 => .low 16
  | _ => .w32

/-- How an immediate of an operand format is read (R36). -/
def Fmt.imm (f : Fmt) : ImmTy :=
  match f with
  | .n64 | .s64 => .w64
  | .f16 | .bf16 => .low 16
  | .e4m3 | .e5m2 => .low 8
  | .e3m2 | .e2m3 => .low 6
  | .e2m1 => .low 4
  | _ => .w32

/-- A displacement: bits [1:0] zero (R300). -/
def dispOk (d : BitVec 32) : Bool := d.extractLsb' 0 2 == 0

/-- A kind with its scope (R42, R200): weak carries none, another kind one of `scs`. -/
def kindOk (ks : List Kind) (scs : List Scope) (k : Kind) (s : Scope) : Bool :=
  ks.contains k && (if k == .weak then s == .none else scs.contains s)

/-- The five scopes of R270. -/
abbrev allScopes : List Scope := [.blk, .clu, .die, .dev, .sys]
/-- Kinds of loads and of stores (R200). -/
abbrev ldKinds : List Kind := [.weak, .strong, .acq]
abbrev stKinds : List Kind := [.weak, .strong, .rel]

/-- Special registers: number, 64 bits wide, held per (0 thread, 1 gang, 2 block, 3 gang or feeder) (R296). -/
def srInfo (n : Nat) : Option (Bool × Nat) :=
  match n with
  | 0x00 | 0x01 | 0x02 | 0x03 | 0x04 | 0x06 => some (false, 0)
  | 0x05 => some (false, 1)
  | 0x08 => some (true, 2)
  | 0x09 | 0x0A | 0x0B | 0x0C | 0x0D | 0x0E => some (false, 2)
  | 0x10 => some (false, 3)
  | 0x11 | 0x12 => some (true, 3)
  | 0x14 | 0x15 | 0x18 => some (false, 2)
  | 0x19 => some (true, 2)
  | 0x1A | 0x20 | 0x21 | 0x22 => some (false, 1)
  | 0x1C | 0x1D | 0x1E => some (false, 2)
  | _ => none

/-- Registers of one special register read by the lane form (R297). -/
def srRegs (n : BitVec 8) : Nat := if srInfo n.toNat = some (true, 2) ∨ srInfo n.toNat = some (true, 3) then 2 else 1

/-- Integer and cross-lane SCAN/RED types: f32 for add, min and max (R226). -/
def foldTy (op : FoldOp) (t : LaneTy) : Bool :=
  match op with
  | .add | .min | .max => t.isInt || t == .f32
  | _ => t.isInt

/-- CVT's combination rules (R220). -/
def cvtOk (res op : Fmt) (r : Rnd) (nan sat : Bool) : Bool :=
  res.isCvtRes && op.isCvtOp && !(nan && sat) && (!nan || res == .e4m3)
    && !(res.isIntF && op.isIntF && r != .rne) && (!res.isPacked || op == .f32)

/-- The immediates of a slot when extended forms are allowed, none in a pair (R37). -/
def immIf (x : Bool) (t : ImmTy) : ImmTy := if x then t else .no

/-- Well-formed operands of a lane or uniform instruction that may stand in a pair (R37), and of every
other encoded instruction but PAIR. `x`: an extended form may carry an immediate. -/
def Instr.wf1 (x : Bool) : Instr → Bool
  | .nop g _ => g.ok
  | .bra g d => g.ok && dispOk d
  | .brx g a => g.ok && a.ok .target .no
  | .brxu g a => g.ok && a.ok .target .no
  | .call g d => g.ok && dispOk d
  | .callx g a => g.ok && a.ok .target .no
  | .callxu g a => g.ok && a.ok .target .no
  | .ret g => g.ok
  | .exit g => g.ok
  | .yield g => g.ok
  | .trap g n => g.ok && n.ok (.kInl 0 127) (.low 16)
  | .bkpt g => g.ok
  | .rte => true
  | .rteSkip => true
  | .rteRd _ _ => true
  | .waitany g c => g.ok && c.ok kOrInl (.low 16)
  | .waitanyPoll g c => g.ok && c.ok kOrInl (.low 16)
  | .evbind g _ e => g.ok && (match e with
      | .none => true
      | .bar b d => b.ok kOrInl .no && dispOk d
      | .gauge _ t d => t.ok kOrInl .no && dispOk d
      | .mbox m d => m.ok kOrInl .no && dispOk d
      | .gate d => dispOk d
      | .rq _ d => dispOk d)
  | .evctlMask g m => g.ok && m.ok kOrInl (.low 16)
  | .evctlUnmask g m => g.ok && m.ok kOrInl (.low 16)
  | .evctlClr g m => g.ok && m.ok kOrInl (.low 16)
  | .evctlRaise g m => g.ok && m.ok kOrInl (.low 16)
  | .evctlRead g _ => g.ok
  | .plop g _ _ _ _ _ _ => g.ok
  | .sread g sr d => g.ok && (srInfo sr.toNat).isSome && d.ok (srRegs sr)
  | .sreadK g sr _ => g.ok && (srInfo sr.toNat).any (fun i => i.2 != 0)
  | .swrite g sr a => g.ok && (sr == 0x12 || sr == 0x1A)
      && a.ok (.lane (if sr == 0x12 then 2 else 1)) .w32
  | .fence g _ sc => g.ok && sc != .none
  | .clk g d => g.ok && d.ok 2
  | .rng g f d => g.ok && d.ok (match f with | .b64 => 2 | .b128 => 4 | _ => 1)
  | .rngx g f d a => g.ok && d.ok (match f with | .b64 => 2 | .b128 => 4 | _ => 1) && a.ok (.vo 4) .no
  | .rgenter g id => g.ok && id.ok (.kInl 0 127) (.low 16)
  | .rgleave g id => g.ok && id.ok (.kInl 0 127) (.low 16)
  | .monitor g _ off => g.ok && off.ok anyInl .w32
  | .monitorClr g => g.ok
  | .mwait g _ => g.ok
  | .waitc g _ n => g.ok && n.ok (.kInl 0 63) .no
  | .grow g n => g.ok && n.ok kOrInl .w32
  | .shrink g n => g.ok && n.ok kOrInl .w32
  | .phase g => g.ok
  | .iadd g t _ d a b => g.ok && t.isInt && d.ok t.regs && a.ok (.lane t.regs) .no && b.ok (.lane t.regs) (immIf x t.imm)
  | .isub g t _ d a b => g.ok && t.isInt && d.ok t.regs && a.ok (.lane t.regs) .no && b.ok (.lane t.regs) (immIf x t.imm)
  | .iadd3 g t _ d a b c => g.ok && t.isInt && d.ok t.regs && a.ok (.lane t.regs) .no && b.ok (.lane t.regs) .no
      && c.ok (.lane t.regs) (immIf x t.imm)
  | .imul g t d a b => g.ok && t.isInt && d.ok t.regs && a.ok (.lane t.regs) .no && b.ok (.lane t.regs) (immIf x t.imm)
  | .imulh g t d a b => g.ok && t.isInt && d.ok t.regs && a.ok (.lane t.regs) .no && b.ok (.lane t.regs) (immIf x t.imm)
  | .imad g t _ d a b c => g.ok && t.isInt && d.ok t.regs && a.ok (.lane t.regs) .no && b.ok (.lane t.regs) .no
      && c.ok (.lane t.regs) (immIf x t.imm)
  | .idiv g t d a b => g.ok && t.isInt && d.ok t.regs && a.ok (.lane t.regs) .no && b.ok (.lane t.regs) (immIf x t.imm)
  | .irem g t d a b => g.ok && t.isInt && d.ok t.regs && a.ok (.lane t.regs) .no && b.ok (.lane t.regs) (immIf x t.imm)
  | .imin g t d a b => g.ok && t.isInt && d.ok t.regs && a.ok (.lane t.regs) .no && b.ok (.lane t.regs) (immIf x t.imm)
  | .imax g t d a b => g.ok && t.isInt && d.ok t.regs && a.ok (.lane t.regs) .no && b.ok (.lane t.regs) (immIf x t.imm)
  | .iabs g t _ d a => g.ok && t.isS && d.ok t.regs && a.ok (.lane t.regs) (immIf x t.imm)
  | .ineg g t _ d a => g.ok && t.isS && d.ok t.regs && a.ok (.lane t.regs) (immIf x t.imm)
  | .and g t d a b => g.ok && t.isB && d.ok t.regs && a.ok (.lane t.regs) .no && b.ok (.lane t.regs) (immIf x t.imm)
  | .or g t d a b => g.ok && t.isB && d.ok t.regs && a.ok (.lane t.regs) .no && b.ok (.lane t.regs) (immIf x t.imm)
  | .xor g t d a b => g.ok && t.isB && d.ok t.regs && a.ok (.lane t.regs) .no && b.ok (.lane t.regs) (immIf x t.imm)
  | .andn g t d a b => g.ok && t.isB && d.ok t.regs && a.ok (.lane t.regs) .no && b.ok (.lane t.regs) (immIf x t.imm)
  | .not g t d a => g.ok && t.isB && d.ok t.regs && a.ok (.lane t.regs) (immIf x t.imm)
  | .shl g t d a b => g.ok && t.isB && d.ok t.regs && a.ok (.lane t.regs) .no && b.ok (.lane 1) (immIf x .w32)
  | .shr g t d a b => g.ok && t.isB && d.ok t.regs && a.ok (.lane t.regs) .no && b.ok (.lane 1) (immIf x .w32)
  | .sar g t d a b => g.ok && t.isB && d.ok t.regs && a.ok (.lane t.regs) .no && b.ok (.lane 1) (immIf x .w32)
  | .rot g t d a b => g.ok && t.isB && d.ok t.regs && a.ok (.lane t.regs) .no && b.ok (.lane 1) (immIf x .w32)
  | .fshl g t d a b c => g.ok && t.isB && d.ok t.regs && a.ok (.lane t.regs) .no && b.ok (.lane t.regs) .no
      && c.ok (.lane 1) (immIf x .w32)
  | .popc g t d a => g.ok && t.isB && d.ok 1 && a.ok (.lane t.regs) (immIf x t.imm)
  | .clz g t d a => g.ok && t.isB && d.ok 1 && a.ok (.lane t.regs) (immIf x t.imm)
  | .ctz g t d a => g.ok && t.isB && d.ok 1 && a.ok (.lane t.regs) (immIf x t.imm)
  | .brev g t d a => g.ok && t.isB && d.ok t.regs && a.ok (.lane t.regs) (immIf x t.imm)
  | .bfe g t d a b => g.ok && t.isInt && d.ok t.regs && a.ok (.lane t.regs) .no && b.ok (.lane 1) (immIf x .w32)
  | .bfi g t d a b c => g.ok && t.isB && d.ok t.regs && a.ok (.lane t.regs) .no && b.ok (.lane t.regs) .no
      && c.ok (.lane 1) (immIf x .w32)
  | .prmb g d a b c => g.ok && d.ok 1 && a.ok (.lane 1) .no && b.ok (.lane 1) .no && c.ok (.lane 1) (immIf x .w32)
  | .bmask g _ t d a b c => g.ok && (t.isB || t == .b128) && d.ok 1 && a.ok (.lane t.regs) .no
      && b.ok (.lane 1) .no && c.ok (.lane 1) (immIf x .w32)
  | .clmul g d a b => g.ok && d.ok 1 && a.ok (.lane 1) .no && b.ok (.lane 1) (immIf x .w32)
  | .clmulh g d a b => g.ok && d.ok 1 && a.ok (.lane 1) .no && b.ok (.lane 1) (immIf x .w32)
  | .icmp g _ t _ a b => g.ok && t.isInt && a.ok (.lane t.regs) .no && b.ok (.lane t.regs) (immIf x t.imm)
  | .sel g t d a b _ => g.ok && t.isB && d.ok t.regs && a.ok (.lane t.regs) .no && b.ok (.lane t.regs) (immIf x t.imm)
  | .lea g t d a b _ => g.ok && (t == .n64 || t == .s64) && d.ok 2 && a.ok (.lane 2) .no && b.ok (.lane 1) (immIf x .w32)
  | .mov g t d a => g.ok && (t.isB || t == .b128) && d.ok t.regs && a.ok (.lane t.regs) (immIf x t.imm)
  | .movi g t d a b => g.ok && t.isInt && d.ok t.regs && a.ok (.lane t.regs) .no && b.ok (.lane t.regs) (immIf x t.imm)
  | .fadd g t _ d a b => g.ok && t.isFP && d.ok 1 && a.ok (.lane 1) .no && b.ok (.lane 1) (immIf x t.fimm)
  | .fsub g t _ d a b => g.ok && t.isFP && d.ok 1 && a.ok (.lane 1) .no && b.ok (.lane 1) (immIf x t.fimm)
  | .fmul g t _ d a b => g.ok && t.isFP && d.ok 1 && a.ok (.lane 1) .no && b.ok (.lane 1) (immIf x t.fimm)
  | .ffma g t _ d a b c => g.ok && t.isFP && d.ok 1 && a.ok (.lane 1) .no && b.ok (.lane 1) .no && c.ok (.lane 1) (immIf x t.fimm)
  | .fmin g t d a b => g.ok && t.isFP && d.ok 1 && a.ok (.lane 1) .no && b.ok (.lane 1) (immIf x t.fimm)
  | .fmax g t d a b => g.ok && t.isFP && d.ok 1 && a.ok (.lane 1) .no && b.ok (.lane 1) (immIf x t.fimm)
  | .fcmp g _ t _ a b => g.ok && t.isF && a.ok (.lane 1) .no && b.ok (.lane 1) (immIf x t.fimm)
  | .fclass g t d a => g.ok && t.isF && d.ok 1 && a.ok (.lane 1) (immIf x t.fimm)
  | .frcp g r d a => g.ok && r != .rsr && d.ok 1 && a.ok (.lane 1) (immIf x .w32)
  | .frsq g r d a => g.ok && r != .rsr && d.ok 1 && a.ok (.lane 1) (immIf x .w32)
  | .fsqrt g _ d a => g.ok && d.ok 1 && a.ok (.lane 1) (immIf x .w32)
  | .fdiv g _ d a b => g.ok && d.ok 1 && a.ok (.lane 1) .no && b.ok (.lane 1) (immIf x .w32)
  | .fexp2 g d a => g.ok && d.ok 1 && a.ok (.lane 1) (immIf x .w32)
  | .flog2 g d a => g.ok && d.ok 1 && a.ok (.lane 1) (immIf x .w32)
  | .fsin g d a => g.ok && d.ok 1 && a.ok (.lane 1) (immIf x .w32)
  | .fcos g d a => g.ok && d.ok 1 && a.ok (.lane 1) (immIf x .w32)
  | .ftanh g d a => g.ok && d.ok 1 && a.ok (.lane 1) (immIf x .w32)
  | .fsigm g d a => g.ok && d.ok 1 && a.ok (.lane 1) (immIf x .w32)
  | .fscale g t _ d a b => g.ok && t.isF && d.ok 1 && a.ok (.lane 1) .no && b.ok (.lane 1) (immIf x .w32)
  | .frnd g t r d a => g.ok && t.isF && r != .rsr && d.ok 1 && a.ok (.lane 1) (immIf x t.fimm)
  | .fcopys g t d a b => g.ok && t.isFP && d.ok 1 && a.ok (.lane 1) .no && b.ok (.lane 1) (immIf x t.fimm)
  | .cvt g res op r nan sat d a b => g.ok && cvtOk res op r nan sat && d.ok res.regs && (match b with
      | none => !res.isPacked && a.ok (.lane op.regs) (immIf x op.imm)
      | some b => res.isPacked && a.ok (.lane 1) .no && b.ok (.lane 1) (immIf x .w32))
  | .qgrp g e op _ d a => g.ok && e.isElem && op.isWide && d.ok 1 && a.ok (.lane 1) (immIf x op.imm)
  | .dqgrp g res e d a => g.ok && res.isWide && e.isElem && d.ok 1 && a.ok (.lane 1) (immIf x e.imm)
  | .pkparcel g e d q grp => g.ok && e.isElem && d.ok 1 && q.ok (.lane 1) .no && decide (grp.toNat < e.groups)
  | .unparcel g e d img grp => g.ok && e.isElem && d.ok 1 && img.ok (.lane 1) .no && decide (grp.toNat < e.groups)
  | .planes g d a _ => g.ok && d.ok 2 && a.ok (.lane 1) .no
  | .shfl g _ t d a b => g.ok && t.isB && d.ok t.regs && a.ok (.lane t.regs) .no && b.ok (.lane 1) (immIf x .w32)
  | .vote g m _ => g.ok && (match m with | .ballot d => d.ok 2 | _ => true)
  | .matchv g m t a => g.ok && t.isB && a.ok (.lane t.regs) (immIf x t.imm) && (match m with | .any d => d.ok 2 | _ => true)
  | .scan g op t _ d a => g.ok && foldTy op t && (op == .add || op == .xor || op == .min || op == .max)
      && d.ok t.regs && a.ok (.lane t.regs) (immIf x t.imm)
  | .red g op t d a => g.ok && foldTy op t && d.ok t.regs && a.ok (.lane t.regs) (immIf x t.imm)
  | .topk g d a b k => g.ok && d != .none && d.ok 2 && a.ok (.lane 1) .no && b.ok (.lane 1) .no && k.ok kOrInl (immIf x .w32)
  | .ld g t kd sc d base off => g.ok && t.isMem && kindOk ldKinds allScopes kd sc && d.ok t.regs
      && base.ok .base64 .no && off.ok anyInl .w64
  | .lds g t kd sc d base off => g.ok && t.isMem && kindOk ldKinds [.blk] kd sc && d.ok t.regs
      && base.ok .base32 .no && off.ok anyInl .w32
  | .ldc g t kd sc d base c off => g.ok && t.isMem && kindOk ldKinds [.clu] kd sc && d.ok t.regs
      && base.ok .base32 .no && c.ok (.kInl 0 15) .no && off.ok (.inl 0 0) .w32
  | .ldk g t _ d _ off => g.ok && t.isMem && d.ok t.regs && off.ok anyInl .w64
  | .st g t kd sc base off data => g.ok && t.isMem && kindOk stKinds allScopes kd sc
      && base.ok .base64 .no && off.ok anyInl .w64 && data.ok (.lane t.regs) .no
  | .sts g t kd sc base off data => g.ok && t.isMem && kindOk stKinds [.blk] kd sc
      && base.ok .base32 .no && off.ok anyInl .w32 && data.ok (.lane t.regs) .no
  | .stc g t kd sc base c data off => g.ok && t.isMem && kindOk stKinds [.clu] kd sc
      && base.ok .base32 .no && c.ok (.kInl 0 15) .no && data.ok (.lane t.regs) .no && off.ok (.inl 0 0) .w32
  | .stk g t kd sc _ off data => g.ok && t.isMem && kindOk stKinds allScopes kd sc
      && off.ok anyInl .w64 && data.ok (.lane t.regs) .no
  | .ldq g t d base off ter dm1 grp => g.ok && (t == .f32 || t == .bf16) && d.ok 1 && base.ok .base32 .no
      && off.ok anyInl .w32 && (ter || dm1 == 0) && decide (grp.toNat ≤ 39)
  | .pfetch g base off => g.ok && base.ok .base64 .no && off.ok anyInl .w64
  | .atom g _ w _ _ d base off v => g.ok && d.ok (if w then 2 else 1) && base.ok .base64 .no && off.ok anyInl .w64
      && v.ok (.lane (if w then 2 else 1)) .no
  | .atoms g _ w _ d base off v => g.ok && d.ok (if w then 2 else 1) && base.ok .base32 .no && off.ok anyInl .w32
      && v.ok (.lane (if w then 2 else 1)) .no
  | .atomcas g w _ _ d base cmp new off => g.ok && d.ok (if w then 2 else 1) && base.ok .base64 .no
      && cmp.ok (.lane (if w then 2 else 1)) .no && new.ok (.lane (if w then 2 else 1)) .no && off.ok (.inl 0 0) .w64
  | .atomscas g w _ d base cmp new off => g.ok && d.ok (if w then 2 else 1) && base.ok .base32 .no
      && cmp.ok (.lane (if w then 2 else 1)) .no && new.ok (.lane (if w then 2 else 1)) .no && off.ok (.inl 0 0) .w32
  | .atomf g _ _ _ d base off v => g.ok && d.ok 1 && base.ok .base64 .no && off.ok anyInl .w64 && v.ok (.lane 1) .no
  | .wsig g w _ base data gaddr off => g.ok && base.ok .base64 .no && data.ok (.lane (if w then 2 else 1)) .no
      && gaddr.ok .base64 .no && off.ok (.inl 0 0) .w32
  | .mldw g m => g.ok && (match m with
      | .bare f _ => f.isBareW
      | .par f _ => f.isParM
      | .ter _ tp _ => tp.ok .k .w32)
  | .mswap g => g.ok
  | .mstr g par f _ va _ => g.ok && (if par then f.isParM else f.isBareA) && va.ok (.vo 2) .no
  | .mzero g _ _ => g.ok
  | .mdrain g _ _ f _ _ pitch _ => g.ok && f.isDrain && pitch.ok kOrInl .w32
  | .mgateTake g => g.ok
  | .mgateTry g _ => g.ok
  | .mgateGive g => g.ok
  | .mcoop g _ shape _ => g.ok && shape.ok (.kInl 0 15) .no
  | .mcoopClr g => g.ok
  | .mrestart g d => g.ok && dispOk d
  | .mend g => g.ok
  | .mstatSt g _ => g.ok
  | .mstatAcc g _ _ pos => g.ok && (match pos with
      | .imm w => decide (w.toNat % 256 < 128) && decide (w.toNat / 256 < 192)
      | s => s.ok .k .no)
  | .mstatBal g _ => g.ok
  | .scopy g _ _ _ _ _ _ kn => g.ok && kn.toNat % 8 == 0
  | .sgather g _ _ _ _ _ _ kn => g.ok && kn.toNat % 8 == 0
  | .sscatter g _ _ _ _ _ _ kn => g.ok && kn.toNat % 8 == 0
  | .sfill g _ _ _ _ _ kn => g.ok && kn.toNat % 8 == 0
  | .pushq g _ gang ks => g.ok && gang.ok (.kInl 0 31) .no && ks.ok kOrInl .no
  | .popq g _ _ => g.ok
  | .setgs g _ _ => g.ok
  | .setgsClr g _ => g.ok
  | .loopk g _ d => g.ok && dispOk d
  | .barinit g b m => g.ok && b.ok kOrInl .no && (match m with | .counted n => n.ok kOrInl .no | _ => true)
  | .bararr g _ b n => g.ok && b.ok kOrInl .no && n.ok (.kInl 0 127) .no
  | .barexp g b n => g.ok && b.ok kOrInl .no && n.ok kOrInl .w32
  | .barwait g b _ => g.ok && b.ok kOrInl .no
  | .gaugeadd g sc _ n => g.ok && sc != .none && n.ok kOrInl .w32
  | .gaugewait g sc _ n => g.ok && sc != .none && n.ok kOrInl .w32
  | .mbsend g t ks => g.ok && t.ok (.kInl 0 127) .w32 && ks.ok kOrInl .no
  | .mbsendTry g _ t ks => g.ok && t.ok (.kInl 0 127) .w32 && ks.ok kOrInl .no
  | .mbrecv g _ m => g.ok && m.ok (.kInl 0 31) .no
  | .kmov g t _ a => g.ok && t.isInt && a.ok kOrInl .no
  | .kmovi g t hi _ a => g.ok && t.isB && (if hi then a.ok (.inl 0 (-1)) .w32 else a.ok anyInl t.imm)
  | .kadd g t _ _ a b => g.ok && t.isInt && a.ok kOrInl .no && b.ok kOrInl (immIf x t.imm)
  | .ksub g t _ _ a b => g.ok && t.isInt && a.ok kOrInl .no && b.ok kOrInl (immIf x t.imm)
  | .kmul g t _ a b => g.ok && t.isInt && a.ok kOrInl .no && b.ok kOrInl (immIf x t.imm)
  | .kmad g t _ _ a b c => g.ok && t.isInt && a.ok kOrInl .no && b.ok kOrInl .no && c.ok kOrInl (immIf x t.imm)
  | .kand g t _ a b => g.ok && t.isInt && a.ok kOrInl .no && b.ok kOrInl (immIf x t.imm)
  | .kor g t _ a b => g.ok && t.isInt && a.ok kOrInl .no && b.ok kOrInl (immIf x t.imm)
  | .kxor g t _ a b => g.ok && t.isInt && a.ok kOrInl .no && b.ok kOrInl (immIf x t.imm)
  | .kshl g t _ a b => g.ok && t.isInt && a.ok kOrInl .no && b.ok kOrInl (immIf x t.imm)
  | .kshr g t _ a b => g.ok && t.isInt && a.ok kOrInl .no && b.ok kOrInl (immIf x t.imm)
  | .ksar g t _ a b => g.ok && t.isInt && a.ok kOrInl .no && b.ok kOrInl (immIf x t.imm)
  | .kmin g t _ a b => g.ok && t.isInt && a.ok kOrInl .no && b.ok kOrInl (immIf x t.imm)
  | .kmax g t _ a b => g.ok && t.isInt && a.ok kOrInl .no && b.ok kOrInl (immIf x t.imm)
  | .kcmp g _ t _ a b => g.ok && t.isInt && a.ok kOrInl .no && b.ok kOrInl (immIf x t.imm)
  | .ksel g t _ a b _ => g.ok && t.isInt && a.ok kOrInl .no && b.ok kOrInl (immIf x t.imm)
  | .kld g t _ _ off => g.ok && t.isKMem && off.ok anyInl .w64
  | .kst g t _ off ks => g.ok && t.isKMem && off.ok anyInl .w64 && ks.ok kOrInl .no
  | .kreadlane g t _ a n => g.ok && t.isInt && a.ok (.vo t.regs) .no && n.ok (.kInl 0 63) .w32
  | .kbcast g t d a => g.ok && t.isInt && d.ok t.regs && a.ok kOrInl t.imm
  | .fork g _ _ => g.ok
  | .join g _ t => g.ok && t.ok (.kInl 0 127) .w32
  | .abandon g => g.ok
  | .viewInfo g _ => g.ok
  | .viewAddr g _ _ off => g.ok && off.ok anyInl .w32
  | .range g _ => g.ok
  | .launch g _ => g.ok
  | .rqalloc g _ _ => g.ok
  | .rqallocTry g _ _ => g.ok
  | .rqcommit g _ _ key => g.ok && key.ok kOrInl .no
  | .rqclose g _ => g.ok
  | .pair _ _ => false
  | .issueCycle .. | .entryStarved .. | .feederIssue .. | .activeSetSwap .. | .loadComplete ..
  | .storePerformed .. | .atomicPerformed .. | .wsigSignal .. | .mwaitWake .. | .walkComplete ..
  | .commandStart .. | .pieceDelivered .. | .commandComplete .. | .commandDiscarded ..
  | .barwaitResume .. | .gaugewaitResume .. | .mbrecvResume .. | .mbsendAppend .. | .popqResume ..
  | .pushqAppend .. | .eventDispatch .. | .gateGrant .. | .growGrant .. | .poolStandstillEvict ..
  | .mdrainComplete .. | .blockEnd .. | .prefixStep .. | .slotGrant .. | .forkRollback ..
  | .contributionArrival .. | .sliceBroadcast .. | .dispatch .. | .weirInterval ..
  | .recordQueueLaunch .. | .recordQueueTimer .. | .rqallocResume .. | .gridRetire ..
  | .asyncFaultTaken .. | .dumpWrite .. | .preemptStop .. | .preemptSave .. | .restore ..
  | .checksumArrival .. | .samplePeriod .. | .scrubPeriod .. | .uncorrectableError .. | .hostRead ..
  | .hostWrite .. | .remoteAccess .. | .launchPacket .. | .forkchipOpen .. | .forkchipCancel ..
  | .levelPacket .. | .levelChange .. | .fencePacket .. | .gwait .. | .gadd .. | .captureStart ..
  | .captureStop .. | .regionPacket .. | .regionRoot .. | .powerPacket .. | .queueTailWrite ..
  | .queueRestart .. | .queueSkip .. | .ctxCreate .. | .ctxDestroy .. | .ctxReset .. | .mapPages ..
  | .unmapPages .. | .queueBind .. | .preempt .. | .resume .. | .importImages .. | .query ..
  | .debugMode .. | .peerEntry .. | .setReservoir .. | .setScrubPeriod .. | .setRiseLimit ..
  | .setFallLimit .. | .setAgingThreshold .. | .setPowerState .. | .setErrorLogRing ..
  | .setErrorLogEntries .. | .fwStage .. | .getVersion .. | .getCapabilities .. | .negotiateAlgorithms ..
  | .getDigests .. | .getCertificate .. | .challenge .. | .getMeasurements .. | .keyExchange ..
  | .finish .. | .keyUpdate .. | .heartbeat .. | .endSession .. | .keyLoad .. | .keyGrant ..
  | .keyRemove .. | .deviceReset .. | .thermalTrip .. | .powerStateChange .. | .vfLeavesRun ..
  | .linkTagFail .. | .linkPortDown .. | .linkRekey .. | .correctedError .. | .linkPortReturn ..
  | .linkCheckReplay .. | .powerRemoval .. | .instructionFetchComplete .. | .vfEntersRun .. => true

/-- The guard of an operation that may stand in a pair, and whether it is a lane operation (majors 0x20 to
0x7F) or a uniform one (0xC0, 0xC2 to 0xCF) (R37). -/
def Instr.pairLane : Instr → Option Guard
  | .iadd g .. | .isub g .. | .iadd3 g .. | .imul g .. | .imulh g .. | .imad g .. | .idiv g ..
  | .irem g .. | .imin g .. | .imax g .. | .iabs g .. | .ineg g .. | .and g .. | .or g .. | .xor g ..
  | .andn g .. | .not g .. | .shl g .. | .shr g .. | .sar g .. | .rot g .. | .fshl g .. | .popc g ..
  | .clz g .. | .ctz g .. | .brev g .. | .bfe g .. | .bfi g .. | .prmb g .. | .bmask g .. | .clmul g ..
  | .clmulh g .. | .icmp g .. | .sel g .. | .lea g .. | .mov g .. | .movi g .. | .fadd g .. | .fsub g ..
  | .fmul g .. | .ffma g .. | .fmin g .. | .fmax g .. | .fcmp g .. | .fclass g .. | .frcp g ..
  | .frsq g .. | .fsqrt g .. | .fdiv g .. | .fexp2 g .. | .flog2 g .. | .fsin g .. | .fcos g ..
  | .ftanh g .. | .fsigm g .. | .fscale g .. | .frnd g .. | .fcopys g .. | .cvt g .. | .qgrp g ..
  | .dqgrp g .. | .pkparcel g .. | .unparcel g .. | .planes g .. | .shfl g .. | .vote g .. | .matchv g ..
  | .scan g .. | .red g .. | .topk g .. => some g
  | _ => none
def Instr.pairUni : Instr → Option Guard
  | .kmov g .. | .kadd g .. | .ksub g .. | .kmul g .. | .kmad g .. | .kand g .. | .kor g .. | .kxor g ..
  | .kshl g .. | .kshr g .. | .ksar g .. | .kmin g .. | .kmax g .. | .kcmp g .. | .ksel g .. => some g
  | _ => none

/-- Every well-formed instruction: a pair joins a lane and a uniform operation without immediates, under
the one guard that its base word holds (R37). -/
def Instr.wf : Instr → Bool
  | .pair l u => l.pairLane.isSome && l.pairLane == u.pairUni && l.wf1 false && u.wf1 false
  | i => i.wf1 true

end Sys2Proof
end

