-- ==== Sys2Proof/Decode.lean ====
section
/-! DEFINITION. Decode.lean: from bits to an instruction or the illegal-instruction cause (02 R29 to R44),
and the encoder from the same encodings. A decoder answers with the list of causes it met: all zero means
legal, otherwise the least nonzero one is reported (R44). -/

namespace Sys2Proof

/-! ### Fields -/

/-- The fields of a base word above its length (R31). -/
structure Raw where
  func : BitVec 10
  c : BitVec 10
  b : BitVec 10
  a : BitVec 10
  ws : BitVec 1
  dst : BitVec 9
  guard : BitVec 4
  major : BitVec 8
  deriving DecidableEq, Repr

/-- The base word of the fields and a length code. -/
def Raw.pack (r : Raw) (len : BitVec 2) : BitVec 64 :=
  r.func ++ r.c ++ r.b ++ r.a ++ r.ws ++ r.dst ++ r.guard ++ r.major ++ len

/-- The fields of a word. -/
def Raw.unpack (w : BitVec 64) : Raw where
  func := w.extractLsb' 54 10
  c := w.extractLsb' 44 10
  b := w.extractLsb' 34 10
  a := w.extractLsb' 24 10
  ws := w.extractLsb' 23 1
  dst := w.extractLsb' 14 9
  guard := w.extractLsb' 10 4
  major := w.extractLsb' 2 8

/-- What follows the base word (R29, R36, R37); `bad`: a second word with bits [1:0] 01 or 10. -/
inductive Ext where
  | none
  | imm32 (w : BitVec 32)
  | imm62 (w : BitVec 62)
  | pair (r : Raw)
  | bad
  deriving DecidableEq, Repr

/-- An instruction's fields: base word and what follows. -/
structure Enc where
  base : Raw
  ext : Ext
  deriving DecidableEq, Repr

/-- Length in bytes. -/
def Ext.bytes : Ext → Nat
  | .none => 8
  | .imm32 _ => 12
  | _ => 16

/-- Length code (R29). -/
def Ext.len : Ext → BitVec 2
  | .none => 0
  | .imm32 _ => 1
  | _ => 2

/-- What a decoder found. -/
structure Dec where
  instr : Instr
  causes : List Nat
  deriving DecidableEq, Repr

/-- The least nonzero number of a list, 0 when all are zero. -/
def leastCause : List Nat → Nat
  | [] => 0
  | c :: cs =>
    let r := leastCause cs
    if c = 0 then r else if r = 0 then c else min c r

/-- Cause `c` unless the check holds. -/
def need (ok : Bool) (c : Nat) : Nat := if ok then 0 else c

/-! ### Codes (R40 to R42) -/

def LaneTy.code : LaneTy → BitVec 4
  | .n32 => 0 | .s32 => 1 | .n64 => 2 | .s64 => 3 | .f32 => 4 | .f16 => 5 | .bf16 => 6 | .f16x2 => 7
  | .bf16x2 => 8 | .n8 => 9 | .s8 => 10 | .n16 => 11 | .s16 => 12 | .b128 => 13

def LaneTy.ofCode (c : BitVec 4) : Option LaneTy :=
  match c.toNat with
  | 0 => some .n32 | 1 => some .s32 | 2 => some .n64 | 3 => some .s64 | 4 => some .f32 | 5 => some .f16
  | 6 => some .bf16 | 7 => some .f16x2 | 8 => some .bf16x2 | 9 => some .n8 | 10 => some .s8
  | 11 => some .n16 | 12 => some .s16 | 13 => some .b128 | _ => Option.none

def Fmt.code : Fmt → BitVec 5
  | .n8 => 0 | .s8 => 1 | .n16 => 2 | .s16 => 3 | .n32 => 4 | .s32 => 5 | .n64 => 6 | .s64 => 7 | .f32 => 8
  | .f16 => 9 | .bf16 => 10 | .e4m3 => 11 | .e5m2 => 12 | .e3m2 => 13 | .e2m3 => 14 | .e2m1 => 15 | .s4 => 16
  | .bf16x2 => 17 | .f16x2 => 18 | .parcel => 19 | .terrace => 20

def Fmt.ofCode (c : BitVec 5) : Option Fmt :=
  match c.toNat with
  | 0 => some .n8 | 1 => some .s8 | 2 => some .n16 | 3 => some .s16 | 4 => some .n32 | 5 => some .s32
  | 6 => some .n64 | 7 => some .s64 | 8 => some .f32 | 9 => some .f16 | 10 => some .bf16 | 11 => some .e4m3
  | 12 => some .e5m2 | 13 => some .e3m2 | 14 => some .e2m3 | 15 => some .e2m1 | 16 => some .s4
  | 17 => some .bf16x2 | 18 => some .f16x2 | 19 => some .parcel | 20 => some .terrace | _ => Option.none

def Rnd.code : Rnd → BitVec 3
  | .rne => 0 | .rz => 1 | .rdn => 2 | .rup => 3 | .rna => 4 | .rsr => 5

def Rnd.ofCode (c : BitVec 3) : Option Rnd :=
  match c.toNat with
  | 0 => some .rne | 1 => some .rz | 2 => some .rdn | 3 => some .rup | 4 => some .rna | 5 => some .rsr
  | _ => Option.none

def Scope.code : Scope → BitVec 3
  | .none => 0 | .blk => 1 | .clu => 2 | .die => 3 | .dev => 4 | .sys => 5

def Scope.ofCode (c : BitVec 3) : Option Scope :=
  match c.toNat with
  | 0 => some .none | 1 => some .blk | 2 => some .clu | 3 => some .die | 4 => some .dev | 5 => some .sys
  | _ => Option.none

def Kind.code : Kind → BitVec 3
  | .weak => 0 | .strong => 1 | .acq => 2 | .rel => 3

def Kind.ofCode (c : BitVec 3) : Option Kind :=
  match c.toNat with
  | 0 => some .weak | 1 => some .strong | 2 => some .acq | 3 => some .rel | _ => Option.none

def ICond.code : ICond → BitVec 4
  | .eq => 0 | .ne => 1 | .lt => 2 | .le => 3 | .gt => 4 | .ge => 5

def ICond.ofCode (c : BitVec 4) : Option ICond :=
  match c.toNat with
  | 0 => some .eq | 1 => some .ne | 2 => some .lt | 3 => some .le | 4 => some .gt | 5 => some .ge
  | _ => Option.none

def FCond.code : FCond → BitVec 3
  | .eq => 0 | .ne => 1 | .lt => 2 | .le => 3 | .gt => 4 | .ge => 5 | .ord => 6 | .uno => 7

def FCond.ofCode (c : BitVec 3) : FCond :=
  match c.toNat with
  | 0 => .eq | 1 => .ne | 2 => .lt | 3 => .le | 4 => .gt | 5 => .ge | 6 => .ord | _ => .uno

def Order.code : Order → BitVec 2
  | .relaxed => 0 | .acq => 1 | .rel => 2 | .ar => 3

def Order.ofCode (c : BitVec 2) : Order :=
  match c.toNat with
  | 0 => .relaxed | 1 => .acq | 2 => .rel | _ => .ar

def ForkScope.code : ForkScope → BitVec 2
  | .block => 0 | .cluster => 1 | .die => 2 | .chip => 3

def ForkScope.ofCode (c : BitVec 2) : ForkScope :=
  match c.toNat with
  | 0 => .block | 1 => .cluster | 2 => .die | _ => .chip

def AtomOp.code : AtomOp → BitVec 4
  | .add => 0 | .smin => 1 | .smax => 2 | .and => 3 | .or => 4 | .xor => 5 | .exch => 6 | .nmin => 7 | .nmax => 8

def AtomOp.ofCode (c : BitVec 4) : Option AtomOp :=
  match c.toNat with
  | 0 => some .add | 1 => some .smin | 2 => some .smax | 3 => some .and | 4 => some .or | 5 => some .xor
  | 6 => some .exch | 7 => some .nmin | 8 => some .nmax | _ => Option.none

def AtomFOp.code : AtomFOp → BitVec 4
  | .add => 0 | .min => 1 | .max => 2

def AtomFOp.ofCode (c : BitVec 4) : Option AtomFOp :=
  match c.toNat with
  | 0 => some .add | 1 => some .min | 2 => some .max | _ => Option.none

def FoldOp.code : FoldOp → BitVec 4
  | .add => 0 | .xor => 1 | .min => 2 | .max => 3 | .and => 4 | .or => 5

def FoldOp.ofCode (c : BitVec 4) : Option FoldOp :=
  match c.toNat with
  | 0 => some .add | 1 => some .xor | 2 => some .min | 3 => some .max | 4 => some .and | 5 => some .or
  | _ => Option.none

def ShflMode.code : ShflMode → BitVec 4
  | .idx => 0 | .up => 1 | .dn => 2 | .xor => 3

def ShflMode.ofCode (c : BitVec 4) : Option ShflMode :=
  match c.toNat with
  | 0 => some .idx | 1 => some .up | 2 => some .dn | 3 => some .xor | _ => Option.none

def MaskRule.code : MaskRule → BitVec 4
  | .eq => 0 | .rng => 1 | .set => 2

def MaskRule.ofCode (c : BitVec 4) : Option MaskRule :=
  match c.toNat with
  | 0 => some .eq | 1 => some .rng | 2 => some .set | _ => Option.none

def WaitClass.code : WaitClass → BitVec 4
  | .ld => 0 | .st => 1 | .at => 2 | .dr => 3 | .all => 4

def WaitClass.ofCode (c : BitVec 4) : Option WaitClass :=
  match c.toNat with
  | 0 => some .ld | 1 => some .st | 2 => some .at | 3 => some .dr | 4 => some .all | _ => Option.none

def RngForm.code : RngForm → BitVec 4
  | .b32 => 0 | .b64 => 1 | .b128 => 2 | .f32 => 3

def RngForm.ofCode (c : BitVec 4) : Option RngForm :=
  match c.toNat with
  | 0 => some .b32 | 1 => some .b64 | 2 => some .b128 | 3 => some .f32 | _ => Option.none

def FenceKind.code : FenceKind → BitVec 4
  | .acq => 0 | .rel => 1 | .ar => 2

def FenceKind.ofCode (c : BitVec 4) : Option FenceKind :=
  match c.toNat with
  | 0 => some .acq | 1 => some .rel | 2 => some .ar | _ => Option.none

/-- The code read with its type check: cause 3 for an unlisted one. -/
def rd {α : Type} (o : Option α) (dflt : α) (ok : α → Bool := fun _ => true) : α × Nat :=
  match o with
  | some x => (x, need (ok x) 3)
  | Option.none => (dflt, 3)

/-! ### Operand fields -/

def Guard.code (g : Guard) : BitVec 4 := (if g.neg then 1#1 else 0#1) ++ g.idx

/-- R32. -/
def rdGuard (c : BitVec 4) : Guard × Nat :=
  (⟨c.extractLsb' 3 1 == 1, c.extractLsb' 0 3⟩, need (c != 15) 9)

def PSel.code (p : PSel) : BitVec 10 := 0#6 ++ (if p.neg then 1#1 else 0#1) ++ p.idx

/-- A control field naming a predicate (R211, R226, R231). -/
def rdPSel (c : BitVec 10) : PSel × Nat :=
  (⟨c.extractLsb' 3 1 == 1, c.extractLsb' 0 3⟩, need (c.extractLsb' 4 6 == 0) 6)

/-- Source code of R34; an immediate leaves the field zero (R36). -/
def Src.code : Src → BitVec 10
  | .v i => 0#2 ++ i
  | .o i => 32#7 ++ i
  | .l i => 66#8 ++ i
  | .k i => 8#4 ++ i
  | .inl i => 3#2 ++ i
  | .imm _ => 0
  | .imm62 _ => 0

/-- The operand that a code of R34 names. -/
def Src.ofCode (c : BitVec 10) : Option Src :=
  if c.extractLsb' 8 2 == 0 then some (.v (c.extractLsb' 0 8))
  else if c.extractLsb' 8 2 == 3 then some (.inl (c.extractLsb' 0 8))
  else if c.extractLsb' 6 4 == 8 then some (.k (c.extractLsb' 0 6))
  else if c.extractLsb' 3 7 == 32 then some (.o (c.extractLsb' 0 3))
  else if c.extractLsb' 2 8 == 66 then some (.l (c.extractLsb' 0 2))
  else Option.none

/-- The operand is of a space that the class accepts, whatever its alignment. -/
def SrcCls.space : SrcCls → Src → Bool
  | .lane _, .v _ => true
  | .lane _, .o _ => true
  | .vo _, .v _ => true
  | .vo _, .o _ => true
  | .base64, .v _ => true
  | .target, .v _ => true
  | .target, .o _ => true
  | c, s => c.accepts s

/-- A source field without immediate: cause 4 for a code or space outside the class, 8 for alignment. -/
def rdSrc (cls : SrcCls) (raw : BitVec 10) : Src × Nat :=
  match Src.ofCode raw with
  | some s => (s, if cls.space s then need (cls.accepts s) 8 else 4)
  | Option.none => (.v 0, 4)

/-- A source field whose operand an immediate may replace (R36). -/
def rdSlot (cls : SrcCls) (t : ImmTy) (e : Ext) (raw : BitVec 10) : Src × Nat :=
  match e with
  | .none => rdSrc cls raw
  | .imm32 w => (.imm w, leastCause [need (raw == 0) 6,
      if t == .no then 3 else need (t.accepts (.imm w)) 6])
  | .imm62 w => (.imm62 w, leastCause [need (raw == 0) 6, need (t == .w64) 3])
  | _ => (.v 0, if t == .w64 then 10 else 3)

/-- An offset that only an immediate can carry; 0 in the 64-bit form (R199). -/
def rdOff (t : ImmTy) (e : Ext) : Src × Nat :=
  match e with
  | .none => (.inl 0, 0)
  | e => rdSlot (.inl 0 0) t e 0

/-- An entry without extended forms. -/
def noExt (e : Ext) : Nat := need (e == .none) 3

/-- An entry that is always 96-bit with a displacement (R300). -/
def rdDisp (e : Ext) : BitVec 32 × Nat :=
  match e with
  | .imm32 w => (w, need (dispOk w) 6)
  | _ => (0, 3)

/-- A lane destination of n words (R33). -/
def rdDst (n : Nat) (r : Raw) : Dst × Nat :=
  if r.ws == 1 then (.none, need (r.dst == 0) 5)
  else if r.dst.extractLsb' 8 1 == 0 then
    (.v (r.dst.extractLsb' 0 8), need ((r.dst.extractLsb' 0 8).toNat % n == 0) 8)
  else if r.dst.extractLsb' 3 5 == 0 then
    (.o (r.dst.extractLsb' 0 3), need ((r.dst.extractLsb' 0 3).toNat % n == 0) 8)
  else (.o 0, 5)

/-- A uniform destination. -/
def rdKd (r : Raw) : BitVec 6 × Nat :=
  (r.dst.extractLsb' 0 6, need (r.ws == 0 && r.dst.extractLsb' 6 3 == 0) 5)

/-- A predicate destination. -/
def rdPd (r : Raw) : BitVec 3 × Nat :=
  (r.dst.extractLsb' 0 3, need (r.ws == 0 && r.dst.extractLsb' 3 6 == 0) 5)

/-- No destination. -/
def noDst (r : Raw) : Nat := need (r.ws == 0 && r.dst == 0) 5

/-- A field that must be zero. -/
def z {n : Nat} (x : BitVec n) : Nat := need (x == 0) 6

/-- A k register that stands alone. -/
def rdK (raw : BitVec 10) : BitVec 6 × Nat :=
  (raw.extractLsb' 0 6, need (raw.extractLsb' 6 4 == 8) 4)

/-- The first register of a shape block: a multiple of 8 (R163). -/
def rdKn (raw : BitVec 10) : BitVec 6 × Nat :=
  (raw.extractLsb' 0 6, if raw.extractLsb' 6 4 == 8 then need (raw.extractLsb' 0 3 == 0) 8 else 4)

/-- An inline integer of n ≤ 8 bits that stands alone, with the cause of any other inline value. -/
def rdInl (n : Nat) (raw : BitVec 10) (c : Nat) : BitVec n × Nat :=
  (raw.extractLsb' 0 n, if raw.extractLsb' 8 2 == 3 then need ((raw.extractLsb' 0 8).toNat < 2 ^ n) c else 4)

/-! ### Function fields -/

def Raw.f4 (r : Raw) : BitVec 4 := r.func.extractLsb' 6 4
def Raw.f6 (r : Raw) : BitVec 6 := r.func.extractLsb' 0 6
def Raw.ity (r : Raw) : BitVec 4 := r.func.extractLsb' 2 4
def Raw.opt (r : Raw) : BitVec 2 := r.func.extractLsb' 0 2

/-- Function field from the four subop bits and the rest. -/
def fn46 (s : BitVec 4) (x : BitVec 6) : BitVec 10 := s ++ x
/-- Integer layout: subop, type, options (R39). -/
def fnInt (s : BitVec 4) (t : LaneTy) (sat : Bool) : BitVec 10 := s ++ t.code ++ (if sat then 1#2 else 0#2)
/-- Float layout. -/
def fnFlt (s : BitVec 3) (t : LaneTy) (r : Rnd) : BitVec 10 := s ++ t.code ++ r.code
/-- Conversion layout. -/
def fnCvt (f : Fmt) (r : Rnd) (nan sat : Bool) : BitVec 10 :=
  f.code ++ r.code ++ (if nan then 1#1 else 0#1) ++ (if sat then 1#1 else 0#1)
/-- Loads and stores layout. -/
def fnMem (t : LaneTy) (k : Kind) (s : Scope) : BitVec 10 := t.code ++ k.code ++ s.code
/-- Atomics layout. -/
def fnAtom (op : BitVec 4) (w : Bool) (o : Order) (s : Scope) : BitVec 10 :=
  op ++ (if w then 1#1 else 0#1) ++ o.code ++ s.code
/-- Matrix layout. -/
def fnMat (s : BitVec 4) (f : BitVec 5) (bank : Bool) : BitVec 10 := s ++ f ++ (if bank then 1#1 else 0#1)
/-- Streamer layout: the subop bits, tag and channel. -/
def fnStr (s : BitVec 4) (tag : Option (BitVec 3)) (ch : BitVec 2) : BitVec 10 :=
  s ++ (match tag with | some g => 1#1 ++ g | Option.none => 0#4) ++ ch
/-- Synchronisation layout. -/
def fnSync (s : BitVec 4) (sc : Scope) (o : BitVec 3) : BitVec 10 := s ++ sc.code ++ o

/-- Integer layout read: type, .sat and the cause, given the accepted types and whether .sat exists. -/
def rdFInt (r : Raw) (types : LaneTy → Bool) (satOk : Bool) : LaneTy × Bool × Nat :=
  let t := rd (LaneTy.ofCode r.ity) .n32 types
  (t.1, r.opt.extractLsb' 0 1 == 1, leastCause [t.2, need (r.opt.extractLsb' 1 1 == 0) 6,
    need (satOk || r.opt.extractLsb' 0 1 == 0) 6])

/-- Float layout read: type, rounding and cause. -/
def rdFFlt (r : Raw) (types : LaneTy → Bool) (rnds : Rnd → Bool) : LaneTy × Rnd × Nat :=
  let t := rd (LaneTy.ofCode (r.func.extractLsb' 3 4)) .f32 types
  let m := rd (Rnd.ofCode (r.func.extractLsb' 0 3)) .rne rnds
  (t.1, m.1, leastCause [t.2, m.2])

def isRne : Rnd → Bool
  | .rne => true
  | _ => false
def notRsr : Rnd → Bool
  | .rsr => false
  | _ => true
def isF32 : LaneTy → Bool
  | .f32 => true
  | _ => false
def anyRnd : Rnd → Bool := fun _ => true

/-- Memory layout read: width, kind, scope and cause. -/
def rdFMem (r : Raw) (ks : List Kind) (scs : List Scope) : LaneTy × Kind × Scope × Nat :=
  let t := rd (LaneTy.ofCode r.f4) .n32 LaneTy.isMem
  let k := rd (Kind.ofCode (r.func.extractLsb' 3 3)) .weak
  let s := rd (Scope.ofCode (r.func.extractLsb' 0 3)) .none
  (t.1, k.1, s.1, leastCause [t.2, k.2, s.2, need (kindOk ks scs k.1 s.1) 3])

/-- Atomics layout read, the operation apart. -/
def rdFAtom (r : Raw) : Bool × Order × Scope × Nat :=
  let s := rd (Scope.ofCode (r.func.extractLsb' 0 3)) .none
  (r.func.extractLsb' 5 1 == 1, Order.ofCode (r.func.extractLsb' 3 2), s.1, s.2)

/-- Streamer layout read: tag, channel, cause. -/
def rdFStr (r : Raw) : Option (BitVec 3) × BitVec 2 × Nat :=
  let tagged := r.func.extractLsb' 5 1 == 1
  (if tagged then some (r.func.extractLsb' 2 3) else Option.none, r.func.extractLsb' 0 2,
    need (tagged || r.func.extractLsb' 2 3 == 0) 6)

/-! ### Shapes -/

/-- d, a, b with the immediate in b, integer layout. -/
def shI2 (r : Raw) (e : Ext) (types : LaneTy → Bool) (satOk : Bool) (nd : LaneTy → Nat) (ca cb : LaneTy → SrcCls)
    (ib : LaneTy → ImmTy) (mk : LaneTy → Bool → Dst → Src → Src → Instr) : Dec :=
  let f := rdFInt r types satOk
  let d := rdDst (nd f.1) r
  let a := rdSrc (ca f.1) r.a
  let b := rdSlot (cb f.1) (ib f.1) e r.b
  ⟨mk f.1 f.2.1 d.1 a.1 b.1, [f.2.2, d.2, a.2, b.2, z r.c]⟩

/-- d, a, b, c with the immediate in c, integer layout. -/
def shI3 (r : Raw) (e : Ext) (types : LaneTy → Bool) (satOk : Bool) (nd : LaneTy → Nat) (ca cb cc : LaneTy → SrcCls)
    (ic : LaneTy → ImmTy) (mk : LaneTy → Bool → Dst → Src → Src → Src → Instr) : Dec :=
  let f := rdFInt r types satOk
  let d := rdDst (nd f.1) r
  let a := rdSrc (ca f.1) r.a
  let b := rdSrc (cb f.1) r.b
  let c := rdSlot (cc f.1) (ic f.1) e r.c
  ⟨mk f.1 f.2.1 d.1 a.1 b.1 c.1, [f.2.2, d.2, a.2, b.2, c.2]⟩

/-- d, a with the immediate in a, integer layout. -/
def shI1 (r : Raw) (e : Ext) (types : LaneTy → Bool) (satOk : Bool) (nd : LaneTy → Nat)
    (mk : LaneTy → Bool → Dst → Src → Instr) : Dec :=
  let f := rdFInt r types satOk
  let d := rdDst (nd f.1) r
  let a := rdSlot (.lane f.1.regs) f.1.imm e r.a
  ⟨mk f.1 f.2.1 d.1 a.1, [f.2.2, d.2, a.2, z r.b, z r.c]⟩

/-- d, a, b, float layout. -/
def shF2 (r : Raw) (e : Ext) (types : LaneTy → Bool) (rnds : Rnd → Bool) (ib : LaneTy → ImmTy)
    (mk : LaneTy → Rnd → Dst → Src → Src → Instr) : Dec :=
  let f := rdFFlt r types rnds
  let d := rdDst 1 r
  let a := rdSrc (.lane 1) r.a
  let b := rdSlot (.lane 1) (ib f.1) e r.b
  ⟨mk f.1 f.2.1 d.1 a.1 b.1, [need (r.func.extractLsb' 7 3 == 0) 3, f.2.2, d.2, a.2, b.2, z r.c]⟩

/-- d, a, float layout. -/
def shF1 (r : Raw) (e : Ext) (types : LaneTy → Bool) (rnds : Rnd → Bool)
    (mk : LaneTy → Rnd → Dst → Src → Instr) : Dec :=
  let f := rdFFlt r types rnds
  let d := rdDst 1 r
  let a := rdSlot (.lane 1) f.1.fimm e r.a
  ⟨mk f.1 f.2.1 d.1 a.1, [need (r.func.extractLsb' 7 3 == 0) 3, f.2.2, d.2, a.2, z r.b, z r.c]⟩

/-- kd, a, b with the immediate in b, uniform group. DESIGN CHOICE (log 17): R231 reads the amount of KSHL, KSHR and KSAR as n64
and R36 speaks of a 64-bit operation type; of a 32-bit type they take no 128-bit immediate. -/
def shK2 (r : Raw) (e : Ext) (satOk : Bool) (mk : LaneTy → Bool → BitVec 6 → Src → Src → Instr) : Dec :=
  let f := rdFInt r LaneTy.isInt satOk
  let d := rdKd r
  let a := rdSrc kOrInl r.a
  let b := rdSlot kOrInl f.1.imm e r.b
  ⟨mk f.1 f.2.1 d.1 a.1 b.1, [f.2.2, d.2, a.2, b.2, z r.c]⟩

/-- Every field but the guard zero, 64-bit only. -/
def shZero (r : Raw) (e : Ext) (i : Instr) (c : Nat := 6) : Dec :=
  ⟨i, [need (r.func == 0) c, noDst r, z r.a, z r.b, z r.c, noExt e]⟩

/-- One source in a with its immediate, everything else zero. -/
def shA (r : Raw) (e : Ext) (cls : SrcCls) (t : ImmTy) (fc : Nat) (mk : Src → Instr) : Dec :=
  let a := rdSlot cls t e r.a
  ⟨mk a.1, [fc, noDst r, a.2, z r.b, z r.c]⟩

/-- The same width whatever the type. -/
def w1 : LaneTy → SrcCls := fun _ => .lane 1
def wt : LaneTy → SrcCls := fun t => .lane t.regs
def d1 : LaneTy → Nat := fun _ => 1
def i32 : LaneTy → ImmTy := fun _ => .w32

/-! ### The opcode map (R38), by range -/

/-- A value no entry defines: cause 2. -/
def reservedOp : Dec := ⟨.bkpt .always, [2]⟩
/-- A subop no entry defines: cause 3. -/
def badSub : Dec := ⟨.bkpt .always, [3]⟩

def decControl (r : Raw) (e : Ext) (g : Guard) : Dec :=
  match (r.major.extractLsb' 0 4).toNat with
  | 0x0 =>
    let f : LenForm × Nat := match e with
      | .none => (.base, 0) | .imm32 _ => (.ext, 0) | .imm62 _ => (.long, 0) | _ => (.long, 10)
    ⟨.nop g f.1, [f.2, z r.func, z r.ws, z r.dst, z r.a, z r.b, z r.c]⟩
  | 0x1 => let d := rdDisp e; ⟨.bra g d.1, [d.2, z r.func, noDst r, z r.a, z r.b, z r.c]⟩
  | 0x2 => shA r e .target .no (z r.func) (.brx g)
  | 0x3 => shA r e .target .no (z r.func) (.brxu g)
  | 0x4 => let d := rdDisp e; ⟨.call g d.1, [d.2, z r.func, noDst r, z r.a, z r.b, z r.c]⟩
  | 0x5 => shA r e .target .no (z r.func) (.callx g)
  | 0x6 => shA r e .target .no (z r.func) (.callxu g)
  | 0x7 => shZero r e (.ret g)
  | 0x8 => shZero r e (.exit g)
  | 0x9 => shZero r e (.yield g)
  | 0xA => shA r e (.kInl 0 127) (.low 16) (z r.func) (.trap g)
  | 0xB => shZero r e (.bkpt g)
  | 0xC =>
    let gz := need (r.guard == 7) 6
    match r.f4.toNat with
    | 0 => ⟨.rte, [gz, z r.f6, noDst r, z r.a, z r.b, z r.c, noExt e]⟩
    | 1 => ⟨.rteSkip, [gz, z r.f6, noDst r, z r.a, z r.b, z r.c, noExt e]⟩
    | 2 => let d := rdKd r; let w := rdInl 4 r.a 4
           ⟨.rteRd d.1 w.1, [gz, z r.f6, d.2, w.2, z r.b, z r.c, noExt e]⟩
    | _ => badSub
  | 0xD =>
    match r.f4.toNat with
    | 0 => shA r e kOrInl (.low 16) (z r.f6) (.waitany g)
    | 1 => shA r e kOrInl (.low 16) (z r.f6) (.waitanyPoll g)
    | _ => badSub
  | 0xE =>
    let slot := r.func.extractLsb' 0 4
    let zs := [z (r.func.extractLsb' 4 2), noDst r, z r.c]
    let d := rdDisp e
    match r.f4.toNat with
    | 0 => ⟨.evbind g slot .none, noExt e :: z r.a :: z r.b :: zs⟩
    | 1 => let a := rdSrc kOrInl r.a; ⟨.evbind g slot (.bar a.1 d.1), d.2 :: a.2 :: z r.b :: zs⟩
    | 2 => let a := rdK r.a; let b := rdSrc kOrInl r.b
           ⟨.evbind g slot (.gauge a.1 b.1 d.1), d.2 :: a.2 :: b.2 :: zs⟩
    | 3 => let a := rdSrc kOrInl r.a; ⟨.evbind g slot (.mbox a.1 d.1), d.2 :: a.2 :: z r.b :: zs⟩
    | 4 => ⟨.evbind g slot (.gate d.1), d.2 :: z r.a :: z r.b :: zs⟩
    | 5 => let a := rdK r.a; ⟨.evbind g slot (.rq a.1 d.1), d.2 :: a.2 :: z r.b :: zs⟩
    | _ => badSub
  | _ =>
    match r.f4.toNat with
    | 0 => shA r e kOrInl (.low 16) (z r.f6) (.evctlMask g)
    | 1 => shA r e kOrInl (.low 16) (z r.f6) (.evctlUnmask g)
    | 2 => shA r e kOrInl (.low 16) (z r.f6) (.evctlClr g)
    | 3 => shA r e kOrInl (.low 16) (z r.f6) (.evctlRaise g)
    | 4 => let d := rdKd r; ⟨.evctlRead g d.1, [z r.f6, d.2, z r.a, z r.b, z r.c, noExt e]⟩
    | _ => badSub

def decSystem (r : Raw) (e : Ext) (g : Guard) : Dec :=
  match (r.major.extractLsb' 0 4).toNat with
  | 0x0 =>
    let d := rdPd r
    ⟨.plop g (r.f4.extractLsb' 0 1 == 1) d.1 (r.a.extractLsb' 0 3) (r.a.extractLsb' 3 3) (r.a.extractLsb' 6 3)
        (r.c.extractLsb' 0 8),
      [need (r.f4.extractLsb' 1 3 == 0) 3, z r.f6, d.2, z (r.a.extractLsb' 9 1), z r.b, z (r.c.extractLsb' 8 2),
        noExt e]⟩
  | 0x1 =>
    let sr := r.a.extractLsb' 0 8
    let zs := [z r.f6, z (r.a.extractLsb' 8 2), z r.b, z r.c, noExt e, need (srInfo sr.toNat).isSome 3]
    match r.f4.toNat with
    | 0 => let d := rdDst (srRegs sr) r; ⟨.sread g sr d.1, d.2 :: zs⟩
    | 1 => let d := rdKd r; ⟨.sreadK g sr d.1, d.2 :: need ((srInfo sr.toNat).any (fun i => i.2 != 0)) 3 :: zs⟩
    | _ => badSub
  | 0x2 =>
    let sr := r.b.extractLsb' 0 8
    let a := rdSlot (.lane (if sr == 0x12 then 2 else 1)) .w32 e r.a
    ⟨.swrite g sr a.1, [z r.func, noDst r, a.2, need (r.b == 0x12 || r.b == 0x1A) 3, z r.c]⟩
  | 0x3 =>
    let k := rd (FenceKind.ofCode r.f4) .acq
    let s := rd (Scope.ofCode (r.func.extractLsb' 3 3)) .blk (fun s => s != .none)
    ⟨.fence g k.1 s.1, [k.2, s.2, z (r.func.extractLsb' 0 3), noDst r, z r.a, z r.b, z r.c, noExt e]⟩
  | 0x4 => let d := rdDst 2 r; ⟨.clk g d.1, [z r.func, d.2, z r.a, z r.b, z r.c, noExt e]⟩
  | 0x5 =>
    let f := rd (RngForm.ofCode r.f4) .b32
    let d := rdDst (match f.1 with | .b64 => 2 | .b128 => 4 | _ => 1) r
    ⟨.rng g f.1 d.1, [f.2, z r.f6, d.2, z r.a, z r.b, z r.c, noExt e]⟩
  | 0x6 =>
    let f := rd (RngForm.ofCode r.f4) .b32
    let d := rdDst (match f.1 with | .b64 => 2 | .b128 => 4 | _ => 1) r
    let a := rdSrc (.vo 4) r.a
    ⟨.rngx g f.1 d.1 a.1, [f.2, z r.f6, d.2, a.2, z r.b, z r.c, noExt e]⟩
  | 0x7 => shA r e (.kInl 0 127) (.low 16) (z r.func) (.rgenter g)
  | 0x8 => shA r e (.kInl 0 127) (.low 16) (z r.func) (.rgleave g)
  | 0x9 =>
    match r.f4.toNat with
    | 0 => let a := rdK r.a; let b := rdSlot anyInl .w32 e r.b
           ⟨.monitor g a.1 b.1, [z r.f6, noDst r, a.2, b.2, z r.c]⟩
    | 1 => ⟨.monitorClr g, [z r.f6, noDst r, z r.a, z r.b, z r.c, noExt e]⟩
    | _ => badSub
  | 0xA => let d := rdKd r; ⟨.mwait g d.1, [z r.func, d.2, z r.a, z r.b, z r.c, noExt e]⟩
  | 0xB =>
    let c := rd (WaitClass.ofCode r.f4) .ld
    shA r e (.kInl 0 63) .no (leastCause [c.2, z r.f6]) (.waitc g c.1)
  | 0xC => shA r e kOrInl .w32 (z r.func) (.grow g)
  | 0xD => shA r e kOrInl .w32 (z r.func) (.shrink g)
  | 0xE => shZero r e (.phase g)
  | _ => reservedOp

/-- A subop of 0 where the row lists no other (R209). -/
def sub0 (r : Raw) (d : Dec) : Dec := ⟨d.instr, need (r.f4 == 0) 3 :: d.causes⟩

def decInt (r : Raw) (e : Ext) (g : Guard) : Dec :=
  match (r.major.extractLsb' 0 5).toNat with
  | 0x00 => sub0 r (shI2 r e LaneTy.isInt true LaneTy.regs wt wt LaneTy.imm (fun t s => .iadd g t s))
  | 0x01 => sub0 r (shI2 r e LaneTy.isInt true LaneTy.regs wt wt LaneTy.imm (fun t s => .isub g t s))
  | 0x02 => sub0 r (shI3 r e LaneTy.isInt true LaneTy.regs wt wt wt LaneTy.imm (fun t s => .iadd3 g t s))
  | 0x03 => sub0 r (shI2 r e LaneTy.isInt false LaneTy.regs wt wt LaneTy.imm (fun t _ => .imul g t))
  | 0x04 => sub0 r (shI2 r e LaneTy.isInt false LaneTy.regs wt wt LaneTy.imm (fun t _ => .imulh g t))
  | 0x05 => sub0 r (shI3 r e LaneTy.isInt true LaneTy.regs wt wt wt LaneTy.imm (fun t s => .imad g t s))
  | 0x06 => sub0 r (shI2 r e LaneTy.isInt false LaneTy.regs wt wt LaneTy.imm (fun t _ => .idiv g t))
  | 0x07 => sub0 r (shI2 r e LaneTy.isInt false LaneTy.regs wt wt LaneTy.imm (fun t _ => .irem g t))
  | 0x08 => sub0 r (shI2 r e LaneTy.isInt false LaneTy.regs wt wt LaneTy.imm (fun t _ => .imin g t))
  | 0x09 => sub0 r (shI2 r e LaneTy.isInt false LaneTy.regs wt wt LaneTy.imm (fun t _ => .imax g t))
  | 0x0A => sub0 r (shI1 r e LaneTy.isS true LaneTy.regs (fun t s => .iabs g t s))
  | 0x0B => sub0 r (shI1 r e LaneTy.isS true LaneTy.regs (fun t s => .ineg g t s))
  | 0x0C =>
    match r.f4.toNat with
    | 0 => shI2 r e LaneTy.isB false LaneTy.regs wt wt LaneTy.imm (fun t _ => .and g t)
    | 1 => shI2 r e LaneTy.isB false LaneTy.regs wt wt LaneTy.imm (fun t _ => .or g t)
    | 2 => shI2 r e LaneTy.isB false LaneTy.regs wt wt LaneTy.imm (fun t _ => .xor g t)
    | 3 => shI2 r e LaneTy.isB false LaneTy.regs wt wt LaneTy.imm (fun t _ => .andn g t)
    | 4 => shI1 r e LaneTy.isB false LaneTy.regs (fun t _ => .not g t)
    | _ => badSub
  | 0x0D =>
    match r.f4.toNat with
    | 0 => shI2 r e LaneTy.isB false LaneTy.regs wt w1 i32 (fun t _ => .shl g t)
    | 1 => shI2 r e LaneTy.isB false LaneTy.regs wt w1 i32 (fun t _ => .shr g t)
    | 2 => shI2 r e LaneTy.isB false LaneTy.regs wt w1 i32 (fun t _ => .sar g t)
    | 3 => shI2 r e LaneTy.isB false LaneTy.regs wt w1 i32 (fun t _ => .rot g t)
    | 4 => shI3 r e LaneTy.isB false LaneTy.regs wt wt w1 i32 (fun t _ => .fshl g t)
    | _ => badSub
  | 0x0E =>
    match r.f4.toNat with
    | 0 => shI1 r e LaneTy.isB false d1 (fun t _ => .popc g t)
    | 1 => shI1 r e LaneTy.isB false d1 (fun t _ => .clz g t)
    | 2 => shI1 r e LaneTy.isB false d1 (fun t _ => .ctz g t)
    | 3 => shI1 r e LaneTy.isB false LaneTy.regs (fun t _ => .brev g t)
    | _ => badSub
  | 0x0F => sub0 r (shI2 r e LaneTy.isInt false LaneTy.regs wt w1 i32 (fun t _ => .bfe g t))
  | 0x10 => sub0 r (shI3 r e LaneTy.isB false LaneTy.regs wt wt w1 i32 (fun t _ => .bfi g t))
  | 0x11 => sub0 r (shI3 r e (fun t => t == .n32) false d1 w1 w1 w1 i32 (fun _ _ => .prmb g))
  | 0x12 =>
    let m := rd (MaskRule.ofCode r.f4) .eq
    let x := shI3 r e (fun t => t.isB || t == .b128) false d1 wt w1 w1 i32 (fun t _ => .bmask g m.1 t)
    ⟨x.instr, m.2 :: x.causes⟩
  | 0x13 => sub0 r (shI2 r e (fun t => t == .n32) false d1 w1 w1 i32 (fun _ _ => .clmul g))
  | 0x14 => sub0 r (shI2 r e (fun t => t == .n32) false d1 w1 w1 i32 (fun _ _ => .clmulh g))
  | 0x15 =>
    let c := rd (ICond.ofCode r.f4) .eq
    let f := rdFInt r LaneTy.isInt false
    let d := rdPd r
    let a := rdSrc (wt f.1) r.a
    let b := rdSlot (wt f.1) f.1.imm e r.b
    ⟨.icmp g c.1 f.1 d.1 a.1 b.1, [c.2, f.2.2, d.2, a.2, b.2, z r.c]⟩
  | 0x16 =>
    let f := rdFInt r LaneTy.isB false
    let d := rdDst f.1.regs r
    let a := rdSrc (wt f.1) r.a
    let b := rdSlot (wt f.1) f.1.imm e r.b
    let p := rdPSel r.c
    sub0 r ⟨.sel g f.1 d.1 a.1 b.1 p.1, [f.2.2, d.2, a.2, b.2, p.2]⟩
  | 0x17 =>
    let f := rdFInt r (fun t => t == .n64 || t == .s64) false
    let d := rdDst 2 r
    let a := rdSrc (.lane 2) r.a
    let b := rdSlot (.lane 1) .w32 e r.b
    sub0 r ⟨.lea g f.1 d.1 a.1 b.1 (r.c.extractLsb' 0 5), [f.2.2, d.2, a.2, b.2, z (r.c.extractLsb' 5 5)]⟩
  | 0x18 => sub0 r (shI1 r e (fun t => t.isB || t == .b128) false LaneTy.regs (fun t _ => .mov g t))
  | 0x19 => sub0 r (shI2 r e LaneTy.isInt false LaneTy.regs wt wt LaneTy.imm (fun t _ => .movi g t))
  | _ => reservedOp

def decFloat (r : Raw) (e : Ext) (g : Guard) : Dec :=
  match (r.major.extractLsb' 0 5).toNat with
  | 0x00 => shF2 r e LaneTy.isFP anyRnd LaneTy.fimm (.fadd g)
  | 0x01 => shF2 r e LaneTy.isFP anyRnd LaneTy.fimm (.fsub g)
  | 0x02 => shF2 r e LaneTy.isFP anyRnd LaneTy.fimm (.fmul g)
  | 0x03 =>
    let f := rdFFlt r LaneTy.isFP anyRnd
    let d := rdDst 1 r
    let a := rdSrc (.lane 1) r.a
    let b := rdSrc (.lane 1) r.b
    let c := rdSlot (.lane 1) f.1.fimm e r.c
    ⟨.ffma g f.1 f.2.1 d.1 a.1 b.1 c.1, [need (r.func.extractLsb' 7 3 == 0) 3, f.2.2, d.2, a.2, b.2, c.2]⟩
  | 0x04 => shF2 r e LaneTy.isFP isRne LaneTy.fimm (fun t _ => .fmin g t)
  | 0x05 => shF2 r e LaneTy.isFP isRne LaneTy.fimm (fun t _ => .fmax g t)
  | 0x06 =>
    let f := rdFFlt r LaneTy.isF isRne
    let d := rdPd r
    let a := rdSrc (.lane 1) r.a
    let b := rdSlot (.lane 1) f.1.fimm e r.b
    ⟨.fcmp g (FCond.ofCode (r.func.extractLsb' 7 3)) f.1 d.1 a.1 b.1, [f.2.2, d.2, a.2, b.2, z r.c]⟩
  | 0x07 => shF1 r e LaneTy.isF isRne (fun t _ => .fclass g t)
  | 0x08 => shF1 r e isF32 notRsr (fun _ m => .frcp g m)
  | 0x09 => shF1 r e isF32 notRsr (fun _ m => .frsq g m)
  | 0x0A => shF1 r e isF32 anyRnd (fun _ m => .fsqrt g m)
  | 0x0B => shF2 r e isF32 anyRnd i32 (fun _ m => .fdiv g m)
  | 0x0C => shF1 r e isF32 isRne (fun _ _ => .fexp2 g)
  | 0x0D => shF1 r e isF32 isRne (fun _ _ => .flog2 g)
  | 0x0E => shF1 r e isF32 isRne (fun _ _ => .fsin g)
  | 0x0F => shF1 r e isF32 isRne (fun _ _ => .fcos g)
  | 0x10 => shF1 r e isF32 isRne (fun _ _ => .ftanh g)
  | 0x11 => shF1 r e isF32 isRne (fun _ _ => .fsigm g)
  | 0x12 => shF2 r e LaneTy.isF anyRnd i32 (.fscale g)
  | 0x13 => shF1 r e LaneTy.isF notRsr (.frnd g)
  | 0x14 => shF2 r e LaneTy.isFP isRne LaneTy.fimm (fun t _ => .fcopys g t)
  | _ => reservedOp

/-- Bits [55:54] of a conversion other than CVT, which uses neither: .sat with .nan, or .nan with a result other than e4m3,
has cause 3 (R220), any other nonzero value cause 6 (R39). -/
def satNanUnused (r : Raw) (e4m3 : Bool) : Nat :=
  let nan := r.func.extractLsb' 1 1 == 1
  let sat := r.func.extractLsb' 0 1 == 1
  if nan && (sat || !e4m3) then 3 else z (r.func.extractLsb' 0 2)

def decConv (r : Raw) (e : Ext) (g : Guard) : Dec :=
  let res := Fmt.ofCode (r.func.extractLsb' 5 5)
  let op := Fmt.ofCode (r.c.extractLsb' 0 5)
  let zc := z (r.c.extractLsb' 5 5)
  let nan := r.func.extractLsb' 1 1 == 1
  let sat := r.func.extractLsb' 0 1 == 1
  let zo := satNanUnused r (r.func.extractLsb' 5 5 == 11)
  match (r.major.extractLsb' 0 4).toNat with
  | 0x0 =>
    let f := rd res .f32
    let o := rd op .f32
    let m := rd (Rnd.ofCode (r.func.extractLsb' 2 3)) .rne
    let d := rdDst f.1.regs r
    let ok := need (cvtOk f.1 o.1 m.1 nan sat) 3
    if f.1.isPacked then
      let a := rdSrc (.lane 1) r.a
      let b := rdSlot (.lane 1) .w32 e r.b
      ⟨.cvt g f.1 o.1 m.1 nan sat d.1 a.1 (some b.1), [f.2, o.2, m.2, zc, ok, d.2, a.2, b.2]⟩
    else
      let a := rdSlot (.lane o.1.regs) o.1.imm e r.a
      ⟨.cvt g f.1 o.1 m.1 nan sat d.1 a.1 Option.none, [f.2, o.2, m.2, zc, ok, d.2, a.2, z r.b]⟩
  | 0x1 =>
    let f := rd res .e4m3 Fmt.isElem
    let o := rd op .f32 Fmt.isWide
    let m := rd (Rnd.ofCode (r.func.extractLsb' 2 3)) .rne
    let d := rdDst 1 r
    let a := rdSlot (.lane 1) o.1.imm e r.a
    ⟨.qgrp g f.1 o.1 m.1 d.1 a.1, [f.2, o.2, m.2, zc, zo, d.2, a.2, z r.b]⟩
  | 0x2 =>
    let f := rd res .f32 Fmt.isWide
    let o := rd op .e4m3 Fmt.isElem
    let m := rd (Rnd.ofCode (r.func.extractLsb' 2 3)) .rne isRne
    let d := rdDst 1 r
    let a := rdSlot (.lane 1) o.1.imm e r.a
    ⟨.dqgrp g f.1 o.1 d.1 a.1, [f.2, o.2, m.2, zc, zo, d.2, a.2, z r.b]⟩
  | 0x3 =>
    let f := rd res .e4m3 Fmt.isElem
    let m := rd (Rnd.ofCode (r.func.extractLsb' 2 3)) .rne isRne
    let d := rdDst 1 r
    let a := rdSrc (.lane 1) r.a
    let b := rdInl 8 r.b 3
    ⟨.pkparcel g f.1 d.1 a.1 b.1, [f.2, m.2, need (r.c.extractLsb' 0 5 == 0x13) 3, zc, zo, d.2, a.2, b.2,
      need (b.1.toNat < f.1.groups) 3, noExt e]⟩
  | 0x4 =>
    let f := rd res .e4m3 Fmt.isElem
    let m := rd (Rnd.ofCode (r.func.extractLsb' 2 3)) .rne isRne
    let d := rdDst 1 r
    let a := rdSrc (.lane 1) r.a
    let b := rdInl 8 r.b 3
    ⟨.unparcel g f.1 d.1 a.1 b.1, [f.2, m.2, need (r.c.extractLsb' 0 5 == 0x13) 3, zc, zo, d.2, a.2, b.2,
      need (b.1.toNat < f.1.groups) 3, noExt e]⟩
  | 0x5 =>
    let m := rd (Rnd.ofCode (r.func.extractLsb' 2 3)) .rne isRne
    let d := rdDst 2 r
    let a := rdSrc (.lane 1) r.a
    let b := rdInl 3 r.b 3
    ⟨.planes g d.1 a.1 b.1, [need (r.func.extractLsb' 5 5 == 0x14) 3, m.2, need (r.c.extractLsb' 0 5 == 1) 3, zc, zo,
      d.2, a.2, b.2, noExt e]⟩
  | _ => reservedOp

def decCross (r : Raw) (e : Ext) (g : Guard) : Dec :=
  match (r.major.extractLsb' 0 4).toNat with
  | 0x0 =>
    let m := rd (ShflMode.ofCode r.f4) .idx
    let x := shI2 r e LaneTy.isB false LaneTy.regs wt w1 i32 (fun t _ => .shfl g m.1 t)
    ⟨x.instr, m.2 :: x.causes⟩
  | 0x1 =>
    let p := rdPSel r.a
    let zs := [p.2, z r.b, z r.c, noExt e]
    match r.f4.toNat with
    | 0 => let f := rdFInt r (fun t => t == .n32) false; let d := rdPd r
           ⟨.vote g (.any d.1) p.1, f.2.2 :: d.2 :: zs⟩
    | 1 => let f := rdFInt r (fun t => t == .n32) false; let d := rdPd r
           ⟨.vote g (.all d.1) p.1, f.2.2 :: d.2 :: zs⟩
    | 2 => let f := rdFInt r (fun t => t == .n64) false; let d := rdDst 2 r
           ⟨.vote g (.ballot d.1) p.1, f.2.2 :: d.2 :: zs⟩
    | _ => badSub
  | 0x2 =>
    let f := rdFInt r LaneTy.isB false
    let a := rdSlot (wt f.1) f.1.imm e r.a
    let zs := [f.2.2, a.2, z r.b, z r.c]
    match r.f4.toNat with
    | 0 => let d := rdDst 2 r; ⟨.matchv g (.any d.1) f.1 a.1, d.2 :: zs⟩
    | 1 => let d := rdPd r; ⟨.matchv g (.all d.1) f.1 a.1, d.2 :: zs⟩
    | _ => badSub
  | 0x3 =>
    let o := rd (FoldOp.ofCode r.f4) .add (fun o => o == .add || o == .xor || o == .min || o == .max)
    let x := shI1 r e (foldTy o.1) true LaneTy.regs (fun t s => .scan g o.1 t s)
    ⟨x.instr, o.2 :: x.causes⟩
  | 0x4 =>
    let o := rd (FoldOp.ofCode r.f4) .add
    let x := shI1 r e (foldTy o.1) false LaneTy.regs (fun t _ => .red g o.1 t)
    ⟨x.instr, o.2 :: x.causes⟩
  | 0x5 =>
    let x := shI3 r e isF32 false (fun _ => 2) w1 w1 (fun _ => kOrInl) i32 (fun _ _ => .topk g)
    sub0 r ⟨x.instr, need (r.ws == 0) 5 :: x.causes⟩
  | _ => reservedOp

/-- Loads and stores (R199). DESIGN CHOICE (log 17): no cause of R43 names an undefined value of a control field; an LDK source C
other than 0 and 1 has cause 3. -/
def decMem (r : Raw) (e : Ext) (g : Guard) : Dec :=
  match (r.major.extractLsb' 0 4).toNat with
  | 0x0 =>
    let f := rdFMem r ldKinds allScopes
    let d := rdDst f.1.regs r; let a := rdSrc .base64 r.a; let b := rdSlot anyInl .w64 e r.b
    ⟨.ld g f.1 f.2.1 f.2.2.1 d.1 a.1 b.1, [f.2.2.2, d.2, a.2, b.2, z r.c]⟩
  | 0x1 =>
    let f := rdFMem r stKinds allScopes
    let a := rdSrc .base64 r.a; let b := rdSlot anyInl .w64 e r.b; let c := rdSrc (wt f.1) r.c
    ⟨.st g f.1 f.2.1 f.2.2.1 a.1 b.1 c.1, [f.2.2.2, noDst r, a.2, b.2, c.2]⟩
  | 0x2 =>
    let f := rdFMem r ldKinds [.blk]
    let d := rdDst f.1.regs r; let a := rdSrc .base32 r.a; let b := rdSlot anyInl .w32 e r.b
    ⟨.lds g f.1 f.2.1 f.2.2.1 d.1 a.1 b.1, [f.2.2.2, d.2, a.2, b.2, z r.c]⟩
  | 0x3 =>
    let f := rdFMem r stKinds [.blk]
    let a := rdSrc .base32 r.a; let b := rdSlot anyInl .w32 e r.b; let c := rdSrc (wt f.1) r.c
    ⟨.sts g f.1 f.2.1 f.2.2.1 a.1 b.1 c.1, [f.2.2.2, noDst r, a.2, b.2, c.2]⟩
  | 0x4 =>
    let t := rd (LaneTy.ofCode r.f4) .n32 LaneTy.isMem
    let d := rdDst t.1.regs r; let a := rdK r.a; let b := rdSlot anyInl .w64 e r.b
    ⟨.ldk g t.1 (r.c.extractLsb' 0 1 == 1) d.1 a.1 b.1, [t.2, need (r.f6 == 0) 3, d.2, a.2, b.2,
      need (r.c.extractLsb' 1 9 == 0) 3]⟩
  | 0x5 =>
    let f := rdFMem r stKinds allScopes
    let a := rdK r.a; let b := rdSlot anyInl .w64 e r.b; let c := rdSrc (wt f.1) r.c
    ⟨.stk g f.1 f.2.1 f.2.2.1 a.1 b.1 c.1, [f.2.2.2, noDst r, a.2, b.2, c.2]⟩
  | 0x6 =>
    let f := rdFMem r ldKinds [.clu]
    let d := rdDst f.1.regs r; let a := rdSrc .base32 r.a; let b := rdSrc (.kInl 0 15) r.b; let o := rdOff .w32 e
    ⟨.ldc g f.1 f.2.1 f.2.2.1 d.1 a.1 b.1 o.1, [f.2.2.2, d.2, a.2, b.2, z r.c, o.2]⟩
  | 0x7 =>
    let f := rdFMem r stKinds [.clu]
    let a := rdSrc .base32 r.a; let b := rdSrc (.kInl 0 15) r.b; let c := rdSrc (wt f.1) r.c; let o := rdOff .w32 e
    ⟨.stc g f.1 f.2.1 f.2.2.1 a.1 b.1 c.1 o.1, [f.2.2.2, noDst r, a.2, b.2, c.2, o.2]⟩
  | 0x8 =>
    let t := rd (LaneTy.ofCode r.f4) .f32 (fun t => t == .f32 || t == .bf16)
    let d := rdDst 1 r; let a := rdSrc .base32 r.a; let b := rdSlot anyInl .w32 e r.b
    let ter := r.c.extractLsb' 9 1 == 1
    ⟨.ldq g t.1 d.1 a.1 b.1 ter (r.c.extractLsb' 6 3) (r.c.extractLsb' 0 6),
      [t.2, need (r.f6 == 0) 3, d.2, a.2, b.2, need (ter || r.c.extractLsb' 6 3 == 0) 6,
        need ((r.c.extractLsb' 0 6).toNat ≤ 39) 3]⟩
  | 0x9 =>
    let a := rdSrc .base64 r.a; let b := rdSlot anyInl .w64 e r.b
    ⟨.pfetch g a.1 b.1, [need (r.func == 0) 3, noDst r, a.2, b.2, z r.c]⟩
  | _ => reservedOp

/-- Words of an atomic operand. -/
def wn (w : Bool) : Nat := if w then 2 else 1

def decAtom (r : Raw) (e : Ext) (g : Guard) : Dec :=
  let f := rdFAtom r
  let n := wn f.1
  match (r.major.extractLsb' 0 4).toNat with
  | 0x0 =>
    let o := rd (AtomOp.ofCode r.f4) .add
    let d := rdDst n r; let a := rdSrc .base64 r.a; let b := rdSlot anyInl .w64 e r.b; let c := rdSrc (.lane n) r.c
    ⟨.atom g o.1 f.1 f.2.1 f.2.2.1 d.1 a.1 b.1 c.1, [o.2, f.2.2.2, d.2, a.2, b.2, c.2]⟩
  | 0x1 =>
    let d := rdDst n r; let a := rdSrc .base64 r.a; let b := rdSrc (.lane n) r.b; let c := rdSrc (.lane n) r.c
    let o := rdOff .w64 e
    ⟨.atomcas g f.1 f.2.1 f.2.2.1 d.1 a.1 b.1 c.1 o.1, [need (r.f4 == 0) 3, f.2.2.2, d.2, a.2, b.2, c.2, o.2]⟩
  | 0x2 =>
    let o := rd (AtomFOp.ofCode r.f4) .add
    let d := rdDst 1 r; let a := rdSrc .base64 r.a; let b := rdSlot anyInl .w64 e r.b; let c := rdSrc (.lane 1) r.c
    ⟨.atomf g o.1 f.2.1 f.2.2.1 d.1 a.1 b.1 c.1, [o.2, need (!f.1) 3, f.2.2.2, d.2, a.2, b.2, c.2]⟩
  | 0x3 =>
    let o := rd (AtomOp.ofCode r.f4) .add
    let d := rdDst n r; let a := rdSrc .base32 r.a; let b := rdSlot anyInl .w32 e r.b; let c := rdSrc (.lane n) r.c
    ⟨.atoms g o.1 f.1 f.2.1 d.1 a.1 b.1 c.1, [o.2, f.2.2.2, need (f.2.2.1 == .blk) 3, d.2, a.2, b.2, c.2]⟩
  | 0x4 =>
    let d := rdDst n r; let a := rdSrc .base32 r.a; let b := rdSrc (.lane n) r.b; let c := rdSrc (.lane n) r.c
    let o := rdOff .w32 e
    ⟨.atomscas g f.1 f.2.1 d.1 a.1 b.1 c.1 o.1, [need (r.f4 == 0) 3, f.2.2.2, need (f.2.2.1 == .blk) 3, d.2, a.2, b.2,
      c.2, o.2]⟩
  | 0x5 =>
    let a := rdSrc .base64 r.a; let b := rdSrc (.lane n) r.b; let c := rdSrc .base64 r.c; let o := rdOff .w32 e
    ⟨.wsig g f.1 f.2.2.1 a.1 b.1 c.1 o.1, [need (r.f4 == 0) 3, need (f.2.1 == .rel) 3, f.2.2.2, noDst r, a.2, b.2, c.2,
      o.2]⟩
  | _ => reservedOp

def decMatrix (r : Raw) (e : Ext) (g : Guard) : Dec :=
  let fmt := Fmt.ofCode (r.func.extractLsb' 1 5)
  let bank := r.func.extractLsb' 0 1 == 1
  let rest0 := need (r.f6 == 0) 3
  match (r.major.extractLsb' 0 4).toNat with
  | 0x0 =>
    let a := rdK r.a
    let b0 := need (!bank) 3
    match r.f4.toNat with
    | 0 => let f := rd fmt .f32 Fmt.isBareW
           ⟨.mldw g (.bare f.1 a.1), [f.2, b0, noDst r, a.2, z r.b, z r.c, noExt e]⟩
    | 1 => let f := rd fmt .e4m3 Fmt.isParM
           ⟨.mldw g (.par f.1 a.1), [f.2, b0, noDst r, a.2, z r.b, z r.c, noExt e]⟩
    | 2 => let b := rdSlot .k .w32 e r.b
           ⟨.mldw g (.ter a.1 b.1 (r.c.extractLsb' 0 3)), [need (r.func.extractLsb' 1 5 == 0x14) 3, b0, noDst r, a.2,
             b.2, z (r.c.extractLsb' 3 7)]⟩
    | _ => badSub
  | 0x1 => shZero r e (.mswap g) 3
  | 0x2 =>
    let a := rdSrc (.vo 2) r.a
    let zs := [noDst r, a.2, z r.b, z (r.c.extractLsb' 3 7), noExt e]
    match r.f4.toNat with
    | 0 => let f := rd fmt .f32 Fmt.isBareA; ⟨.mstr g false f.1 bank a.1 (r.c.extractLsb' 0 3), f.2 :: zs⟩
    | 1 => let f := rd fmt .e4m3 Fmt.isParM; ⟨.mstr g true f.1 bank a.1 (r.c.extractLsb' 0 3), f.2 :: zs⟩
    | _ => badSub
  | 0x3 =>
    let f := rd fmt .f32 (fun f => f == .f32 || f == .s32)
    ⟨.mzero g (f.1 == .s32) bank, [need (r.f4 == 0) 3, f.2, noDst r, z r.a, z r.b, z r.c, noExt e]⟩
  | 0x4 =>
    let f := rd fmt .f32 Fmt.isDrain
    let a := rdK r.a
    let b := rdSlot kOrInl .w32 e r.b
    ⟨.mdrain g (r.func.extractLsb' 6 1 == 1) (r.func.extractLsb' 7 1 == 1) f.1 bank a.1 b.1 (r.c.extractLsb' 0 7),
      [need (r.func.extractLsb' 8 2 == 0) 3, f.2, noDst r, a.2, b.2, z (r.c.extractLsb' 7 3)]⟩
  | 0x5 =>
    let zs := [rest0, z r.a, z r.b, z r.c, noExt e]
    match r.f4.toNat with
    | 0 => ⟨.mgateTake g, noDst r :: zs⟩
    | 1 => let d := rdPd r; ⟨.mgateTry g d.1, d.2 :: zs⟩
    | 2 => ⟨.mgateGive g, noDst r :: zs⟩
    | _ => badSub
  | 0x6 =>
    match r.f4.toNat with
    | 0 => let d := rdKd r; let a := rdSrc (.kInl 0 15) r.a; let b := rdK r.b
           ⟨.mcoop g d.1 a.1 b.1, [rest0, d.2, a.2, b.2, z r.c, noExt e]⟩
    | 1 => ⟨.mcoopClr g, [rest0, noDst r, z r.a, z r.b, z r.c, noExt e]⟩
    | _ => badSub
  | 0x7 => let d := rdDisp e; ⟨.mrestart g d.1, [d.2, need (r.func == 0) 3, noDst r, z r.a, z r.b, z r.c]⟩
  | 0x8 => shZero r e (.mend g) 3
  | 0x9 =>
    let d := rdKd r
    match r.f4.toNat with
    | 0 => ⟨.mstatSt g d.1, [rest0, d.2, z r.a, z r.b, z r.c, noExt e]⟩
    | 1 =>
      let a : Src × Nat := match e with
        | .imm32 w => (.imm w, leastCause [z r.a, need (decide (w.toNat % 256 < 128) && decide (w.toNat / 256 < 192)) 6])
        | e => rdSlot .k .no e r.a
      ⟨.mstatAcc g bank d.1 a.1, [need (r.func.extractLsb' 1 5 == 0) 3, d.2, a.2, z r.b, z r.c]⟩
    | 2 => ⟨.mstatBal g d.1, [rest0, d.2, z r.a, z r.b, z r.c, noExt e]⟩
    | _ => badSub
  | _ => reservedOp

def decStream (r : Raw) (e : Ext) (g : Guard) : Dec :=
  let s := rdFStr r
  let nm1 := r.func.extractLsb' 8 2
  let b61 := r.func.extractLsb' 7 1 == 1
  let z60 := need (r.func.extractLsb' 6 1 == 0) 3
  let ka := rdK r.a
  let kb := rdK r.b
  let kn := rdKn r.c
  let zs := [z60, s.2.2, noDst r, kb.2, kn.2, noExt e]
  let sy := leastCause [z (r.func.extractLsb' 3 3)]
  let o3 := z (r.func.extractLsb' 0 3)
  match (r.major.extractLsb' 0 4).toNat with
  | 0x0 => ⟨.scopy g nm1 b61 s.2.1 s.1 ka.1 kb.1 kn.1, ka.2 :: zs⟩
  | 0x1 =>
    let f : GatherForm × Nat := match nm1.toNat with | 0 => (.x32, 0) | 1 => (.x64, 0) | 2 => (.ter, 0) | _ => (.x32, 3)
    ⟨.sgather g f.1 b61 s.2.1 s.1 ka.1 kb.1 kn.1, f.2 :: ka.2 :: zs⟩
  | 0x2 => ⟨.sscatter g (nm1 == 1) b61 s.2.1 s.1 ka.1 kb.1 kn.1, need (nm1 == 0 || nm1 == 1) 3 :: ka.2 :: zs⟩
  | 0x3 =>
    if b61 then ⟨.sfill g nm1 (.mem ka.1) s.2.1 s.1 kb.1 kn.1, ka.2 :: zs⟩
    else ⟨.sfill g nm1 .sp s.2.1 s.1 kb.1 kn.1, z r.a :: zs⟩
  | 0x4 =>
    let a := rdSrc kOrInl r.a; let b := rdSrc (.kInl 0 31) r.b
    ⟨.pushq g (r.func.extractLsb' 0 2) b.1 a.1, [need (r.f4 == 0) 3, sy, need (r.func.extractLsb' 2 1 == 0) 3, noDst r, a.2, b.2,
      z r.c, noExt e]⟩
  | 0x5 =>
    let d := rdKd r
    ⟨.popq g d.1 (r.func.extractLsb' 0 2), [need (r.f4 == 0) 3, sy, need (r.func.extractLsb' 2 1 == 0) 3, d.2, z r.a, z r.b, z r.c,
      noExt e]⟩
  | 0x6 =>
    let slot := r.func.extractLsb' 0 3
    let zz := [sy, noDst r, z r.b, z r.c, noExt e]
    match r.f4.toNat with
    | 0 => ⟨.setgsClr g slot, z r.a :: zz⟩
    | 1 => ⟨.setgs g slot .t, z r.a :: zz⟩
    | 2 => ⟨.setgs g slot .f, z r.a :: zz⟩
    | 3 => ⟨.setgs g slot (.ks ka.1), ka.2 :: zz⟩
    | _ => badSub
  | 0x7 =>
    let b := rdSrc kOrInl r.a
    let zz := [sy, o3, noDst r, b.2, z r.c, noExt e]
    match r.f4.toNat with
    | 0 => let n := rdSrc kOrInl r.b; ⟨.barinit g b.1 (.counted n.1), n.2 :: zz⟩
    | 1 => ⟨.barinit g b.1 .blk, z r.b :: zz⟩
    | 2 => ⟨.barinit g b.1 .blkf, z r.b :: zz⟩
    | _ => badSub
  | 0x8 =>
    let d := rdPd r; let b := rdSrc kOrInl r.a; let n := rdSrc (.kInl 0 127) r.b
    ⟨.bararr g d.1 b.1 n.1, [need (r.f4 == 0) 3, z r.f6, d.2, b.2, n.2, z r.c, noExt e]⟩
  | 0x9 =>
    let b := rdSrc kOrInl r.a; let n := rdSlot kOrInl .w32 e r.b
    ⟨.barexp g b.1 n.1, [need (r.f4 == 0) 3, z r.f6, noDst r, b.2, n.2, z r.c]⟩
  | 0xA =>
    let b := rdSrc kOrInl r.a
    ⟨.barwait g b.1 (r.func.extractLsb' 0 3), [need (r.f4 == 0) 3, sy, noDst r, b.2, z r.b, z r.c, noExt e]⟩
  | 0xB =>
    let sc := rd (Scope.ofCode (r.func.extractLsb' 3 3)) .blk (fun s => s != .none)
    let n := rdSlot kOrInl .w32 e r.b
    ⟨.gaugeadd g sc.1 ka.1 n.1, [need (r.f4 == 0) 3, sc.2, o3, noDst r, ka.2, n.2, z r.c]⟩
  | 0xC =>
    let sc := rd (Scope.ofCode (r.func.extractLsb' 3 3)) .blk (fun s => s != .none)
    let n := rdSlot kOrInl .w32 e r.b
    ⟨.gaugewait g sc.1 ka.1 n.1, [need (r.f4 == 0) 3, sc.2, o3, noDst r, ka.2, n.2, z r.c]⟩
  | 0xD =>
    let t := rdSlot (.kInl 0 127) .w32 e r.a; let v := rdSrc kOrInl r.b
    match r.f4.toNat with
    | 0 => ⟨.mbsend g t.1 v.1, [sy, o3, noDst r, t.2, v.2, z r.c]⟩
    | 1 => let d := rdPd r; ⟨.mbsendTry g d.1 t.1 v.1, [sy, o3, d.2, t.2, v.2, z r.c]⟩
    | _ => badSub
  | 0xE =>
    let d := rdKd r; let m := rdSrc (.kInl 0 31) r.a
    ⟨.mbrecv g d.1 m.1, [need (r.f4 == 0) 3, z r.f6, d.2, m.2, z r.b, z r.c, noExt e]⟩
  | _ =>
    let d := rdKd r; let t := rdDisp e
    ⟨.loopk g d.1 t.1, [t.2, need (r.f4 == 0) 3, z r.f6, d.2, z r.a, z r.b, z r.c]⟩

def decUniform (r : Raw) (e : Ext) (g : Guard) : Dec :=
  match (r.major.extractLsb' 0 5).toNat with
  | 0x00 =>
    let f := rdFInt r LaneTy.isInt false
    let d := rdKd r; let a := rdSrc kOrInl r.a
    sub0 r ⟨.kmov g f.1 d.1 a.1, [f.2.2, d.2, a.2, z r.b, z r.c, noExt e]⟩
  | 0x01 =>
    let f := rdFInt r LaneTy.isB false
    let d := rdKd r
    match r.f4.toNat with
    | 0 => let a := rdSlot anyInl f.1.imm e r.a
           ⟨.kmovi g f.1 false d.1 a.1, [f.2.2, d.2, a.2, z r.b, z r.c]⟩
    | 1 => let a : Src × Nat := match e with | .imm32 w => (.imm w, z r.a) | _ => (.v 0, 3)
           ⟨.kmovi g f.1 true d.1 a.1, [f.2.2, d.2, a.2, z r.b, z r.c]⟩
    | _ => badSub
  | 0x02 => sub0 r (shK2 r e true (fun t s => .kadd g t s))
  | 0x03 => sub0 r (shK2 r e true (fun t s => .ksub g t s))
  | 0x04 => sub0 r (shK2 r e false (fun t _ => .kmul g t))
  | 0x05 =>
    let f := rdFInt r LaneTy.isInt true
    let d := rdKd r; let a := rdSrc kOrInl r.a; let b := rdSrc kOrInl r.b; let c := rdSlot kOrInl f.1.imm e r.c
    sub0 r ⟨.kmad g f.1 f.2.1 d.1 a.1 b.1 c.1, [f.2.2, d.2, a.2, b.2, c.2]⟩
  | 0x06 => sub0 r (shK2 r e false (fun t _ => .kand g t))
  | 0x07 => sub0 r (shK2 r e false (fun t _ => .kor g t))
  | 0x08 => sub0 r (shK2 r e false (fun t _ => .kxor g t))
  | 0x09 => sub0 r (shK2 r e false (fun t _ => .kshl g t))
  | 0x0A => sub0 r (shK2 r e false (fun t _ => .kshr g t))
  | 0x0B => sub0 r (shK2 r e false (fun t _ => .ksar g t))
  | 0x0C => sub0 r (shK2 r e false (fun t _ => .kmin g t))
  | 0x0D => sub0 r (shK2 r e false (fun t _ => .kmax g t))
  | 0x0E =>
    let c := rd (ICond.ofCode r.f4) .eq
    let f := rdFInt r LaneTy.isInt false
    let d := rdPd r; let a := rdSrc kOrInl r.a; let b := rdSlot kOrInl f.1.imm e r.b
    ⟨.kcmp g c.1 f.1 d.1 a.1 b.1, [c.2, f.2.2, d.2, a.2, b.2, z r.c]⟩
  | 0x0F =>
    let f := rdFInt r LaneTy.isInt false
    let d := rdKd r; let a := rdSrc kOrInl r.a; let b := rdSlot kOrInl f.1.imm e r.b; let p := rdPSel r.c
    sub0 r ⟨.ksel g f.1 d.1 a.1 b.1 p.1, [f.2.2, d.2, a.2, b.2, p.2]⟩
  | 0x10 =>
    let f := rdFInt r LaneTy.isKMem false
    let d := rdKd r; let a := rdK r.a; let b := rdSlot anyInl .w64 e r.b
    sub0 r ⟨.kld g f.1 d.1 a.1 b.1, [f.2.2, d.2, a.2, b.2, z r.c]⟩
  | 0x11 =>
    let f := rdFInt r LaneTy.isKMem false
    let a := rdK r.a; let b := rdSlot anyInl .w64 e r.b; let c := rdSrc kOrInl r.c
    sub0 r ⟨.kst g f.1 a.1 b.1 c.1, [f.2.2, noDst r, a.2, b.2, c.2]⟩
  | 0x12 =>
    let f := rdFInt r LaneTy.isInt false
    let d := rdKd r; let a := rdSrc (.vo f.1.regs) r.a; let b := rdSlot (.kInl 0 63) .w32 e r.b
    sub0 r ⟨.kreadlane g f.1 d.1 a.1 b.1, [f.2.2, d.2, a.2, b.2, z r.c]⟩
  | 0x13 =>
    let f := rdFInt r LaneTy.isInt false
    let d := rdDst f.1.regs r; let a := rdSlot kOrInl f.1.imm e r.a
    sub0 r ⟨.kbcast g f.1 d.1 a.1, [f.2.2, d.2, a.2, z r.b, z r.c]⟩
  | _ => reservedOp

def decFork (r : Raw) (e : Ext) (g : Guard) : Dec :=
  let o4 := z (r.func.extractLsb' 0 4)
  match (r.major.extractLsb' 0 4).toNat with
  | 0x0 =>
    let a := rdK r.a
    ⟨.fork g (ForkScope.ofCode (r.func.extractLsb' 4 2)) a.1, [need (r.f4 == 0) 3, o4, noDst r, a.2, z r.b, z r.c, noExt e]⟩
  | 0x1 =>
    let d := rdKd r; let a := rdSlot (.kInl 0 127) .w32 e r.a
    ⟨.join g d.1 a.1, [z r.func, d.2, a.2, z r.b, z r.c]⟩
  | 0x2 => shZero r e (.abandon g)
  | 0x3 =>
    let d := rdKd r
    match r.f4.toNat with
    | 0 => ⟨.viewInfo g d.1, [z r.f6, d.2, z r.a, z r.b, z r.c, noExt e]⟩
    | 1 => let a := rdK r.a; let b := rdSlot anyInl .w32 e r.b
           ⟨.viewAddr g d.1 a.1 b.1, [z r.f6, d.2, a.2, b.2, z r.c]⟩
    | _ => badSub
  | 0x4 => let d := rdKd r; ⟨.range g d.1, [z r.func, d.2, z r.a, z r.b, z r.c, noExt e]⟩
  | 0x5 => let a := rdK r.a; ⟨.launch g a.1, [z r.func, noDst r, a.2, z r.b, z r.c, noExt e]⟩
  | 0x6 =>
    let d := rdKd r; let a := rdK r.a
    let zs := [z r.f6, d.2, a.2, z r.b, z r.c, noExt e]
    match r.f4.toNat with
    | 0 => ⟨.rqalloc g d.1 a.1, zs⟩
    | 1 => ⟨.rqallocTry g d.1 a.1, zs⟩
    | _ => badSub
  | 0x7 =>
    let a := rdK r.a; let b := rdK r.b; let c := rdSrc kOrInl r.c
    ⟨.rqcommit g a.1 b.1 c.1, [need (r.f4 == 0) 3, z r.f6, noDst r, a.2, b.2, c.2, noExt e]⟩
  | 0x8 => let a := rdK r.a; ⟨.rqclose g a.1, [need (r.f4 == 0) 3, z r.f6, noDst r, a.2, z r.b, z r.c, noExt e]⟩
  | _ => reservedOp

/-- An instruction that is no pair. -/
def decodeOne (r : Raw) (e : Ext) : Dec :=
  let g := rdGuard r.guard
  let d := match (r.major.extractLsb' 4 4).toNat with
    | 0x0 => decControl r e g.1
    | 0x1 => decSystem r e g.1
    | 0x2 => decInt r e g.1
    | 0x3 => decInt r e g.1
    | 0x4 => decFloat r e g.1
    | 0x5 => decFloat r e g.1
    | 0x6 => decConv r e g.1
    | 0x7 => decCross r e g.1
    | 0x8 => decMem r e g.1
    | 0x9 => decAtom r e g.1
    | 0xA => decMatrix r e g.1
    | 0xB => decStream r e g.1
    | 0xC => decUniform r e g.1
    | 0xD => decUniform r e g.1
    | 0xE => decFork r e g.1
    | _ => reservedOp
  ⟨d.instr, g.2 :: d.causes⟩

/-- Majors 0x20 to 0x7F: the lane operations of a pair (R37). -/
def Raw.isLane (r : Raw) : Bool := decide (0x20 ≤ r.major.toNat) && decide (r.major.toNat ≤ 0x7F)

/-- Majors of a pair's second word (R37). -/
def Raw.isPairUni (r : Raw) : Bool :=
  r.major == 0xC0 || (decide (0xC2 ≤ r.major.toNat) && decide (r.major.toNat ≤ 0xCF))

/-- An instruction's fields to its meaning (R37 for a pair, cause 10 for the second word). -/
def decodeEnc (x : Enc) : Dec :=
  match x.ext with
  | .pair u =>
    if x.base.isLane then
      let l := decodeOne x.base .none
      let k := decodeOne { u with guard := x.base.guard } .none
      ⟨.pair l.instr k.instr, need (u.isPairUni && u.guard == 0 && u.ws == 0
          && (x.base.guard == 15 || leastCause k.causes == 0)) 10 :: l.causes⟩
    else decodeOne x.base .bad
  | .bad => if x.base.isLane then
      let l := decodeOne x.base .none
      ⟨l.instr, 10 :: l.causes⟩
    else decodeOne x.base .bad
  | e => decodeOne x.base e

/-! ### Bits -/

/-- Splits the 128 bits that start at an instruction; none: length code 11 (cause 1). -/
def splitBits (w : BitVec 128) : Option Enc :=
  let base := Raw.unpack (w.extractLsb' 0 64)
  let second := w.extractLsb' 64 64
  match (w.extractLsb' 0 2).toNat with
  | 0 => some ⟨base, .none⟩
  | 1 => some ⟨base, .imm32 (w.extractLsb' 64 32)⟩
  | 2 => some ⟨base, match (second.extractLsb' 0 2).toNat with
      | 0 => .imm62 (second.extractLsb' 2 62)
      | 3 => .pair (Raw.unpack second)
      | _ => .bad⟩
  | _ => Option.none

/-- The 128 bits of the fields, zero above the instruction's length. -/
def joinBits (x : Enc) : BitVec 128 :=
  (match x.ext with
    | .none => 0#64
    | .imm32 w => 0#32 ++ w
    | .imm62 w => w ++ 0#2
    | .pair r => r.pack 3
    | .bad => 1#64) ++ x.base.pack x.ext.len

/-- Decoding of the 128 bits at an instruction's address: the instruction, or the cause of R43. -/
inductive DecodeResult where
  | ok (i : Instr) (bytes : Nat)
  | illegal (cause : Nat) (bytes : Nat)
  deriving DecidableEq, Repr

/-- Total on any bits. -/
def decodeBits (w : BitVec 128) : DecodeResult :=
  match splitBits w with
  | Option.none => .illegal 1 8
  | some x =>
    let d := decodeEnc x
    match leastCause d.causes with
    | 0 => .ok d.instr x.ext.bytes
    | c => .illegal c x.ext.bytes

/-- Little-endian value of a list of bytes (00 R5). -/
def leNat : List Byte → Nat
  | [] => 0
  | b :: bs => b.toNat + 256 * leNat bs

/-- Decoding of the bytes at an instruction's address, lowest address first. -/
def decodeBytes (bs : List Byte) : DecodeResult := decodeBits (BitVec.ofNat 128 (leNat (bs.take 16)))

/-- The instruction whose bits are `w`; bits above `nbits` are zero. -/
def decodeTableWord (nbits w : Nat) : Option Instr :=
  match decodeBits (BitVec.ofNat 128 (w % 2 ^ nbits)) with
  | .ok i _ => some i
  | .illegal _ _ => Option.none

/-! ### The encoder -/

/-- The extension that carries an operand's immediate. -/
def Src.ext : Src → Ext
  | .imm w => .imm32 w
  | .imm62 w => .imm62 w
  | _ => .none

/-- Destination bits: write-back suppress and field (R33). -/
def Dst.ws : Dst → BitVec 1
  | .none => 1
  | _ => 0
def Dst.field : Dst → BitVec 9
  | .v i => 0#1 ++ i
  | .o i => 32#6 ++ i
  | .none => 0

/-- A uniform or predicate destination field. -/
def kField (k : BitVec 6) : BitVec 9 := 0#3 ++ k
def pField (p : BitVec 3) : BitVec 9 := 0#6 ++ p
/-- A control field of n bits. -/
def ctl {n : Nat} (x : BitVec n) : BitVec 10 := x.setWidth 10
/-- An inline code of n bits. -/
def inlField {n : Nat} (x : BitVec n) : BitVec 10 := 3#2 ++ x.setWidth 8
/-- The source field of a k register. -/
def kSrc (k : BitVec 6) : BitVec 10 := 8#4 ++ k

/-- Fields with a lane destination. -/
def mkL (major : BitVec 8) (func : BitVec 10) (g : Guard) (d : Dst) (a b c : BitVec 10) (e : Ext) : Option Enc :=
  some ⟨⟨func, c, b, a, d.ws, d.field, g.code, major⟩, e⟩
/-- Fields with another destination field. -/
def mkD (major : BitVec 8) (func : BitVec 10) (g : Guard) (d : BitVec 9) (a b c : BitVec 10) (e : Ext) : Option Enc :=
  some ⟨⟨func, c, b, a, 0, d, g.code, major⟩, e⟩
/-- The fields of a streamer command. -/
def mkS (major : BitVec 8) (s : BitVec 4) (g : Guard) (tag : Option (BitVec 3)) (ch : BitVec 2) (a : BitVec 10)
    (kb kn : BitVec 6) : Option Enc :=
  mkD major (fnStr s tag ch) g 0 a (kSrc kb) (kSrc kn) .none

def RngForm.regs : RngForm → Nat
  | .b64 => 2 | .b128 => 4 | _ => 1

/-- Fields of an encoded instruction that is no pair; none for a row that is not encoded. -/
def encode1 : Instr → Option Enc
  | .nop g f => mkD 0x00 0 g 0 0 0 0 (match f with | .base => .none | .ext => .imm32 0 | .long => .imm62 0)
  | .bra g d => mkD 0x01 0 g 0 0 0 0 (.imm32 d)
  | .brx g a => mkD 0x02 0 g 0 a.code 0 0 a.ext
  | .brxu g a => mkD 0x03 0 g 0 a.code 0 0 a.ext
  | .call g d => mkD 0x04 0 g 0 0 0 0 (.imm32 d)
  | .callx g a => mkD 0x05 0 g 0 a.code 0 0 a.ext
  | .callxu g a => mkD 0x06 0 g 0 a.code 0 0 a.ext
  | .ret g => mkD 0x07 0 g 0 0 0 0 .none
  | .exit g => mkD 0x08 0 g 0 0 0 0 .none
  | .yield g => mkD 0x09 0 g 0 0 0 0 .none
  | .trap g n => mkD 0x0A 0 g 0 n.code 0 0 n.ext
  | .bkpt g => mkD 0x0B 0 g 0 0 0 0 .none
  | .rte => mkD 0x0C (fn46 0 0) .always 0 0 0 0 .none
  | .rteSkip => mkD 0x0C (fn46 1 0) .always 0 0 0 0 .none
  | .rteRd kd w => mkD 0x0C (fn46 2 0) .always (kField kd) (inlField w) 0 0 .none
  | .waitany g c => mkD 0x0D (fn46 0 0) g 0 c.code 0 0 c.ext
  | .waitanyPoll g c => mkD 0x0D (fn46 1 0) g 0 c.code 0 0 c.ext
  | .evbind g s .none => mkD 0x0E (fn46 0 (0#2 ++ s)) g 0 0 0 0 .none
  | .evbind g s (.bar b d) => mkD 0x0E (fn46 1 (0#2 ++ s)) g 0 b.code 0 0 (.imm32 d)
  | .evbind g s (.gauge ka t d) => mkD 0x0E (fn46 2 (0#2 ++ s)) g 0 (kSrc ka) t.code 0 (.imm32 d)
  | .evbind g s (.mbox m d) => mkD 0x0E (fn46 3 (0#2 ++ s)) g 0 m.code 0 0 (.imm32 d)
  | .evbind g s (.gate d) => mkD 0x0E (fn46 4 (0#2 ++ s)) g 0 0 0 0 (.imm32 d)
  | .evbind g s (.rq kq d) => mkD 0x0E (fn46 5 (0#2 ++ s)) g 0 (kSrc kq) 0 0 (.imm32 d)
  | .evctlMask g m => mkD 0x0F (fn46 0 0) g 0 m.code 0 0 m.ext
  | .evctlUnmask g m => mkD 0x0F (fn46 1 0) g 0 m.code 0 0 m.ext
  | .evctlClr g m => mkD 0x0F (fn46 2 0) g 0 m.code 0 0 m.ext
  | .evctlRaise g m => mkD 0x0F (fn46 3 0) g 0 m.code 0 0 m.ext
  | .evctlRead g kd => mkD 0x0F (fn46 4 0) g (kField kd) 0 0 0 .none
  | .plop g q d a b c lut => mkD 0x10 (fn46 (0#3 ++ (if q then 1#1 else 0#1)) 0) g (pField d) (0#1 ++ c ++ b ++ a) 0
      (ctl lut) .none
  | .sread g sr d => mkL 0x11 (fn46 0 0) g d (ctl sr) 0 0 .none
  | .sreadK g sr kd => mkD 0x11 (fn46 1 0) g (kField kd) (ctl sr) 0 0 .none
  | .swrite g sr a => mkD 0x12 0 g 0 a.code (ctl sr) 0 a.ext
  | .fence g k sc => mkD 0x13 (fnSync k.code sc 0) g 0 0 0 0 .none
  | .clk g d => mkL 0x14 0 g d 0 0 0 .none
  | .rng g f d => mkL 0x15 (fn46 f.code 0) g d 0 0 0 .none
  | .rngx g f d a => mkL 0x16 (fn46 f.code 0) g d a.code 0 0 .none
  | .rgenter g id => mkD 0x17 0 g 0 id.code 0 0 id.ext
  | .rgleave g id => mkD 0x18 0 g 0 id.code 0 0 id.ext
  | .monitor g ka off => mkD 0x19 (fn46 0 0) g 0 (kSrc ka) off.code 0 off.ext
  | .monitorClr g => mkD 0x19 (fn46 1 0) g 0 0 0 0 .none
  | .mwait g kd => mkD 0x1A 0 g (kField kd) 0 0 0 .none
  | .waitc g c n => mkD 0x1B (fn46 c.code 0) g 0 n.code 0 0 n.ext
  | .grow g n => mkD 0x1C 0 g 0 n.code 0 0 n.ext
  | .shrink g n => mkD 0x1D 0 g 0 n.code 0 0 n.ext
  | .phase g => mkD 0x1E 0 g 0 0 0 0 .none
  | .iadd g t s d a b => mkL 0x20 (fnInt 0 t s) g d a.code b.code 0 b.ext
  | .isub g t s d a b => mkL 0x21 (fnInt 0 t s) g d a.code b.code 0 b.ext
  | .iadd3 g t s d a b c => mkL 0x22 (fnInt 0 t s) g d a.code b.code c.code c.ext
  | .imul g t d a b => mkL 0x23 (fnInt 0 t false) g d a.code b.code 0 b.ext
  | .imulh g t d a b => mkL 0x24 (fnInt 0 t false) g d a.code b.code 0 b.ext
  | .imad g t s d a b c => mkL 0x25 (fnInt 0 t s) g d a.code b.code c.code c.ext
  | .idiv g t d a b => mkL 0x26 (fnInt 0 t false) g d a.code b.code 0 b.ext
  | .irem g t d a b => mkL 0x27 (fnInt 0 t false) g d a.code b.code 0 b.ext
  | .imin g t d a b => mkL 0x28 (fnInt 0 t false) g d a.code b.code 0 b.ext
  | .imax g t d a b => mkL 0x29 (fnInt 0 t false) g d a.code b.code 0 b.ext
  | .iabs g t s d a => mkL 0x2A (fnInt 0 t s) g d a.code 0 0 a.ext
  | .ineg g t s d a => mkL 0x2B (fnInt 0 t s) g d a.code 0 0 a.ext
  | .and g t d a b => mkL 0x2C (fnInt 0 t false) g d a.code b.code 0 b.ext
  | .or g t d a b => mkL 0x2C (fnInt 1 t false) g d a.code b.code 0 b.ext
  | .xor g t d a b => mkL 0x2C (fnInt 2 t false) g d a.code b.code 0 b.ext
  | .andn g t d a b => mkL 0x2C (fnInt 3 t false) g d a.code b.code 0 b.ext
  | .not g t d a => mkL 0x2C (fnInt 4 t false) g d a.code 0 0 a.ext
  | .shl g t d a b => mkL 0x2D (fnInt 0 t false) g d a.code b.code 0 b.ext
  | .shr g t d a b => mkL 0x2D (fnInt 1 t false) g d a.code b.code 0 b.ext
  | .sar g t d a b => mkL 0x2D (fnInt 2 t false) g d a.code b.code 0 b.ext
  | .rot g t d a b => mkL 0x2D (fnInt 3 t false) g d a.code b.code 0 b.ext
  | .fshl g t d a b c => mkL 0x2D (fnInt 4 t false) g d a.code b.code c.code c.ext
  | .popc g t d a => mkL 0x2E (fnInt 0 t false) g d a.code 0 0 a.ext
  | .clz g t d a => mkL 0x2E (fnInt 1 t false) g d a.code 0 0 a.ext
  | .ctz g t d a => mkL 0x2E (fnInt 2 t false) g d a.code 0 0 a.ext
  | .brev g t d a => mkL 0x2E (fnInt 3 t false) g d a.code 0 0 a.ext
  | .bfe g t d a b => mkL 0x2F (fnInt 0 t false) g d a.code b.code 0 b.ext
  | .bfi g t d a b c => mkL 0x30 (fnInt 0 t false) g d a.code b.code c.code c.ext
  | .prmb g d a b c => mkL 0x31 (fnInt 0 .n32 false) g d a.code b.code c.code c.ext
  | .bmask g m t d a b c => mkL 0x32 (fnInt m.code t false) g d a.code b.code c.code c.ext
  | .clmul g d a b => mkL 0x33 (fnInt 0 .n32 false) g d a.code b.code 0 b.ext
  | .clmulh g d a b => mkL 0x34 (fnInt 0 .n32 false) g d a.code b.code 0 b.ext
  | .icmp g c t pd a b => mkD 0x35 (fnInt c.code t false) g (pField pd) a.code b.code 0 b.ext
  | .sel g t d a b ps => mkL 0x36 (fnInt 0 t false) g d a.code b.code ps.code b.ext
  | .lea g t d a b sh => mkL 0x37 (fnInt 0 t false) g d a.code b.code (ctl sh) b.ext
  | .mov g t d a => mkL 0x38 (fnInt 0 t false) g d a.code 0 0 a.ext
  | .movi g t d a b => mkL 0x39 (fnInt 0 t false) g d a.code b.code 0 b.ext
  | .fadd g t r d a b => mkL 0x40 (fnFlt 0 t r) g d a.code b.code 0 b.ext
  | .fsub g t r d a b => mkL 0x41 (fnFlt 0 t r) g d a.code b.code 0 b.ext
  | .fmul g t r d a b => mkL 0x42 (fnFlt 0 t r) g d a.code b.code 0 b.ext
  | .ffma g t r d a b c => mkL 0x43 (fnFlt 0 t r) g d a.code b.code c.code c.ext
  | .fmin g t d a b => mkL 0x44 (fnFlt 0 t .rne) g d a.code b.code 0 b.ext
  | .fmax g t d a b => mkL 0x45 (fnFlt 0 t .rne) g d a.code b.code 0 b.ext
  | .fcmp g c t pd a b => mkD 0x46 (fnFlt c.code t .rne) g (pField pd) a.code b.code 0 b.ext
  | .fclass g t d a => mkL 0x47 (fnFlt 0 t .rne) g d a.code 0 0 a.ext
  | .frcp g r d a => mkL 0x48 (fnFlt 0 .f32 r) g d a.code 0 0 a.ext
  | .frsq g r d a => mkL 0x49 (fnFlt 0 .f32 r) g d a.code 0 0 a.ext
  | .fsqrt g r d a => mkL 0x4A (fnFlt 0 .f32 r) g d a.code 0 0 a.ext
  | .fdiv g r d a b => mkL 0x4B (fnFlt 0 .f32 r) g d a.code b.code 0 b.ext
  | .fexp2 g d a => mkL 0x4C (fnFlt 0 .f32 .rne) g d a.code 0 0 a.ext
  | .flog2 g d a => mkL 0x4D (fnFlt 0 .f32 .rne) g d a.code 0 0 a.ext
  | .fsin g d a => mkL 0x4E (fnFlt 0 .f32 .rne) g d a.code 0 0 a.ext
  | .fcos g d a => mkL 0x4F (fnFlt 0 .f32 .rne) g d a.code 0 0 a.ext
  | .ftanh g d a => mkL 0x50 (fnFlt 0 .f32 .rne) g d a.code 0 0 a.ext
  | .fsigm g d a => mkL 0x51 (fnFlt 0 .f32 .rne) g d a.code 0 0 a.ext
  | .fscale g t r d a b => mkL 0x52 (fnFlt 0 t r) g d a.code b.code 0 b.ext
  | .frnd g t r d a => mkL 0x53 (fnFlt 0 t r) g d a.code 0 0 a.ext
  | .fcopys g t d a b => mkL 0x54 (fnFlt 0 t .rne) g d a.code b.code 0 b.ext
  | .cvt g res op r nan sat d a b => mkL 0x60 (fnCvt res r nan sat) g d a.code
      (match b with | some b => b.code | Option.none => 0) (ctl op.code) (match b with | some b => b.ext | Option.none => a.ext)
  | .qgrp g f op r d a => mkL 0x61 (fnCvt f r false false) g d a.code 0 (ctl op.code) a.ext
  | .dqgrp g res f d a => mkL 0x62 (fnCvt res .rne false false) g d a.code 0 (ctl f.code) a.ext
  | .pkparcel g f d q grp => mkL 0x63 (fnCvt f .rne false false) g d q.code (inlField grp) 0x13 q.ext
  | .unparcel g f d img grp => mkL 0x64 (fnCvt f .rne false false) g d img.code (inlField grp) 0x13 img.ext
  | .planes g d a p => mkL 0x65 (fnCvt .terrace .rne false false) g d a.code (inlField p) 1 a.ext
  | .shfl g m t d a b => mkL 0x70 (fnInt m.code t false) g d a.code b.code 0 b.ext
  | .vote g (.any pd) ps => mkD 0x71 (fnInt 0 .n32 false) g (pField pd) ps.code 0 0 .none
  | .vote g (.all pd) ps => mkD 0x71 (fnInt 1 .n32 false) g (pField pd) ps.code 0 0 .none
  | .vote g (.ballot d) ps => mkL 0x71 (fnInt 2 .n64 false) g d ps.code 0 0 .none
  | .matchv g (.any d) t a => mkL 0x72 (fnInt 0 t false) g d a.code 0 0 a.ext
  | .matchv g (.all pd) t a => mkD 0x72 (fnInt 1 t false) g (pField pd) a.code 0 0 a.ext
  | .scan g op t x d a => mkL 0x73 (fnInt op.code t x) g d a.code 0 0 a.ext
  | .red g op t d a => mkL 0x74 (fnInt op.code t false) g d a.code 0 0 a.ext
  | .topk g d a b k => mkL 0x75 (fnInt 0 .f32 false) g d a.code b.code k.code k.ext
  | .ld g t k s d base off => mkL 0x80 (fnMem t k s) g d base.code off.code 0 off.ext
  | .lds g t k s d base off => mkL 0x82 (fnMem t k s) g d base.code off.code 0 off.ext
  | .ldc g t k s d base c off => mkL 0x86 (fnMem t k s) g d base.code c.code 0 off.ext
  | .ldk g t ln d ka off => mkL 0x84 (fnMem t .weak .none) g d (kSrc ka) off.code (if ln then 1 else 0) off.ext
  | .st g t k s base off data => mkD 0x81 (fnMem t k s) g 0 base.code off.code data.code off.ext
  | .sts g t k s base off data => mkD 0x83 (fnMem t k s) g 0 base.code off.code data.code off.ext
  | .stc g t k s base c data off => mkD 0x87 (fnMem t k s) g 0 base.code c.code data.code off.ext
  | .stk g t k s ka off data => mkD 0x85 (fnMem t k s) g 0 (kSrc ka) off.code data.code off.ext
  | .ldq g t d base off ter dm1 grp => mkL 0x88 (fnMem t .weak .none) g d base.code off.code
      ((if ter then 1#1 else 0#1) ++ dm1 ++ grp) off.ext
  | .pfetch g base off => mkD 0x89 0 g 0 base.code off.code 0 off.ext
  | .atom g op w o s d base off v => mkL 0x90 (fnAtom op.code w o s) g d base.code off.code v.code off.ext
  | .atoms g op w o d base off v => mkL 0x93 (fnAtom op.code w o .blk) g d base.code off.code v.code off.ext
  | .atomcas g w o s d base c n off => mkL 0x91 (fnAtom 0 w o s) g d base.code c.code n.code off.ext
  | .atomscas g w o d base c n off => mkL 0x94 (fnAtom 0 w o .blk) g d base.code c.code n.code off.ext
  | .atomf g op o s d base off v => mkL 0x92 (fnAtom op.code false o s) g d base.code off.code v.code off.ext
  | .wsig g w s base data ga off => mkD 0x95 (fnAtom 0 w .rel s) g 0 base.code data.code ga.code off.ext
  | .mldw g (.bare f ka) => mkD 0xA0 (fnMat 0 f.code false) g 0 (kSrc ka) 0 0 .none
  | .mldw g (.par f ka) => mkD 0xA0 (fnMat 1 f.code false) g 0 (kSrc ka) 0 0 .none
  | .mldw g (.ter ka tp dm1) => mkD 0xA0 (fnMat 2 0x14 false) g 0 (kSrc ka) tp.code (ctl dm1) tp.ext
  | .mswap g => mkD 0xA1 0 g 0 0 0 0 .none
  | .mstr g par f b va gm1 => mkD 0xA2 (fnMat (if par then 1 else 0) f.code b) g 0 va.code 0 (ctl gm1) va.ext
  | .mzero g s32 b => mkD 0xA3 (fnMat 0 (if s32 then 5 else 8) b) g 0 0 0 0 .none
  | .mdrain g rel coop f b ka pitch nr => mkD 0xA4
      (fnMat (0#2 ++ (if coop then 1#1 else 0#1) ++ (if rel then 1#1 else 0#1)) f.code b) g 0 (kSrc ka) pitch.code
      (ctl nr) pitch.ext
  | .mgateTake g => mkD 0xA5 (fn46 0 0) g 0 0 0 0 .none
  | .mgateTry g qd => mkD 0xA5 (fn46 1 0) g (pField qd) 0 0 0 .none
  | .mgateGive g => mkD 0xA5 (fn46 2 0) g 0 0 0 0 .none
  | .mcoop g kd sh kg => mkD 0xA6 (fn46 0 0) g (kField kd) sh.code (kSrc kg) 0 .none
  | .mcoopClr g => mkD 0xA6 (fn46 1 0) g 0 0 0 0 .none
  | .mrestart g d => mkD 0xA7 0 g 0 0 0 0 (.imm32 d)
  | .mend g => mkD 0xA8 0 g 0 0 0 0 .none
  | .mstatSt g kd => mkD 0xA9 (fn46 0 0) g (kField kd) 0 0 0 .none
  | .mstatAcc g b kd pos => mkD 0xA9 (fnMat 1 0 b) g (kField kd) pos.code 0 0 pos.ext
  | .mstatBal g kd => mkD 0xA9 (fn46 2 0) g (kField kd) 0 0 0 .none
  | .scopy g n m ch tag ka kb kn => mkS 0xB0 (n ++ (if m then 1#1 else 0#1) ++ 0#1) g tag ch (kSrc ka) kb kn
  | .sgather g f ls ch tag ka kb kn => mkS 0xB1
      ((match f with | .x32 => 0#2 | .x64 => 1#2 | .ter => 2#2) ++ (if ls then 1#1 else 0#1) ++ 0#1) g tag ch (kSrc ka) kb kn
  | .sscatter g x ls ch tag ka kb kn => mkS 0xB2
      ((if x then 1#2 else 0#2) ++ (if ls then 1#1 else 0#1) ++ 0#1) g tag ch (kSrc ka) kb kn
  | .sfill g n (.mem ka) ch tag kb kn => mkS 0xB3 (n ++ 1#1 ++ 0#1) g tag ch (kSrc ka) kb kn
  | .sfill g n .sp ch tag kb kn => mkS 0xB3 (n ++ 0#1 ++ 0#1) g tag ch 0 kb kn
  | .pushq g q gang ks => mkD 0xB4 (fnSync 0 .none (0#1 ++ q)) g 0 ks.code gang.code 0 .none
  | .popq g kd q => mkD 0xB5 (fnSync 0 .none (0#1 ++ q)) g (kField kd) 0 0 0 .none
  | .setgsClr g s => mkD 0xB6 (fnSync 0 .none s) g 0 0 0 0 .none
  | .setgs g s .t => mkD 0xB6 (fnSync 1 .none s) g 0 0 0 0 .none
  | .setgs g s .f => mkD 0xB6 (fnSync 2 .none s) g 0 0 0 0 .none
  | .setgs g s (.ks k) => mkD 0xB6 (fnSync 3 .none s) g 0 (kSrc k) 0 0 .none
  | .barinit g b (.counted n) => mkD 0xB7 (fn46 0 0) g 0 b.code n.code 0 .none
  | .barinit g b .blk => mkD 0xB7 (fn46 1 0) g 0 b.code 0 0 .none
  | .barinit g b .blkf => mkD 0xB7 (fn46 2 0) g 0 b.code 0 0 .none
  | .bararr g qd b n => mkD 0xB8 0 g (pField qd) b.code n.code 0 .none
  | .barexp g b n => mkD 0xB9 0 g 0 b.code n.code 0 n.ext
  | .barwait g b qs => mkD 0xBA (fnSync 0 .none qs) g 0 b.code 0 0 .none
  | .gaugeadd g sc ka n => mkD 0xBB (fnSync 0 sc 0) g 0 (kSrc ka) n.code 0 n.ext
  | .gaugewait g sc ka n => mkD 0xBC (fnSync 0 sc 0) g 0 (kSrc ka) n.code 0 n.ext
  | .mbsend g t ks => mkD 0xBD (fn46 0 0) g 0 t.code ks.code 0 t.ext
  | .mbsendTry g qd t ks => mkD 0xBD (fn46 1 0) g (pField qd) t.code ks.code 0 t.ext
  | .mbrecv g kd m => mkD 0xBE 0 g (kField kd) m.code 0 0 .none
  | .loopk g kc d => mkD 0xBF 0 g (kField kc) 0 0 0 (.imm32 d)
  | .kmov g t kd a => mkD 0xC0 (fnInt 0 t false) g (kField kd) a.code 0 0 .none
  | .kmovi g t hi kd a => mkD 0xC1 (fnInt (if hi then 1 else 0) t false) g (kField kd) a.code 0 0 a.ext
  | .kadd g t s kd a b => mkD 0xC2 (fnInt 0 t s) g (kField kd) a.code b.code 0 b.ext
  | .ksub g t s kd a b => mkD 0xC3 (fnInt 0 t s) g (kField kd) a.code b.code 0 b.ext
  | .kmul g t kd a b => mkD 0xC4 (fnInt 0 t false) g (kField kd) a.code b.code 0 b.ext
  | .kmad g t s kd a b c => mkD 0xC5 (fnInt 0 t s) g (kField kd) a.code b.code c.code c.ext
  | .kand g t kd a b => mkD 0xC6 (fnInt 0 t false) g (kField kd) a.code b.code 0 b.ext
  | .kor g t kd a b => mkD 0xC7 (fnInt 0 t false) g (kField kd) a.code b.code 0 b.ext
  | .kxor g t kd a b => mkD 0xC8 (fnInt 0 t false) g (kField kd) a.code b.code 0 b.ext
  | .kshl g t kd a b => mkD 0xC9 (fnInt 0 t false) g (kField kd) a.code b.code 0 b.ext
  | .kshr g t kd a b => mkD 0xCA (fnInt 0 t false) g (kField kd) a.code b.code 0 b.ext
  | .ksar g t kd a b => mkD 0xCB (fnInt 0 t false) g (kField kd) a.code b.code 0 b.ext
  | .kmin g t kd a b => mkD 0xCC (fnInt 0 t false) g (kField kd) a.code b.code 0 b.ext
  | .kmax g t kd a b => mkD 0xCD (fnInt 0 t false) g (kField kd) a.code b.code 0 b.ext
  | .kcmp g c t qd a b => mkD 0xCE (fnInt c.code t false) g (pField qd) a.code b.code 0 b.ext
  | .ksel g t kd a b qs => mkD 0xCF (fnInt 0 t false) g (kField kd) a.code b.code qs.code b.ext
  | .kld g t kd ka off => mkD 0xD0 (fnInt 0 t false) g (kField kd) (kSrc ka) off.code 0 off.ext
  | .kst g t ka off ks => mkD 0xD1 (fnInt 0 t false) g 0 (kSrc ka) off.code ks.code off.ext
  | .kreadlane g t kd a n => mkD 0xD2 (fnInt 0 t false) g (kField kd) a.code n.code 0 n.ext
  | .kbcast g t d a => mkL 0xD3 (fnInt 0 t false) g d a.code 0 0 a.ext
  | .fork g sc ka => mkD 0xE0 (0#4 ++ sc.code ++ 0#4) g 0 (kSrc ka) 0 0 .none
  | .join g kd t => mkD 0xE1 0 g (kField kd) t.code 0 0 t.ext
  | .abandon g => mkD 0xE2 0 g 0 0 0 0 .none
  | .viewInfo g kd => mkD 0xE3 (fn46 0 0) g (kField kd) 0 0 0 .none
  | .viewAddr g kd ka off => mkD 0xE3 (fn46 1 0) g (kField kd) (kSrc ka) off.code 0 off.ext
  | .range g kd => mkD 0xE4 0 g (kField kd) 0 0 0 .none
  | .launch g ka => mkD 0xE5 0 g 0 (kSrc ka) 0 0 .none
  | .rqalloc g kd kq => mkD 0xE6 (fn46 0 0) g (kField kd) (kSrc kq) 0 0 .none
  | .rqallocTry g kd kq => mkD 0xE6 (fn46 1 0) g (kField kd) (kSrc kq) 0 0 .none
  | .rqcommit g kq ka key => mkD 0xE7 0 g 0 (kSrc kq) (kSrc ka) key.code .none
  | .rqclose g kq => mkD 0xE8 0 g 0 (kSrc kq) 0 0 .none
  | .pair .. | .issueCycle .. | .entryStarved .. | .feederIssue .. | .activeSetSwap .. | .loadComplete ..
  | .storePerformed .. | .atomicPerformed .. | .wsigSignal .. | .mwaitWake .. | .walkComplete ..
  | .commandStart .. | .pieceDelivered .. | .commandComplete .. | .commandDiscarded .. | .barwaitResume ..
  | .gaugewaitResume .. | .mbrecvResume .. | .mbsendAppend .. | .popqResume .. | .pushqAppend ..
  | .eventDispatch .. | .gateGrant .. | .growGrant .. | .poolStandstillEvict .. | .mdrainComplete ..
  | .blockEnd .. | .prefixStep .. | .slotGrant .. | .forkRollback .. | .contributionArrival ..
  | .sliceBroadcast .. | .dispatch .. | .weirInterval .. | .recordQueueLaunch .. | .recordQueueTimer ..
  | .rqallocResume .. | .gridRetire .. | .asyncFaultTaken .. | .dumpWrite .. | .preemptStop ..
  | .preemptSave .. | .restore .. | .checksumArrival .. | .samplePeriod .. | .scrubPeriod ..
  | .uncorrectableError .. | .hostRead .. | .hostWrite .. | .remoteAccess .. | .launchPacket ..
  | .forkchipOpen .. | .forkchipCancel .. | .levelPacket .. | .levelChange .. | .fencePacket .. | .gwait ..
  | .gadd .. | .captureStart .. | .captureStop .. | .regionPacket .. | .regionRoot .. | .powerPacket ..
  | .queueTailWrite .. | .queueRestart .. | .queueSkip .. | .ctxCreate .. | .ctxDestroy .. | .ctxReset ..
  | .mapPages .. | .unmapPages .. | .queueBind .. | .preempt .. | .resume .. | .importImages .. | .query ..
  | .debugMode .. | .peerEntry .. | .setReservoir .. | .setScrubPeriod .. | .setRiseLimit ..
  | .setFallLimit .. | .setAgingThreshold .. | .setPowerState .. | .setErrorLogRing ..
  | .setErrorLogEntries .. | .fwStage .. | .getVersion .. | .getCapabilities .. | .negotiateAlgorithms ..
  | .getDigests .. | .getCertificate .. | .challenge .. | .getMeasurements .. | .keyExchange .. | .finish ..
  | .keyUpdate .. | .heartbeat .. | .endSession .. | .keyLoad .. | .keyGrant .. | .keyRemove ..
  | .deviceReset .. | .thermalTrip .. | .powerStateChange .. | .vfLeavesRun .. | .linkTagFail ..
  | .linkPortDown .. | .linkRekey .. | .correctedError .. | .linkPortReturn .. | .linkCheckReplay ..
  | .powerRemoval .. | .instructionFetchComplete .. | .vfEntersRun .. => Option.none

/-- Fields of every encoded instruction. -/
def encode : Instr → Option Enc
  | .pair l u =>
    match encode1 l, encode1 u with
    | some x, some y => some ⟨x.base, .pair { y.base with guard := 0 }⟩
    | _, _ => Option.none
  | i => encode1 i

/-- The bytes of an instruction, lowest address first: none for a row that is not encoded. -/
def encodeBytes (i : Instr) : Option (List Byte) :=
  (encode i).map fun x =>
    (List.range x.ext.bytes).map fun n => (joinBits x).extractLsb' (8 * n) 8

end Sys2Proof
end

