-- ==== Sys2Proof/Config.lean ====
section
/-! DEFINITION. Config.lean: the free values of the model. Each is a constant without a body: nothing
can be proved of its value. The first argument of a free value is the tick of the machine where a fresh
value is meant at each use (log 6). -/

namespace Sys2Proof.Config

open Sys2Proof

/-- Whether L2 still holds a line it was filled with (R66, R73; replacement is not stated). -/
opaque l2Keeps (tick line : Nat) : Bool

/-- Which line of a full slice makes room, where no streaming line does (R66; replacement is not stated). -/
opaque l2Evicts (tick line : Nat) : Nat

/-- Whether LDK returns a byte that its read-only buffer holds in place of the current one (R200). -/
opaque ldkStale (tick : Nat) : Bool

/-- A fresh key made by the Reeve (R396, R405). -/
opaque genKey (tick : Nat) : BitVec 512

/-- The key that a session of two Reeves sets for one direction of a port (R404). -/
opaque linkKey (tick port : Nat) (out : Bool) : BitVec 256

/-- Whether two steps lie within one second (R404). -/
opaque withinSecond (first last : Nat) : Bool

/-- Bytes of an SPDM response, which the spec does not lay out (R395): its request, what it tells, and the key that signs it. -/
opaque spdmBytes (tick code : Nat) (content : List Nat) (signer : Option (BitVec 384)) : List Byte

/-- The public key of a private key (R394). -/
opaque publicKey (key : BitVec 384) : BitVec 768

/-- The key that a boot derives from the identity key and the digests of the firmware, in the manner of TCG DICE (R394). -/
opaque aliasKey (identity : BitVec 384) (digests : List (BitVec 384)) : BitVec 384

/-- The root and the product certificate of the chain (R394). -/
opaque osnasChain : List Nat

/-- A certificate of a public key that names some numbers, with the private key that signs it where the device holds that (R394). -/
opaque certificate (signer : Option (BitVec 384)) (names : List Nat) (key : BitVec 768) : List Nat

/-- The number by which a privilege fault of cause 1 names a resource in w0 (R154, R351; the numbers are not stated): kind of
the resource. One value at all times (R22). -/
opaque resourceCode (kind : Nat) : W64

/-- Where in device-reserved memory the region of a fork stands (R105, R324; not stated): fork. -/
opaque forkRegion (fork : Nat) : W64

/-- Ballast cycles that a core's array takes in one interval (R250, R341); the spec states them for the die only. -/
opaque ballastCycles (tick core : Nat) : W64

/-- Times and replays of a memory sample (R372), which reach no result. -/
opaque sampleTime (tick field : Nat) : Nat

end Sys2Proof.Config
end

