-- ==== Sys2Proof/Machine/Aes.lean ====
section
/-! DEFINITION. Machine/Aes.lean: the cipher of local HBM, AES-256-XTS with one 32-byte sector as the data unit (03 R72).
The spec names the cipher; the block cipher is that of FIPS 197 and the mode that of IEEE 1619, with the first half of a
key for the data and the second for the tweak, byte i of a key, block or sector being its bits 8i to 8i + 7 (log 4). -/

namespace Sys2Proof.Machine

open Sys2Proof

/-! ### The field of 256 elements -/

/-- The substitution of AES, 32 values a row, the first lowest. -/
def aesSub (x : Byte) : Byte :=
  let row : BitVec 256 := match x.toNat / 32 with
    | 0 => 0xC072A49CAFA2D4AD_F04759FA7DC982CA_76ABD7FE2B670130_C56F6BF27B777C63
    | 1 => 0x75B227EBE2801207_9A059618C323C704_1531D871F1E5A534_CCF73F362693FDB7
    | 2 => 0xCF584C4A39BECB6A_5BB1FC20ED00D153_842FE329B3D63B52_A05A6E1B1A2C8309
    | 3 => 0xD2F3FF1021DAB6BC_F5389D928F40A351_A89F3C507F02F945_85334D43FBAAEFD0
    | 4 => 0xDB0B5EDE14B8EE46_88902A22DC4F8160_73195D643D7EA7C4_1744975FEC130CCD
    | 5 => 0x08AE7A65EAF4566C_A94ED58D6D37C8E7_79E4959162ACD3C2_5C2406490A3A32E0
    | 6 => 0x9E1DC186B9573561_0EF6034866B53E70_8A8BBD4B1F74DDE8_C6B4A61C2E2578BA
    | _ => 0x16BB54B00F2D9941_6842E6BF0D89A18C_DF2855CEE9871E9B_948ED9691198F8E1
  (row >>> (8 * (x.toNat % 32))).setWidth 8

/-- Its inverse. -/
def aesSubInv (x : Byte) : Byte :=
  let row : BitVec 256 := match x.toNat / 32 with
    | 0 => 0xCBE9DEC444438E34_87FF2F9B8239E37C_FBD7F3819EA340BF_38A53630D56A0952
    | 1 => 0x25D18B6D49A25B76_B224D92866A12E08_4EC3FA420B954CEE_3D23C2A632947B54
    | 2 => 0x849D8DA75746155E_DAB9EDFD5048706C_92B6655DCC5CA4D4_1698688664F6F872
    | 3 => 0x6B8A130103BDAFC1_020F3FCA8F1E2CD0_0645B3B80558E4F7_0AD3BC8C00ABD890
    | 4 => 0x6EDF751CE837F9E2_8535ADE72274AC96_73E6B4F0CECFF297_EADC674F4111913A
    | 5 => 0xF45ACD78FEC0DB9A_2079D2C64B3E56FC_1BBE18AA0E62B76F_89C5291D711AF147
    | 6 => 0xEF9CC9939F7AE52D_0D4AB519A97F5160_5FEC8027591012B1_31C7078833A8DD1F
    | _ => 0x7D0C2155631469E1_26D677BA7E042B17_619953833CBBEBC8_B0F52AAE4D3BE0A0
  (row >>> (8 * (x.toNat % 32))).setWidth 8

/-- Doubling modulo x^8 + x^4 + x^3 + x + 1. -/
def aesDouble (x : Byte) : Byte := (x <<< 1) ^^^ (if x.getLsbD 7 then 0x1B else 0)

/-- Multiplication by a number below 16. -/
def aesTimes (c : Nat) (x : Byte) : Byte :=
  let x2 := aesDouble x
  let x4 := aesDouble x2
  let pick := fun (i : Nat) (v : Byte) => if c.testBit i then v else 0
  pick 0 x ^^^ pick 1 x2 ^^^ pick 2 x4 ^^^ pick 3 (aesDouble x4)

/-! ### Blocks: lists of 16 bytes, four to a column -/

/-- Byte-wise exclusive or. -/
def xorBytes (a b : List Byte) : List Byte := a.zipWith (· ^^^ ·) b

/-- Row r of the state moves r columns to the left, or by `back` columns a row to the right. -/
def aesShift (back : Bool) (s : List Byte) : List Byte :=
  (List.range 16).map (fun i =>
    let r := i % 4
    let c := i / 4
    s.getD (4 * ((if back then c + 4 - r else c + r) % 4) + r) 0)

/-- Every column times a circulant matrix, given by its first row. -/
def aesMix (m : List Nat) (s : List Byte) : List Byte :=
  (List.range 16).map (fun i =>
    let r := i % 4
    let c := i / 4
    (List.range 4).foldl (fun x j => x ^^^ aesTimes (m.getD ((j + 4 - r) % 4) 0) (s.getD (4 * c + j) 0)) 0)

/-- The words of the key schedule, the last first: `n` more are made from the eight that came last. -/
def aesExpand : Nat → Nat → List (List Byte) → List (List Byte)
  | 0, _, ws => ws
  | n + 1, i, ws =>
    let prev := ws.headD []
    let t := if i % 8 = 0 then xorBytes ((prev.drop 1 ++ prev.take 1).map aesSub) [BitVec.ofNat 8 (2 ^ (i / 8 - 1)), 0, 0, 0]
      else if i % 8 = 4 then prev.map aesSub else prev
    aesExpand n (i + 1) (xorBytes (ws.getD 7 []) t :: ws)

/-- The fifteen round keys of a key of 32 bytes. -/
def aesRoundKeys (key : List Byte) : List (List Byte) :=
  let first := (List.range 8).map (fun i => (key.drop (4 * i)).take 4)
  let ws := (aesExpand 52 8 first.reverse).reverse
  (List.range 15).map (fun r => ((ws.drop (4 * r)).take 4).flatten)

/-- Encryption of one block. -/
def aesEnc (rk : List (List Byte)) (b : List Byte) : List Byte :=
  let s0 := xorBytes b (rk.headD [])
  let round := fun (s k : List Byte) => xorBytes (aesMix [2, 3, 1, 1] (aesShift false (s.map aesSub))) k
  xorBytes (aesShift false (((((rk.drop 1).take 13).foldl round s0)).map aesSub)) (rk.getD 14 [])

/-- Decryption of one block. -/
def aesDec (rk : List (List Byte)) (b : List Byte) : List Byte :=
  let s0 := (aesShift true (xorBytes b (rk.getD 14 []))).map aesSubInv
  let round := fun (s k : List Byte) => (aesShift true (aesMix [14, 11, 13, 9] (xorBytes s k))).map aesSubInv
  xorBytes ((((rk.drop 1).take 13).reverse).foldl round s0) (rk.headD [])

/-! ### XTS over one sector -/

/-- Bytes of a bit vector, the lowest first. -/
def vecBytes {w : Nat} (n : Nat) (x : BitVec w) : List Byte := (List.range n).map (fun i => x.extractLsb' (8 * i) 8)
/-- The bit vector of some bytes. -/
def bytesVec (w : Nat) : List Byte → BitVec w
  | [] => 0
  | b :: t => b.setWidth w ||| (bytesVec w t <<< 8)

/-- The tweak of the next block: doubling modulo x^128 + x^7 + x^2 + x + 1. -/
def xtsNext (t : BitVec 128) : BitVec 128 := (t <<< 1) ^^^ (if t.getLsbD 127 then 0x87 else 0)

/-- Both blocks of a sector through a block function, each between its tweak. -/
def xtsRun (f : List (List Byte) → List Byte → List Byte) (key : BitVec 512) (tweak : Nat) (x : BitVec 256) : BitVec 256 :=
  let k := vecBytes 64 key
  let rk := aesRoundKeys (k.take 32)
  let t0 : BitVec 128 := bytesVec 128 (aesEnc (aesRoundKeys (k.drop 32)) (vecBytes 16 (BitVec.ofNat 128 tweak)))
  let one := fun (t : BitVec 128) (b : List Byte) => let tb := vecBytes 16 t; xorBytes (f rk (xorBytes b tb)) tb
  let l := vecBytes 32 x
  bytesVec 256 (one t0 (l.take 16) ++ one (xtsNext t0) (l.drop 16))

/-- Encryption of a sector under a key; the tweak is PA[39:5] (R72). -/
def xtsEnc (key : BitVec 512) (tweak : Nat) (plain : BitVec 256) : BitVec 256 := xtsRun aesEnc key tweak plain
/-- The matching decryption. -/
def xtsDec (key : BitVec 512) (tweak : Nat) (cipher : BitVec 256) : BitVec 256 := xtsRun aesDec key tweak cipher

end Sys2Proof.Machine
end

