-- ==== Sys2Proof/Machine/Store.lean ====
section
/-! DEFINITION. Machine/Store.lean: reading and writing sparse storage in canonical form, and the small
list helpers that every later file uses. -/

namespace Sys2Proof.Machine

open Sys2Proof

/-- What key `n` reads as; `d` for an unlisted key. -/
def sget {α : Type} (d : α) : Store α → Nat → α
  | [], _ => d
  | (k, v) :: t, n => if n = k then v else sget d t n

/-- The store with key `n` mapped to `v`, whatever the default. -/
def sput {α : Type} (s : Store α) (n : Nat) (v : α) : Store α :=
  match s with
  | [] => [(n, v)]
  | (k, w) :: t => if n < k then (n, v) :: (k, w) :: t else if n = k then (n, v) :: t else (k, w) :: sput t n v

/-- The store without key `n`. -/
def sdel {α : Type} (s : Store α) (n : Nat) : Store α := s.filter (fun p => p.1 != n)

/-- The store after writing `v` at key `n`: an entry equal to `d` is dropped. -/
def sset {α : Type} [DecidableEq α] (d : α) (s : Store α) (n : Nat) (v : α) : Store α :=
  if v = d then sdel s n else sput s n v

/-- Every key of the list is above `n`. -/
def keysAbove {α : Type} (n : Nat) : Store α → Bool
  | [] => true
  | (k, _) :: t => decide (n < k) && keysAbove n t

/-- The canonical form: keys strictly rising, no entry equal to the default. -/
def swf {α : Type} [DecidableEq α] (d : α) : Store α → Bool
  | [] => true
  | (k, v) :: t => decide (v ≠ d) && keysAbove k t && swf d t

/-- The value at key `n`, if it is listed. -/
def sfind {α : Type} (s : Store α) (n : Nat) : Option α := (s.find? (fun p => p.1 == n)).map (·.2)

/-- Writes many keys. -/
def ssetMany {α : Type} [DecidableEq α] (d : α) (s : Store α) (l : List (Nat × α)) : Store α :=
  l.foldl (fun s p => sset d s p.1 p.2) s

/-- Replaces the first record that satisfies `p`. -/
def updFirst {α : Type} (p : α → Bool) (f : α → α) : List α → List α
  | [] => []
  | x :: t => if p x then f x :: t else x :: updFirst p f t

/-- Insertion into a list kept sorted by `le`, after equal elements. -/
def insSorted {α : Type} (le : α → α → Bool) (x : α) : List α → List α
  | [] => [x]
  | y :: t => if le y x then y :: insSorted le x t else x :: y :: t

/-- A stable insertion sort. -/
def sortBy {α : Type} (le : α → α → Bool) (l : List α) : List α := l.foldl (fun a x => insSorted le x a) []

/-- The least element by a measure, the first of equals. -/
def leastBy {α : Type} (f : α → Nat) : List α → Option α
  | [] => none
  | x :: t => match leastBy f t with
    | none => some x
    | some y => if f x ≤ f y then some x else some y

/-- Numbers below `n` whose bit is set, ascending. -/
def bitsOf {w : Nat} (m : BitVec w) : List Nat := (List.range w).filter (fun i => m.getLsbD i)

/-- Lanes of a mask, ascending. -/
def lanesOf (m : Mask) : List Nat := bitsOf m

/-- One lane's bit. -/
def laneBit (l : Nat) : Mask := BitVec.ofNat 64 (2 ^ l)

/-- The mask of the lanes that satisfy `p`. -/
def maskOf (p : Nat → Bool) : Mask :=
  (List.range 64).foldl (fun m l => if p l then m ||| laneBit l else m) 0

/-- The mask of a list of lanes. -/
def maskOfList (ls : List Nat) : Mask := ls.foldl (fun m l => m ||| laneBit l) 0

/-- Bytes of a number, least significant first (00 R5). -/
def bytesOf (n : Nat) (x : Nat) : List Byte :=
  (List.range n).map (fun i => BitVec.ofNat 8 (x / 256 ^ i))

/-- The number that little-endian bytes hold. -/
def natOf : List Byte → Nat
  | [] => 0
  | b :: bs => b.toNat + 256 * natOf bs

/-- Rounds `n` up to a multiple of `k`. -/
def ceilTo (k n : Nat) : Nat := if k = 0 then n else (n + k - 1) / k * k

/-- Signed value of the low `w` bits. -/
def sx (w n : Nat) : Int := if n % 2 ^ w < 2 ^ (w - 1) then ((n % 2 ^ w : Nat) : Int) else ((n % 2 ^ w : Nat) : Int) - ((2 ^ w : Nat) : Int)

/-- The w-bit two's complement code of an integer. -/
def wrap (w : Nat) (x : Int) : Nat := (x % ((2 ^ w : Nat) : Int)).toNat

end Sys2Proof.Machine
end

