-- ==== Sys2Proof/Machine/Numeric.lean ====
section
/-! DEFINITION. Machine/Numeric.lean: exact values, rounding (04 R78 to R88), correctly rounded functions
(08 R218), and the Philox generator (08 R234). -/

namespace Sys2Proof.Machine

open Sys2Proof

/-! ### Flags of sr.fstat (R87) -/

abbrev Flags := BitVec 6
abbrev flNV : Flags := 1
abbrev flDZ : Flags := 2
abbrev flOF : Flags := 4
abbrev flUF : Flags := 8
abbrev flNX : Flags := 16
abbrev flIS : Flags := 32

/-! ### Formats (R78) -/

/-- The shape of a float format: precision with the hidden bit, exponents of the smallest normal and of the
largest finite value, the largest significand at that exponent, and whether it has infinities and NaN. -/
structure FShape where
  p : Nat
  emin : Int
  emax : Int
  maxSig : Nat
  hasInf : Bool
  hasNan : Bool
  width : Nat
  deriving DecidableEq, Repr

/-- R78. Formats that are no float format read as f32. -/
def fshape : Fmt → FShape
  | .f16 => ⟨11, -14, 15, 2047, true, true, 16⟩
  | .bf16 => ⟨8, -126, 127, 255, true, true, 16⟩
  | .e5m2 => ⟨3, -14, 15, 7, true, true, 8⟩
  | .e4m3 => ⟨4, -6, 8, 14, false, true, 8⟩
  | .e3m2 => ⟨3, -2, 4, 7, false, false, 6⟩
  | .e2m3 => ⟨4, 0, 2, 15, false, false, 6⟩
  | .e2m1 => ⟨2, 0, 2, 3, false, false, 4⟩
  | _ => ⟨24, -126, 127, 16777215, true, true, 32⟩

/-- A float value: ± m × 2^e exactly. -/
inductive FVal where
  | nan
  | inf (neg : Bool)
  | fin (neg : Bool) (m : Nat) (e : Int)
  deriving DecidableEq, Repr

def FVal.zero : FVal := .fin false 0 0

/-- Number of bits of a number. -/
def bitLen (n : Nat) : Nat := if n = 0 then 0 else Nat.log2 n + 1

/-- Exponent field width and the like follow from the shape. -/
def FShape.ebits (s : FShape) : Nat := s.width - s.p
def FShape.bias (s : FShape) : Int := 1 - s.emin

/-- The value of a code (R78, R80: bits above the width are ignored). -/
def unpackF (f : Fmt) (code : Nat) : FVal :=
  let s := fshape f
  let mant := code % 2 ^ (s.p - 1)
  let ex := code / 2 ^ (s.p - 1) % 2 ^ s.ebits
  let neg := code / 2 ^ (s.width - 1) % 2 = 1
  let top := 2 ^ s.ebits - 1
  if s.hasInf && ex == top then (if mant = 0 then .inf neg else .nan)
  else if s.hasNan && !s.hasInf && ex == top && mant == 2 ^ (s.p - 1) - 1 then .nan
  else if ex = 0 then .fin neg mant (s.emin - ((s.p - 1 : Nat) : Int))
  else .fin neg (mant + 2 ^ (s.p - 1)) ((ex : Int) - s.bias - ((s.p - 1 : Nat) : Int))

/-- The canonical NaN (R78); 0 in a format without NaN (R85). -/
def nanCode (f : Fmt) : Nat :=
  match f with
  | .f16 => 0x7E00 | .bf16 => 0x7FC0 | .e5m2 => 0x7E | .e4m3 => 0x7F
  | .e3m2 => 0 | .e2m3 => 0 | .e2m1 => 0 | _ => 0x7FC00000

def signBit (s : FShape) (neg : Bool) : Nat := if neg then 2 ^ (s.width - 1) else 0

/-- The code of the largest finite value. -/
def maxCode (f : Fmt) (neg : Bool) : Nat :=
  let s := fshape f
  signBit s neg + ((s.emax + s.bias).toNat * 2 ^ (s.p - 1) + (s.maxSig - 2 ^ (s.p - 1)))

/-- The code of an infinity. -/
def infCode (f : Fmt) (neg : Bool) : Nat :=
  let s := fshape f
  signBit s neg + (2 ^ s.ebits - 1) * 2 ^ (s.p - 1)

/-- Whether the magnitude m × 2^-s (s > 0, inexact) rounds away from the truncated `hi`; `u` is the word of
R84. `neg`: the value's sign, since a and b of R83 are ordered by value. -/
def roundsUp (r : Rnd) (neg : Bool) (hi rem s u : Nat) : Bool :=
  match r with
  | .rne => decide (2 ^ s < 2 * rem) || (decide (2 * rem = 2 ^ s) && hi % 2 == 1)
  | .rna => decide (2 ^ s ≤ 2 * rem)
  | .rz => false
  | .rdn => neg
  | .rup => !neg
  | .rsr => -- b with the drawn word below floor(2^32 × (x − a) / (b − a))
    if neg then !decide (u < 2 ^ 32 * (2 ^ s - rem) / 2 ^ s) else decide (u < 2 ^ 32 * rem / 2 ^ s)

/-- m × 2^e rounded to a multiple of 2^q: the multiple and whether it is inexact. -/
def roundAt (r : Rnd) (neg : Bool) (u : Nat) (m : Nat) (e q : Int) : Nat × Bool :=
  if q ≤ e then (m * 2 ^ (e - q).toNat, false)
  else
    let s := (q - e).toNat
    let hi := m / 2 ^ s
    let rem := m % 2 ^ s
    if rem = 0 then (hi, false) else (if roundsUp r neg hi rem s u then hi + 1 else hi, true)

/-- Options of a rounding to a format (R85). -/
structure ROpt where
  sat : Bool := false
  nan : Bool := false
  deriving DecidableEq, Repr

/-- The result on overflow of a finite value, or for an infinite one when the format has no infinity. -/
def overflowCode (f : Fmt) (r : Rnd) (o : ROpt) (neg : Bool) : Nat :=
  let s := fshape f
  if f == .e4m3 && o.nan then nanCode f
  else if s.hasInf && !o.sat then
    match r with
    | .rz => maxCode f neg
    | .rdn => if neg then infCode f neg else maxCode f neg
    | .rup => if neg then maxCode f neg else infCode f neg
    | _ => infCode f neg
  else maxCode f neg

/-- Rounds an exact value to a float format: code and flags (R83, R85, R87). A NaN raises no flag here. -/
def roundF (f : Fmt) (r : Rnd) (u : Nat) (o : ROpt) (v : FVal) : Nat × Flags :=
  let s := fshape f
  match v with
  | .nan => (nanCode f, 0)
  | .inf neg =>
    if s.hasInf && !o.sat then (infCode f neg, 0) else (overflowCode f r { o with sat := true } neg, flNV)
  | .fin neg m e =>
    if m = 0 then (signBit s neg, 0)
    else
      let top := e + ((bitLen m : Nat) : Int) - 1
      let q := max top s.emin - ((s.p - 1 : Nat) : Int)
      let (h, inx) := roundAt r neg u m e q
      let (h, q) := if h = 2 ^ s.p then (2 ^ (s.p - 1), q + 1) else (h, q)
      let tooBig := decide (s.emax - ((s.p - 1 : Nat) : Int) < q)
        || (decide (s.emax - ((s.p - 1 : Nat) : Int) = q) && decide (s.maxSig < h))
      if tooBig then (overflowCode f r o neg, flOF ||| flNX)
      else if h < 2 ^ (s.p - 1) then
        (signBit s neg + h, if inx then flUF ||| flNX else 0)
      else (signBit s neg + ((q + ((s.p - 1 : Nat) : Int) + s.bias).toNat * 2 ^ (s.p - 1) + (h - 2 ^ (s.p - 1))),
        if inx then flNX else 0)

/-- Value rounded to an integer by a mode (R86): the integer and whether it is inexact. -/
def roundInt (r : Rnd) (u : Nat) (neg : Bool) (m : Nat) (e : Int) : Int × Bool :=
  let (h, inx) := roundAt r neg u m e 0
  (if neg then -((h : Nat) : Int) else ((h : Nat) : Int), inx)

/-! ### Exact operations -/

def FVal.neg : FVal → FVal
  | .nan => .nan
  | .inf s => .inf (!s)
  | .fin s m e => .fin (!s) m e

def FVal.isNan : FVal → Bool
  | .nan => true
  | _ => false

/-- Signed integer at a common exponent. -/
def sInt (neg : Bool) (m : Nat) : Int := if neg then -((m : Nat) : Int) else ((m : Nat) : Int)

/-- The exact value of an integer times a power of two; an exact zero takes sign `zn`. -/
def ofSInt (zn : Bool) (x : Int) (e : Int) : FVal :=
  if x = 0 then .fin zn 0 e else .fin (decide (x < 0)) x.natAbs e

/-- Sum, with the sign of an exact zero sum of opposite signs by IEEE 754: minus only under rdn. -/
def addV (r : Rnd) (a b : FVal) : FVal × Flags :=
  match a, b with
  | .nan, _ => (.nan, 0)
  | _, .nan => (.nan, 0)
  | .inf s, .inf t => if s = t then (.inf s, 0) else (.nan, flNV)
  | .inf s, .fin _ _ _ => (.inf s, 0)
  | .fin _ _ _, .inf t => (.inf t, 0)
  | .fin s m e, .fin t n g =>
    if m = 0 ∧ n = 0 then (.fin (if s = t then s else decide (r = .rdn)) 0 0, 0)
    else
      let q := min e g
      (ofSInt (decide (r = .rdn)) (sInt s (m * 2 ^ (e - q).toNat) + sInt t (n * 2 ^ (g - q).toNat)) q, 0)

/-- Product (R218). -/
def mulV (a b : FVal) : FVal × Flags :=
  match a, b with
  | .nan, _ => (.nan, 0)
  | _, .nan => (.nan, 0)
  | .inf s, .inf t => (.inf (s != t), 0)
  | .inf s, .fin t n _ => if n = 0 then (.nan, flNV) else (.inf (s != t), 0)
  | .fin s m _, .inf t => if m = 0 then (.nan, flNV) else (.inf (s != t), 0)
  | .fin s m e, .fin t n g => (.fin (s != t) (m * n) (e + g), 0)

/-- Product and sum with one rounding (R218). -/
def fmaV (r : Rnd) (a b c : FVal) : FVal × Flags :=
  if a.isNan || b.isNan || c.isNan then
    -- NaN inputs raise no flag (R88)
    (.nan, 0)
  else
    let (p, f1) := mulV a b
    if p.isNan then (.nan, f1) else
    let (x, f2) := addV r p c
    (x, f1 ||| f2)

/-- Bits kept below the target precision by quotients and roots: enough for R84's 32-bit draw. -/
def guardBits : Nat := 40

/-- A value given by its leading bits, with a sticky bit for a nonzero rest. -/
def sticky (neg : Bool) (m : Nat) (e : Int) (rest : Bool) : FVal :=
  .fin neg (2 * m + if rest then 1 else 0) (e - 1)

/-- Quotient of nonzero finite values to 24 + guardBits bits. -/
def quot (neg : Bool) (m : Nat) (e : Int) (n : Nat) (g : Int) : FVal :=
  let k := 24 + guardBits + bitLen n
  let num := m * 2 ^ k
  sticky neg (num / n) (e - g - (k : Int)) (num % n != 0)

/-- Division with its special cases (R218). -/
def divV (a b : FVal) : FVal × Flags :=
  match a, b with
  | .nan, _ => (.nan, 0)
  | _, .nan => (.nan, 0)
  | .inf _, .inf _ => (.nan, flNV)
  | .inf s, .fin t _ _ => (.inf (s != t), 0)
  | .fin s _ _, .inf t => (.fin (s != t) 0 0, 0)
  | .fin s m e, .fin t n g =>
    if n = 0 then (if m = 0 then (.nan, flNV) else (.inf (s != t), flDZ))
    else if m = 0 then (.fin (s != t) 0 0, 0)
    else (quot (s != t) m e n g, 0)

/-- Integer square root, by digits: `k` result bits from the top. -/
def isqrtGo (n : Nat) : Nat → Nat → Nat
  | 0, r => r
  | k + 1, r => let c := r + 2 ^ k; isqrtGo n k (if c * c ≤ n then c else r)

def isqrt (n : Nat) : Nat := isqrtGo n (bitLen n / 2 + 1) 0

/-- Square root of m × 2^e to enough bits. -/
def rootOf (m : Nat) (e : Int) : FVal :=
  -- an even exponent, then 2 × (24 + guardBits) more bits
  let (m, e) := if e % 2 = 0 then (m, e) else (2 * m, e - 1)
  let k := 24 + guardBits
  let n := m * 2 ^ (2 * k)
  let r := isqrt n
  sticky false r (e / 2 - (k : Int)) (r * r != n)

/-- FSQRT (R218). -/
def sqrtV : FVal → FVal × Flags
  | .nan => (.nan, 0)
  | .inf s => if s then (.nan, flNV) else (.inf false, 0)
  | .fin s m e => if m = 0 then (.fin s 0 0, 0) else if s then (.nan, flNV) else (rootOf m e, 0)

/-- FRCP. -/
def rcpV (a : FVal) : FVal × Flags := divV (.fin false 1 0) a

/-- FRSQ: 1 / √(m × 2^e), from the root of 2^k / m. -/
def rsqV : FVal → FVal × Flags
  | .nan => (.nan, 0)
  | .inf s => if s then (.nan, flNV) else (.fin false 0 0, 0)
  | .fin s m e =>
    if m = 0 then (.inf s, flDZ)
    else if s then (.nan, flNV)
    else
      let (m, e) := if e % 2 = 0 then (m, e) else (2 * m, e - 1)
      -- x = m × 2^e, e even; 1/√x = √(1/m) × 2^(−e/2)
      let k := 2 * (24 + guardBits + bitLen m)
      let n := 2 ^ k / m
      let r := isqrt n
      (sticky false r (-(e / 2) - ((k / 2 : Nat) : Int)) (r * r * m != 2 ^ k), 0)

/-- Ordering of non-NaN values: negative, zero or positive as a − b. -/
def cmpV (a b : FVal) : Int :=
  match a, b with
  | .inf s, .inf t => if s = t then 0 else if s then -1 else 1
  | .inf s, _ => if s then -1 else 1
  | _, .inf t => if t then 1 else -1
  | .fin s m e, .fin t n g =>
    let q := min e g
    sInt s (m * 2 ^ (e - q).toNat) - sInt t (n * 2 ^ (g - q).toNat)
  | _, _ => 0

/-- Whether the value carries a minus sign. -/
def FVal.sign : FVal → Bool
  | .nan => false
  | .inf s => s
  | .fin s _ _ => s

/-- The smaller (R219): −0 below +0, a NaN gives NaN. -/
def minV (a b : FVal) : FVal :=
  if a.isNan || b.isNan then .nan
  else if cmpV a b < 0 then a else if cmpV a b > 0 then b else if a.sign then a else b
/-- The larger (R219). -/
def maxV (a b : FVal) : FVal :=
  if a.isNan || b.isNan then .nan
  else if cmpV a b > 0 then a else if cmpV a b < 0 then b else if a.sign then b else a

/-! ### Transcendental functions: fixed-point enclosures with P fraction bits -/

/-- x^1/1! …: the exponential of a fixed-point number below 1, by its series until the terms vanish. -/
def expSer (P : Nat) (x : Int) : Nat → Nat → Int → Int → Int
  | 0, _, _, s => s
  | fuel + 1, k, t, s =>
    let t := t * x / ((2 ^ P : Nat) : Int) / ((k : Nat) : Int)
    if t = 0 then s else expSer P x fuel (k + 1) t (s + t)

/-- 2 × Σ 1 / ((2k + 1) 3^(2k+1)) = ln 2, scaled by 2^P. -/
def ln2Ser (P : Nat) : Nat → Nat → Nat → Nat → Nat
  | 0, _, _, s => s
  | fuel + 1, k, t, s => if t = 0 then s else ln2Ser P fuel (k + 1) (t / 9) (s + t / (2 * k + 1))
def ln2 (P : Nat) : Nat := 2 * ln2Ser P (P + 8) 0 (2 ^ P / 3) 0

/-- arctan(1/n) × 2^P by its alternating series. -/
def atanSer (n : Nat) : Nat → Nat → Nat → Int → Int
  | 0, _, _, s => s
  | fuel + 1, k, t, s =>
    if t = 0 then s
    else atanSer n fuel (k + 1) (t / (n * n))
      (if k % 2 = 0 then s + ((t / (2 * k + 1) : Nat) : Int) else s - ((t / (2 * k + 1) : Nat) : Int))
/-- π × 2^P, by Machin's formula. -/
def piFix (P : Nat) : Int :=
  4 * (4 * atanSer 5 (P + 8) 0 (2 ^ P / 5) 0 - atanSer 239 (P + 8) 0 (2 ^ P / 239) 0)

/-- m × 2^e as a fixed-point number with P fraction bits, rounded down. -/
def toFix (P : Nat) (neg : Bool) (m : Nat) (e : Int) : Int :=
  let x := e + (P : Int)
  let a : Nat := if 0 ≤ x then m * 2 ^ x.toNat else m / 2 ^ (-x).toNat
  sInt neg a

/-- e^x for a fixed-point x: significand and exponent (value s × 2^k / 2^P). -/
def expFix (P : Nat) (x : Int) : Int × Int :=
  let l : Int := ln2 P
  let k := x / l
  (expSer P (x - k * l) (P + 8) 1 ((2 ^ P : Nat) : Int) ((2 ^ P : Nat) : Int), k)

/-- sin or cos of a fixed-point number: Σ ± x^n / n! from the given first term. -/
def sinSer (P : Nat) (x2 : Int) : Nat → Nat → Int → Int → Int
  | 0, _, _, s => s
  | fuel + 1, k, t, s =>
    let t := -(t * x2 / ((2 ^ P : Nat) : Int)) / (((k + 1) * (k + 2) : Nat) : Int)
    if t = 0 ∨ t = -1 then s else sinSer P x2 fuel (k + 2) t (s + t)

/-- Σ z^(2k+1) / (2k+1): arctanh of a fixed-point number. -/
def atanhSer (P : Nat) (z2 : Int) : Nat → Nat → Int → Int → Int
  | 0, _, _, s => s
  | fuel + 1, k, t, s =>
    if t = 0 ∨ t = -1 then s
    else atanhSer P z2 fuel (k + 1) (t * z2 / ((2 ^ P : Nat) : Int)) (s + t / (((2 * k + 1 : Nat)) : Int))

/-- The six functions of R217 majors 0x4C to 0x51. -/
inductive TFun where
  | exp2 | log2 | sin | cos | tanh | sigm
  deriving DecidableEq, Repr

/-- An approximation v × 2^x of the function at ± m × 2^e (m > 0) from a P-bit computation. -/
def approx (f : TFun) (P : Nat) (neg : Bool) (m : Nat) (e : Int) : Int × Int :=
  let one : Int := ((2 ^ P : Nat) : Int)
  let pi : Int := -(P : Int)
  match f with
  | .exp2 =>
    let a := toFix P neg m e
    let n := a / one
    let fr := a - n * one
    (expSer P (fr * (ln2 P : Int) / one) (P + 8) 1 one one, pi + n)
  | .log2 =>
    -- a = c × 2^k with c in [1, 2); near 2 the halved c keeps small results precise
    let k := e + ((bitLen m : Nat) : Int) - 1
    let c := toFix P false m (1 - ((bitLen m : Nat) : Int))
    let (c, k) := if c > one + one / 2 then (c / 2, k + 1) else (c, k)
    let zf := (c - one) * one / (c + one)
    let ln := 2 * atanhSer P (zf * zf / one) (P + 8) 0 zf 0
    (k * one + ln * one / (ln2 P : Int), pi)
  | .sin | .cos =>
    -- reduction by π/2 with as many more bits as the argument has before its point
    let x := (max (e + ((bitLen m : Nat) : Int)) 0).toNat
    let Q := P + x + 8
    let a := toFix Q false m e
    let h := piFix Q / 2
    let k := a / h
    let r := (a - k * h) / ((2 ^ (x + 8) : Nat) : Int)
    let r2 := r * r / one
    let s := sinSer P r2 (P + 8) 1 r r
    let c := sinSer P r2 (P + 8) 0 one one
    let k := (k % 4).toNat
    if f = .sin then
      let v := if k = 0 then s else if k = 1 then c else if k = 2 then -s else -c
      (if neg then -v else v, pi)
    else (if k = 0 then c else if k = 1 then -s else if k = 2 then -c else s, pi)
  | .tanh =>
    let a := min (toFix P false m e) (64 * one)
    let (s, k) := expFix P (-2 * a)
    let t := s / ((2 ^ (-k).toNat : Nat) : Int)
    let v := (one - t) * one / (one + t)
    (if neg then -v else v, pi)
  | .sigm =>
    let a := min (toFix P false m e) (256 * one)
    let (s, k) := expFix P (-a)
    let t := s / ((2 ^ (-k).toNat : Nat) : Int)
    (if neg then t * one / (one + t) else one * one / (one + t), pi)

/-- Bits to start from, so that a small result keeps its relative precision. -/
def approxBits (f : TFun) (m : Nat) (e : Int) : Nat :=
  let top := e + ((bitLen m : Nat) : Int)
  let small := (-top).toNat
  match f with
  | .exp2 => 96
  | .log2 => 128
  | .sin | .cos => 128 + small
  | .tanh => 128 + 2 * small
  | .sigm => 128 + (if top < 9 then 2 * 2 ^ top.toNat else 1024)

/-- The signed value of the middle of an enclosure's end, with a sticky bit: the results are irrational. -/
def endVal (v x : Int) : FVal :=
  if v = 0 then .fin false 1 (x - 1) else .fin (decide (v < 0)) (2 * v.natAbs + 1) (x - 1)

/-- Rounds when both ends of the enclosure round alike, else tries with more bits. -/
def approxGo (f : TFun) (neg : Bool) (m : Nat) (e : Int) : Nat → Nat → Nat × Flags
  | 0, P => let (v, x) := approx f P neg m e; roundF .f32 .rne 0 {} (endVal v x)
  | fuel + 1, P =>
    let (v, x) := approx f P neg m e
    let d : Int := ((2 ^ 24 : Nat) : Int)
    let lo := roundF .f32 .rne 0 {} (endVal (v - d) x)
    let hi := roundF .f32 .rne 0 {} (endVal (v + d) x)
    if lo = hi then lo else approxGo f neg m e fuel (2 * P)

/-- FEXP2 to FSIGM: the f32 code and its flags (R218). -/
def transF (f : TFun) (a : FVal) : Nat × Flags :=
  let one := 0x3F800000
  match a with
  | .nan => (nanCode .f32, 0)
  | .inf s =>
    match f with
    | .exp2 => if s then (0, 0) else (infCode .f32 false, 0)
    | .log2 => if s then (nanCode .f32, flNV) else (infCode .f32 false, 0)
    | .sin | .cos => (nanCode .f32, flNV)
    | .tanh => (if s then one + 2 ^ 31 else one, 0)
    | .sigm => if s then (0, 0) else (one, 0)
  | .fin s m e =>
    match f with
    | .exp2 =>
      if m = 0 then (one, 0)
      else
        let top := e + ((bitLen m : Nat) : Int)
        if top > 9 then roundF .f32 .rne 0 {} (.fin false 1 (if s then -400 else 400))
        else if e ≥ 0 ∨ m % 2 ^ (-e).toNat = 0 then
          roundF .f32 .rne 0 {} (.fin false 1 (sInt s (roundAt .rz false 0 m e 0).1))
        else approxGo f s m e 6 (approxBits f m e)
    | .log2 =>
      if m = 0 then (infCode .f32 true, flDZ)
      else if s then (nanCode .f32, flNV)
      else if m = 2 ^ (bitLen m - 1) then
        roundF .f32 .rne 0 {} (ofSInt false (e + ((bitLen m : Nat) : Int) - 1) 0)
      else approxGo f s m e 6 (approxBits f m e)
    | .sin => if m = 0 then (if s then 2 ^ 31 else 0, 0) else approxGo f s m e 6 (approxBits f m e)
    | .cos => if m = 0 then (one, 0) else approxGo f s m e 6 (approxBits f m e)
    | .tanh => if m = 0 then (if s then 2 ^ 31 else 0, 0) else approxGo f s m e 6 (approxBits f m e)
    | .sigm =>
      if m = 0 then (0x3F000000, 0)
      else if e + ((bitLen m : Nat) : Int) > 9 then
        (if s then roundF .f32 .rne 0 {} (.fin false 1 (-400)) else (one, flNX))
      else approxGo f s m e 6 (approxBits f m e)

/-! ### Integers of a type -/

/-- The range of a signed or unsigned w-bit integer. -/
def intMin (signed : Bool) (w : Nat) : Int := if signed then -((2 ^ (w - 1) : Nat) : Int) else 0
def intMax (signed : Bool) (w : Nat) : Int :=
  if signed then ((2 ^ (w - 1) : Nat) : Int) - 1 else ((2 ^ w : Nat) : Int) - 1

/-- Clamped value and whether it was clamped. -/
def clampInt (signed : Bool) (w : Nat) (x : Int) : Int × Bool :=
  if x < intMin signed w then (intMin signed w, true)
  else if intMax signed w < x then (intMax signed w, true)
  else (x, false)

/-- The integer that a w-bit code stands for. -/
def intVal (signed : Bool) (w n : Nat) : Int := if signed then sx w n else ((n % 2 ^ w : Nat) : Int)

/-- Signedness of a format. -/
def fmtSigned : Fmt → Bool
  | .s8 | .s16 | .s32 | .s64 | .s4 => true
  | _ => false

/-! ### Philox4x32-10 (R234) -/

abbrev M32 : Nat := 2 ^ 32

/-- One round on (c0, c1, c2, c3). -/
def philoxRound (k0 k1 : Nat) (c : Nat × Nat × Nat × Nat) : Nat × Nat × Nat × Nat :=
  let p0 := 0xD2511F53 * c.1
  let p1 := 0xCD9E8D57 * c.2.2.1
  ((p1 / M32) ^^^ c.2.1 ^^^ k0, p1 % M32, (p0 / M32) ^^^ c.2.2.2 ^^^ k1, p0 % M32)

def philoxGo : Nat → Nat → Nat → Nat × Nat × Nat × Nat → Nat × Nat × Nat × Nat
  | 0, _, _, c => c
  | n + 1, k0, k1, c => philoxGo n ((k0 + 0x9E3779B9) % M32) ((k1 + 0xBB67AE85) % M32) (philoxRound k0 k1 c)

/-- Ten rounds from a launch key and a counter. -/
def philox (key : W64) (c : Nat × Nat × Nat × Nat) : List Nat :=
  let r := philoxGo 10 (key.toNat % M32) (key.toNat / M32) c
  [r.1, r.2.1, r.2.2.1, r.2.2.2]

/-- The counter of a thread's draw (R234). -/
def drawCounter (draw tid : Nat) (blk : Nat) : Nat × Nat × Nat × Nat :=
  (draw % M32, tid % 2048 + 2048 * (draw / M32 % 2 ^ 21), blk % M32, blk / M32 % 2 ^ 31)

end Sys2Proof.Machine
end

