-- ==== Sys2Proof/Machine/State.lean ====
section
/-! DEFINITION. Machine/State.lean: every piece of state the spec gives the device, as plain data.
Each record cites the rule that names it; INVENTORY.md lists the reset values. -/

namespace Sys2Proof.Machine

open Sys2Proof

/-! ### Memory places -/

/-- One translated place of global memory (R62, R64): aperture 0 holds a physical address of local HBM,
aperture 1 a host bus address, aperture 2 the peer's serial, the index `ent` of its entry in the peer table, and its physical
address. -/
structure Loc where
  ap : Nat := 0
  addr : Nat := 0
  peer : Nat := 0
  ent : Nat := 0
  key : Nat := 0
  redop : Nat := 0
  redtype : Nat := 0
  cache : Nat := 0
  va : W64 := 0
  deriving DecidableEq, Repr

/-- Where a load delivers its value: a lane destination or a uniform register (R192). -/
inductive LoadDst where
  | lane (d : Dst)
  | uni (kd : BitVec 6)
  deriving DecidableEq, Repr

/-- One lane's part of an outstanding access. `sp` names a scratchpad (block) instead of memory; `fin`: the lane is through. -/
structure LaneAcc where
  lane : Nat
  loc : Loc
  sp : Option Nat := none
  data : List Byte := []
  fin : Bool := false
  deriving DecidableEq, Repr

/-- What an outstanding operation of R192 still has to do. -/
inductive OpBody where
  | load (t : LaneTy) (n : Nat) (dst : LoadDst) (acc : List LaneAcc) (acq ro : Bool)
  | store (acc : List LaneAcc) (rel : Bool)
  | atomic (n : Nat) (dst : Dst) (waiting : List Nat) (acq rel : Bool)
  | gaugeAdd (loc : Loc) (amount : W64)
  | wsig (acc : List LaneAcc) (gauges : List (Nat × Loc)) (payloadDone : Bool)
  | drain (core : Nat) (bank : Bool) (fmt : Fmt) (addr pitch : Nat) (rows : List (List W32)) (s32 : Bool)
      (flags : BitVec 6) (coop : Option Loc) (rel : Bool)
  deriving DecidableEq, Repr

/-- One outstanding operation of a gang, in age order (R192), with the flags that its steps have raised (R198),
and, where it is sampled, its lanes and sectors (R372). `group`: not zero where gangs of one issue group address one location
with it, the same for all of their operations (R189). -/
structure Op where
  id : Nat
  cls : Nat
  done : Bool
  lanes : Mask
  addr : W64
  walks : List Nat
  body : OpBody
  insn : W128 := 0
  sampled : Option (Nat × Nat) := none
  flags : BitVec 6 := 0
  group : Nat := 0
  deriving DecidableEq, Repr

/-- What one lane asks of a combined atomic request (R196). -/
structure AtomLane where
  blk : Nat
  gang : Nat
  op : Nat
  lane : Nat
  opnd : W64
  cmp : W64
  deriving DecidableEq, Repr

/-- One combined request per location and issue group (R196), waiting at its home slice. -/
structure AtomReq where
  id : Nat
  loc : Loc
  w64 : Bool
  kind : AtomKind
  lanes : List AtomLane
  deriving DecidableEq, Repr

/-! ### Events, waiting, gangs -/

/-- One event slot (R304, R305): kind 0 unbound, 1 bar, 2 gauge, 3 mbox, 4 gate, 5 rq. -/
structure EvSlot where
  kind : Nat := 0
  idx : Nat := 0
  loc : Loc := {}
  target : W64 := 0
  handler : W64 := 0
  count : Nat := 0
  raised : Bool := false
  last : Bool := false
  deriving DecidableEq, Repr

/-- Event state of a gang or feeder (R304 to R306). -/
structure Events where
  slots : Store EvSlot := []
  pend : BitVec 16 := 0
  emask : BitVec 16 := 0
  srEv : W32 := 0
  srEvpay : W64 := 0
  srEvret : W64 := 0
  deriving DecidableEq, Repr

/-- What a party waits for (the waiting state of R361, and the stalls of a feeder). -/
inductive Wait where
  | none
  | grow (n : Nat)
  | mgate
  | popq (kd : BitVec 6) (q : Nat)
  | barwait (bar : Nat) (qs : Bool)
  | gaugewait (loc : Loc) (target : W64)
  | mbrecv (kd : BitVec 6) (m : Nat)
  | mwait (kd : BitVec 6)
  | waitany (cand : BitVec 16)
  | rqalloc (kd : BitVec 6) (handle : W64)
  | join (tag : Nat)
  | waitc (c : WaitClass) (n : Nat)
  | phase
  | restartGate
  | mbsend (core m : Nat) (msg : W64)
  | pushq (gang q : Nat) (v : W64)
  | setgsClr (slot : Nat)
  | channel (ch : Nat)
  | checksum
  | debugStop
  | blocked
  deriving DecidableEq, Repr

/-- The watch of a gang (R311). -/
structure Watch where
  va : W64 := 0
  loc : Loc := {}
  armed : Bool := false
  triggered : Bool := false
  restored : Bool := false
  deriving DecidableEq, Repr

/-- A return stack (R299): on-chip entries newest first, number of spilled entries. -/
structure RStack where
  chip : List W64 := []
  spilled : Nat := 0
  deriving DecidableEq, Repr

/-- The handler record (R357). -/
structure HandlerRec where
  resume : Store W64
  faulting : Mask
  len : Nat
  report : Report
  async : Bool
  deriving DecidableEq, Repr

/-- A carry set with its values (R17, R365 section 0x0D): v index and its lanes, k index and its value. -/
structure CarryVals where
  vs : List (Nat × Store W32) := []
  ks : List (Nat × W64) := []
  deriving DecidableEq, Repr

/-- An open restart region (R253): label and snapshot, with the poison marks of what it saved. -/
structure Restart where
  label : W64
  carry : CarryVals
  alloc : Nat
  regions : List (BitVec 16)
  rstack : Store RStack
  spill : Store W64
  draw : Store Nat
  badRegs : List Nat := []
  spillBad : List Nat := []
  deriving DecidableEq, Repr

/-- A gang (R10) with the state of its 64 threads (R9). Per-lane stores are keyed by lane,
registers by 64 × index + lane. -/
structure Gang where
  exited : Bool := false
  live : Mask := 0
  pc : Store W64 := []
  v : Store W32 := []
  o : Store W32 := []
  lat : Store W64 := []
  latValid : Store Mask := []
  latOp : Store Nat := []
  p : Store Mask := []
  k : Store W64 := []
  q : BitVec 7 := 0
  alloc : Nat := 8
  fstat : BitVec 6 := 0
  draw : Store Nat := []
  rangeCount : Nat := 0
  rstack : Store RStack := []
  spill : Store W64 := []
  spillBad : List Nat := []
  regions : List (BitVec 16) := []
  watch : Watch := {}
  ev : Events := {}
  inlet : Store (List W64) := []
  wait : Wait := .none
  waitLen : Nat := 0
  waitSince : Nat := 0
  parked : Mask := 0
  handler : Option HandlerRec := none
  restart : Option Restart := none
  ops : List Op := []
  firstAcc : Store Mask := []
  badRegs : List Nat := []
  fetchWait : Mask := 0
  active : Bool := false
  since : Nat := 0
  place : Nat := 0
  issued : Option W64 := none
  issuedLanes : Mask := 0
  arrived : Store Nat := []
  issuedOp : Nat := 0
  atSwap : Mask := 0
  lastExit : W64 := 0
  checksum : List (Nat × W64) := []
  ckAt : Option Nat := none
  stopNext : Bool := false
  deriving DecidableEq, Repr

/-- A feeder (R137). -/
structure Feeder where
  exited : Bool := false
  pc : W64 := 0
  k : Store W64 := []
  q : BitVec 7 := 0
  ev : Events := {}
  rangeCount : Nat := 0
  wait : Wait := .none
  waitLen : Nat := 0
  badRegs : List Nat := []
  fetchWait : Bool := false
  deriving DecidableEq, Repr

/-! ### Completion objects and the streamer -/

/-- A named barrier (R155). Mode 0 counted, 1 .blk, 2 .blkf; arrived names gangs, and 32 the feeder. -/
structure Barrier where
  expected : Nat := 0
  arrivals : Nat := 0
  balance : Int := 0
  phase : Bool := false
  mode : Nat := 0
  arrived : List Nat := []
  deriving DecidableEq, Repr

/-- State of a guard slot (R148). -/
inductive GSlot where
  | unresolved | isTrue | isFalse
  deriving DecidableEq, Repr

/-- The four streamer commands with their subop fields (R163). -/
inductive CmdKind where
  | copy (nm1 : Nat) (toMem : Bool)
  | gather (f : GatherForm) (ls : Bool)
  | scatter (x64 : Bool) (ls : Bool)
  | fill (nm1 : Nat) (toMem : Bool)
  deriving DecidableEq, Repr

/-- A streamer command (R142 to R144). `kn` holds the eight words of the shape block. -/
structure Cmd where
  id : Nat
  kind : CmdKind
  ch : Nat
  tag : Option Nat
  ka : W64
  kb : W64
  kn : List W64
  func : BitVec 10
  addr : W64
  idx : List Nat := []
  delivered : List Nat := []
  deriving DecidableEq, Repr

/-! ### Blocks -/

/-- The kernel descriptor and launch fields a block runs under (R320). -/
structure KDesc where
  entry : W64 := 0
  feeder : W64 := 0
  bx : Nat := 1
  byy : Nat := 1
  bz : Nat := 1
  rmin : Nat := 1
  rmax : Nat := 1
  scratch : Nat := 0
  nbar : Nat := 0
  nmbox : Nat := 0
  sd : Nat := 0
  clique : Option (Nat × Nat) := none
  carryv : List Nat := []
  carryk : List Nat := []
  deriving DecidableEq, Repr

/-- Where a block is in its life. -/
inductive BStat where
  | queued      -- a phase waits in a dispatch queue: first phase, next phase, or an image (R331)
  | resident
  | stopping    -- a pre-emption is pending or proceeding (R360)
  | stopped     -- step 3 of R360 or of R367 is done
  | killed      -- stopped by a fault-domain action; ends when its work drains (R356)
  | waitHost    -- an image after a restore capacity fault (R363)
  | ended
  deriving DecidableEq, Repr

/-- What a queued block is (kinds of R364, and a first phase). -/
inductive Image where
  | first | phaseRecord | preempted | evicted
  deriving DecidableEq, Repr

/-- A block (R11) with everything it owns. -/
structure Block where
  id : Nat
  ctx : Nat
  grid : Nat
  idx : Nat
  bx : Nat := 0
  byy : Nat := 0
  bz : Nat := 0
  kd : KDesc := {}
  source : W64 := 0
  launchKey : W64 := 0
  k0 : W64 := 0
  k1 : W64 := 0
  k2 : W64 := 0
  nrec : Nat := 0
  wave : Nat := 0
  depth : Nat := 0
  level : Nat := 1
  region : W64 := 0
  lDie : Nat := 0
  lClu : Nat := 0
  lCore : Nat := 0
  core : Nat := 0
  slot : Nat := 0
  admitted : Nat := 0
  stat : BStat := .queued
  image : Image := .first
  portable : Bool := true
  order : Nat := 0
  queue : Nat := 0
  gangs : Store Gang := []
  feeder : Option Feeder := none
  spBase : Nat := 0
  scratch : Store Byte := []
  scratchBad : List Nat := []
  bars : Store Barrier := []
  mboxes : Store (List W64) := []
  gslots : List (Nat × GSlot) := []
  chans : List Cmd := []
  started : List Cmd := []
  period : Nat := 0
  async : List Report := []
  evict : Bool := false
  views : List (Nat × Nat) := []
  clique : Nat := 0
  cliqueIdx : Nat := 0
  coop : Option Loc := none
  notAgain : List Nat := []
  recordBytes : List Byte := []
  nodeRecs : List Nat := []
  nodeRq : Option Nat := none
  capWait : Bool := false
  deriving DecidableEq, Repr

/-! ### Grids, regions, forks, record queues -/

/-- A region's fields, given or inherited (R323, R418). -/
structure Region where
  addr : W64 := 0
  parent : W64 := 0
  imask : Nat := 0
  band : Nat := 0
  action : Nat := 5
  cores : Nat := 512
  regshare : Nat := 384
  quota : Nat := 16777216
  ramp : Nat := 4096
  rqmem : Nat := 0xFFFF_FFFF_FFFF_FFFF
  handler : W64 := 0
  hgrid : W64 := 0
  ngauge : W64 := 0
  deriving DecidableEq, Repr

/-- Launch fields after the kernel descriptor (R320). -/
structure LParams where
  x : Nat := 1
  y : Nat := 1
  z : Nat := 1
  order : Nat := 0
  swz : Nat := 1
  tsx : Nat := 0
  tsy : Nat := 0
  hash : Bool := false
  persistent : Bool := false
  bpc : Nat := 0
  rcount : Nat := 0
  minchunk : Nat := 0
  est : Nat := 0
  deriving DecidableEq, Repr

/-- A grid (R14). `road`: 0 packet, 1 LAUNCH instruction or hgrid, 2 fork, 3 record queue. `read`: the place in read order of the
packet whose work it is (R318). `away`: blocks of it have been carried to a peer (R386). -/
structure Grid where
  id : Nat
  ctx : Nat
  road : Nat := 0
  parent : Option Nat := none
  fork : Option Nat := none
  child : Option Nat := none
  rq : Option Nat := none
  queue : Nat := 0
  level : Nat := 1
  seed : W64 := 0
  arg : W64 := 0
  gauge : W64 := 0
  gadd : W64 := 0
  rcb : W64 := 0
  source : W64 := 0
  kd : KDesc := {}
  lp : LParams := {}
  pin : Bool := false
  nblocks : Nat := 0
  started : Store Nat := []
  admitted : Nat := 0
  batches : List (Nat × Nat) := []
  ended : Nat := 0
  killed : Bool := false
  rangeNext : Nat := 0
  completed : Bool := false
  order : Nat := 0
  read : Nat := 0
  away : Bool := false
  deriving DecidableEq, Repr

/-- One tracked run of physical memory inside a window (R101). -/
structure Seg where
  pa : Nat
  len : Nat
  va : Nat
  redop : Nat
  redtype : Nat
  key : Nat
  deriving DecidableEq, Repr

/-- A window of a fork (R101). -/
structure Window where
  base : Nat
  len : Nat
  segs : List Seg
  deriving DecidableEq, Repr

/-- A twin (R102): fork-time bytes and, per byte, the child that changed it. -/
structure Twin where
  gran : Nat
  bytes : BitVec 256
  chg : Store (Option Nat) := []
  poisoned : Bool := false
  deriving DecidableEq, Repr

/-- A version (R102): one child's copy of one granule. -/
structure Version where
  child : Nat
  gran : Nat
  bytes : BitVec 256
  poisoned : Bool := false
  deriving DecidableEq, Repr

/-- Child states of R112. -/
inductive ChState where
  | unstarted | running | blocked | complete | failed | merged | cancelled
  deriving DecidableEq, Repr

/-- Why the blocks of a child that has not failed are being stopped: ABANDON (R135), a rollback (R123). -/
inductive ChEnd where
  | no | abandoned | rolledBack
  deriving DecidableEq, Repr

/-- One child of a fork. -/
structure Child where
  idx : Nat
  st : ChState := .unstarted
  reruns : Nat := 0
  noRerun : Bool := false
  last : Option Report := none
  grid : Nat := 0
  sent : Bool := false
  ending : ChEnd := .no
  need : Nat := 0
  granted : Nat := 0
  deriving DecidableEq, Repr

/-- How a slice's bucket fails there: the failing child, its reruns, the report of what ended it, the child's last fault. -/
structure SliceFail where
  child : Nat
  reruns : Nat
  report : Report
  last : Option Report
  deriving DecidableEq, Repr

/-- Chip-scope state of one slice (R128 to R130). -/
structure SliceSt where
  win : Nat
  slice : Nat
  next : Nat := 0
  got : List Contribution := []
  written : Bool := false
  outcome : Nat := 0
  merged : Nat := 0
  mflags : BitVec 5 := 0
  fail : Option SliceFail := none
  deriving DecidableEq, Repr

/-- A contribution that a home accepted from one of two devices, kept until the other device's copy comes (R129). `void`:
its bucket's tag has been opened again. -/
structure Accepted where
  ctx : Nat
  fork : Nat
  tag : Nat
  level : Nat
  region : W64
  queue : Nat
  opener : Option Nat
  k : Contribution
  void : Bool := false
  deriving DecidableEq, Repr

/-- An open or ended fork whose tag is held (R103, R111). -/
structure Fork where
  id : Nat
  ctx : Nat
  tag : Nat
  scope : ForkScope
  opener : Option Nat
  openerGrid : Option Nat
  packetQueue : Option Nat
  parentView : List (Nat × Nat)
  desc : W64
  count : Nat
  retry : Nat
  quota : Nat
  arg : W64
  gauge : W64
  gadd : W64
  frec : W64
  seed : W64
  kd : KDesc
  parentRegion : W64 := 0
  region : W64
  level : Nat
  queue : Nat := 0
  wins : List Window
  slots : List (Nat × Nat × Bool) := []
  sliceSize : Nat := 0
  homes : List Nat := []
  gx : Nat := 1
  gy : Nat := 1
  gz : Nat := 1
  children : List Child
  twins : List Twin := []
  vers : List Version := []
  mflags : BitVec 5 := 0
  failAt : Option (Nat × Nat × Report) := none
  slotsAtExh : Nat := 0
  ended : Bool := false
  outcome : Nat := 0
  merged : Nat := 0
  slices : List SliceSt := []
  report : Report := {}
  reserved : List Nat := []
  tagsDone : List Nat := []
  order : Nat := 0
  read : Nat := 0
  deriving DecidableEq, Repr

/-- One committed record of a record queue, in commit order (R335, R336). -/
structure Rec where
  addr : Nat
  key : W64
  depth : Nat
  deriving DecidableEq, Repr

/-- An open record queue (R334): device state of the descriptor. -/
structure RecQueue where
  id : Nat
  ctx : Nat
  handle : W64
  level : Nat
  base : Nat
  size : Nat
  rsize : Nat
  group : Nat
  timer : Nat
  left : Nat
  lpb : W64
  arg : W64
  seed : W64
  rcb : W64
  gauge : W64
  queue : Nat
  grid : Nat
  allocated : List Nat := []
  committed : List Rec := []
  taken : List Nat := []
  nextBlk : Nat := 0
  liveBlks : Nat := 0
  rqwait : List (Nat × Nat) := []
  closed : Bool := false
  done : Bool := false
  deriving DecidableEq, Repr

/-! ### Contexts and the host side -/

/-- One entry of a peer table (R402). -/
structure Peer where
  serial : W64 := 0
  ports : BitVec 16 := 0
  valid : Bool := false
  self : Bool := false
  ctx : Nat := 0
  base : Nat := 0
  size : Nat := 0
  key : Nat := 0
  deriving DecidableEq, Repr

/-- A Skelbor capture (R370). -/
structure Capture where
  buf : W64 := 0
  size : Nat := 0
  cmask : Nat := 0
  period : Nat := 0
  opts : Nat := 0
  filter : Nat := 0
  written : Nat := 0
  dropped : Nat := 0
  switchOuts : Nat := 0
  deriving DecidableEq, Repr

/-- Stages of HALT AND DUMP (R367). -/
inductive HaltSt where
  | running
  | halting
  | halted
  deriving DecidableEq, Repr

/-- A dispatch stop of PREEMPT: kind 0 context, 1 region, 2 queue (R386). -/
structure StopTarget where
  kind : Nat
  target : W64
  deriving DecidableEq, Repr

/-- A context (R16, R383). -/
structure Ctx where
  id : Nat
  owner : Fn := .pf
  level : Nat := 1
  pendingLevels : List (Nat × Nat) := []
  root : Nat := 0
  tags : Nat := 1
  gangPlaces : Nat := 32
  barriers : Nat := 128
  mailboxes : Nat := 32
  spillPlaces : Nat := 252
  chunks : Nat := 384
  scratch : Nat := 1048576
  hwBase : Nat := 0
  hwSize : Nat := 0
  logVa : W64 := 0
  logEntries : Nat := 0
  logVector : Nat := 0
  ckVa : W64 := 0
  ckEntries : Nat := 0
  refVa : W64 := 0
  refEntries : Nat := 0
  dumpVa : W64 := 0
  dumpSlot : Nat := 0
  pools : Store (Nat × Nat) := []
  carved : List (Nat × Nat) := []
  rootRegion : Region := {}
  rcbs : List Region := []
  peers : Store Peer := []
  debug : Bool := false
  stopIds : List (BitVec 16) := []
  halt : HaltSt := .running
  haltReport : Report := {}
  haltBlk : Option Nat := none
  haltCyc : List (Nat × W64) := []
  haltRegion : W64 := 0
  dumped : List Nat := []
  stops : List StopTarget := []
  counters : Store Nat := []
  capture : Option Capture := none
  switched : Bool := false
  diverged : List Nat := []
  dying : Option (Option Fn) := none
  deriving DecidableEq, Repr

/-- A work queue's registers and binding (R388). -/
structure Queue where
  tail : BitVec 32 := 0
  head : BitVec 32 := 0
  err : Nat := 0
  bound : Bool := false
  stopped : Bool := false
  ctx : Nat := 0
  ring : W64 := 0
  entries : Nat := 64
  reads : List (Nat × Nat) := []
  pkt : Option (List Byte) := none
  launched : List Nat := []
  deriving DecidableEq, Repr

/-- A key slot of the Reeve (R72, R73, R396). -/
structure KeySlot where
  present : Bool := false
  key : BitVec 512 := 0
  grants : List Nat := []
  deriving DecidableEq, Repr

/-- An SPDM session of one function's DOE mailbox (R395): phase 0 none, 1 version, 2 capabilities,
3 algorithms, 4 key exchange, 5 open. -/
structure Session where
  phase : Nat := 0
  updates : Nat := 0
  response : List Byte := []
  deriving DecidableEq, Repr

/-- A Plolux Link port (R400, R404): the steps of its latest sixteen tag failures, the serial of the peer that authenticated there, the
keys of its two directions. -/
structure Port where
  up : Bool := false
  fails : List Nat := []
  serial : W64 := 0
  outKey : BitVec 256 := 0
  inKey : BitVec 256 := 0
  deriving DecidableEq, Repr

/-- A management mailbox (R381). -/
structure Mailbox where
  request : Request := 0
  response : Request := 0
  doorbell : Bool := false
  deriving DecidableEq, Repr

/-! ### Cores and dies -/

/-- A weight plane (R237): codes keyed by 192·n + k, group scales by 8·n + g. -/
structure Plane where
  fmt : Fmt
  parcel : Bool
  depth : Nat := 8
  w : Store W32 := []
  scale : Store Nat := []
  deriving DecidableEq, Repr

/-- An accumulator bank (R237): elements keyed by 192·m + n. -/
structure Bank where
  claim : Option (Nat × Nat) := none
  s32 : Bool := false
  acc : Store W32 := []
  flags : BitVec 6 := 0
  bad : List Nat := []
  deriving DecidableEq, Repr

/-- Wait count of one PC-table entry (R289). -/
structure PcEntry where
  addr : W64
  wait : Nat
  starved : Bool
  deriving DecidableEq, Repr

/-- A translation buffer entry (R68): context, base of the page and its size. -/
structure Tlb where
  ctx : Nat
  va : Nat
  size : Nat
  deriving DecidableEq, Repr

/-- A line of L2 (R66, R73): the key under which it was filled, and its cache policy. -/
structure L2Line where
  key : Nat
  cache : Nat
  deriving DecidableEq, Repr

/-- A core (R3). -/
structure Core where
  cyc : W64 := 0
  pct : List PcEntry := []
  gate : Option (Nat × Nat) := none
  gateQ : List (Nat × Nat) := []
  gateBlk : Option (Nat × Nat) := none
  active : Option Plane := none
  shadow : Option Plane := none
  acc0 : Bank := {}
  acc1 : Bank := {}
  growQ : List (Nat × Nat) := []
  sinceGrant : Nat := 0
  robuf : Store (Option Byte) := []
  ballast : W64 := 0
  rotFeeder : Nat := 0
  rotSample : Nat := 0
  pendReady : Bool := false
  tlb : List Tlb := []
  busy : Nat := 0
  issue2 : Nat := 0
  deriving DecidableEq, Repr

/-- A table walk (R69): its key, whether it runs or is queued, and the accesses attached to it. -/
structure Walk where
  id : Nat
  ctx : Nat
  page : Nat
  running : Bool
  cores : List Nat
  ops : List (Nat × Nat × Nat)
  deriving DecidableEq, Repr

/-- Age of one dispatch queue (R332). -/
structure DQueue where
  ctx : Nat
  queue : Nat
  age : Nat
  deriving DecidableEq, Repr

/-- A compute die: walkers and TLB (R68, R69), reservoir (R121), dispatcher (R331), weir (R339): the activity measured in its last
interval and what the weirs let it be in the one before, and the limits in force since its last interval began (R387). -/
structure Die where
  tlb : List Tlb := []
  cluTlb : Store (List Tlb) := []
  walks : List Walk := []
  reserved : Nat := 0
  dqs : List DQueue := []
  rot : Store Nat := []
  act : Nat := 0
  last : Nat := 0
  rise : Nat := 128
  fall : Nat := 128
  deriving DecidableEq, Repr

/-! ### What is being carried out -/

/-- The threads of one gang in an issue group. -/
structure Frag where
  blk : Nat
  gang : Nat
  mask : Mask
  deriving DecidableEq, Repr

/-- An issue group (R289) or one feeder's issue (R137). -/
inductive Issuer where
  | group (core : Nat) (addr : W64) (frags : List Frag)
  | feeder (blk : Nat) (addr : W64)
  deriving DecidableEq, Repr

/-- The issue being carried out, with the instruction's length and first 16 bytes (R353). -/
structure Active where
  who : Issuer
  len : Nat
  insn : W128
  deriving DecidableEq, Repr

/-- What the outside world or timing does next (log 1); `auto` lets the machine take the next event of its default
order. -/
inductive Input where
  | op (i : Instr)
  | hostMem (addr : Nat) (data : List Byte)
  | peerMem (peer addr : Nat) (data : List Byte)
  | peerCert (port : Nat) (serial : W64)
  | peerPoison (peer sector : Nat) (bad : Bool)
  | peerExport (peer ctx page : Nat) (shut : Bool)
  | images (ctx : Nat) (serial : W64) (peerCtx : Nat) (blocks : List Block)
  | pcieLink (flit : Bool) (lanes : Nat)
  | auto
  deriving DecidableEq, Repr

/-- Device status and parameters (R379, R387, R393, R397). -/
structure Device where
  ready : Bool := false
  hbminit : Bool := false
  recovery : Bool := false
  tripped : Bool := false
  tripdie : BitVec 9 := 0
  power : Nat := 1
  target : Option Nat := none
  changed : List Nat := []
  reservoir : Nat := 4
  scrub : Nat := 24
  rise : Nat := 128
  fall : Nat := 128
  aging : Nat := 64
  errRing : W64 := 0
  errEntries : Nat := 0
  errCount : Nat := 0
  corrected : Nat := 0
  vectors : List (Fn × Nat) := []
  staged : Option FwImage := none
  fused : BitVec 6 := 0
  vfRun : List Nat := []
  linkFlit : Bool := true
  linkLanes : Nat := 16
  trust : BitVec 384 := 0
  serial : W64 := 0
  identity : BitVec 384 := 0
  firmware : List FwImage := []
  aliasKey : Option (BitVec 384) := none
  deriving DecidableEq, Repr

/-- What the package weir has admitted in the present interval (R340), in 1/64 load steps: in all, and by
context and region. -/
structure Weir where
  used : Nat := 0
  regions : List (Nat × W64 × Nat) := []
  deriving DecidableEq, Repr

/-- The whole machine. -/
structure State where
  dev : Device := {}
  mem : List Host.Cell := []
  bad : List Nat := []
  sectorKey : Store Nat := []
  l2 : Store (Option L2Line) := []
  hostMem : Store Byte := []
  peerMem : Store Byte := []
  peerBad : List Nat := []
  peerShut : List (Nat × Nat) := []
  ctxs : List Ctx := []
  queues : Store Queue := []
  grids : List Grid := []
  forks : List Fork := []
  accepted : List Accepted := []
  rqs : List RecQueue := []
  blocks : List Block := []
  atoms : List AtomReq := []
  cores : Store Core := []
  dies : Store Die := []
  weir : Weir := {}
  keys : Store KeySlot := []
  sessions : List (Fn × Session) := []
  ports : Store Port := []
  partners : Store W64 := []
  mailboxes : List (Fn × Mailbox) := []
  hostData : List Byte := []
  hostBad : Bool := false
  linkReply : List Byte := []
  linkStatus : Nat := 0
  pktOrder : Nat := 0
  agenda : List Input := []
  cur : List Issuer := []
  active : Option Active := none
  tick : Nat := 0
  nextId : Nat := 1
  deriving DecidableEq, Repr

/-- Why the machine stops. -/
inductive Fault where
  /-- Raised by `step` alone: the device is in power state 0 (R397) and no reset is at hand, so nothing runs.
  Safe: the spec gives a device without power no behaviour. -/
  | noPower
  deriving DecidableEq, Repr

/-- Why the model declines. -/
inductive Refusal where
  /-- Raised by an arm of `exec` that has no meaning yet. Safe: no claim can be proved of it. -/
  | notModelled (mnemonic : String)
  deriving DecidableEq, Repr

/-- The machine right after reset (R379, R387, R405 before its first step): no context, no work, memory
with nothing listed. -/
def State.reset : State := {}

end Sys2Proof.Machine
end

