-- ==== Sys2Proof/Machine/Mem.lean ====
section
/-! DEFINITION. Machine/Mem.lean: looking up and changing the records of the state, physical memory under
keys (03 R56 to R77), translation (03 R58 to R70), fork views (05 R101 to R109) and watches (11 R311). -/

namespace Sys2Proof.Machine

open Sys2Proof

/-! ### Looking up and changing records -/

def getBlk (s : State) (id : Nat) : Option Block := s.blocks.find? (fun b => b.id == id)
def modBlk (s : State) (id : Nat) (f : Block → Block) : State :=
  { s with blocks := updFirst (fun b => b.id == id) f s.blocks }
def getCtx (s : State) (id : Nat) : Option Ctx := s.ctxs.find? (fun c => c.id == id)
/-- Whether the work of a context goes on: HALT AND DUMP has not stopped it (R367), and it is not being destroyed (R384). -/
def Ctx.goesOn (c : Ctx) : Bool := c.halt == .running && c.dying.isNone
/-- Whether a context's work is stopped: its forks then stand as they are (R117). -/
def ctxHalted (s : State) (ctx : Nat) : Bool := ((getCtx s ctx).map (fun c => !c.goesOn)).getD false
def modCtx (s : State) (id : Nat) (f : Ctx → Ctx) : State :=
  { s with ctxs := updFirst (fun c => c.id == id) f s.ctxs }
def getGrid (s : State) (id : Nat) : Option Grid := s.grids.find? (fun g => g.id == id)
/-- Read order of a queue's next packet (R318). -/
def Queue.order (q : Queue) : Nat := ((q.reads.head?).map (·.2)).getD 0
/-- The place in read order of work that a grid starts, or else the packet at the head of a queue. -/
def readOf (s : State) (parent queue : Option Nat) : Nat :=
  match parent, queue with
  | some g, _ => ((getGrid s g).map (fun g => g.read)).getD 0
  | none, some q => (sget {} s.queues q).order
  | none, none => 0
def modGrid (s : State) (id : Nat) (f : Grid → Grid) : State :=
  { s with grids := updFirst (fun g => g.id == id) f s.grids }
def getFork (s : State) (id : Nat) : Option Fork := s.forks.find? (fun g => g.id == id)
def modFork (s : State) (id : Nat) (f : Fork → Fork) : State :=
  { s with forks := updFirst (fun g => g.id == id) f s.forks }
def getRq (s : State) (id : Nat) : Option RecQueue := s.rqs.find? (fun g => g.id == id)
def modRq (s : State) (id : Nat) (f : RecQueue → RecQueue) : State :=
  { s with rqs := updFirst (fun g => g.id == id) f s.rqs }
def getCore (s : State) (c : Nat) : Core := sget {} s.cores c
def modCore (s : State) (c : Nat) (f : Core → Core) : State :=
  { s with cores := sset {} s.cores c (f (getCore s c)) }
def getDie (s : State) (d : Nat) : Die := sget {} s.dies d
def modDie (s : State) (d : Nat) (f : Die → Die) : State :=
  { s with dies := sset {} s.dies d (f (getDie s d)) }

/-- Changes the value at a key that is listed. -/
def smod {α : Type} (s : Store α) (n : Nat) (f : α → α) : Store α :=
  s.map (fun p => if p.1 = n then (p.1, f p.2) else p)

def getGang (s : State) (b g : Nat) : Option Gang := (getBlk s b).bind (fun x => sfind x.gangs g)
def modGang (s : State) (b g : Nat) (f : Gang → Gang) : State :=
  modBlk s b (fun x => { x with gangs := smod x.gangs g f })
def modFeeder (s : State) (b : Nat) (f : Feeder → Feeder) : State :=
  modBlk s b (fun x => { x with feeder := x.feeder.map f })
/-- Changes every gang of every block. -/
def mapGangs (s : State) (f : Block → Gang → Gang) : State :=
  { s with blocks := s.blocks.map (fun b => { b with gangs := b.gangs.map (fun p => (p.1, f b p.2)) }) }

/-- A fresh name (log 7). -/
def freshId (s : State) : Nat × State := (s.nextId, { s with nextId := s.nextId + 1 })
/-- A fresh number for a free value (log 6). -/
def freshTick (s : State) : Nat × State := (s.tick, { s with tick := s.tick + 1 })

/-! ### HBM under keys (R56, R72 to R75) -/

/-- Home die of a physical address (R56). -/
def homeDie (pa : Nat) : Nat := pa / 2 ^ 37 % 8
/-- Home slice of a physical address (R56). -/
def homeSlice (pa : Nat) : Nat :=
  (pa / 2 ^ 7 % 32) ^^^ (pa / 2 ^ 12 % 32) ^^^ (pa / 2 ^ 17 % 32) ^^^ (pa / 2 ^ 22 % 32) ^^^ (pa / 2 ^ 27 % 32)
    ^^^ (pa / 2 ^ 32 % 32)
/-- The stack of the home die that backs a physical address (R56). -/
def homeStack (pa : Nat) : Nat := homeSlice pa / 16

/-- How a sector's bytes stand: 0 the device key, 1 ciphertext as the host wrote it, n + 2 the key n. -/
def keyMat (s : State) (key : Nat) : Nat :=
  if key = 0 then 0 else match sfind s.keys key with
    | some k => k.key.toNat + 2
    | none => 1
def matKey (s : State) (m : Nat) : BitVec 512 := if m = 0 then ((sfind s.keys 0).map (fun (k : KeySlot) => k.key)).getD 0 else BitVec.ofNat 512 (m - 2)

def sectorRaw (s : State) (sec : Nat) : BitVec 256 :=
  BitVec.ofNat 256 (natOf ((List.range 32).map (fun i => sget 0 s.mem (32 * sec + i))))
/-- The ciphertext of a sector. -/
def sectorCipher (s : State) (sec : Nat) : BitVec 256 :=
  let m := sget 0 s.sectorKey sec
  if m = 1 then sectorRaw s sec else xtsEnc (matKey s m) sec (sectorRaw s sec)
/-- The sector as it reads under key material `m`. -/
def sectorUnder (s : State) (sec m : Nat) : BitVec 256 :=
  if sget 0 s.sectorKey sec = m then sectorRaw s sec
  else if m = 1 then sectorCipher s sec
  else xtsDec (matKey s m) sec (sectorCipher s sec)
def putSector (s : State) (sec m : Nat) (v : BitVec 256) : State :=
  { s with mem := ssetMany 0 s.mem ((List.range 32).map (fun i => (32 * sec + i, v.extractLsb' (8 * i) 8))),
           sectorKey := sset 0 s.sectorKey sec m }
/-- Brings a sector under key material `m`, bytes as they read under it. -/
def rekeySector (m : Nat) (s : State) (sec : Nat) : State :=
  if sget 0 s.sectorKey sec = m then s else putSector s sec m (sectorUnder s sec m)

/-- Sectors that n bytes from pa touch. -/
def sectorsOf (pa n : Nat) : List Nat :=
  if n = 0 then [] else (List.range ((pa + n - 1) / 32 - pa / 32 + 1)).map (· + pa / 32)

/-- Bytes of HBM under key material `m`. -/
def hbmRead (s : State) (m pa n : Nat) : List Byte :=
  (List.range n).map (fun i =>
    if sget 0 s.sectorKey ((pa + i) / 32) = m then sget 0 s.mem (pa + i)
    else (sectorUnder s ((pa + i) / 32) m).extractLsb' (8 * ((pa + i) % 32)) 8)
/-- Bytes with their addresses. -/
def cells (a : Nat) : List Byte → List Host.Cell
  | [] => []
  | b :: bs => (a, b) :: cells (a + 1) bs
def hbmWrite (s : State) (m pa : Nat) (bs : List Byte) : State :=
  let s := (sectorsOf pa bs.length).foldl (rekeySector m) s
  { s with mem := ssetMany 0 s.mem (cells pa bs) }

/-- Device structures: pools under key 0 (R60, R72, R383). -/
def devRead (s : State) (pa n : Nat) : List Byte := hbmRead s 0 pa n
def devWrite (s : State) (pa : Nat) (bs : List Byte) : State := hbmWrite s 0 pa bs
def devNat (s : State) (pa n : Nat) : Nat := natOf (devRead s pa n)

/-- Poison marks of sectors (R75). -/
def sectorBad (s : State) (sec : Nat) : Bool := s.bad.contains sec
def setBad (s : State) (sec : Nat) (b : Bool) : State :=
  if b then (if s.bad.contains sec then s else { s with bad := insSorted (fun x y => decide (x ≤ y)) sec s.bad })
  else { s with bad := s.bad.filter (fun x => x != sec) }

/-! ### Translation -/

/-- What an access needs of its leaf (R64). -/
inductive Need where
  | ex | rd | rdk | wr | rw | watch
  deriving DecidableEq, Repr

/-- One field of a table entry. -/
def fld (e : Nat) (lo n : Nat) : Nat := e / 2 ^ lo % 2 ^ n

/-- The tables (R59): lowest index bit, index bits, log2 of the table's size. -/
def tableLevel : Nat → Nat × Nat × Nat
  | 0 => (43, 14, 17)
  | 1 => (30, 13, 16)
  | 2 => (21, 9, 12)
  | _ => (16, 5, 8)

/-- A pointer entry's must-be-zero bits and alignment (R61); `lv` is the level that holds the entry. -/
def pointerOk (lv e : Nat) : Bool :=
  let tab := fld e 8 32 * 256
  fld e 40 24 == 0 && fld e 5 3 == 0 && fld e 0 3 == 0 && tab % 2 ^ (tableLevel (lv + 1)).2.2 == 0 && lv != 3

/-- The conditions of R63 on a leaf. -/
def leafOk (lv e : Nat) : Bool :=
  let tracked := fld e 62 1
  let redop := fld e 59 3
  let redtype := fld e 56 3
  let ap := fld e 40 2
  lv != 0 && fld e 8 4 == 0 && fld e 0 3 == 0
    && (lv != 2 || fld e 16 5 == 0) && (lv != 1 || fld e 16 14 == 0)
    && redop != 7 && redtype != 6 && redtype != 7 && fld e 42 2 != 3 && ap != 3
    && (redop == 0 || (tracked == 1 && fld e 6 1 == 1))
    && !((redop == 4 || redop == 5 || redop == 6) && (redtype == 4 || redtype == 5))
    && (redtype == 0 || redop != 0)
    && !(tracked == 1 && fld e 7 1 == 1)
    && ((tracked == 0 && redop == 0) || ap == 0)
    && (ap == 0 || fld e 44 12 == 0) && (ap == 2 || fld e 12 4 == 0)

/-- The end of a walk: a fault with its cause and level, or a leaf and the level that holds it. -/
inductive WalkRes where
  | fault (cause level : Nat)
  | leaf (e level : Nat)
  deriving DecidableEq, Repr

/-- A walk from the table at `tab` of level `lv` (R59, R63); `tlb`: the entry is in a translation buffer, so
that no table is read from memory and its poison is not met (R68). -/
def walkFrom (s : State) (tlb : Bool) (va : Nat) : Nat → Nat → Nat → WalkRes
  | 0, _, lv => .fault 4 lv
  | fuel + 1, tab, lv =>
    let t := tableLevel lv
    let a := tab + 8 * fld va t.1 t.2.1
    if !tlb && sectorBad s (a / 32) then .fault 6 lv
    else
      let e := devNat s a 8
      match fld e 3 2 with
      | 0 => .fault 1 lv
      | 1 => if pointerOk lv e then walkFrom s tlb va fuel (fld e 8 32 * 256) (lv + 1) else .fault 4 lv
      | 2 => if leafOk lv e then .leaf e lv else .fault 4 lv
      | _ => .fault 4 lv

def walk (s : State) (tlb : Bool) (root va : Nat) : WalkRes := walkFrom s tlb va 4 root 0

/-- Addresses of the entries that a walk reads, from the table at `tab` of level `lv` on. -/
def walkReads (s : State) (va : Nat) : Nat → Nat → Nat → List Nat
  | 0, _, _ => []
  | fuel + 1, tab, lv =>
    let t := tableLevel lv
    let a := tab + 8 * fld va t.1 t.2.1
    let e := devNat s a 8
    a :: (if fld e 3 2 = 1 ∧ pointerOk lv e then walkReads s va fuel (fld e 8 32 * 256) (lv + 1) else [])

/-- Log2 of the page that a leaf at a level maps (R59). -/
def pageLog : Nat → Nat
  | 1 => 30
  | 2 => 21
  | _ => 16

/-- Whether the leaf's aperture is one the access may reach (R64). -/
def needAp (n : Need) (ap : Nat) : Bool :=
  match n with
  | .rw | .watch => ap != 1
  | _ => true
/-- Whether the leaf permits the access (R64). -/
def needPerm (n : Need) (e : Nat) : Bool :=
  let ex := fld e 7 1 == 1
  let wr := fld e 6 1 == 1
  let rd := fld e 5 1 == 1
  match n with
  | .ex => ex
  | .rd => rd
  | .rdk => rd && !wr
  | .wr => wr
  | .rw => rd && wr
  | .watch => rd

/-- Whether some port of a peer's mask is up (R403) and leads to the device whose serial the entry holds, as its certificate
says (R402). -/
def peerUp (s : State) (p : Peer) : Bool :=
  (bitsOf p.ports).any (fun i => (sget {} s.ports i).up && (sget {} s.ports i).serial == p.serial)

/-- Whether traffic of a context to a place on a peer can pass now: by a port of the mask of the entry through which the access
was translated (R403). -/
def entryUp (s : State) (ctx : Nat) (l : Loc) : Bool :=
  (((getCtx s ctx).bind (fun c => sfind c.peers l.ent)).map (fun p => p.valid && !p.self && p.serial.toNat == l.peer && peerUp s p)).getD false

/-- A translated access: its place, and whether the page carries the poison bit (R67). -/
structure Trans where
  loc : Loc
  pagePoison : Bool
  deriving DecidableEq, Repr

/-- Whether a translation buffer that serves the core holds the page (R68). -/
def tlbHolds (s : State) (ctx core va : Nat) : Bool :=
  let hit := fun (t : List Tlb) => t.any (fun e => e.ctx == ctx && decide (e.va ≤ va) && decide (va < e.va + e.size))
  let d := getDie s (core / 64)
  hit (getCore s core).tlb || hit (sget [] d.cluTlb (core / 16 % 4)) || hit d.tlb

/-- Whether a 64 KiB page of a peer lies outside what its own peer table exports to a context here (R403). -/
def peerRefuses (s : State) (ctx serial pa : Nat) : Bool := s.peerShut.contains (ctx, serial * 2 ^ 24 + pa / 65536)

/-- Frames of pools: no MAP may name one. -/
def poolFrame (s : State) (pa n : Nat) : Bool :=
  s.ctxs.any (fun c => c.pools.any (fun p => decide (pa < p.2.1 + p.2.2) && decide (p.2.1 < pa + n)))

/-- The place behind a leaf's aperture, none where an aperture condition fails: outside the host window, no peer entry, its
link down, or an address that the peer does not export (R64, R70, R385, R402, R403). No mapping reaches the tables in a pool,
whichever came first (R60; the aperture cause is the model's choice, log 61). -/
def reach (s : State) (c : Ctx) (peer : Nat) (l : Loc) : Option Loc :=
  match l.ap with
  | 0 => if poolFrame s l.addr 1 then none else some l
  | 1 => if l.addr < c.hwSize then some { l with addr := c.hwBase + l.addr } else none
  | _ => match sfind c.peers peer with
    | none => none
    | some p =>
      if !p.valid then none
      else if p.self then (if p.base ≤ l.addr ∧ l.addr < p.base + p.size ∧ !poolFrame s l.addr 1 then some { l with ap := 0, key := p.key } else none)
      else if peerUp s p && !peerRefuses s c.id p.serial.toNat l.addr then some { l with peer := p.serial.toNat, ent := peer } else none

/-- Puts an entry into a buffer of a size; the oldest makes room (the spec states no replacement, log 10). -/
def tlbPut (size : Nat) (e : Tlb) (t : List Tlb) : List Tlb :=
  (if size ≤ t.length then t.drop 1 else t) ++ [e]

/-- Fills the three levels that serve a core. -/
def fillTlbs (s : State) (core : Nat) (e : Tlb) : State :=
  let s := modCore s core (fun c => { c with tlb := if c.tlb.contains e then c.tlb else tlbPut 64 e c.tlb })
  modDie s (core / 64) (fun d =>
    let cl := sget [] d.cluTlb (core / 16 % 4)
    { d with cluTlb := sset [] d.cluTlb (core / 16 % 4) (if cl.contains e then cl else tlbPut 2048 e cl),
             tlb := if d.tlb.contains e then d.tlb else tlbPut 4096 e d.tlb })

/-- Whether the walk for a party's translation is spared: the party is on a core whose buffers hold the page. -/
def heldFor (s : State) (ctx : Nat) (core : Option Nat) (va : Nat) : Bool := (core.map (fun c => tlbHolds s ctx c va)).getD false

/-- Translates one access (R58 to R64, R70, R402): the place, or the cause and the level. An access that fails an
aperture condition and a permission has the aperture cause (R64). -/
def translate (s : State) (ctx : Nat) (tlb : Bool) (need : Need) (va : W64) : Except (Nat × Nat) Trans :=
  match getCtx s ctx with
  | none => .error (1, 0)
  | some c =>
    if 2 ^ 57 ≤ va.toNat then .error (2, 0)
    else match walk s tlb c.root va.toNat with
      | .fault cause lv => .error (cause, lv)
      | .leaf e lv =>
        let off := va.toNat % 2 ^ pageLog lv
        let pa := fld e 16 24 * 65536 + off
        let ap := fld e 40 2
        let base : Loc := { ap := ap, addr := pa, key := fld e 44 12,
                            redop := fld e 59 3, redtype := fld e 56 3, cache := fld e 42 2, va := va }
        match (if needAp need ap then reach s c (fld e 12 4) base else none) with
        | none => .error (5, lv)
        | some l => if needPerm need e then .ok ⟨l, fld e 63 1 == 1⟩ else .error (3, lv)

/-! ### Lines of L2 (R3, R66, R73) -/

/-- Lines of one slice: 8 MiB of 128 bytes (R3). -/
def sliceLines : Nat := 65536

/-- Whether two lines lie in one slice. -/
def sameSlice (x y : Nat) : Bool := homeDie (128 * x) == homeDie (128 * y) && homeSlice (128 * x) == homeSlice (128 * y)

/-- Whether a fork version, a twin or a watch holds a line (R66). -/
def lineHeld (s : State) (line : Nat) : Bool :=
  s.forks.any (fun f => f.twins.any (fun t => t.gran / 4 == line) || f.vers.any (fun v => v.gran / 4 == line))
    || s.blocks.any (fun b => b.gangs.any (fun (p : Nat × Gang) => p.2.watch.armed && p.2.watch.loc.ap == 0 && p.2.watch.loc.addr / 128 == line))

/-- The line that L2 still has. A no-allocate line goes with its last holder; replacement is not stated beyond R66, so
whether another one has been evicted is a free value (log 10). -/
def l2Line (s : State) (line : Nat) : Option L2Line :=
  (sget none s.l2 line).bind (fun r =>
    if r.cache = 2 then (if lineHeld s line then some r else none)
    else if Config.l2Keeps s.tick line then some r else none)

/-- The line that a full slice gives up for another: a streaming line first, else any (R66). -/
def l2Victim (s : State) (line : Nat) : Option Nat :=
  let own := s.l2.filter (fun p => sameSlice p.1 line)
  if own.length < sliceLines then none
  else match own.find? (fun p => (p.2.map (fun r => r.cache == 1)).getD false) with
    | some p => some p.1
    | none => (own[Config.l2Evicts s.tick line % own.length]?).map (·.1)

/-- A line is filled under a key (R73). -/
def fillLine (s : State) (line key cache : Nat) : State :=
  if (sget none s.l2 line).isSome then { s with l2 := sset none s.l2 line (some { key := key, cache := cache }) }
  else
    let l2 := match l2Victim s line with
      | some x => sset none s.l2 x none
      | none => s.l2
    { s with l2 := sset none l2 line (some { key := key, cache := cache }) }

/-- A line leaves L2 (R74). -/
def dropLine (s : State) (line : Nat) : State := { s with l2 := sset none s.l2 line none }

/-- The line of a local access is filled under its key; a no-allocate line stays while something holds it (R66). -/
def touchLine (s : State) (l : Loc) : State :=
  if l.ap = 0 then
    (if l.cache = 2 && !lineHeld s (l.addr / 128) then dropLine s (l.addr / 128) else fillLine s (l.addr / 128) l.key l.cache)
  else s

/-- The lines of a run of bytes at a place. -/
def touchRun (s : State) (l : Loc) (n : Nat) : State :=
  if l.ap = 0 ∧ n ≠ 0 then
    (List.range ((l.addr + n - 1) / 128 - l.addr / 128 + 1)).foldl (fun s i => touchLine s { l with addr := 128 * (l.addr / 128 + i) }) s
  else s

/-- The lines of the table entries that a walk has read are filled under key 0 (R69). -/
def walkSeen (s : State) (ctx va : Nat) : State :=
  (walkReads s va 4 (((getCtx s ctx).map (fun c => c.root)).getD 0) 0).foldl (fun s a => fillLine s (a / 128) 0 0) s

/-- A walk for an address has ended in a leaf: the buffers that serve a core hold its page (R69). -/
def fillAt (s : State) (ctx core va : Nat) : State :=
  if tlbHolds s ctx core va then s
  else match walk s true (((getCtx s ctx).map (fun c => c.root)).getD 0) va with
    | .leaf _ lv => fillTlbs (walkSeen s ctx va) core { ctx := ctx, va := va / 2 ^ pageLog lv * 2 ^ pageLog lv, size := 2 ^ pageLog lv }
    | .fault _ _ => s

/-- Why the key of a local access fails, if it does (R72, R73, R351 class 7). The spec gives no order among the causes;
the model takes key id 0, then the empty slot that holds no key record, the grant, the empty slot, the line (log 48). -/
def keyFault (s : State) (ctx : Nat) (l : Loc) : Option Nat :=
  if l.ap ≠ 0 then none
  else if l.key = 0 then some 4
  else match sfind s.keys l.key with
    | none => some 2
    | some k =>
      if !k.grants.contains ctx then some 1
      else if !k.present then some 2
      else if ((l2Line s (l.addr / 128)).map (fun r => r.key != l.key)).getD false then some 3 else none

/-- The same for some bytes from a local place on: how far on the first line of theirs lies that fails, and why. -/
def keyFaultRun (s : State) (ctx : Nat) (l : Loc) (n : Nat) : Option (Nat × Nat) :=
  (List.range ((l.addr % 128 + n + 127) / 128)).findSome? (fun i =>
    let a := max l.addr (128 * (l.addr / 128 + i))
    (keyFault s ctx { l with addr := a }).map (fun c => (a - l.addr, c)))

/-! ### Fork views (R101 to R109) -/

/-- A view: the forks and children that enclose a party, innermost first. -/
abbrev View := List (Nat × Nat)

/-- The tracked run of a fork's windows that holds a physical address (R101). -/
def Seg.holds (g : Seg) (pa : Nat) : Bool := decide (g.pa ≤ pa) && decide (pa < g.pa + g.len)
def forkSeg (f : Fork) (pa : Nat) : Option Seg :=
  (f.wins.flatMap (fun w => w.segs)).find? (fun g => g.holds pa)
def twinOf (f : Fork) (gran : Nat) : Option Twin := f.twins.find? (fun t => t.gran == gran)
def verOf (f : Fork) (c gran : Nat) : Option Version := f.vers.find? (fun v => v.gran == gran && v.child == c)

/-- Slices of one bucket (R128). -/
def Fork.bucket (f : Fork) (t : Nat) : List SliceSt := f.slices.filter (fun x => x.win == t - f.tag)
/-- Whether a fork, or a chip-scope bucket, has ended (R126, R130). -/
def Fork.bucketEnded (f : Fork) (t : Nat) : Bool :=
  f.ended || (f.scope == .chip && (f.bucket t).all (fun x => x.written))
/-- Whether a window of a fork still stands before the merged bytes: its fork, or its bucket, has not ended (R126). -/
def Fork.winOpen (f : Fork) (w : Nat) : Bool := !f.bucketEnded (if f.scope = .chip then f.tag + w else f.tag)
/-- Whether an open window of a fork holds a physical address. -/
def openAt (f : Fork) (pa : Nat) : Bool := f.wins.zipIdx.any (fun p => f.winOpen p.2 && p.1.segs.any (fun g => g.holds pa))

/-- The open fork of a parent view whose open windows hold a granule (R109, R110). -/
def openOver (s : State) (v : View) (gran : Nat) : Option Fork :=
  s.forks.find? (fun f => f.parentView == v && openAt f (32 * gran))

/-- Bytes of one reduction element (R62). -/
def redBytes (ty : Nat) : Nat := if ty = 2 ∨ ty = 3 then 8 else if ty = 5 then 2 else 4
/-- The identity of a reduction operator (R107). -/
def redIdentity (op ty : Nat) : Nat :=
  match op, ty with
  | 2, 0 => 0x7FFF_FFFF | 2, 1 => 0xFFFF_FFFF | 2, 2 => 0x7FFF_FFFF_FFFF_FFFF | 2, 3 => 0xFFFF_FFFF_FFFF_FFFF
  | 2, 4 => 0x7F80_0000 | 2, _ => 0x7F80
  | 3, 0 => 0x8000_0000 | 3, 1 => 0 | 3, 2 => 0x8000_0000_0000_0000 | 3, 3 => 0
  | 3, 4 => 0xFF80_0000 | 3, _ => 0xFF80
  | 4, 0 => 0xFFFF_FFFF | 4, 1 => 0xFFFF_FFFF | 4, _ => 0xFFFF_FFFF_FFFF_FFFF
  | _, _ => 0
/-- One granule of identities. -/
def redGranule (op ty : Nat) : BitVec 256 :=
  BitVec.ofNat 256 (natOf ((List.range 32).map (fun i => BitVec.ofNat 8 (redIdentity op ty / 256 ^ (i % redBytes ty)))))

/-- A granule as a view reads it, with its poison (R106, R109). `m`: key material of the access. -/
def viewRead (s : State) (m gran : Nat) : View → BitVec 256 × Bool
  | [] => match (openOver s [] gran).bind (fun f => twinOf f gran) with
    | some t => (t.bytes, t.poisoned)
    | none => (sectorUnder s gran m, sectorBad s gran)
  | (f, c) :: rest => match (openOver s ((f, c) :: rest) gran).bind (fun n => twinOf n gran) with
    | some t => (t.bytes, t.poisoned)
    | none => match getFork s f with
      | none => viewRead s m gran rest
      | some fk => match forkSeg fk (32 * gran) with
        | none => viewRead s m gran rest
        | some g => match verOf fk c gran with
          | some w => (w.bytes, w.poisoned)
          | none =>
            if g.redop ≠ 0 then (redGranule g.redop g.redtype, false)
            else match twinOf fk gran with
              | some t => (t.bytes, t.poisoned)
              | none => viewRead s m gran rest

/-- Where a write of a view lands. -/
inductive WTarget where
  | mem
  | version (fork child : Nat) (rest : View)
  | violation
  deriving DecidableEq, Repr

/-- R107, R109: the innermost covering fork takes the write; a write by a party that is no child of an open
covering fork is a violation. -/
def viewTarget (s : State) (gran : Nat) : View → WTarget
  | [] => if (openOver s [] gran).isSome then .violation else .mem
  | (f, c) :: rest =>
    if (openOver s ((f, c) :: rest) gran).isSome then .violation
    else match getFork s f with
      | none => viewTarget s gran rest
      | some fk => if (forkSeg fk (32 * gran)).isSome then .version f c rest else viewTarget s gran rest

/-- Whether the executing view versions a granule privately (R107, R197). -/
def privately (s : State) (v : View) (l : Loc) : Bool :=
  l.ap == 0 && (match viewTarget s (l.addr / 32) v with | .version _ _ _ => true | _ => false)

/-- Replaces bytes of a granule. -/
def patch (b : BitVec 256) : Nat → List Byte → BitVec 256
  | _, [] => b
  | o, x :: xs => patch ((b &&& ~~~((0xFF : BitVec 256) <<< (8 * o))) ||| (x.setWidth 256 <<< (8 * o))) (o + 1) xs
def granBytes (b : BitVec 256) (o n : Nat) : List Byte := (List.range n).map (fun i => b.extractLsb' (8 * (o + i)) 8)

/-- Slots a fork holds (R121). -/
def slotsHeld (f : Fork) : Nat := f.twins.length + f.vers.length
/-- Slots that a child may not take: those held, those granted to other children, and those that blocked children below
it wait for, since freed slots go to blocked children in ascending order (R122). -/
def slotsTaken (f : Fork) (c : Nat) : Nat :=
  slotsHeld f + (f.children.map (fun x =>
    if x.idx = c then 0 else x.granted + (if x.st = .blocked ∧ x.idx < c then x.need else 0))).foldl (· + ·) 0
/-- Whether a child may take `n` more slots. -/
def slotRoom (f : Fork) (c n : Nat) : Bool := n == 0 || decide (slotsTaken f c + n ≤ f.quota)
/-- Slots a first write of child `c` to a granule needs (R107). -/
def slotNeed (f : Fork) (c gran : Nat) : Nat :=
  if (verOf f c gran).isSome then 0 else if (twinOf f gran).isSome then 1 else 2

/-- Makes twin and version of a granule for a child (R107). -/
def makeVersion (s : State) (m gran fid c : Nat) (rest : View) : State :=
  match getFork s fid with
  | none => s
  | some f =>
    if (verOf f c gran).isSome then s
    else
      let p := viewRead s m gran rest
      let tw := (twinOf f gran).getD { gran := gran, bytes := p.1, poisoned := p.2 }
      let init : BitVec 256 × Bool := match forkSeg f (32 * gran) with
        | some g => if g.redop ≠ 0 then (redGranule g.redop g.redtype, false) else (tw.bytes, tw.poisoned)
        | none => (tw.bytes, tw.poisoned)
      modFork s fid (fun f => { f with
        twins := if (twinOf f gran).isSome then f.twins else f.twins ++ [tw],
        vers := f.vers ++ [{ child := c, gran := gran, bytes := init.1, poisoned := init.2 }],
        children := updFirst (fun x => x.idx == c) (fun x => { x with granted := 0 }) f.children })

def modVer (s : State) (fid c gran : Nat) (g : Version → Version) : State :=
  modFork s fid (fun f => { f with vers := updFirst (fun v => v.gran == gran && v.child == c) g f.vers })

/-! ### Watches (R311) -/

/-- The fork and child that version a granule for a view (R107); none when a write of the view reaches memory. -/
def ownerOf (s : State) (gran : Nat) : View → Option (Nat × Nat)
  | [] => none
  | (f, c) :: rest => match getFork s f with
    | none => ownerOf s gran rest
    | some fk => if (forkSeg fk (32 * gran)).isSome then some (f, c) else ownerOf s gran rest

/-- Whether a watch on a granule, in a view, is triggered by a write of a view to a granule of the same line: any write that
reaches what the watching view sees, and, where a child versions the watched granule, the child's own writes only (R107). -/
def watchSees (s : State) (mine : View) (watched : Nat) (v : View) (gran : Nat) : Bool :=
  (match ownerOf s gran v with
    | none => true
    | some t => mine.contains t)
  && (match ownerOf s watched mine with
    | none => true
    | some c => v.contains c)

/-- A write of a view at a place triggers the watches of its line that see it (R311). -/
def notifyWrite (s : State) (v : View) (l : Loc) : State :=
  mapGangs s (fun b g =>
    if g.watch.armed && g.watch.loc.ap == l.ap && g.watch.loc.peer == l.peer && g.watch.loc.addr / 128 == l.addr / 128
      && (l.ap != 0 || watchSees s b.views (g.watch.loc.addr / 32) v (l.addr / 32))
    then { g with watch := { g.watch with triggered := true } } else g)

/-! ### Reading and writing places -/

/-- Whether a child's version of anything is discarded: it has failed, was abandoned, rolled back or cancelled (R112, R117,
R123, R135). -/
def childDead (s : State) (fid c : Nat) : Bool :=
  match getFork s fid with
  | none => true
  | some f => match f.children.find? (fun x => x.idx == c) with
    | none => true
    | some x => x.ending != .no || x.st == .failed || x.st == .cancelled || x.st == .unstarted

/-- Whether a write of a stopped child's block reaches its discarded versions; every other effect stands (R117). -/
def lostWrite (s : State) (v : View) (l : Loc) : Bool :=
  l.ap == 0 && (match viewTarget s (l.addr / 32) v with
    | .version f c _ => childDead s f c
    | .violation => true
    | .mem => false)

/-- Whether a block is stopped because a child that it runs for waits for a slot (R112, R122). -/
def childHeld (s : State) (v : View) : Bool :=
  v.any (fun x => ((getFork s x.1).map (fun f => f.children.any (fun c => c.idx == x.2 && c.st == .blocked))).getD false)

/-- Bytes at a place as a view reads them; the bytes lie in one granule when the place is local. -/
def locRead (s : State) (v : View) (l : Loc) (n : Nat) : List Byte :=
  match l.ap with
  | 0 =>
    let m := keyMat s l.key
    if s.forks.isEmpty then hbmRead s m l.addr n
    else granBytes (viewRead s m (l.addr / 32) v).1 (l.addr % 32) n
  | 1 => (List.range n).map (fun i => sget 0 s.hostMem (l.addr + i))
  | _ => (List.range n).map (fun i => sget 0 s.peerMem (l.peer * 2 ^ 40 + l.addr + i))
def locNat (s : State) (v : View) (l : Loc) (n : Nat) : Nat := natOf (locRead s v l n)

/-- The number of a peer's sector. -/
def peerSector (l : Loc) : Nat := (l.peer * 2 ^ 40 + l.addr) / 32

/-- Poison at a place as a view reads it, and at a peer as its answer says (R75, R76). -/
def locPoison (s : State) (v : View) (l : Loc) : Bool :=
  match l.ap with
  | 0 => if s.forks.isEmpty then sectorBad s (l.addr / 32) else (viewRead s (keyMat s l.key) (l.addr / 32) v).2
  | 1 => false
  | _ => s.peerBad.contains (peerSector l)

/-- The cause of the poison fault of a read there (R351 class 8): a memory sector, or a remote load. -/
def poisonCause (l : Loc) : Nat := if l.ap = 0 then 2 else 8

/-- The outcome of a write: done, or the child needs a slot that its fork has not free (R122). -/
inductive WRes where
  | ok (s : State)
  | blocked (fork child need : Nat)
  | violation

/-- Writes bytes that lie in one granule (R107, R109). Poison stays: a full sector clears it by `clearBad`. -/
def locWrite (s : State) (v : View) (l : Loc) (bs : List Byte) : WRes :=
  match l.ap with
  | 0 =>
    let m := keyMat s l.key
    let gran := l.addr / 32
    match viewTarget s gran v with
    | .mem => .ok (notifyWrite (touchLine (hbmWrite s m l.addr bs) l) v l)
    | .violation => .violation
    | .version f c rest =>
      match getFork s f with
      | none => .violation
      | some fk =>
        if !slotRoom fk c (slotNeed fk c gran) then .blocked f c (slotNeed fk c gran)
        else
          let s := makeVersion s m gran f c rest
          .ok (notifyWrite (touchLine (modVer s f c gran (fun w => { w with bytes := patch w.bytes (l.addr % 32) bs })) l) v l)
  | 1 => .ok (notifyWrite { s with hostMem := ssetMany 0 s.hostMem (cells l.addr bs) } v l)
  | _ => .ok (notifyWrite { s with peerMem := ssetMany 0 s.peerMem (cells (l.peer * 2 ^ 40 + l.addr) bs) } v l)

/-- Clears the poison of a whole sector that one request wrote (R76). -/
def clearBad (s : State) (v : View) (l : Loc) : State :=
  match l.ap with
  | 0 => match viewTarget s (l.addr / 32) v with
    | .mem => setBad s (l.addr / 32) false
    | .version f c _ => modVer s f c (l.addr / 32) (fun w => { w with poisoned := false })
    | .violation => s
  | 1 => s
  | _ => { s with peerBad := s.peerBad.filter (fun x => x != peerSector l) }

/-- A place further on. -/
def Loc.plus (l : Loc) (n : Nat) : Loc := { l with addr := l.addr + n, va := l.va + BitVec.ofNat 64 n }

/-- The pieces of a run of bytes by sector. -/
def bySector (l : Loc) : Nat → List Byte → List (Loc × List Byte)
  | 0, _ => []
  | fuel + 1, bs =>
    if bs.isEmpty then []
    else
      let n := 32 - l.addr % 32
      (l, bs.take n) :: bySector (l.plus n) fuel (bs.drop n)

/-- Writes a run of bytes inside one page. `clear`: it is one of the writes that R76 names, which clear the poison of every
sector that they cover whole. -/
def locWriteRun (clear : Bool) (s : State) (v : View) (l : Loc) (bs : List Byte) : WRes :=
  (bySector l (bs.length / 32 + 2) bs).foldl (fun r p =>
    match r with
    | .ok s => match locWrite s v p.1 p.2 with
      | .ok s => .ok (if clear && p.2.length == 32 then clearBad s v p.1 else s)
      | x => x
    | x => x) (.ok s)

/-- Reads a run of bytes inside one page. -/
def locReadRun (s : State) (v : View) (l : Loc) (n : Nat) : List Byte :=
  (bySector l (n / 32 + 2) (List.replicate n 0)).flatMap (fun p => locRead s v p.1 p.2.length)

/-- Pieces of a run of virtual addresses by 64 KiB page. -/
def byPage (va : W64) : Nat → Nat → List (W64 × Nat)
  | 0, _ => []
  | fuel + 1, n =>
    if n = 0 then []
    else
      let k := min n (65536 - va.toNat % 65536)
      (va, k) :: byPage (va + BitVec.ofNat 64 k) fuel (n - k)

/-- Places of a run of virtual addresses, or the first failing address with its class, cause and level. `core`: the core
whose translation buffers serve the party, if it is on one (R68). -/
def transRun (s : State) (ctx : Nat) (core : Option Nat) (need : Need) (va : W64) (n : Nat) :
    Except (W64 × Nat × Nat × Nat) (List (Loc × Nat)) :=
  (byPage va (n / 65536 + 2) n).foldr (fun p acc =>
    match translate s ctx (heldFor s ctx core p.1.toNat) need p.1 with
    | .error (c, lv) => .error (p.1, 6, c, lv)
    | .ok t =>
      match keyFaultRun s ctx t.loc p.2 with
      | some (o, c) => .error (p.1 + BitVec.ofNat 64 o, 7, c, 0)
      | none =>
        if t.pagePoison && (need != .wr) then .error (p.1, 8, 1, 0)
        else match acc with
          | .error e => .error e
          | .ok l => .ok ((t.loc, p.2) :: l)) (.ok [])

/-- What a successful access to a run leaves: the pages in the translation buffers of its core, the lines in L2. -/
def runSeen (s : State) (ctx : Nat) (core : Option Nat) (need : Need) (va : W64) (n : Nat) : State :=
  match transRun s ctx core need va n with
  | .error _ => s
  | .ok l =>
    let s1 := match core with
      | some c => (byPage va (n / 65536 + 2) n).foldl (fun s p => fillAt s ctx c p.1.toNat) s
      | none => s
    l.foldl (fun s p => touchRun s p.1 p.2) s1

/-- The first poisoned place of a run. -/
def runPoison (s : State) (v : View) (l : List (Loc × Nat)) : Option Loc :=
  l.findSome? (fun p => (sectorsOf p.1.addr p.2).findSome? (fun sec =>
    let x := { p.1 with addr := 32 * sec }
    if locPoison s v x then some p.1 else none))

/-- Bytes of a structure that the device reads for a packet, a launch or a fork: fails as a load would. -/
def structRead (s : State) (ctx : Nat) (core : Option Nat) (v : View) (va : W64) (n : Nat) :
    Except (W64 × Nat × Nat × Nat) (List Byte) :=
  match transRun s ctx core .rd va n with
  | .error e => .error e
  | .ok l =>
    match runPoison s v l with
    | some p => .error (p.va, 8, poisonCause p, 0)
    | none => .ok (l.flatMap (fun p => locReadRun s v p.1 p.2))

/-- The read with what it leaves in the buffers and in L2. -/
def structLoad (s : State) (ctx : Nat) (core : Option Nat) (v : View) (va : W64) (n : Nat) :
    Except (W64 × Nat × Nat × Nat) (State × List Byte) :=
  match structRead s ctx core v va n with
  | .error e => .error e
  | .ok b => .ok (runSeen s ctx core .rd va n, b)

/-- Writes of the device into a context's memory (R419 applies where it fails). -/
def structWrite (s : State) (ctx : Nat) (core : Option Nat) (v : View) (va : W64) (bs : List Byte) :
    Except (W64 × Nat × Nat × Nat) State :=
  match transRun s ctx core .wr va bs.length with
  | .error e => .error e
  | .ok l =>
    let r := l.foldl (fun (acc : WRes × List Byte) p =>
      match acc.1 with
      | .ok s => (locWriteRun false s v p.1 (acc.2.take p.2), acc.2.drop p.2)
      | _ => acc) (.ok s, bs)
    match r.1 with
    | .ok s => .ok (match core with
      | some c => (byPage va (bs.length / 65536 + 2) bs.length).foldl (fun s p => fillAt s ctx c p.1.toNat) s
      | none => s)
    | .violation => .error (va, 17, 1, 0)
    | .blocked _ _ _ => .error (va, 20, 1, 0)

end Sys2Proof.Machine
end

