-- ==== Sys2Proof/Machine/Records.lean ====
section
/-! DEFINITION. Machine/Records.lean: the bytes of fault reports (13 R353) and of block records (13 R364 to R366). -/

namespace Sys2Proof.Machine

open Sys2Proof

def le (n x : Nat) : List Byte := bytesOf n x
def le64 (x : W64) : List Byte := bytesOf 8 x.toNat
def zeros (n : Nat) : List Byte := List.replicate n 0
/-- Zero bytes up to a multiple of `k`. -/
def padTo (k : Nat) (l : List Byte) : List Byte := l ++ zeros (ceilTo k l.length - l.length)
/-- Bytes `o` to `o + n - 1` as a number. -/
def natAt (l : List Byte) (o n : Nat) : Nat := natOf ((l.drop o).take n)
def w64At (l : List Byte) (o : Nat) : W64 := BitVec.ofNat 64 (natAt l o 8)

/-- The top four ids of a region stack, top first, in one word (R353). -/
def topFour (r : List (BitVec 16)) : W64 :=
  BitVec.ofNat 64 ((r.take 4).foldr (fun x acc => x.toNat + 65536 * acc) 0)

/-- The 128 bytes of a report (R353). -/
def encodeReport (r : Report) : List Byte :=
  le 2 r.cls ++ le 2 r.cause ++ le 1 r.kind ++ le 1 r.level ++ le 2 r.flags ++ le 4 r.ctx ++ le 2 r.gang
    ++ le 1 r.lane ++ le 1 r.access ++ le64 r.addr ++ le64 r.mask ++ le64 r.va ++ le64 r.blkIdx ++ le64 r.regions
    ++ le 1 r.die ++ le 1 r.clu ++ le 1 r.core ++ le 1 r.tlevel ++ le 4 r.child ++ le 16 r.insn.toNat
    ++ ((r.w ++ List.replicate 6 0).take 6).flatMap le64

/-! ### Registers of a gang -/

abbrev reg (i lane : Nat) : Nat := 64 * i + lane

/-- One 32-bit register over the lanes, zero where no thread lives. -/
def lanes32 (live : Mask) (s : Store W32) (i : Nat) : List Byte :=
  (List.range 64).flatMap (fun l => le 4 (if live.getLsbD l then (sget 0 s (reg i l)).toNat else 0))
def lanes64 (live : Mask) (s : Store W64) (i : Nat) : List Byte :=
  (List.range 64).flatMap (fun l => le64 (if live.getLsbD l then sget 0 s (reg i l) else 0))

/-- Section 0x01. -/
def secRegs (g : Gang) : List Byte :=
  le 4 g.alloc ++ zeros 4 ++ (List.range g.alloc).flatMap (fun i => lanes32 g.live g.v i)

/-- Section 0x02. -/
def secLane (g : Gang) : List Byte :=
  (List.range 8).flatMap (fun i => lanes32 g.live g.o i)
    ++ (List.range 4).flatMap (fun i => lanes64 g.live g.lat i)
    ++ (List.range 4).flatMap (fun i => le64 (sget 0 g.latValid i &&& g.live))
    ++ (List.range 7).flatMap (fun i => le64 (sget 0 g.p i &&& g.live))
    ++ le64 g.live
    ++ (List.range 64).flatMap (fun l => le64 (if g.live.getLsbD l then sget 0 g.pc l else 0))

/-- Waiting code by the order of R361's row, and its operand. -/
def waitCode : Wait → Nat × W64
  | .grow n => (1, BitVec.ofNat 64 n)
  | .mgate => (2, 0)
  | .popq _ q => (3, BitVec.ofNat 64 q)
  | .barwait b _ => (4, BitVec.ofNat 64 b)
  | .gaugewait _ t => (5, t)
  | .mbrecv _ m => (6, BitVec.ofNat 64 m)
  | .mwait _ => (7, 0)
  | .waitany c => (8, c.setWidth 64)
  | .rqalloc _ h => (9, h)
  | .join t => (10, BitVec.ofNat 64 t)
  | _ => (0, 0)

/-- Section 0x03. -/
def secGang (g : Gang) : List Byte :=
  padTo 640 (le 4 g.fstat.toNat ++ le 4 g.alloc ++ le 1 g.regions.length ++ zeros 3
    ++ ((g.regions.reverse ++ List.replicate 16 0).take 16).flatMap (fun (x : BitVec 16) => le 2 x.toNat)
    ++ zeros 8 ++ le 8 g.rangeCount ++ (List.range 64).flatMap (fun l => le 8 (if g.live.getLsbD l then sget 0 g.draw l else 0))
    ++ le64 g.watch.va
    ++ le 8 ((if g.watch.armed then 1 else 0) + (if g.watch.triggered then 2 else 0) + (if g.watch.restored then 4 else 0))
    ++ le 4 (waitCode g.wait).1 ++ zeros 4 ++ le64 (waitCode g.wait).2)

/-- The parked byte of section 0x04: a park in WAITANY (R307), or a debug stop (R374). -/
def savedParked (w : Wait) : Bool :=
  match w with
  | .waitany _ => true
  | .debugStop => true
  | _ => false

/-- Section 0x04. The parameter of a record queue's slot is its handle. -/
def secEvents (e : Events) (parked : Bool) : List Byte :=
  (List.range 16).flatMap (fun i =>
    let s := sget {} e.slots i
    le 1 s.kind ++ le 1 (if s.kind = 0 then 0 else 1) ++ le 1 s.count ++ zeros 1 ++ le 4 (if s.kind = 5 then 0 else s.idx) ++ le64 s.loc.va
      ++ le64 s.target ++ le64 s.handler)
    ++ le 2 e.pend.toNat ++ le 2 e.emask.toNat ++ le 4 e.srEv.toNat ++ le64 e.srEvpay ++ le64 e.srEvret
    ++ le 1 (if parked then 1 else 0) ++ zeros 7

/-- A return stack's entries, oldest first (R299). Spillway places are keyed 256 × lane + place. -/
def stackEntries (spill : Store W64) (lane : Nat) (r : RStack) : List W64 :=
  (List.range r.spilled).map (fun i => sget 0 spill (256 * lane + i)) ++ r.chip.reverse
def RStack.depth (r : RStack) : Nat := r.chip.length + r.spilled

/-- Section 0x05. -/
def secStacks (live : Mask) (rs : Store RStack) (spill : Store W64) : List Byte :=
  let of := fun l => if live.getLsbD l then sget {} rs l else {}
  padTo 64 ((List.range 64).flatMap (fun l => le 1 (of l).depth)
    ++ (List.range 64).flatMap (fun l => (stackEntries spill l (of l)).flatMap le64))

/-- Section 0x06. -/
def secScratch (b : Block) : List Byte := (List.range b.kd.scratch).map (fun a => sget 0 b.scratch a)

/-- Section 0x07. -/
def secBarriers (b : Block) : List Byte :=
  (List.range b.kd.nbar).flatMap (fun i =>
    let x := sget {} b.bars i
    le 4 x.expected ++ le 4 x.arrivals ++ le 8 (wrap 64 x.balance) ++ le 1 (if x.phase then 1 else 0) ++ le 1 x.mode
      ++ zeros 2 ++ le 4 ((x.arrived.filter (fun g => g < 32)).foldl (fun a g => a + 2 ^ g) 0) ++ zeros 8)

/-- Section 0x08. -/
def secMailboxes (b : Block) : List Byte :=
  (List.range b.kd.nmbox).flatMap (fun i =>
    let q := sget [] b.mboxes i
    le 1 q.length ++ zeros 7 ++ ((q ++ List.replicate 8 0).take 8).flatMap le64)

/-- Major opcodes of the four commands (R162, R163). -/
def CmdKind.major : CmdKind → Nat
  | .copy _ _ => 0xB0
  | .gather _ _ => 0xB1
  | .scatter _ _ => 0xB2
  | .fill _ _ => 0xB3

def gslotCode : GSlot → Nat
  | .unresolved => 0
  | .isTrue => 1
  | .isFalse => 2

/-- Section 0x09: commands not started, in channel order. -/
def secStreamer (b : Block) : List Byte :=
  let per := fun ch => b.chans.filter (fun c => c.ch == ch)
  (List.range 8).flatMap (fun i => le 1 (gslotCode (((b.gslots.find? (fun p => p.1 == i)).map (·.2)).getD .unresolved)))
    ++ (List.range 4).flatMap (fun ch => le 1 (per ch).length) ++ zeros 4
    ++ (List.range 4).flatMap (fun ch => ((per ch).zipIdx).flatMap (fun p =>
        le 1 p.1.kind.major ++ le 2 p.1.func.toNat ++ le 1 ch ++ le 1 p.2 ++ zeros 3 ++ le64 p.1.ka ++ le64 p.1.kb
          ++ ((p.1.kn ++ List.replicate 8 0).take 8).flatMap le64 ++ zeros 8))

/-- Section 0x0A. -/
def secInlet (g : Gang) : List Byte :=
  (List.range 4).flatMap (fun q => le 1 (sget [] g.inlet q).length) ++ zeros 4
    ++ (List.range 4).flatMap (fun q => ((sget [] g.inlet q ++ List.replicate 16 0).take 16).flatMap le64)

/-- Section 0x0F. -/
def secUniform (k : Store W64) (q : BitVec 7) : List Byte :=
  (List.range 64).flatMap (fun i => le64 (sget 0 k i)) ++ le 1 q.toNat ++ zeros 7

/-- Section 0x0B. -/
def secFeeder (f : Feeder) : List Byte :=
  le64 f.pc ++ le 1 f.q.toNat ++ zeros 7 ++ le 8 f.rangeCount ++ zeros 8 ++ secUniform f.k f.q
    ++ secEvents f.ev (savedParked f.wait)

/-- Section 0x0C. -/
def secHandler (live : Mask) (h : HandlerRec) : List Byte :=
  le64 h.faulting ++ le 1 h.len ++ zeros 7 ++ encodeReport h.report
    ++ (List.range 64).flatMap (fun l => le64 (if live.getLsbD l then sget 0 h.resume l else 0))

/-- Section 0x0D. -/
def secCarry (live : Mask) (c : CarryVals) : List Byte :=
  let idx := fun (l : List Nat) => ((l.map (fun i => le 1 i)).flatten ++ List.replicate 16 0xFF).take 16
  padTo 64 (le 1 c.vs.length ++ le 1 c.ks.length ++ zeros 6 ++ idx (c.vs.map (·.1)) ++ idx (c.ks.map (·.1))
    ++ c.vs.flatMap (fun p => (List.range 64).flatMap (fun l => le 4 (if live.getLsbD l then (sget 0 p.2 l).toNat else 0)))
    ++ c.ks.flatMap (fun p => le64 p.2))

/-- Section 0x0E. -/
def secRestart (g : Gang) (r : Restart) : List Byte :=
  let g' := { g with alloc := r.alloc, regions := r.regions, draw := r.draw, wait := .none }
  le64 r.label ++ zeros 56 ++ padTo 64 (secCarry g.live r.carry) ++ padTo 64 (secGang g')
    ++ padTo 64 (secStacks g.live r.rstack r.spill)

/-- Gangs of a block that have not exited. -/
def Block.liveGangs (b : Block) : List Nat := (b.gangs.filter (fun p => !p.2.exited)).map (·.1)

/-- The header of a block record (R364). `rcb`: the RCB of the block's region. -/
def recordHeader (b : Block) (rcb : W64) (kind : Nat) (child : Option Nat) (sections : Nat) : List Byte :=
  le 4 0x4B43_4C42 ++ le 2 1 ++ le 1 kind
    ++ le 1 (match b.feeder with | none => 0 | some f => if f.exited then 2 else 1)
    ++ le 8 b.idx ++ le64 b.source ++ le64 b.launchKey ++ le 8 b.period
    ++ le 4 ((if b.portable then 1 else 0) + (if b.async.isEmpty then 0 else 2) + (if b.kd.clique.isSome then 4 else 0)
        + (if child.isSome then 8 else 0))
    ++ le 4 (b.liveGangs.foldl (fun a g => a + 2 ^ g) 0)
    ++ le 1 b.gangs.length ++ le 1 b.lDie ++ le 1 b.lClu ++ le 1 b.lCore ++ le 4 sections
    ++ (match child with | none => List.replicate 8 0xFF | some c => le 8 c)
    ++ le64 rcb ++ zeros 56

/-- Section table entries and bytes: sections at multiples of 64 from `off`. -/
def layoutSections (slot off : Nat) : List (Nat × Nat × List Byte) → List Byte × List Byte
  | [] => ([], [])
  | (ty, gang, bytes) :: rest =>
    let r := layoutSections slot (off + ceilTo 64 bytes.length) rest
    (le 2 ty ++ le 1 gang ++ le 1 slot ++ le 4 bytes.length ++ le 8 off ++ r.1, padTo 64 bytes ++ r.2)

/-- A block record with its sections (R364). -/
def encodeRecord (b : Block) (rcb : W64) (kind : Nat) (child : Option Nat) (secs : List (Nat × Nat × List Byte)) : List Byte :=
  let start := ceilTo 64 (128 + 16 * secs.length)
  let r := layoutSections 0 start secs
  recordHeader b rcb kind child secs.length ++ r.1 ++ zeros (start - 128 - 16 * secs.length) ++ r.2

/-- The carry set of a gang with its present values (R17). -/
def carryOf (kd : KDesc) (g : Gang) : CarryVals :=
  { vs := kd.carryv.map (fun i => (i, (lanesOf g.live).foldl (fun s l => sset 0 s l (sget 0 g.v (reg i l))) [])),
    ks := kd.carryk.map (fun i => (i, sget 0 g.k i)) }

/-- A section without content is left out of a block record (R366, R407). -/
def fullSections (l : List (Nat × Nat × List Byte)) : List (Nat × Nat × List Byte) :=
  l.filter (fun x => x.2.2.any (fun b => b != 0))

/-- Sections of a phase record (R366). -/
def phaseSections (b : Block) : List (Nat × Nat × List Byte) :=
  fullSections (b.gangs.flatMap (fun (p : Nat × Gang) => if p.2.exited then [] else
    [(0x0D, p.1, secCarry p.2.live (carryOf b.kd p.2)), (0x03, p.1, secGang p.2), (0x05, p.1, secStacks p.2.live p.2.rstack p.2.spill)]))

/-- Sections of an image (R361, R366). -/
def imageSections (b : Block) : List (Nat × Nat × List Byte) :=
  fullSections ((b.gangs.flatMap (fun (p : Nat × Gang) => if p.2.exited then [] else
    [(0x01, p.1, secRegs p.2), (0x02, p.1, secLane p.2), (0x0F, p.1, secUniform p.2.k p.2.q), (0x03, p.1, secGang p.2),
     (0x04, p.1, secEvents p.2.ev (savedParked p.2.wait)),
     (0x05, p.1, secStacks p.2.live p.2.rstack p.2.spill), (0x0A, p.1, secInlet p.2)]
      ++ (match p.2.handler with | some h => [(0x0C, p.1, secHandler p.2.live h)] | none => [])
      ++ (match p.2.restart with | some r => [(0x0E, p.1, secRestart p.2 r)] | none => [])))
    ++ [(0x06, 0xFF, secScratch b), (0x07, 0xFF, secBarriers b), (0x08, 0xFF, secMailboxes b), (0x09, 0xFF, secStreamer b)]
    ++ (match b.feeder with | some f => [(0x0B, 0xFF, secFeeder f)] | none => [])
    ++ [(0x11, 0xFF, b.async.flatMap encodeReport)])

/-- Sections that a dump plans for one block (R369, R414): those of a size above zero. -/
def dumpSections (b : Block) (rcb : W64) : List (Nat × Nat × List Byte) :=
  let gs := b.gangs
  let rest := ((gs.flatMap (fun (p : Nat × Gang) =>
      [(0x0F, p.1, secUniform p.2.k p.2.q), (0x03, p.1, secGang p.2), (0x04, p.1, secEvents p.2.ev (savedParked p.2.wait)),
       (0x05, p.1, secStacks p.2.live p.2.rstack p.2.spill), (0x02, p.1, secLane p.2), (0x01, p.1, secRegs p.2)]
        ++ (match p.2.handler with | some h => [(0x0C, p.1, secHandler p.2.live h)] | none => []))
    ++ [(0x07, 0xFF, secBarriers b), (0x08, 0xFF, secMailboxes b), (0x09, 0xFF, secStreamer b)]
    ++ gs.map (fun (p : Nat × Gang) => (0x0A, p.1, secInlet p.2))
    ++ (match b.feeder with | some f => [(0x0B, 0xFF, secFeeder f)] | none => [])
    ++ [(0x06, 0xFF, secScratch b)]).filter (fun x => !x.2.2.isEmpty))
  (0x10, 0xFF, recordHeader b rcb 3 ((b.views.head?).map (·.2)) (rest.length + 1)) :: rest

end Sys2Proof.Machine
end

