-- ==== Sys2Proof/Machine/Launch.lean ====
section
/-! DEFINITION. Machine/Launch.lean: kernel descriptors, launch parameter blocks and LAUNCH bodies (12 R319 to
R321), regions (12 R323, R324, R418), traversal orders and logical placement (12 R327 to R329), new grids. -/

namespace Sys2Proof.Machine

open Sys2Proof

/-- A failed read or check: address concerned, class, cause, table level. -/
abbrev LErr := W64 × Nat × Nat × Nat

/-! ### Kernel descriptors and launch parameter blocks -/

def allZero (l : List Byte) (o n : Nat) : Bool := ((l.drop o).take n).all (fun b => b == 0)

/-- The used bytes of a carry list (R320). -/
def carryList (l : List Byte) (o : Nat) : List Nat :=
  (((l.drop o).take 16).map (fun b => b.toNat)).filter (fun n => n != 0xFF)

/-- A kernel descriptor (R320); `none` when a field breaks its limits. -/
def parseKdesc (l : List Byte) : Option KDesc :=
  let cl := natAt l 0x1F 1
  let kd : KDesc :=
    { entry := w64At l 0, feeder := w64At l 8, bx := natAt l 0x10 2, byy := natAt l 0x12 2, bz := natAt l 0x14 2,
      rmin := natAt l 0x16 1, rmax := natAt l 0x17 1, scratch := natAt l 0x18 4, nbar := natAt l 0x1C 1,
      nmbox := natAt l 0x1D 1, sd := natAt l 0x1E 1,
      clique := if cl / 128 = 1 then some (cl % 4 + 1, cl / 4 % 4 + 1) else none,
      carryv := carryList l 0x20, carryk := carryList l 0x30 }
  let n := kd.bx * kd.byy * kd.bz
  if kd.entry.toNat % 32 = 0 ∧ kd.feeder.toNat % 32 = 0 ∧ 1 ≤ n ∧ n ≤ 2048 ∧ 1 ≤ kd.rmin ∧ kd.rmin ≤ kd.rmax
      ∧ kd.rmax ≤ 32 ∧ kd.scratch ≤ 1048576 ∧ kd.scratch % 16 = 0 ∧ kd.nbar ≤ 128 ∧ kd.nmbox ≤ 32 ∧ kd.sd ≤ 252
      ∧ (if cl / 128 = 1 then cl / 16 % 8 = 0 else cl = 0)
      ∧ kd.carryv.all (fun v => v < 8 * kd.rmin) ∧ kd.carryk.all (fun k => k < 64) then some kd else none

/-- Gangs of a block (R11). -/
def KDesc.gangs (k : KDesc) : Nat := (k.bx * k.byy * k.bz + 63) / 64
/-- Rows and columns of the clique shape; 1 × 1 outside a clique (R13). -/
def KDesc.shape (k : KDesc) : Nat × Nat := k.clique.getD (1, 1)

/-- A launch parameter block (R320, R329). -/
def parseLpb (l : List Byte) : Option (KDesc × LParams) :=
  match parseKdesc l with
  | none => none
  | some kd =>
    let fl := natAt l 0x4C 1
    let lp : LParams :=
      { x := natAt l 0x40 4, y := natAt l 0x44 2, z := natAt l 0x46 2, order := natAt l 0x48 1, swz := natAt l 0x49 1,
        tsx := natAt l 0x4A 1, tsy := natAt l 0x4B 1, hash := fl % 2 = 1, persistent := fl / 2 % 2 = 1,
        bpc := natAt l 0x4D 1, rcount := natAt l 0x50 8, minchunk := natAt l 0x58 4, est := natAt l 0x5C 4 }
    if 1 ≤ lp.x ∧ lp.x < 2 ^ 31 ∧ 1 ≤ lp.y ∧ 1 ≤ lp.z ∧ lp.order ≤ 3 ∧ 1 ≤ lp.swz ∧ lp.swz ≤ 64 ∧ lp.tsx ≤ 31
        ∧ lp.tsy ≤ 31 ∧ fl < 4 ∧ (if lp.persistent then 1 ≤ lp.bpc ∧ lp.bpc ≤ 32 else lp.bpc = 0)
        ∧ (lp.persistent → lp.x = 1 ∧ lp.y = 1 ∧ lp.z = 1) ∧ lp.rcount ≤ 2 ^ 40
        ∧ (lp.rcount = 0 ∨ 1 ≤ lp.minchunk) ∧ lp.x % kd.shape.2 = 0 ∧ lp.y % kd.shape.1 = 0
        ∧ allZero l 0x4E 2 ∧ allZero l 0x60 32 then some (kd, lp) else none

/-- The fields of a LAUNCH body (R319). -/
structure LaunchBody where
  pin : Bool
  lpb : W64
  seed : W64
  arg : W64
  gauge : W64
  gadd : W64
  rcb : W64
  deriving DecidableEq, Repr

/-- Type, flags and must-be-zero bytes of a LAUNCH body (R317, R319). -/
def launchMbz (l : List Byte) : Bool :=
  natAt l 0 1 == 1 && decide (natAt l 1 1 < 2) && allZero l 2 6 && allZero l 0x38 8

/-- The fields of a LAUNCH body within their limits. -/
def parseLaunch (l : List Byte) : Option LaunchBody :=
  let b : LaunchBody := { pin := natAt l 1 1 % 2 = 1, lpb := w64At l 8, seed := w64At l 0x10, arg := w64At l 0x18,
                          gauge := w64At l 0x20, gadd := w64At l 0x28, rcb := w64At l 0x30 }
  if b.lpb.toNat % 128 = 0 ∧ b.gauge.toNat % 8 = 0 ∧ (b.gauge = 0 ∨ b.gadd ≠ 0) ∧ b.gadd.toNat < 2 ^ 63
  then some b else none

/-! ### Regions -/

/-- An RCB's fields (R323); `none` when a field breaks its limits. `b` answers whether field i is given. -/
def parseRcb (addr : W64) (l : List Byte) : Option Region :=
  let r : Region :=
    { addr := addr, parent := w64At l 0, imask := natAt l 8 4, band := natAt l 0x0C 1, action := natAt l 0x0D 1,
      cores := natAt l 0x10 4, regshare := natAt l 0x14 4, quota := natAt l 0x18 8, ramp := natAt l 0x20 4,
      rqmem := natAt l 0x28 8, handler := w64At l 0x30, hgrid := w64At l 0x38, ngauge := w64At l 0x40 }
  let given := fun i => r.imask / 2 ^ i % 2 = 1
  if addr.toNat % 128 = 0 ∧ r.imask < 1024 ∧ r.parent.toNat % 128 = 0
      ∧ (given 0 → r.band ≤ 7) ∧ (given 1 → r.action ≤ 5) ∧ (given 2 → 1 ≤ r.cores ∧ r.cores ≤ 512)
      ∧ (given 3 → 1 ≤ r.regshare ∧ r.regshare ≤ 384) ∧ (given 4 → 64 ≤ r.quota ∧ r.quota ≤ 2 ^ 32)
      ∧ (given 5 → 1 ≤ r.ramp ∧ r.ramp ≤ 4096)
      ∧ allZero l 0x0E 2 ∧ allZero l 0x24 4 ∧ allZero l 0x48 56
  then some r else none

def findRcb (c : Ctx) (a : W64) : Option Region := c.rcbs.find? (fun r => r.addr == a)

/-- The chain of a region: itself, its parents, up to the root, which address 0 names. -/
def regionChain (c : Ctx) : Nat → W64 → List Region
  | 0, _ => []
  | fuel + 1, a => if a = 0 then [] else match findRcb c a with
    | none => []
    | some r => r :: regionChain c fuel r.parent
def chainOf (c : Ctx) (a : W64) : List Region := regionChain c (c.rcbs.length + 1) a

/-- The name of the region node that a fork makes (R105): no address of a context has bit 63. -/
def forkNode (fork : Nat) : W64 := BitVec.ofNat 64 (2 ^ 63 + fork)
/-- The RCB of a region as block records carry it (R364): a fork's stands in device-reserved memory. -/
def rcbAddr (a : W64) : W64 := if a.msb then Config.forkRegion (a.toNat - 2 ^ 63) else a
/-- The nearest region on a chain that a context can name. -/
def namedRegion (c : Ctx) (a : W64) : W64 := (((chainOf c a).find? (fun r => !r.addr.msb)).map (fun r => r.addr)).getD 0

/-- A region's fields over those of its parent (R323). -/
def overlay (p r : Region) : Region :=
  let g := fun i => r.imask / 2 ^ i % 2 = 1
  { addr := r.addr, parent := r.parent, imask := r.imask, band := if g 0 then r.band else p.band,
    action := if g 1 then r.action else p.action, cores := if g 2 then r.cores else p.cores,
    regshare := if g 3 then r.regshare else p.regshare, quota := if g 4 then r.quota else p.quota,
    ramp := if g 5 then r.ramp else p.ramp, rqmem := if g 6 then r.rqmem else p.rqmem,
    handler := if g 7 then r.handler else p.handler, hgrid := if g 8 then r.hgrid else p.hgrid,
    ngauge := if g 9 then r.ngauge else p.ngauge }

/-- A region with its inherited fields. -/
def effRegion (c : Ctx) (a : W64) : Region := (chainOf c a).foldr (fun r p => overlay p r) c.rootRegion
def regionOf (s : State) (ctx : Nat) (a : W64) : Region :=
  match getCtx s ctx with
  | some c => effRegion c a
  | none => {}

/-- Whether region `a` lies in the subtree of region `top`. -/
def inSubtree (c : Ctx) (top a : W64) : Bool :=
  top == 0 || (chainOf c a).any (fun r => r.addr == top)

/-- Keeps the values read of an RCB, in place of earlier ones. -/
def putRcb (s : State) (ctx : Nat) (r : Region) : State :=
  modCtx s ctx (fun c =>
    if c.rcbs.any (fun x => x.addr == r.addr) then
      { c with rcbs := c.rcbs.map (fun x => if x.addr == r.addr then r else x) }
    else { c with rcbs := c.rcbs ++ [r] })

/-- Reads an RCB and the RCBs of its parent chain (R324): those without earlier values, or all of them (`again`). An RCB that
cannot be read, breaks R323, or closes a loop keeps its earlier values; the answer then names it and the region of its
nearest valid ancestor. An RCB below it is kept where the values that it inherits are known. -/
def scanRcb (ctx : Nat) (core : Option Nat) (v : View) (again : Bool) : Nat → List W64 → State → W64 → State × Option (W64 × W64)
  | 0, _, s, a => (s, some (a, 0))
  | fuel + 1, seen, s, a =>
    if a = 0 then (s, none)
    else
      let old := (getCtx s ctx).bind (fun c => findRcb c a)
      if decide (2 ^ 57 ≤ a.toNat) || seen.contains a then (s, some (a, 0))
      else if (!again && old.isSome) = true then (s, none)
      else match structLoad s ctx core v a 128 with
        | .error _ => (s, some (a, (old.map (fun r => r.parent)).getD 0))
        | .ok (s1, bs) =>
          let up := w64At bs 0
          let p := scanRcb ctx core v again fuel (a :: seen) s1 up
          match parseRcb a bs with
          | none => (p.1, some (a, match p.2 with | none => up | some x => x.2))
          | some r => match p.2 with
            | none => (putRcb p.1 ctx r, none)
            | some x =>
              (if again && ((getCtx p.1 ctx).bind (fun c => findRcb c x.1)).isSome then putRcb p.1 ctx r else p.1, some x)

/-- Parents of an RCB cannot be deeper than this many nodes before they repeat in a walk of the model. -/
def regionFuel : Nat := 1024

/-- A region is named (R324): the state with its values and those of its parents; or the RCB that breaks the rules, with the
region of its nearest valid ancestor. -/
def nameRegion (s : State) (ctx : Nat) (core : Option Nat) (v : View) (a : W64) : Except (W64 × W64) State :=
  let r := scanRcb ctx core v false regionFuel [] s a
  match r.2 with
  | none => .ok r.1
  | some x => .error x

/-- The state and the region to which an RCB that cannot be used is reported. -/
def badRegion (s : State) (ctx : Nat) (v : View) (a : W64) : State × W64 :=
  let r := scanRcb ctx none v false regionFuel [] s a
  (r.1, (r.2.map (fun x => x.2)).getD 0)

/-! ### Orders and placement (R327, R328) -/

/-- The low n bits of x spread to even positions. -/
def spreadBits (x : Nat) : Nat → Nat
  | 0 => 0
  | n + 1 => spreadBits x n + (x / 2 ^ n % 2) * 4 ^ n
def mortonKey (x y : Nat) : Nat := spreadBits x 32 + 2 * spreadBits y 32

def hilbertGo (n : Nat) : Nat → Nat → Nat → Nat → Nat
  | 0, _, _, d => d
  | k + 1, x, y, d =>
    let s := 2 ^ k
    let rx := x / s % 2
    let ry := y / s % 2
    let d := d + s * s * ((3 * rx) ^^^ ry)
    if ry = 0 then
      let (x, y) := if rx = 1 then (n - 1 - x, n - 1 - y) else (x, y)
      hilbertGo n k y x d
    else hilbertGo n k x y d
/-- Log2 of the smallest power of two at or above m. -/
def ceilLog (m : Nat) : Nat := if m ≤ 1 then 0 else Nat.log2 (m - 1) + 1
def hilbertKey (w h x y : Nat) : Nat := let k := ceilLog (max w h); hilbertGo (2 ^ k) k x y 0

/-- Coordinates of rank t in a plane of w × h elements. -/
def orderAt (order w h t : Nat) : Nat × Nat :=
  match order with
  | 0 => (t % w, t / w)
  | 1 => (t / h, t % h)
  | _ =>
    let key := fun (p : Nat × Nat) => if order = 2 then mortonKey p.1 p.2 else hilbertKey w h p.1 p.2
    let all := (List.range (w * h)).map (fun i => (i % w, i / w))
    (all.find? (fun p => (all.filter (fun q => decide (key q < key p))).length == t)).getD (0, 0)

/-- The first block of the element of full rank T: its coordinates (R327). -/
def elementAt (kd : KDesc) (lp : LParams) (T : Nat) : Nat × Nat × Nat :=
  let w := lp.x / kd.shape.2
  let h := lp.y / kd.shape.1
  let p := orderAt lp.order w h (T % (w * h))
  (p.1 * kd.shape.2, p.2 * kd.shape.1, T / (w * h))

/-- Logical die of rank T. -/
def dieOf (lp : LParams) (T : Nat) : Nat := T / lp.swz % 8
/-- Logical core in the die, 0 to 63, of the element of rank T at (x, y, z). -/
def coreOf (lp : LParams) (T x y z : Nat) : Nat :=
  if lp.hash then
    let h := ((x / 2 ^ lp.tsx * 0x9E3779B1 % 2 ^ 32) ^^^ (y / 2 ^ lp.tsy * 0x85EBCA77 % 2 ^ 32)
      ^^^ (z * 0xC2B2AE3D % 2 ^ 32)) % 2 ^ 32
    h / 2 ^ 26
  else T / (8 * lp.swz) % 64
/-- The k-th rank on a die, in rank order. -/
def rankOnDie (lp : LParams) (d k : Nat) : Nat := (8 * (k / lp.swz) + d) * lp.swz + k % lp.swz

/-- Elements (blocks, or cliques) of a grid. -/
def Grid.elements (g : Grid) : Nat := g.nblocks / (g.kd.shape.1 * g.kd.shape.2)

/-! ### New grids -/

/-- Blocks of a launch: the wave count W for persistent waves (R329). -/
def launchX (lp : LParams) (r : Region) : LParams :=
  if lp.persistent then { lp with x := lp.bpc * min 512 r.cores } else lp

/-- The rise limit in force in the present package interval, which begins with die 0's (R387, log 57). -/
def riseNow (s : State) : Nat := (getDie s 0).rise

/-- Whether a pinned launch passes its ramp limit (R342). -/
def pinTooBig (s : State) (r : Region) (n est : Nat) : Bool :=
  decide (64 * min (riseNow s) r.ramp < n * est)

/-- Checks of a launch after its body: LPB, the context's spill limit (R383), region, pin. `sub` is the issuing
grid's region for a LAUNCH instruction (R345); in a fork child, whose own region no RCB names, the nearest that one does
(DESIGN CHOICE, log 53). -/
def checkLaunch (s : State) (ctx : Nat) (core : Option Nat) (v : View) (b : LaunchBody) (sub : Option W64) :
    Except LErr (State × KDesc × LParams) :=
  match structLoad s ctx core v b.lpb 128 with
  | .error e => .error e
  | .ok (s, bytes) =>
    match parseLpb bytes, getCtx s ctx with
    | some (kd, lp), some c =>
      if c.spillPlaces < kd.sd then .error (b.lpb, 3, 7, 0)
      else match nameRegion s ctx core v b.rcb with
        | .error x => .error (x.1, 3, 8, 0)
        | .ok s' =>
          let c' := (getCtx s' ctx).getD c
          if (match sub with | some top => !inSubtree c' (namedRegion c' top) b.rcb | none => false) then .error (b.rcb, 3, 7, 0)
          else
            let r := effRegion c' b.rcb
            let lp := launchX lp r
            if b.pin && pinTooBig s r (lp.x * lp.y * lp.z) lp.est then .error (0, 25, 1, 0)
            else .ok (s', kd, lp)
    | _, _ => .error (b.lpb, 3, 7, 0)

/-- Empties the read-only buffers, at every launch of a grid and every invalidation (R200). -/
def dropRobuf (s : State) : State :=
  { s with cores := (s.cores.map (fun (p : Nat × Core) => (p.1, { p.2 with robuf := [] }))).filter (fun p => p.2 != {}) }

/-- Adds a grid of a checked launch. -/
def addGrid (s : State) (ctx road : Nat) (parent : Option Nat) (queue level : Nat) (b : LaunchBody) (kd : KDesc)
    (lp : LParams) : Nat × State :=
  let r := freshId s
  let g : Grid := { id := r.1, ctx := ctx, road := road, parent := parent, queue := queue, level := level, seed := b.seed,
                    arg := b.arg, gauge := b.gauge, gadd := b.gadd, rcb := b.rcb, source := b.lpb, kd := kd, lp := lp,
                    pin := b.pin, nblocks := lp.x * lp.y * lp.z, order := s.pktOrder,
                    read := readOf s parent (if road = 0 then some queue else none) }
  (r.1, dropRobuf { r.2 with grids := r.2.grids ++ [g], pktOrder := s.pktOrder + 1 })

/-! ### Admission by the weir (R340) -/

/-- Load already admitted in this interval for a region. -/
def rampUsed (w : Weir) (ctx : Nat) (a : W64) : Nat :=
  ((w.regions.filter (fun p => p.1 == ctx && p.2.1 == a)).map (fun p => p.2.2)).foldl (· + ·) 0
def rampAdd (w : Weir) (ctx : Nat) (as : List W64) (est : Nat) : Weir :=
  { used := w.used + est, regions := as.foldl (fun l a =>
      if l.any (fun p => p.1 == ctx && p.2.1 == a)
      then l.map (fun p => if p.1 == ctx && p.2.1 == a then (ctx, a, p.2.2 + est) else p)
      else l ++ [(ctx, a, est)]) w.regions }

/-- Regions of a grid whose ramp shares its blocks draw on: its chain and the root (R340). -/
def rampChain (c : Ctx) (a : W64) : List W64 := (chainOf c a).map (fun r => r.addr) ++ [0]

/-- Whether `est` more fits the rise limit and every ramp share. -/
def rampFits (s : State) (c : Ctx) (a : W64) (est : Nat) : Bool :=
  decide (s.weir.used + est ≤ 64 * riseNow s)
    && (rampChain c a).all (fun r => decide (rampUsed s.weir c.id r + est ≤ 64 * (effRegion c r).ramp))

/-- Adds elements to what a grid may dispatch: up to which rank, and at which place in the order. -/
def addBatch (order upto : Nat) (bs : List (Nat × Nat)) : List (Nat × Nat) :=
  match bs.getLast? with
  | some (_, o) => if o = order then bs.dropLast ++ [(upto, order)] else bs ++ [(upto, order)]
  | none => [(upto, order)]

/-- Admits elements of one grid while they fit; a pinned grid whole. -/
def admitGrid (c : Ctx) (gid : Nat) : Nat → State → State
  | 0, s => s
  | fuel + 1, s => match getGrid s gid with
    | none => s
    | some g =>
      let per := g.kd.shape.1 * g.kd.shape.2
      let n := if g.pin || g.lp.est == 0 then g.elements - g.admitted else 1
      let est := n * per * g.lp.est
      if g.elements ≤ g.admitted || g.killed || !rampFits s c g.rcb est then s
      else admitGrid c gid fuel
        (modGrid { s with weir := rampAdd s.weir c.id (rampChain c g.rcb) est } gid
          (fun g => { g with admitted := g.admitted + n, batches := addBatch s.pktOrder (g.admitted + n) g.batches }))

/-- Admits waiting blocks in the order in which their grids were read (R340). Forks' children carry no estimate and
are not metered; a node block is metered when its launcher starts it. -/
def weirAdmit (s : State) : State :=
  (s.grids.filter (fun g => decide (g.road < 2) && !g.killed)).foldl (fun s g =>
    match getCtx s g.ctx with
    | some c => let t := admitGrid c g.id g.elements s; { t with pktOrder := t.pktOrder + 1 }
    | none => s) s

end Sys2Proof.Machine
end

