-- ==== Sys2Proof/Machine/Faults.lean ====
section
/-! DEFINITION. Machine/Faults.lean: the device error log (14 R387, R419), rings (14 R383), gauge adds of the
device, fault reports and their delivery to a domain (13 R351 to R357), taking an exception in handler mode and
returning from it (13 R357, R359). -/

namespace Sys2Proof.Machine

open Sys2Proof

/-! ### Device error log (R387) -/

/-- Appends one entry to the device error log; vector 0 of the PF is raised at each write. -/
def devError (s : State) (kind unit addr count : Nat) : State :=
  let d := s.dev
  if d.errRing = 0 ∨ d.errEntries = 0 then s
  else
    let a := d.errRing.toNat + 32 * (d.errCount % d.errEntries)
    let bs := le 1 kind ++ le 1 unit ++ zeros 6 ++ le 8 addr ++ le 8 count ++ zeros 8
    { s with hostMem := ssetMany 0 s.hostMem (cells a bs),
             dev := { d with errCount := d.errCount + 1, vectors := d.vectors ++ [(Fn.pf, 0)] } }

/-- A failed device write into context memory (R419). -/
def devWriteFailed (s : State) (unit ctx : Nat) (e : LErr) : State :=
  devError s 6 unit e.1.toNat (ctx % 65536 + 65536 * e.2.1)

/-! ### Skelbor counters (R370) -/

/-- Whether a block takes room on a core (R370, R382). -/
def Block.onCore (b : Block) : Bool := b.stat == .resident || b.stat == .stopping || b.stat == .stopped || b.stat == .killed

/-- Adds to a counter while a capture selects it, blocks of the context are resident, and the context is not
switched out. -/
def countCtr (s : State) (ctx i n : Nat) : State :=
  modCtx s ctx (fun c => match c.capture with
    | some cap =>
      if cap.cmask / 2 ^ i % 2 = 1 ∧ !c.switched ∧ s.blocks.any (fun b => b.ctx == ctx && b.onCore)
      then { c with counters := sset 0 c.counters i (sget 0 c.counters i + n) } else c
    | none => c)

/-! ### Gauge adds and rings -/

/-- One step of a gauge at a translated place (R153): the gauge class with its cause when it fails. -/
def gaugeStep (s : State) (v : View) (l : Loc) (amount : W64) : Except (Nat × Nat) WRes :=
  let old := locNat s v l 8
  if 2 ^ 64 ≤ old + amount.toNat then .error (28, 2) else .ok (locWrite s v l (le 8 (old + amount.toNat)))

/-- One gauge add with the checks of its amount and of poison. -/
def gaugeAddLoc (s : State) (v : View) (l : Loc) (amount : W64) : Except (Nat × Nat) WRes :=
  if 2 ^ 63 ≤ amount.toNat then .error (28, 1)
  else if locPoison s v l then .error (8, poisonCause l)
  else gaugeStep s v l amount

/-- A gauge add of the device at a virtual address (R355, R126, R319). -/
def gaugeAddVa (s : State) (ctx : Nat) (v : View) (va : W64) (amount : W64) : Except LErr State :=
  if va.toNat % 8 ≠ 0 then .error (va, 5, 0, 0)
  else match translate s ctx false .rw va with
    | .error (c, lv) => .error (va, 6, c, lv)
    | .ok t => match keyFault s ctx t.loc with
      | some c => .error (va, 7, c, 0)
      | none =>
        if t.pagePoison then .error (va, 8, 1, 0)
        else match gaugeAddLoc s v t.loc amount with
          | .error (cls, c) => .error (va, cls, c, 0)
          | .ok (.ok s') => .ok s'
          | .ok .violation => .error (va, 17, 1, 0)
          | .ok (.blocked _ _ _) => .error (va, 20, 1, 0)

/-- The same where a failure is only logged (R419). -/
def gaugeAddLogged (s : State) (unit ctx : Nat) (v : View) (va amount : W64) : State :=
  if va = 0 then s
  else match gaugeAddVa s ctx v va amount with
    | .ok s' => s'
    | .error e => devWriteFailed s unit ctx e

/-- Counts an overflow in a ring's header (R383). -/
def ringOverflow (s : State) (unit ctx : Nat) (ring : W64) : State :=
  match structRead s ctx none [] (ring + 8) 8 with
  | .error e => devWriteFailed s unit ctx e
  | .ok b => match structWrite s ctx none [] (ring + 8) (le 8 (natOf b + 1)) with
    | .ok s' => s'
    | .error e => devWriteFailed s unit ctx e

/-- Appends an entry to a ring (R383): the state and the entry's address, if it was written. -/
def ringAppend (s : State) (unit ctx : Nat) (ring : W64) (entries : Nat) (bytes : List Byte) : State × Option W64 :=
  match structRead s ctx none [] ring 24 with
  | .error e => (devWriteFailed s unit ctx e, none)
  | .ok h =>
    let wc := natAt h 0 8
    let rc := natAt h 16 8
    if entries ≤ (wc + 2 ^ 64 - rc) % 2 ^ 64 then (ringOverflow s unit ctx ring, none)
    else
      let a := ring + 0x80 + BitVec.ofNat 64 (bytes.length * (wc % entries))
      match structWrite s ctx none [] a bytes with
      | .error e => (devWriteFailed s unit ctx e, none)
      | .ok s1 => match structWrite s1 ctx none [] ring (le 8 (wc + 1)) with
        | .error e => (devWriteFailed s unit ctx e, none)
        | .ok s2 => (s2, some a)

/-- Appends a report to the context's fault log and raises the owner's vector (R355, R383). -/
def logReport (s : State) (unit ctx : Nat) (r : Report) : State × Option W64 :=
  match getCtx s ctx with
  | none => (s, none)
  | some c =>
    let x := ringAppend s unit ctx c.logVa c.logEntries (encodeReport r)
    match x.2 with
    | none => x
    | some a => ({ x.1 with dev := { x.1.dev with vectors := x.1.dev.vectors ++ [(c.owner, c.logVector)] } }, some a)

/-! ### Reports (R353) -/

/-- A fault before it becomes a report: class, cause, faulting lanes, access, address and the w words. -/
structure Flt where
  cls : Nat
  cause : Nat := 0
  lanes : Mask := 0
  access : Nat := 0
  va : W64 := 0
  tlevel : Nat := 0
  w : List W64 := []
  deriving DecidableEq, Repr

def lowestLane (m : Mask) : Nat := ((lanesOf m).head?).getD 0xFF

/-- The child index that a block runs as, if any. -/
def Block.childIdx (b : Block) : Option Nat := (b.views.head?).map (·.2)

def debugOn (s : State) (ctx : Nat) : Bool := ((getCtx s ctx).map (fun c => c.debug)).getD false

/-- The report of a fault in a block: of a gang, of its feeder (`feeder`), or of neither. -/
def mkReport (s : State) (b : Block) (gang : Option Nat) (feeder : Bool) (kind : Nat) (addr : W64) (insn : W128)
    (f : Flt) : Report :=
  let g := gang.bind (fun i => sfind b.gangs i)
  { cls := f.cls, cause := f.cause, kind := kind, level := b.level,
    flags := (if (g.bind (fun g => g.handler)).isSome then 1 else 0) + (if b.childIdx.isSome then 2 else 0)
      + (if feeder then 4 else 0) + (if debugOn s b.ctx then 8 else 0),
    ctx := b.ctx, gang := gang.getD 0xFFFF, lane := lowestLane f.lanes, access := f.access, addr := addr, mask := f.lanes,
    va := f.va, blkIdx := BitVec.ofNat 64 b.idx, regions := (g.map (fun g => topFour g.regions)).getD 0,
    die := b.lDie, clu := b.lClu, core := b.lCore, tlevel := f.tlevel, child := b.childIdx.getD 0xFFFF_FFFF,
    insn := insn, w := f.w }

/-! ### Killing (R117, R356) -/

/-- Stops a block for good: no gang issues, commands that have not started are discarded; it ends when what has
started has drained (`BLOCK_END`). -/
def Block.killed (b : Block) : Block := { b with stat := .killed, chans := [] }

/-- Kills every block that satisfies `p`. -/
def killWhere (s : State) (p : Block → Bool) : State :=
  { s with blocks := s.blocks.map (fun b => if p b then b.killed else b) }

/-- KILL BLOCK: a clique ends whole. -/
def killBlock (s : State) (b : Block) : State :=
  killWhere s (fun x => x.id == b.id || (b.clique != 0 && x.clique == b.clique))

/-- KILL GRID: its blocks, and those not yet started never start. -/
def killGrid (s : State) (gid : Nat) : State :=
  modGrid (killWhere s (fun x => x.grid == gid)) gid (fun g => { g with killed := true })

def modChild (s : State) (fid c : Nat) (h : Child → Child) : State :=
  modFork s fid (fun f => { f with children := updFirst (fun x => x.idx == c) h f.children })

/-- A running child needs slots that its fork has not free (R122). -/
def blockChild (s : State) (fid c need : Nat) : State :=
  modChild s fid c (fun x => if x.st = .running then { x with st := .blocked, need := need } else x)

/-- Drops a child's versions, and twins that they alone kept (R117, R122). -/
def dropVersions (f : Fork) (c : Nat) : Fork :=
  let vs := f.vers.filter (fun v => v.child != c)
  { f with vers := vs,
           twins := f.twins.filter (fun t => vs.any (fun v => v.gran == t.gran) || !t.chg.isEmpty) }

/-! ### What a fork holds (R105, R111, R119, R121) -/

/-- Tags of a fork, and those that are still held (R111). -/
def Fork.tags (f : Fork) : List Nat := if f.scope = .chip then (List.range f.wins.length).map (· + f.tag) else [f.tag]
def Fork.held (f : Fork) : List Nat := f.tags.filter (fun t => !f.tagsDone.contains t)

/-- The lowest child that is not merged. -/
def mergedPrefix (f : Fork) : Nat := ((f.children.find? (fun c => c.st != .merged)).map (fun c => c.idx)).getD f.count

/-- The 128 bytes of a failure record (R119). -/
def failureRecord (f : Fork) (outcome merged : Nat) : List Byte :=
  let bad := outcome != 0 && outcome != 5
  let b := f.failAt.map (·.1)
  let ch := b.bind (fun b => f.children.find? (fun c => c.idx == b))
  let last := ch.bind (fun c => c.last)
  let w2 := (f.report.w.getD 2 0).toNat
  let conflict := outcome == 1
  le 4 outcome ++ le 4 ((last.map (fun r => r.cls)).getD 0) ++ le 4 merged ++ le 2 f.tag ++ zeros 2
    ++ le 4 (if conflict then (f.report.w.getD 0 0).toNat else 0xFFFF_FFFF)
    ++ le 4 (if bad then b.getD 0xFFFF_FFFF else 0xFFFF_FFFF)
    ++ le64 (if conflict || outcome == 4 then f.report.va else 0)
    ++ (if conflict then le 3 w2 else zeros 3) ++ zeros 1
    ++ le 4 (if bad then (ch.map (fun c => c.reruns)).getD 0 else 0)
    ++ le 8 f.slotsAtExh ++ le 8 f.quota ++ zeros 8
    ++ (((last.map encodeReport).getD []) ++ zeros 64).take 64

/-- The failure record is written at the end of every fork. -/
def writeRecord (s : State) (f : Fork) (outcome merged : Nat) : State :=
  if f.frec = 0 then s else match structWrite s f.ctx none f.parentView f.frec (failureRecord f outcome merged) with
    | .ok s => s
    | .error e => devWriteFailed s 8 f.ctx e

/-- Gives back what a fork holds: reservations, twins and versions, and its region node (R105). -/
def releaseFork (s : State) (f : Fork) : State :=
  let s1 := f.reserved.foldl (fun s i => modDie s i (fun x => { x with reserved := x.reserved - f.quota }))
    (modFork s f.id (fun f => { f with reserved := [], twins := [], vers := [] }))
  modCtx s1 f.ctx (fun c => { c with rcbs := c.rcbs.filter (fun r => r.addr != f.region) })

/-- Whether a block that has not ended runs in a view of a fork. -/
def forkInUse (s : State) (fid : Nat) : Bool := s.blocks.any (fun b => b.stat != .ended && b.views.any (fun x => x.1 == fid))

/-- Forks that have ended and hold no tag leave with the last block that runs in one of their views: until then what such a
block still writes inside the windows is discarded (R117). -/
def purgeForks (s : State) : State :=
  { s with forks := s.forks.filter (fun f => !(f.ended && f.held.isEmpty) || forkInUse s f.id) }

/-- A nested fork is cancelled with the child that opened it: its children end, its record is written, its gauge is added. The outcome
is 5, which the table of R119 has for a cancellation by the host: it has none for this one (DESIGN CHOICE, log 61). -/
def cancelNested (s : State) (f : Fork) : State :=
  if f.ended then modFork s f.id (fun f => { f with tagsDone := f.tags })
  else
    let s1 := modFork s f.id (fun f => { f with
      children := f.children.map (fun c => if c.st = .merged then c else { c with st := .cancelled }),
      ended := true, outcome := 5, merged := mergedPrefix f, tagsDone := f.tags })
    let s2 := writeRecord s1 f 5 (mergedPrefix f)
    gaugeAddLogged (releaseFork s2 f) 8 f.ctx f.parentView f.gauge f.gadd

/-- Ends what a child of a fork started in its view: its blocks stop, its nested forks are cancelled, the innermost
first (R117). -/
def stopChild (s : State) (fid c : Nat) : State :=
  let inside := fun (v : View) => v.contains (fid, c)
  let s := killWhere s (fun b => inside b.views)
  let s := { s with grids := s.grids.map (fun g => if g.fork == some fid && g.child == some c then { g with killed := true } else g) }
  (sortBy (fun (x y : Fork) => decide (y.parentView.length ≤ x.parentView.length)) (s.forks.filter (fun f => inside f.parentView))).foldl
    cancelNested s

/-- A child becomes Failed (R117). Its rerun, or the fork's end, follows when its blocks have drained. -/
def failChild (s : State) (fid c : Nat) (rep : Report) (noRerun : Bool) : State :=
  let s := stopChild s fid c
  modChild (modFork s fid (fun f => dropVersions f c)) fid c
    (fun x => { x with st := .failed, last := some rep, granted := 0, noRerun := x.noRerun || noRerun })

/-- Whether a child runs, or waits for a slot: a fault makes only such a child Failed (R112). -/
def childLive (s : State) (fid c : Nat) : Bool :=
  ((getFork s fid).map (fun f => f.children.any (fun x => x.idx == c && (x.st == .running || x.st == .blocked) && x.ending == .no))).getD false

/-- HALT AND DUMP, steps 1 and 2 (R367); a second one has no further effect. The cycle counters of the cores are kept
for the dump headers (R368). -/
def haltCtx (s : State) (ctx : Nat) (rep : Report) (blk : Option Nat) (region : W64) : State :=
  modCtx s ctx (fun c => if c.halt = .running then
    { c with halt := .halting, haltReport := rep, haltBlk := blk, haltRegion := region, dumped := [],
             haltCyc := s.cores.map (fun (p : Nat × Core) => (p.1, p.2.cyc)) } else c)

/-! ### The NOTIFY grid (R356) -/

/-- Starts the hgrid of a domain with k0 = `k0`; where it cannot, the privilege fault of R356 is logged and
counted in the notification gauge. -/
def startHgrid (s : State) (unit ctx : Nat) (dom : Region) (level queue : Nat) (k0 : W64) : State :=
  if dom.hgrid = 0 then s
  else
    let fail := fun (cls cause : Nat) =>
      let r : Report := { cls := cls, cause := cause, kind := 3, level := level, ctx := ctx, addr := dom.hgrid,
                          flags := if debugOn s ctx then 8 else 0 }
      gaugeAddLogged (logReport s unit ctx r).1 unit ctx [] dom.ngauge 1
    match structLoad s ctx none [] dom.hgrid 64 with
    | .error _ => fail 3 7
    | .ok (s, bytes) =>
      if !launchMbz bytes then fail 3 7
      else match parseLaunch bytes with
        | none => fail 3 7
        | some body =>
          let body := { body with rcb := dom.addr, arg := k0 }
          match checkLaunch s ctx none [] body none with
          | .error (_, 25, c, _) => fail 25 c
          | .error _ => fail 3 7
          | .ok (s', kd, lp) => weirAdmit (addGrid s' ctx 1 none queue level body kd lp).2

/-! ### Handler mode (R357, R359) -/

/-- The barrier of PHASE in a gang's list of checksums. -/
def phaseBar : Nat := 256

/-- Entering handler mode: the handler record is kept, the latch valid bits are cleared, every live thread
continues at the handler address. A gang that stood at PHASE arrives there anew, with a checksum of its state then. -/
def handlerEntry (g : Gang) (handler : W64) (faulting : Mask) (len : Nat) (rep : Report) (async : Bool) : Gang :=
  { g with
    handler := some { resume := (lanesOf g.live).foldl (fun r l => sset 0 r l (sget 0 g.pc l)) [], faulting := faulting,
                      len := len, report := rep, async := async },
    latValid := [], checksum := g.checksum.filter (fun x => x.1 != phaseBar),
    pc := (lanesOf g.live).foldl (fun r l => sset 0 r l handler) g.pc,
    parked := 0, fetchWait := 0 }

/-- Returning from it: each live thread continues at its resume address; with `skip` a faulting thread passes
the faulting instruction, unless the fault was asynchronous. -/
def handlerReturn (g : Gang) (skip : Bool) : Gang :=
  match g.handler with
  | none => g
  | some h =>
    { g with
      handler := none, latValid := [],
      pc := (lanesOf g.live).foldl (fun r l =>
        let a := sget 0 h.resume l
        sset 0 r l (if skip && !h.async && h.faulting.getLsbD l then a + BitVec.ofNat 64 h.len else a)) g.pc }

/-- A gang that goes to its handler waits for nothing any more: what it waited for is asked again after its return. -/
def leaveQueues (s : State) (blk gi : Nat) : State :=
  let gone := fun (l : List (Nat × Nat)) => l.filter (fun p => p != (blk, gi))
  let core := ((getBlk s blk).map (fun b => b.core)).getD 0
  let s1 := modCore s core (fun c => { c with growQ := gone c.growQ, gateQ := gone c.gateQ })
  { s1 with rqs := s1.rqs.map (fun q => { q with rqwait := gone q.rqwait }) }

/-! ### Delivery (R355, R356) -/

/-- What a fault is about, for its delivery. -/
structure Where where
  ctx : Nat
  region : W64
  unit : Nat
  queue : Nat
  blk : Option Nat
  gang : Option Nat
  faulting : Mask
  len : Nat
  async : Bool
  deriving DecidableEq, Repr

def actHandler : Nat := 0
def actKillBlock : Nat := 1
def actKillGrid : Nat := 2
def actHalt : Nat := 3
def actRetry : Nat := 4
def actNotify : Nat := 5

/-- What an action acts as (R356): HANDLER needs a gang that can run it, RETRY a fork child, and a fault that a gang raises
in handler mode acts as KILL BLOCK whatever the action (R357). -/
def actionAs (dom : Region) (rep : Report) (g : Option Gang) (feeder child : Bool) : Nat :=
  if rep.flags % 2 = 1 then actKillBlock
  else if dom.action = actHandler then
    if feeder then actKillBlock
    else match g with
      | none => actNotify
      | some g => if g.exited || rep.kind == 3 || rep.kind == 5 || rep.kind == 6 || dom.handler == 0 then actNotify else actHandler
  else if dom.action = actRetry ∧ !child then actKillBlock
  else dom.action

/-- KILL BLOCK, KILL GRID or RETRY of a block: in a fork child the child becomes Failed (R117). -/
def killFor (s : State) (b : Block) (rep : Report) (grid : Bool) : State :=
  match b.views with
  | (f, c) :: _ => if childLive s f c then failChild s f c rep grid else s
  | [] => if grid then killGrid s b.grid else killBlock s b

/-- Delivers a fault to the domain of its region (R355). A restore capacity fault kills nothing (R356, R363). -/
def deliver (s : State) (w : Where) (rep : Report) : State :=
  let dom := regionOf s w.ctx w.region
  let b := w.blk.bind (getBlk s)
  let g := b.bind (fun b => w.gang.bind (fun i => sfind b.gangs i))
  let feeder := rep.flags / 4 % 2 = 1
  let lg := logReport (countCtr s w.ctx 14 1) w.unit w.ctx rep
  let s := lg.1
  let kill := fun (s : State) (grid : Bool) => match b with
    | some b => if rep.cls = 24 then s else killFor s b rep grid
    | none => s
  let act := actionAs dom rep g feeder ((b.map (fun b => !b.views.isEmpty)).getD false)
  let acted : State :=
    if act = actHandler then match w.blk, w.gang with
      | some bi, some gi => modGang (leaveQueues s bi gi) bi gi (fun g =>
          handlerEntry { g with wait := .none, arrived := (lanesOf g.live).foldl (fun r l => sset 0 r l s.tick) g.arrived }
            dom.handler w.faulting w.len rep w.async)
      | _, _ => s
    else if act = actKillBlock ∨ act = actRetry then kill s false
    else if act = actKillGrid then kill s true
    else if act = actHalt then haltCtx s w.ctx rep w.blk w.region
    else startHgrid (kill s false) w.unit w.ctx dom rep.level w.queue (lg.2.getD 0)
  if act = actHalt then acted else gaugeAddLogged acted w.unit w.ctx [] dom.ngauge 1

/-- Delivery of a fault of a gang of a block: precise at an instruction (kind 0) or at a fetch (kind 1). -/
def raiseGang (s : State) (blk gang kind : Nat) (addr : W64) (len : Nat) (insn : W128) (faulting : Mask) (f : Flt) : State :=
  match getBlk s blk with
  | none => s
  | some b =>
    deliver s { ctx := b.ctx, region := b.region, unit := b.core / 64, queue := b.queue, blk := some blk, gang := some gang,
                faulting := faulting, len := len, async := false }
      (mkReport s b (some gang) false kind addr insn f)

/-- Delivery of a fault of a feeder (R140). -/
def raiseFeeder (s : State) (blk kind : Nat) (addr : W64) (insn : W128) (f : Flt) : State :=
  match getBlk s blk with
  | none => s
  | some b =>
    deliver s { ctx := b.ctx, region := b.region, unit := b.core / 64, queue := b.queue, blk := some blk, gang := none,
                faulting := 0, len := 0, async := false }
      (mkReport s b none true kind addr insn f)

/-- A fault of a block that no gang or feeder raised: at PHASE or block end (kind 5), of a command (kind 2). -/
def raiseBlock (s : State) (blk kind : Nat) (addr : W64) (f : Flt) : State :=
  match getBlk s blk with
  | none => s
  | some b =>
    deliver s { ctx := b.ctx, region := b.region, unit := b.core / 64, queue := b.queue, blk := some blk, gang := none,
                faulting := 0, len := 0, async := false }
      (mkReport s b none false kind addr 0 f)

/-- A fault of an operation that its gang issued earlier, with which the home answers (R172). The gang may have gone on, so that a
return from the handler skips nothing. -/
def raiseLate (s : State) (blk gang : Nat) (o : Op) (f : Flt) : State :=
  match getBlk s blk with
  | none => s
  | some b =>
    deliver s { ctx := b.ctx, region := b.region, unit := b.core / 64, queue := b.queue, blk := some blk, gang := some gang,
                faulting := f.lanes, len := 0, async := true }
      (mkReport s b (some gang) false 0 o.addr o.insn f)

/-- Bytes of the instruction of an operation, by its length code (R29). -/
def insnLen (i : W128) : Nat := 8 + 4 * (i.toNat % 4)

/-- A precise fault of an operation that its threads wait for: of a table walk (R69), of a WSIG at its gauge (R176). The
threads of `back` stand at the instruction again. -/
def raiseHeld (s : State) (blk gang : Nat) (o : Op) (back : Mask) (f : Flt) : State :=
  match getBlk s blk with
  | none => s
  | some b =>
    let s1 := modGang s blk gang (fun g => { g with pc := (lanesOf (back &&& g.live)).foldl (fun r l => sset 0 r l o.addr) g.pc })
    deliver s1 { ctx := b.ctx, region := b.region, unit := b.core / 64, queue := b.queue, blk := some blk, gang := some gang,
                 faulting := f.lanes, len := insnLen o.insn, async := false }
      (mkReport s b (some gang) false 0 o.addr o.insn f)

/-- A fault at a packet (kind 3), to the domain of a region. -/
def raisePacket (s : State) (ctx : Nat) (region : W64) (queue level : Nat) (addr : W64) (f : Flt) : State :=
  deliver s { ctx := ctx, region := region, unit := 8, queue := queue, blk := none, gang := none, faulting := 0, len := 0,
              async := false }
    { cls := f.cls, cause := f.cause, kind := 3, level := level, ctx := ctx, addr := addr, access := f.access, va := f.va,
      tlevel := f.tlevel, flags := if debugOn s ctx then 8 else 0, w := f.w }

/-- An asynchronous fault waits for an instruction boundary of its block; one of the same class and cause that
already waits takes it in (R354). `merge` adds to the waiting report (R157). -/
def addAsync (s : State) (blk : Nat) (f : Flt) (merge : Report → Report) : State :=
  match getBlk s blk with
  | none => s
  | some b =>
    let r := mkReport s b none false 2 0 0 f
    if b.async.any (fun x => x.cls == r.cls && x.cause == r.cause) then
      let mark := fun (x : Report) => if x.flags / 16 % 2 = 1 then x else { x with flags := x.flags + 16 }
      let upd := updFirst (fun (x : Report) => x.cls == r.cls && x.cause == r.cause) (fun x => mark (merge x)) b.async
      modBlk s blk (fun b => { b with async := upd })
    else modBlk s blk (fun b => { b with async := b.async ++ [r] })

end Sys2Proof.Machine
end

