-- ==== Sys2Proof/Machine/Operands.lean ====
section
/-! DEFINITION. Machine/Operands.lean: reading operands (02 R34 to R36), guards (02 R32), destinations and the
latch push (02 R33, R45), first accesses (02 R46, R47). -/

namespace Sys2Proof.Machine

open Sys2Proof

/-- How an operand is read (R35, R36). -/
inductive ReadAs where
  /-- An integer type of the width. -/
  | int (w : Nat)
  /-- A float type, or a float operand format of a conversion. -/
  | flt (f : Fmt)
  /-- A packed pair of 16-bit floats. -/
  | flt2 (f : Fmt)
  deriving DecidableEq, Repr

/-- Width in bits of a reading. -/
def ReadAs.bits : ReadAs → Nat
  | .int w => w
  | .flt f => (fshape f).width
  | .flt2 _ => 32

/-- Width of a lane type in bits (R40). -/
def ltBits : LaneTy → Nat
  | .n32 | .s32 | .f32 | .f16x2 | .bf16x2 => 32
  | .n64 | .s64 => 64
  | .f16 | .bf16 | .n16 | .s16 => 16
  | .n8 | .s8 => 8
  | .b128 => 128

def ltSigned : LaneTy → Bool
  | .s32 | .s64 | .s8 | .s16 => true
  | _ => false

/-- The float format of a lane type. -/
def ltFmt : LaneTy → Fmt
  | .f16 | .f16x2 => .f16
  | .bf16 | .bf16x2 => .bf16
  | _ => .f32

def ltPacked : LaneTy → Bool
  | .f16x2 | .bf16x2 => true
  | _ => false

/-- How an operand of a lane type is read. -/
def ltRead (t : LaneTy) : ReadAs :=
  match t with
  | .f32 | .f16 | .bf16 => .flt (ltFmt t)
  | .f16x2 | .bf16x2 => .flt2 (ltFmt t)
  | _ => .int (ltBits t)

/-- The reading of a conversion operand format (R220). -/
def fmtRead (f : Fmt) : ReadAs := if f.isIntF then .int f.width else .flt f

/-- The code of an integer value in a float format (R35). -/
def fltOfInt (f : Fmt) (x : Int) : Nat := (roundF f .rne 0 {} (ofSInt false x 0)).1

/-- An inline integer converted to the operation type (R35). -/
def inlAs (r : ReadAs) (i : BitVec 8) : Nat :=
  match r with
  | .int w => wrap w i.toInt
  | .flt f => fltOfInt f i.toInt
  | .flt2 f => let c := fltOfInt f i.toInt; c + 65536 * c

/-- An immediate read by the type of its operand (R36). -/
def immAs (r : ReadAs) (w : BitVec 32) : Nat :=
  match r with
  | .int n => wrap n w.toInt
  | .flt f => w.toNat % 2 ^ (fshape f).width
  | .flt2 _ => w.toNat

/-- Consecutive 32-bit registers as one number. -/
def regsNat (s : Store W32) (lane i : Nat) : Nat → Nat
  | 0 => 0
  | n + 1 => (sget 0 s (reg i lane)).toNat + 2 ^ 32 * regsNat s lane (i + 1) n

/-- 32-bit words of a width. -/
def wordsOf (bits : Nat) : Nat := if bits ≤ 32 then 1 else bits / 32

/-- A lane's value of a source (R34, R35). -/
def readSrc (g : Gang) (lane : Nat) (r : ReadAs) : Src → Nat
  | .v i => regsNat g.v lane i.toNat (wordsOf r.bits) % 2 ^ r.bits
  | .o i => regsNat g.o lane i.toNat (wordsOf r.bits) % 2 ^ r.bits
  | .l i => (sget 0 g.lat (reg i.toNat lane)).toNat % 2 ^ r.bits
  | .k i => (sget 0 g.k i.toNat).toNat % 2 ^ r.bits
  | .inl i => inlAs r i
  | .imm w => immAs r w
  | .imm62 w => wrap r.bits w.toInt

/-- A uniform source: k, inline or immediate, 64 bits, signed constants extended. -/
def readUni (k : Store W64) : Src → W64
  | .k i => sget 0 k i.toNat
  | .inl i => i.signExtend 64
  | .imm w => w.signExtend 64
  | .imm62 w => w.signExtend 64
  | _ => 0

/-! ### Names of registers, for hazards and checks -/

/-- Numbers of registers: v0 to v255 at 0, o0 to o7 at 256, L0 to L3 at 264, k0 to k63 at 300; the upper words of latches and uniform
registers, for their marks, at 268 and at 364. -/
abbrev oBase : Nat := 256
abbrev latBase : Nat := 264
abbrev latHigh : Nat := 268
abbrev kBase : Nat := 300
abbrev kHigh : Nat := 364

/-- Registers a source of n words names. -/
def srcNames (n : Nat) : Src → List Nat
  | .v i => (List.range n).map (· + i.toNat)
  | .o i => (List.range n).map (· + (oBase + i.toNat))
  | .k i => [kBase + i.toNat]
  | _ => []
def dstNames (n : Nat) : Dst → List Nat
  | .v i => (List.range n).map (· + i.toNat)
  | .o i => (List.range n).map (· + (oBase + i.toNat))
  | .none => []
/-- Latches a source names. -/
def srcLatch : Src → List Nat
  | .l i => [i.toNat]
  | _ => []

/-- The 32-bit words that a source of n words reads (R75). -/
def srcBad (n : Nat) : Src → List Nat
  | .v i => (List.range n).map (· + i.toNat)
  | .o i => (List.range n).map (· + (oBase + i.toNat))
  | .l i => (latBase + i.toNat) :: (if 2 ≤ n then [latHigh + i.toNat] else [])
  | .k i => (kBase + i.toNat) :: (if 2 ≤ n then [kHigh + i.toNat] else [])
  | _ => []
/-- The words of a carry set. -/
def carryWords (vs ks : List Nat) : List Nat := vs ++ ks.map (· + kBase) ++ ks.map (· + kHigh)

/-- The mark of a poisoned register word (R75). -/
def badKey (name lane : Nat) : Nat := 64 * name + (if kBase ≤ name then 0 else lane)

/-! ### Guards -/

def predBit (g : Gang) (i lane : Nat) : Bool := if i = 7 then true else (sget 0 g.p i).getLsbD lane
def uniBit (q : BitVec 7) (i : Nat) : Bool := if i = 7 then true else q.getLsbD i
def guardLane (g : Gang) (gd : Guard) (lane : Nat) : Bool := predBit g gd.idx.toNat lane != gd.neg
def guardUni (q : BitVec 7) (gd : Guard) : Bool := uniBit q gd.idx.toNat != gd.neg
/-- Lanes of `m` whose guard is true. -/
def guardMask (g : Gang) (gd : Guard) (m : Mask) : Mask :=
  let p : Mask := if gd.idx = 7 then BitVec.allOnes 64 else sget 0 g.p gd.idx.toNat
  (if gd.neg then ~~~p else p) &&& m
/-- The value of a predicate named in a control field (R211). -/
def pselLane (g : Gang) (p : PSel) (lane : Nat) : Bool := predBit g p.idx.toNat lane != p.neg
def pselUni (q : BitVec 7) (p : PSel) : Bool := uniBit q p.idx.toNat != p.neg

/-! ### Writing -/

/-- Sets one lane's bit of the mask at a key. -/
def setLane (s : Store Mask) (i lane : Nat) (b : Bool) : Store Mask :=
  sset 0 s i (if b then sget 0 s i ||| laneBit lane else sget 0 s i &&& ~~~(laneBit lane))

/-- Writes a number to consecutive registers. -/
def putRegs (s : Store W32) (lane i x : Nat) : Nat → Store W32
  | 0 => s
  | n + 1 => putRegs (sset 0 s (reg i lane) (BitVec.ofNat 32 x)) lane (i + 1) (x / 2 ^ 32) n

/-- A lane's write to a destination of n words (R33); a suppressed one writes nothing. -/
def writeDst (g : Gang) (lane n : Nat) (x : Nat) : Dst → Gang
  | .v i => { g with v := putRegs g.v lane i.toNat x n }
  | .o i => { g with o := putRegs g.o lane i.toNat x n }
  | .none => g

/-- A lane's value of a destination before the instruction. -/
def dstOld (g : Gang) (lane n : Nat) : Dst → Nat
  | .v i => regsNat g.v lane i.toNat n
  | .o i => regsNat g.o lane i.toNat n
  | .none => (sget 0 g.lat (reg 0 lane)).toNat

/-- The poison marks of one lane's latches move with the latches (R75); `bad`: the words of L0 that are poisoned. -/
def shiftBad (g : Gang) (lane : Nat) (bad : List Nat) : List Nat :=
  let key := fun (i w : Nat) => badKey (latBase + i + 4 * w) lane
  if g.badRegs.isEmpty && bad.isEmpty then g.badRegs
  else g.badRegs.filter (fun k => !(List.range 4).any (fun i => key i 0 == k || key i 1 == k))
    ++ [0, 1].flatMap (fun w => ((List.range 3).filter (fun i => g.badRegs.contains (key i w))).map (fun i => key (i + 1) w)) ++ bad.map (key 0)

/-- The push of R45 in one lane: L0 takes `x`, with its validity and the operation still in flight (0: none). -/
def pushLatch (g : Gang) (lane : Nat) (x : W64) (valid : Bool) (op : Nat) (bad : List Nat := []) : Gang :=
  let old := fun (i : Nat) => sget 0 g.lat (reg i lane)
  let oldV := fun (i : Nat) => (sget 0 g.latValid i).getLsbD lane
  let oldO := fun (i : Nat) => sget 0 g.latOp (reg i lane)
  let setV := fun (s : Store Mask) (i : Nat) (b : Bool) => setLane s i lane b
  { g with
    lat := sset 0 (sset 0 (sset 0 (sset 0 g.lat (reg 3 lane) (old 2)) (reg 2 lane) (old 1)) (reg 1 lane) (old 0)) (reg 0 lane) x,
    latValid := setV (setV (setV (setV g.latValid 3 (oldV 2)) 2 (oldV 1)) 1 (oldV 0)) 0 valid,
    latOp := sset 0 (sset 0 (sset 0 (sset 0 g.latOp (reg 3 lane) (oldO 2)) (reg 2 lane) (oldO 1)) (reg 1 lane) (oldO 0))
      (reg 0 lane) op,
    badRegs := shiftBad g lane bad }

/-- Write and push of a guard-true lane (R45). -/
def writePush (g : Gang) (lane : Nat) (d : Dst) (n x : Nat) : Gang :=
  pushLatch (writeDst g lane n x d) lane (BitVec.ofNat 64 x) true 0

/-- Push of a guard-false lane (R45), with the poison of the words that L0 takes. -/
def pushFalse (g : Gang) (lane : Nat) (d : Dst) (n : Nat) : Gang :=
  match d with
  | .none => pushLatch g lane (sget 0 g.lat (reg 0 lane)) ((sget 0 g.latValid 0).getLsbD lane) (sget 0 g.latOp (reg 0 lane))
      ([0, 1].filter (fun w => g.badRegs.contains (badKey (latBase + 4 * w) lane)))
  | d => pushLatch g lane (BitVec.ofNat 64 (dstOld g lane n d)) true 0
      ([0, 1].filter (fun w => ((dstNames n d)[w]?).any (fun i => g.badRegs.contains (badKey i lane))))

/-- Writes a predicate in one lane; index 7 discards (R33). -/
def writePred (g : Gang) (lane : Nat) (p : BitVec 3) (b : Bool) : Gang :=
  if p = 7 then g
  else { g with p := setLane g.p p.toNat lane b }

/-- Sets one uniform predicate; index 7 discards (R181). -/
def setQ (q : BitVec 7) (i : BitVec 3) (b : Bool) : BitVec 7 :=
  if i = 7 then q
  else if b then q ||| (1#7 <<< i.toNat) else q &&& ~~~(1#7 <<< i.toNat)

/-! ### Swap points and stalls (R46, R47) -/

/-- Lanes of `m` for which one of the named registers still awaits its first access. -/
def firstLanes (g : Gang) (names : List Nat) (m : Mask) : Mask :=
  names.foldl (fun a n => a ||| sget 0 g.firstAcc n) 0 &&& m
/-- Marks are taken off for lanes that made the access. -/
def clearFirst (g : Gang) (names : List Nat) (m : Mask) : Gang :=
  { g with firstAcc := names.foldl (fun s n => sset 0 s n (sget 0 s n &&& ~~~m)) g.firstAcc }
/-- Marks are set for lanes whose register an operation will write. -/
def markFirst (g : Gang) (names : List Nat) (m : Mask) : Gang :=
  { g with firstAcc := names.foldl (fun s n => sset 0 s n (sget 0 s n ||| m)) g.firstAcc }
/-- The four valid bits of some lanes are cleared. -/
def clearLatches (g : Gang) (m : Mask) : Gang :=
  if m = 0 then g
  else { g with latValid := [0, 1, 2, 3].foldl (fun s i => sset 0 s i (sget 0 s i &&& ~~~m)) g.latValid }

/-- Registers an outstanding operation will write. -/
def opNames : OpBody → List Nat
  | .load t _ (.lane d) _ _ _ => dstNames t.regs d
  | .load _ _ (.uni k) _ _ _ => [kBase + k.toNat]
  | .atomic n d _ _ _ => dstNames n d
  | _ => []

/-- Threads whose last access can still fault precisely, so that they issue nothing (R354): one that waits for a table walk
(R69), a load from a peer until it answers (R76, R403), and a WSIG until its gauge answers (R176). -/
def preciseHeld (g : Gang) : Mask :=
  (g.ops.filter (fun o => !o.done && (!o.walks.isEmpty || (match o.body with
      | .wsig _ _ _ => true
      | .load _ _ _ acc _ _ => acc.any (fun a => a.sp.isNone && a.loc.ap == 2)
      | _ => false)))).foldl
    (fun m o => m ||| o.lanes) 0

/-- Threads with a scratchpad access of another core, or their own through it, under way: a gang-wide instruction waits for
them (R280). -/
def spPending (g : Gang) : Bool :=
  g.ops.any (fun o => !o.done && (match o.body with
    | .load _ _ _ acc _ _ => acc.any (fun a => a.sp.isSome)
    | .store acc _ => acc.any (fun a => a.sp.isSome)
    | _ => false))

/-- Lanes of `m` stalled for a named register or latch that is still in flight, or behind an access that can still fault. -/
def stalledLanes (g : Gang) (names latches : List Nat) (m : Mask) : Mask :=
  let regsHeld := (g.ops.filter (fun o => !o.done && (opNames o.body).any (fun n => names.contains n))).foldl
    (fun a o => a ||| (match o.body with | .load _ _ (.uni _) _ _ _ => BitVec.allOnes 64 | _ => o.lanes)) 0
  let latHeld := maskOf (fun l => latches.any (fun i =>
    (sget 0 g.latValid i).getLsbD l && sget 0 g.latOp (reg i l) != 0))
  (preciseHeld g ||| regsHeld ||| (if latches.isEmpty then 0 else latHeld)) &&& m

end Sys2Proof.Machine
end

