-- ==== Sys2Proof/Machine/Flags.lean ====
section
/-! DEFINITION. Machine/Flags.lean: sr.fstat (04 R87, R88), the flags of integer saturation and of rounding, and
the draws of stochastic rounding (04 R84, 08 R234). -/

namespace Sys2Proof.Machine

open Sys2Proof

/-- Flags are sticky (R88). -/
def raiseFlags (g : Gang) (f : Flags) : Gang := { g with fstat := g.fstat ||| f }

/-- IS when a value was clamped (R87). -/
def isFlag (clamped : Bool) : Flags := if clamped then flIS else 0

/-- A result of a .sat operation, or modulo 2^w (R211). -/
def satInt (signed sat : Bool) (w : Nat) (x : Int) : Nat × Flags :=
  if sat then let c := clampInt signed w x; (wrap w c.1, isFlag c.2) else (wrap w x, 0)

/-- The 32-bit words of the generator for one draw of a thread (R234). -/
def drawWords (b : Block) (g : Gang) (gang lane ahead : Nat) : List Nat :=
  philox b.launchKey (drawCounter (sget 0 g.draw lane + ahead) (64 * gang + lane) b.idx)

/-- Word i of a stochastic rounding that starts at the thread's draw count (R84). -/
def rsrWord (b : Block) (g : Gang) (gang lane i : Nat) : Nat := (drawWords b g gang lane (i / 4)).getD (i % 4) 0

/-- Draws that rounding n values takes (R84). -/
def rsrDraws (r : Rnd) (n : Nat) : Nat := if r = .rsr then (n + 3) / 4 else 0

/-- Advances a thread's draw count (53 bits, R234). -/
def addDraws (g : Gang) (lane n : Nat) : Gang :=
  if n = 0 then g else { g with draw := sset 0 g.draw lane ((sget 0 g.draw lane + n) % 2 ^ 53) }

end Sys2Proof.Machine
end

