-- ==== Sys2Proof/Machine/Ops.lean ====
section
/-! DEFINITION. Machine/Ops.lean: fetching (02 R29, R30, R44), the issue of a lane instruction (02 R43 to R47,
08 R209, R210) and of a gang-issued one (02 R38, 11 R293, 06 R138), waiting and resuming, outstanding
operations (07 R192). The taking of a fault and the return from it are in Machine/Faults.lean. -/

namespace Sys2Proof.Machine

open Sys2Proof

/-! ### Fetching -/

/-- What a fetch finds. -/
inductive Fetched where
  /-- A fault at the fetch (kind 1). -/
  | bad (f : Flt)
  /-- An instruction, its length and its bytes. -/
  | instr (i : Instr) (len : Nat) (bytes : W128)
  /-- An illegal instruction (kind 0). -/
  | illegal (cause : Nat) (len : Nat) (bytes : W128)
  deriving DecidableEq, Repr

/-- Where code of one page lies, or the fault of its translation or key (R44 item 1). -/
def fetchPlace (s : State) (ctx core : Nat) (a : W64) (n : Nat) : Except Flt Trans :=
  match translate s ctx (tlbHolds s ctx core a.toNat) .ex a with
  | .error (c, lv) => .error { cls := 6, cause := c, access := 4, va := a, tlevel := lv }
  | .ok t => match keyFaultRun s ctx t.loc n with
    | some (_, c) => .error { cls := 7, cause := c, access := 4, va := a }
    | none => .ok t

/-- The places of some bytes of code, page by page. -/
def fetchPlaces (s : State) (ctx core : Nat) : List (W64 × Nat) → Except Flt (List (Trans × W64 × Nat))
  | [] => .ok []
  | p :: ps => match fetchPlace s ctx core p.1 p.2 with
    | .error f => .error f
    | .ok t => match fetchPlaces s ctx core ps with
      | .error f => .error f
      | .ok l => .ok ((t, p) :: l)

/-- The fetch poison fault of a place (R44 item 2, R67, R76). -/
def fetchPoison (s : State) (v : View) (x : Trans × W64 × Nat) : Option Flt :=
  if x.1.pagePoison then some { cls := 8, cause := 1, access := 4, va := x.2.1 }
  else if (sectorsOf x.1.loc.addr x.2.2).any (fun sec => locPoison s v { x.1.loc with addr := 32 * sec }) then
    some { cls := 8, cause := 2, access := 4, va := x.2.1 }
  else none

/-- Bytes of code: every page's translation before any poison. -/
def fetchBytes (s : State) (ctx core : Nat) (v : View) (a : W64) (n : Nat) : Except Flt (List Byte) :=
  match fetchPlaces s ctx core (byPage a 2 n) with
  | .error f => .error f
  | .ok l => match l.findSome? (fetchPoison s v) with
    | some f => .error f
    | none => .ok (l.flatMap (fun x => locReadRun s v x.1.loc x.2.2))

/-- What a fetch leaves in L2 (R66, R73). -/
def fetchSeen (s : State) (ctx core : Nat) (a : W64) (n : Nat) : State :=
  match fetchPlaces s ctx core (byPage a 2 n) with
  | .error _ => s
  | .ok l => l.foldl (fun s x => touchRun s x.1.loc x.2.2) s

/-- Bytes that a length code names (R29). -/
def lenBytes (b0 : Byte) : Nat :=
  match b0.toNat % 4 with
  | 0 => 8
  | 1 => 12
  | 2 => 16
  | _ => 0

/-- The fetch at an address in the order of R44. -/
def fetchAt (s : State) (ctx core : Nat) (v : View) (a : W64) : Fetched :=
  if a.toNat % 4 ≠ 0 then .bad { cls := 5, access := 4, va := a }
  else match fetchBytes s ctx core v a 8 with
    | .error f => .bad f
    | .ok base =>
      let len := lenBytes (base.headD 0)
      if len = 0 then .illegal 1 8 (BitVec.ofNat 128 (natOf base))
      else match fetchBytes s ctx core v (a + 8) (len - 8) with
        | .error f => .bad f
        | .ok rest =>
          let bytes := BitVec.ofNat 128 (natOf (base ++ rest))
          if a.toNat / 32 ≠ (a.toNat + len - 1) / 32 then .bad { cls := 2, access := 4, va := a }
          else match decodeBits bytes with
            | .ok i n => .instr i n bytes
            | .illegal c n => .illegal c n bytes

/-! ### The issue of a lane instruction -/

/-- What one thread's evaluation gives: the result, flags, and draws taken. -/
structure LOut where
  val : Nat := 0
  flags : Flags := 0
  draws : Nat := 0
  deriving DecidableEq, Repr

/-- The destination class of a lane instruction. -/
inductive LDst where
  | lane (d : Dst) (n : Nat)
  | pred (p : BitVec 3)
  | none
  deriving DecidableEq, Repr

/-- A lane instruction: its guard, its sources with their words, its destination, whether it is gang-wide
(R210), what its gang has it wait for, the privilege faults that every thread raises whatever its guard (R44 items 6 and 7), the faults of its entry, and
what a guard-true thread computes. -/
structure LaneDesc where
  guard : Guard
  srcs : List (Src × Nat)
  dst : LDst
  wide : Bool := false
  hold : Gang → Bool := fun _ => false
  priv : Gang → Mask → Option Flt := fun _ _ => Option.none
  bad : Gang → Mask → Option Flt := fun _ _ => Option.none
  eval : Block → Nat → Gang → Mask → Nat → LOut
  /-- Writes that do not follow the pattern of one result per guard-true thread (TOPK). -/
  custom : Option (Gang → Mask → Gang → Gang) := Option.none

def LDst.names : LDst → List Nat
  | .lane d n => dstNames n d
  | _ => []
/-- Registers that a lane instruction names. -/
def LaneDesc.names (d : LaneDesc) : List Nat := d.srcs.flatMap (fun p => srcNames p.2 p.1) ++ d.dst.names
def LaneDesc.latches (d : LaneDesc) : List Nat := d.srcs.flatMap (fun p => srcLatch p.1)

/-- Main registers at or above the allocation among some names (R178). -/
def overAlloc (g : Gang) (names : List Nat) : Bool := names.any (fun n => decide (n < oBase) && decide (g.alloc ≤ n))

/-- Lanes of `m` that would read a latch whose valid bit is clear (R46). -/
def lostLanes (g : Gang) (latches : List Nat) (m : Mask) : Mask :=
  latches.foldl (fun a i => a ||| (m &&& ~~~(sget 0 g.latValid i))) 0

/-- Lanes of `m` that would read a poisoned register word (R75). -/
def poisonLanes (g : Gang) (names : List Nat) (m : Mask) : Mask :=
  if g.badRegs.isEmpty then 0
  else maskOf (fun l => names.any (fun n => g.badRegs.contains (badKey n l))) &&& m

/-- The poison fault of words that a gang-wide instruction reads in live lanes of `m` whatever their guards (R75, R224, R230). -/
def wideBad (g : Gang) (names : List Nat) (m : Mask) : Option Flt :=
  let pz := poisonLanes g names (m &&& g.live)
  if pz = 0 then none else some { cls := 8, cause := 4, lanes := pz }

/-- The checks of a lane instruction for the threads `m` of a gang (R44 items 8 to 10), with the swap point of a
first access (R46): the gang with its latches and marks cleared, and the guard-true threads. -/
def prepLane (g : Gang) (m : Mask) (guard : Guard) (srcs : List (Src × Nat)) (dstN : List Nat) (swap : Bool) :
    Except Flt (Gang × Mask) :=
  let snames := srcs.flatMap (fun p => srcNames p.2 p.1)
  let names := snames ++ dstN
  let latches := srcs.flatMap (fun p => srcLatch p.1)
  let gt := guardMask g guard m
  if overAlloc g names then .error { cls := 1, cause := 7, lanes := m }
  else
    let sw := firstLanes g names m
    let g1 := clearLatches (clearFirst g names sw) (if swap then sw ||| gt else sw)
    let lost := lostLanes g1 latches gt
    if lost ≠ 0 then .error { cls := 4, lanes := lost }
    else
      let pz := poisonLanes g1 (srcs.flatMap (fun p => srcBad p.2 p.1)) gt
      if pz ≠ 0 then .error { cls := 8, cause := 4, lanes := pz }
      else .ok (g1, gt)

/-- Takes the marks of poisoned words off that guard-true threads overwrite. -/
def unmarkBad (g : Gang) (names : List Nat) (gt : Mask) : Gang :=
  if g.badRegs.isEmpty then g
  else { g with badRegs := g.badRegs.filter (fun k => !names.any (fun n => (lanesOf gt).any (fun l => badKey n l == k))) }

/-- The write and push of one thread (R33, R45). `old` is the gang before the instruction. -/
def commitLane (acc : Gang) (l : Nat) (gt : Bool) (dst : LDst) (o : LOut) : Gang :=
  match dst, gt with
  | .lane d n, true => raiseFlags (addDraws (writePush acc l d n o.val) l o.draws) o.flags
  | .lane d n, false => pushFalse acc l d n
  | .pred p, true => raiseFlags (addDraws (writePred acc l p (o.val != 0)) l o.draws) o.flags
  | .none, true => raiseFlags (addDraws acc l o.draws) o.flags
  | _, false => acc

/-- Every thread of `m`: results from `g0`, writes into `acc`. -/
def applyLane (b : Block) (gi : Nat) (d : LaneDesc) (g0 : Gang) (m gt : Mask) (acc : Gang) : Gang :=
  match d.custom with
  | some f => f g0 gt acc
  | Option.none =>
    unmarkBad ((lanesOf m).foldl (fun acc l =>
      commitLane acc l (gt.getLsbD l) d.dst (if gt.getLsbD l then d.eval b gi g0 gt l else {})) acc) d.dst.names gt

/-- Moves some threads to their next sequential address (R291). -/
def advance (g : Gang) (m : Mask) (addr : W64) (len : Nat) : Gang :=
  { g with pc := (lanesOf m).foldl (fun s l => sset 0 s l (addr + BitVec.ofNat 64 len)) g.pc }

/-- What a gang keeps of its part in an issue group (R292, R373): the address and the threads that issued, or, where
nothing issued (`none`), the threads that stand stalled at a swap point. -/
def marked (s : State) (f : Frag) (addr : W64) (lanes swap : Mask) (r : Option State) : State :=
  let old := ((getGang s f.blk f.gang).map (fun g => g.issuedOp)).getD 0
  match r with
  | none => modGang s f.blk f.gang (fun g => { g with atSwap := (g.atSwap &&& ~~~f.mask) ||| swap })
  | some s1 => modGang s1 f.blk f.gang (fun g => { g with
      issued := some addr, issuedLanes := lanes, arrived := (lanesOf lanes).foldl (fun r l => sset 0 r l s.tick) g.arrived,
      atSwap := (g.atSwap &&& ~~~f.mask) ||| swap,
      issuedOp := if g.issuedOp = old then 0 else g.issuedOp })

/-- The checked threads `m` of a gang execute a lane instruction. A gang-wide one faults in all of them (R357): its report names
the participants. -/
def laneBody (s : State) (addr : W64) (len : Nat) (insn : W128) (f : Frag) (d : LaneDesc) (b : Block) (g : Gang) (m : Mask) : State :=
  match d.priv g m with
  | some e => raiseGang s f.blk f.gang 0 addr len insn e.lanes e
  | Option.none => match prepLane g m d.guard d.srcs d.dst.names false with
    | .error e => raiseGang s f.blk f.gang 0 addr len insn e.lanes e
    | .ok (g1, gt) => match d.bad g1 gt with
      | some e => raiseGang s f.blk f.gang 0 addr len insn (if d.wide then m else e.lanes) e
      | Option.none => modGang s f.blk f.gang (fun _ => advance (applyLane b f.gang d g1 m gt g1) m addr len)

/-- One gang's part of an issue group. A gang-wide instruction issues for its gang as a whole (R210): where only some of its
threads are eligible, or scratchpad accesses of some are under way (R280), none issues (DESIGN CHOICE, log 49). -/
def laneFrag (s : State) (addr : W64) (len : Nat) (insn : W128) (f : Frag) (d : LaneDesc) : State :=
  match getBlk s f.blk, getGang s f.blk f.gang with
  | some b, some g =>
    let held := stalledLanes g d.names d.latches f.mask
    let m := if d.hold g then 0 else if d.wide then (if f.mask = g.live ∧ held = 0 ∧ !spPending g then f.mask else 0) else f.mask &&& ~~~held
    marked s f addr m (firstLanes g d.names held) (if m = 0 then Option.none else some (laneBody s addr len insn f d b g m))
  | _, _ => s

/-- The feeder-illegal fault of cause 1 (R138). -/
def feederIllegal (s : State) (blk : Nat) (addr : W64) (insn : W128) : State :=
  raiseFeeder s blk 0 addr insn { cls := 13, cause := 1 }

/-- A lane instruction for the issue that is being carried out. -/
def runLane (s : State) (d : LaneDesc) : State :=
  match s.active with
  | none => s
  | some a => match a.who with
    | .feeder blk addr => feederIllegal s blk addr a.insn
    | .group _ addr frags => frags.foldl (fun s f => laneFrag s addr a.len a.insn f d) s

/-! ### The issue of a gang-issued instruction -/

/-- A party that executes one instruction: a gang, or the feeder. -/
structure Iss where
  blk : Nat
  party : Party
  addr : W64
  len : Nat
  insn : W128
  deriving DecidableEq, Repr

/-- Uniform registers and predicates of a party. -/
def Block.kOf (b : Block) : Party → Store W64
  | .gang i => ((sfind b.gangs i).map (fun g => g.k)).getD []
  | .feeder => (b.feeder.map (fun f => f.k)).getD []
def Block.qOf (b : Block) : Party → BitVec 7
  | .gang i => ((sfind b.gangs i).map (fun g => g.q)).getD 0
  | .feeder => (b.feeder.map (fun f => f.q)).getD 0
def partyK (s : State) (blk : Nat) (p : Party) : Store W64 := ((getBlk s blk).map (fun b => b.kOf p)).getD []
def partyQ (s : State) (blk : Nat) (p : Party) : BitVec 7 := ((getBlk s blk).map (fun b => b.qOf p)).getD 0
def partyEv (s : State) (blk : Nat) (p : Party) : Events :=
  match getBlk s blk with
  | none => {}
  | some b => match p with
    | .gang i => ((sfind b.gangs i).map (fun g => g.ev)).getD {}
    | .feeder => (b.feeder.map (fun f => f.ev)).getD {}
/-- The marks that stand when a uniform register is written; `hi`: its upper half alone. -/
def kMarks (hi : Bool) (i : BitVec 6) (l : List Nat) : List Nat :=
  l.filter (fun b => b != badKey (kHigh + i.toNat) 0 && (hi || b != badKey (kBase + i.toNat) 0))
def setKw (hi : Bool) (s : State) (blk : Nat) (p : Party) (i : BitVec 6) (x : W64) : State :=
  match p with
  | .gang g => modGang s blk g (fun g => { g with k := sset 0 g.k i.toNat x, badRegs := kMarks hi i g.badRegs })
  | .feeder => modFeeder s blk (fun f => { f with k := sset 0 f.k i.toNat x, badRegs := kMarks hi i f.badRegs })
def setK (s : State) (blk : Nat) (p : Party) (i : BitVec 6) (x : W64) : State := setKw false s blk p i x
def setQp (s : State) (blk : Nat) (p : Party) (i : BitVec 3) (x : Bool) : State :=
  match p with
  | .gang g => modGang s blk g (fun g => { g with q := setQ g.q i x })
  | .feeder => modFeeder s blk (fun f => { f with q := setQ f.q i x })
def modEv (s : State) (blk : Nat) (p : Party) (h : Events → Events) : State :=
  match p with
  | .gang g => modGang s blk g (fun g => { g with ev := h g.ev })
  | .feeder => modFeeder s blk (fun f => { f with ev := h f.ev })
def partyWait (s : State) (blk : Nat) (p : Party) : Wait :=
  match getBlk s blk with
  | none => .none
  | some b => match p with
    | .gang i => ((sfind b.gangs i).map (fun g => g.wait)).getD .none
    | .feeder => (b.feeder.map (fun f => f.wait)).getD .none
def setWait (s : State) (blk : Nat) (p : Party) (w : Wait) (len : Nat) : State :=
  match p with
  | .gang g => modGang s blk g (fun g => { g with wait := w, waitLen := len, waitSince := s.tick })
  | .feeder => modFeeder s blk (fun f => { f with wait := w, waitLen := len })

/-- Moves a party to an address. -/
def jumpTo (s : State) (blk : Nat) (p : Party) (a : W64) : State :=
  match p with
  | .gang g => modGang s blk g (fun g => { g with pc := (lanesOf g.live).foldl (fun r l => sset 0 r l a) g.pc,
                                                  arrived := (lanesOf g.live).foldl (fun r l => sset 0 r l s.tick) g.arrived })
  | .feeder => modFeeder s blk (fun f => { f with pc := a })

/-- The address at which a party stands. -/
def partyPc (s : State) (blk : Nat) (p : Party) : W64 :=
  match getBlk s blk with
  | none => 0
  | some b => match p with
    | .gang i => match sfind b.gangs i with
      | some g => sget 0 g.pc (((lanesOf g.live).head?).getD 0)
      | none => 0
    | .feeder => (b.feeder.map (fun f => f.pc)).getD 0

/-- A waiting party continues at the next instruction. -/
def resumeParty (s : State) (blk : Nat) (p : Party) : State :=
  let len : Nat := match getBlk s blk with
    | none => 0
    | some b => match p with
      | .gang i => ((sfind b.gangs i).map (fun g => g.waitLen)).getD 0
      | .feeder => (b.feeder.map (fun f => f.waitLen)).getD 0
  jumpTo (setWait s blk p .none 0) blk p (partyPc s blk p + BitVec.ofNat 64 len)

/-- How a gang-issued instruction goes on. -/
inductive GRes where
  /-- Done: the party goes on at the next address. -/
  | done (s : State)
  /-- Done: the body has placed the party. -/
  | placed (s : State)
  /-- The party waits at the instruction. -/
  | wait (s : State) (w : Wait)
  /-- The party stalls before the instruction: no effect. -/
  | stall
  /-- A precise fault: no effect. -/
  | fault (f : Flt)

/-- Threads with an acquire that is not performed: their later accesses wait for it (R274, R276). -/
def acqPending (g : Gang) : Mask :=
  g.ops.foldl (fun m o =>
    let acq := match o.body with
      | .load _ _ _ _ a _ => a
      | .atomic _ _ _ a _ => a
      | _ => false
    if acq && !o.done then m ||| o.lanes else m) 0

/-- Whether some thread of `m` has an operation that is not done; drains are not covered (R277). -/
def pendingFor (g : Gang) (m : Mask) : Bool := g.ops.any (fun o => !o.done && o.cls != 3 && (o.lanes &&& m) != 0)

/-- Pushes of the guard-false threads. -/
def pushFalses (g : Gang) (m : Mask) (d : Option (Dst × Nat)) : Gang :=
  match d with
  | none => g
  | some (x, n) => (lanesOf m).foldl (fun g l => pushFalse g l x n) g

/-- A gang-issued instruction: guard, sources, the 32-bit words that it reads of each (two where nothing is said), uniform destinations, whether it is a waiting instruction or
another swap point (R46), whether a feeder may execute it (R138), whether it accesses memory or a completion
object and so waits for earlier acquires, whether it is a release and so waits for earlier accesses (R274), the
lane registers that KREADLANE and KBCAST name (R233), whether only a feeder may execute it (R139), and the feeder-illegal,
streamer-rights and privilege faults that it raises whatever its guard (R44 items 6 and 7). -/
structure GangDesc where
  guard : Guard
  srcs : List Src
  words : List Nat := []
  kdst : List (BitVec 6) := []
  swap : Bool := false
  feederOk : Bool := false
  mem : Bool := false
  rel : Bool := false
  lsrcs : List (Src × Nat) := []
  ldst : Option (Dst × Nat) := none
  feederOnly : Bool := false
  early : State → Iss → Option Flt := fun _ _ => none

/-- KREADLANE and KBCAST are gang-wide (R210). -/
def GangDesc.wide (d : GangDesc) : Bool := !d.lsrcs.isEmpty || d.ldst.isSome
def GangDesc.laneNames (d : GangDesc) : List Nat :=
  d.lsrcs.flatMap (fun p => srcNames p.2 p.1) ++ (match d.ldst with | some (x, n) => dstNames n x | none => [])
def GangDesc.names (d : GangDesc) : List Nat :=
  d.srcs.flatMap (srcNames 1) ++ d.kdst.map (fun k => kBase + k.toNat) ++ d.laneNames

/-- The words that its sources read (R75). -/
def GangDesc.badNames (d : GangDesc) : List Nat := d.srcs.zipIdx.flatMap (fun p => srcBad (d.words.getD p.2 2) p.1)

/-- A converged gang executes a gang-issued instruction; none: it stalls. -/
def gangBody (s : State) (addr : W64) (len : Nat) (insn : W128) (f : Frag) (d : GangDesc) (body : State → Iss → GRes) (g : Gang) : Option State :=
  let me : Iss := { blk := f.blk, party := .gang f.gang, addr := addr, len := len, insn := insn }
  let raise := fun (s : State) (e : Flt) => some (raiseGang s f.blk f.gang 0 addr len insn (if e.lanes = 0 then g.live else e.lanes) e)
  if d.feederOnly then raise s { cls := 12, cause := 1 }
  else match d.early s me with
  | some e => raise s e
  | none =>
    if overAlloc g d.laneNames then raise s { cls := 1, cause := 7, lanes := g.live }
    else
      let on := guardUni g.q d.guard
      let sw := firstLanes g d.names g.live
      let g1 := clearLatches (clearFirst g d.names sw) (if d.swap && on then g.live else sw)
      let s1 := modGang s f.blk f.gang (fun _ => { g1 with wait := .none, waitLen := 0 })
      let next := fun (s : State) => modGang s f.blk f.gang (fun g => advance g g.live addr len)
      if !on then some (next (modGang s1 f.blk f.gang (fun g => pushFalses g g.live d.ldst)))
      else if poisonLanes g1 d.badNames g.live ≠ 0 then raise s { cls := 8, cause := 4 }
      else if (d.mem && acqPending g1 != 0) || (d.rel && pendingFor g1 g1.live) then none
      else match body s1 me with
        | .done s2 => some (next s2)
        | .placed s2 => some s2
        | .wait s2 w => some (setWait s2 f.blk (.gang f.gang) w len)
        | .stall => none
        | .fault e => raise s e

/-- One gang's gang-issued instruction. A gang that has not converged waits (R293). -/
def gangFrag (s : State) (addr : W64) (len : Nat) (insn : W128) (f : Frag) (d : GangDesc) (body : State → Iss → GRes) : State :=
  match getGang s f.blk f.gang with
  | none => s
  | some g =>
    let held := stalledLanes g d.names [] g.live
    marked s f addr g.live (firstLanes g d.names held)
      (if f.mask ≠ g.live ∨ held ≠ 0 ∨ (d.wide && spPending g) = true then none else gangBody s addr len insn f d body g)

/-- A feeder's instruction (R137, R138). -/
def feederPart (s : State) (blk : Nat) (addr : W64) (len : Nat) (insn : W128) (d : GangDesc) (body : State → Iss → GRes) : State :=
  match (getBlk s blk).bind (fun b => b.feeder) with
  | none => s
  | some f =>
    let next := fun (s : State) => modFeeder s blk (fun f => { f with pc := addr + BitVec.ofNat 64 len })
    let me : Iss := { blk := blk, party := .feeder, addr := addr, len := len, insn := insn }
    if !d.feederOk then feederIllegal s blk addr insn
    else match d.early s me with
    | some e => raiseFeeder s blk 0 addr insn e
    | none =>
    if !guardUni f.q d.guard then next s
    else if d.badNames.any (fun n => f.badRegs.contains (badKey n 0)) then
      raiseFeeder s blk 0 addr insn { cls := 8, cause := 4 }
    else match body (setWait s blk .feeder .none 0) me with
      | .done s2 => next s2
      | .placed s2 => s2
      | .wait s2 w => setWait s2 blk .feeder w len
      | .stall => s
      | .fault e => raiseFeeder s blk 0 addr insn e

/-- A gang-issued instruction for the issue that is being carried out. -/
def runGang (s : State) (d : GangDesc) (body : State → Iss → GRes) : State :=
  match s.active with
  | none => s
  | some a => match a.who with
    | .feeder blk addr => feederPart s blk addr a.len a.insn d body
    | .group _ addr frags => frags.foldl (fun s f => gangFrag s addr a.len a.insn f d body) s

/-! ### Outstanding operations (R192) -/

/-- The counter of a class: operations issued, less those completed with no older one pending. -/
def classCount (g : Gang) (c : Nat) : Nat := (g.ops.filter (fun o => o.cls == c)).length
/-- Drops completed operations that no older one of their class holds back. -/
def purgeOps : List Nat → List Op → List Op
  | _, [] => []
  | pend, o :: t =>
    if o.done && !pend.contains o.cls then purgeOps pend t
    else o :: purgeOps (if o.done then pend else o.cls :: pend) t
def finishOp (g : Gang) (id : Nat) : Gang :=
  { g with ops := purgeOps [] (g.ops.map (fun o => if o.id = id then { o with done := true } else o)) }
/-- A gang whose counter stands at 63 stalls (R192). -/
def classFull (g : Gang) (c : Nat) : Bool := decide (63 ≤ classCount g c)
/-- Adds an operation in age order: the state and the operation's name. -/
def addOp (s : State) (blk gang cls : Nat) (lanes : Mask) (addr : W64) (walks : List Nat) (body : OpBody) : Nat × State :=
  let r := freshId s
  let insn : W128 := (s.active.map (fun a => a.insn)).getD 0
  let op : Op := { id := r.1, cls := cls, done := false, lanes := lanes, addr := addr, walks := walks, body := body, insn := insn }
  (r.1, modGang r.2 blk gang (fun g => { g with ops := g.ops ++ [op], issuedOp := r.1 }))

end Sys2Proof.Machine
end

