-- ==== Sys2Proof/Machine/Access.lean ====
section
/-! DEFINITION. Machine/Access.lean: the checks of memory accesses in the order of 07 R190, misses of the
translation buffers (03 R68, R69), scratchpad (07 R182 to R186), and the issue of a per-thread instruction that
acts on more than its gang. -/

namespace Sys2Proof.Machine

open Sys2Proof

/-! ### Translation buffers (R68, R69) -/

/-- Key of a miss: context and VA[56:16]. -/
def missKey (va : W64) : Nat := va.toNat / 65536

/-- Attaches an access to the walk of its miss: the walk's name, none on a hit. -/
def attachWalk (s : State) (ctx core : Nat) (ref : Nat × Nat × Nat) (va : W64) : State × Option Nat :=
  if tlbHolds s ctx core va.toNat then (s, none)
  else
    let d := core / 64
    let s := countCtr s ctx 5 1
    match (getDie s d).walks.find? (fun w => w.ctx == ctx && w.page == missKey va) with
    | some w => (modDie s d (fun d => { d with walks := updFirst (fun x => x.id == w.id) (fun x =>
        { x with cores := if x.cores.contains core then x.cores else x.cores ++ [core],
                 ops := if x.ops.contains ref then x.ops else x.ops ++ [ref] }) d.walks }), some w.id)
    | none =>
      let r := freshId s
      let run := decide (((getDie s d).walks.filter (fun w => w.running)).length < 64)
      let w : Walk := { id := r.1, ctx := ctx, page := missKey va, running := run, cores := [core], ops := [ref] }
      (countCtr (modDie r.2 d (fun d => { d with walks := d.walks ++ [w] })) ctx 6 (if run then 1 else 0), some r.1)

/-- Attaches all accesses of an operation: the walks it waits for. -/
def attachWalks (s : State) (ctx core : Nat) (ref : Nat × Nat × Nat) (vas : List W64) : State × List Nat :=
  vas.foldl (fun (acc : State × List Nat) va =>
    let r := attachWalk acc.1 ctx core ref va
    (r.1, match r.2 with | some w => (if acc.2.contains w then acc.2 else acc.2 ++ [w]) | none => acc.2)) (s, [])

/-- Whether an access already waits for the walk of its miss. -/
def walkPends (s : State) (ctx core : Nat) (ref : Nat × Nat × Nat) (va : W64) : Bool :=
  (getDie s (core / 64)).walks.any (fun w => w.ctx == ctx && w.page == missKey va && w.ops.contains ref)

/-- Whether the die accepts the misses of an issue: 64 walkers and 512 places in the queue. -/
def walkRoom (s : State) (ctx core : Nat) (vas : List W64) : Bool :=
  let ws := (getDie s (core / 64)).walks
  let new := (vas.filter (fun va => !tlbHolds s ctx core va.toNat
    && !ws.any (fun w => w.ctx == ctx && w.page == missKey va))).map missKey
  new.eraseDups.isEmpty || decide (ws.length + new.eraseDups.length ≤ 576)

/-- References of accesses that are no counted operation: of a feeder, of a command, of a fetch, of a prefetch of an address, of a
gang as a whole. -/
def feederRef (blk : Nat) : Nat × Nat × Nat := (blk, 32, 0)
def pieceRef (blk cmd : Nat) : Nat × Nat × Nat := (blk, 33, cmd)
def fetchRef (blk gang : Nat) : Nat × Nat × Nat := (blk, 34, gang)
def prefetchRef (blk : Nat) (va : W64) : Nat × Nat × Nat := (blk, 35, va.toNat)
def gangRef (blk gang : Nat) : Nat × Nat × Nat := (blk, 36, gang)
def partyRef (blk : Nat) : Party → Nat × Nat × Nat
  | .gang i => gangRef blk i
  | .feeder => feederRef blk

/-- A translation that a feeder, a command or a fetch needs: none where a buffer of its core holds it; else the state in which
the access waits for a walk, at its core while the die accepts no miss. -/
def missAt (s : State) (ctx core : Nat) (ref : Nat × Nat × Nat) (va : W64) : Option State :=
  if tlbHolds s ctx core va.toNat then none
  else if walkPends s ctx core ref va || !walkRoom s ctx core [va] then some s
  else some (attachWalk s ctx core ref va).1

/-- An instruction of a party as a whole at an address: it waits while a walk brings the translation, then issues again. -/
def orMiss (s : State) (b : Block) (p : Party) (va : W64) (r : GRes) : GRes :=
  match missAt s b.ctx b.core (partyRef b.id p) va with
  | some s1 => .wait s1 .blocked
  | none => r

/-- The same for an instruction that reads or writes structures of memory: where carrying it out has taken a translation that no buffer
held, it waits for the walk of that page first. -/
def orMisses (s : State) (b : Block) (p : Party) (r : GRes) : GRes :=
  let first := fun (t : State) => match (getCore t b.core).tlb.find? (fun e => !tlbHolds s e.ctx b.core e.va) with
    | some e => orMiss s b p (BitVec.ofNat 64 e.va) r
    | none => r
  match r with
  | .done t => first t
  | .placed t => first t
  | .wait t _ => first t
  | .stall => .stall
  | .fault f => .fault f

/-- Whether a gang that waits for such a walk goes on waiting. -/
def walkAwaited (s : State) (b : Block) (gi : Nat) : Bool :=
  (getDie s (b.core / 64)).walks.any (fun w => w.ops.contains (gangRef b.id gi))

/-! ### Checks of global accesses (R190) -/

/-- The failing lanes of one class: the report takes the lowest one's cause and address. -/
def firstFail (cls access : Nat) (l : List (Nat × W64)) (f : Nat × W64 → Option (Nat × Nat)) : Option Flt :=
  let bad := l.filterMap (fun p => (f p).map (fun c => (p, c)))
  match bad with
  | [] => none
  | b :: _ => some { cls := cls, cause := b.2.1, lanes := maskOfList (bad.map (fun x => x.1.1)), access := access,
                     va := b.1.2, tlevel := b.2.2 }

/-- One translated lane of an access: lane, address, place. -/
abbrev Hit := Nat × Trans

/-- Which poison an access meets at its issue: none (a store, a gauge that is met later), the poison bit of its page (R67),
or that and the marks of its sectors (R76). -/
inductive Poi where
  | no | page | all
  deriving DecidableEq, Repr

/-- Alignment, canonical address, translation and permission, key, view and poison, class by class over all
guard-true threads. `n` bytes each; `access`: the kind of the report. -/
def checkGlobal (s : State) (ctx core : Nat) (v : View) (need : Need) (access n : Nat) (poison : Poi)
    (l : List (Nat × W64)) : Except Flt (List Hit) :=
  match firstFail 5 access l (fun p => if p.2.toNat % n = 0 then none else some (0, 0)) with
  | some f => .error f
  | none => match firstFail 6 access l (fun p => if p.2.toNat < 2 ^ 57 then none else some (2, 0)) with
    | some f => .error f
    | none =>
      let tr := l.map (fun p => (p, translate s ctx (tlbHolds s ctx core p.2.toNat) need p.2))
      let res : Nat × W64 → Option (Except (Nat × Nat) Trans) := fun p => (tr.find? (fun x => x.1.1 == p.1)).map (·.2)
      match firstFail 6 access l (fun p => match res p with | some (.error e) => some e | _ => none) with
      | some f => .error f
      | none =>
        let ok := fun (p : Nat × W64) (g : Trans → Option Nat) => match res p with
          | some (.ok t) => (g t).map (fun c => (c, 0))
          | _ => none
        match firstFail 7 access l (fun p => ok p (fun t => keyFault s ctx t.loc)) with
        | some f => .error f
        | none =>
          let writes := need == .wr || need == .rw
          match firstFail 17 access l (fun p => ok p (fun t =>
              if writes && t.loc.ap == 0 && viewTarget s (t.loc.addr / 32) v == .violation then some 1 else none)) with
          | some f => .error f
          | none => match firstFail 8 access l (fun p => ok p (fun t =>
              if poison != .no && t.pagePoison then some 1
              else if poison == .all && locPoison s v t.loc then some (poisonCause t.loc) else none)) with
            | some f => .error f
            | none => .ok (tr.filterMap (fun x => match x.2 with | .ok t => some (x.1.1, t) | _ => none))

/-! ### Scratchpad (R182 to R186) -/

def spRead (b : Block) (a n : Nat) : List Byte := (List.range n).map (fun i => sget 0 b.scratch (a + i))
/-- Whether some byte lies in a poisoned word. -/
def spBad (b : Block) (a n : Nat) : Bool :=
  !b.scratchBad.isEmpty && (List.range n).any (fun i => b.scratchBad.contains ((a + i) / 8))
/-- Words that some writes of one request cover whole lose their mark (R76). -/
def spClear (b : Block) (ws : List (Nat × List Byte)) : Block :=
  if b.scratchBad.isEmpty then b
  else
    let cs := ws.flatMap (fun p => cells p.1 p.2)
    { b with scratchBad := b.scratchBad.filter (fun w => !(List.range 8).all (fun i => cs.any (fun c => c.1 == 8 * w + i))) }
/-- Writes bytes. -/
def spPut (b : Block) (ws : List (Nat × List Byte)) : Block :=
  { b with scratch := ssetMany 0 b.scratch (ws.flatMap (fun p => cells p.1 p.2)) }
/-- The writes of one request. -/
def spWriteAll (b : Block) (ws : List (Nat × List Byte)) : Block := spClear (spPut b ws) ws
def spWrite (s : State) (blk : Nat) (ws : List (Nat × List Byte)) : State := modBlk s blk (fun b => spWriteAll b ws)

/-- Extra service rounds of the 64 banks, for accesses by core and address in its scratchpad (R184). -/
def bankReplays (as : List (Nat × Nat)) : Nat :=
  let words := (as.map (fun a => (a.1, a.2 / 16))).eraseDups
  (words.foldl (fun m w => max m (words.filter (fun x => x.1 == w.1 && x.2 % 64 == w.2 % 64)).length) 1) - 1

/-- What accesses of a block to addresses of a block's scratchpad serve: the context, the core, the address on it. -/
def spBanks (b on : Block) (as : List Nat) : List (Nat × Nat × Nat) := as.map (fun a => (b.ctx, on.core, on.spBase + a))

/-- The replays of an issue group count for each context that takes part (R184, R370). -/
def countReplays (s : State) (banks : List (Nat × Nat × Nat)) : State :=
  ((banks.map (·.1)).eraseDups).foldl (fun s c => countCtr s c 3 (bankReplays (banks.map (·.2)))) s

/-- The block of a clique on its core c (R13, R185). -/
def cliqueBlock (s : State) (b : Block) (c : Nat) : Option Block :=
  if b.clique = 0 ∨ b.kd.shape.1 * b.kd.shape.2 ≤ c ∨ b.kd.shape.1 * b.kd.shape.2 ≤ 1 then none
  else if c = b.cliqueIdx then some b
  else s.blocks.find? (fun x => x.clique == b.clique && x.cliqueIdx == c)

/-- Range (and clique) of scratchpad accesses of n bytes: lane, block, address (R183, R185). -/
def spRange (access n : Nat) (l : List (Nat × Option Block × Nat)) : Option Flt :=
  firstFail 3 access (l.map (fun p => (p.1, BitVec.ofNat 64 p.2.2))) (fun p => match l.find? (fun q => q.1 == p.1) with
    | some (_, none, _) => some (3, 0)
    | some (_, some b, a) => if a + n ≤ b.kd.scratch then none else some (2, 0)
    | none => none)

/-- Range, alignment and poison of scratchpad accesses (R190). -/
def checkScratch (access n align : Nat) (poison : Bool) (l : List (Nat × Option Block × Nat)) : Option Flt :=
  let view := l.map (fun p => (p.1, BitVec.ofNat 64 p.2.2))
  match spRange access n l with
  | some f => some f
  | none => match firstFail 5 access view (fun p => if p.2.toNat % align = 0 then none else some (0, 0)) with
    | some f => some f
    | none => firstFail 8 access view (fun p => match (l.find? (fun q => q.1 == p.1)).map (fun q => q.2) with
        | some (some b, a) => if poison && spBad b a n then some (3, 0) else none
        | _ => none)

/-! ### What outstanding operations touch -/

/-- A place in the scratchpad of a clique's core. -/
def spLoc (a : Nat) : Loc := { ap := 0, addr := a, va := BitVec.ofNat 64 a }

/-- One place that an operation touches: the lane (none for the gang as a whole), block of a scratchpad, place, bytes. -/
structure Touch where
  lane : Option Nat
  sp : Option Nat
  loc : Loc
  n : Nat

def Touch.meets (x y : Touch) : Bool :=
  (x.lane == none || y.lane == none || x.lane == y.lane) && x.sp == y.sp
    && x.loc.ap == y.loc.ap && x.loc.peer == y.loc.peer
    && decide (x.loc.addr < y.loc.addr + y.n) && decide (y.loc.addr < x.loc.addr + x.n)

def accTouch (n : Nat) (a : LaneAcc) : Touch := { lane := some a.lane, sp := a.sp, loc := a.loc, n := n }

/-- The places of an operation. -/
def opTouches (s : State) (blk gi : Nat) (o : Op) : List Touch :=
  match o.body with
  | .load _ n (.lane _) acc _ _ => acc.map (accTouch n)
  | .load _ n (.uni _) acc _ _ => acc.map (fun a => { accTouch n a with lane := none })
  | .store acc _ => (acc.filter (fun a => !a.fin)).map (fun a => accTouch a.data.length a)
  | .gaugeAdd l _ => [{ lane := none, sp := none, loc := l, n := 8 }]
  | .wsig acc gs _ => (acc.filter (fun a => !a.fin)).map (fun a => accTouch a.data.length a) ++ gs.map (fun g => { lane := some g.1, sp := none, loc := g.2, n := 8 })
  | .atomic _ _ _ _ _ => s.atoms.flatMap (fun r =>
      (r.lanes.filter (fun a => a.blk == blk && a.gang == gi && a.op == o.id)).map (fun a =>
        { lane := some a.lane, sp := none, loc := r.loc, n := if r.w64 then 8 else 4 }))
  | .drain _ _ _ _ _ _ _ _ _ _ => []

/-- Whether an operation of a gang that is not done touches one of some places: an access there that takes effect at issue
comes after it in the program order of its thread (R186, R271). -/
def touchPending (s : State) (blk gi : Nat) (g : Gang) (ts : List Touch) : Bool :=
  g.ops.any (fun o => !o.done && (opTouches s blk gi o).any (fun u => ts.any (fun t => t.meets u)))

/-- The same for scratchpad accesses of n bytes of one block by lane. -/
def spHeld (s : State) (b : Block) (gi : Nat) (g : Gang) (n : Nat) (as : List (Nat × Nat)) : Bool :=
  spPending g && touchPending s b.id gi g (as.map (fun p => { lane := some p.1, sp := some b.id, loc := spLoc p.2, n := n }))

/-! ### The issue of a per-thread instruction with effects outside its gang -/

/-- What one gang's part leaves for the issue group as a whole: steps to be taken in ascending order of lane over all gangs
(R189, R196), and what it serves in the banks of scratchpads: context, core, address (R184). -/
structure Shared where
  steps : List (Nat × (State → State)) := []
  banks : List (Nat × Nat × Nat) := []

/-- How its body ends: the threads go on, with what the group does together; the body has placed its guard-true threads; the
issue waits; a fault. -/
inductive MRes where
  | ok (s : State) (sh : Shared := {})
  | placed (s : State)
  | hold
  | fault (f : Flt)

/-- A per-thread instruction: guard, sources with their words, lane destination, counted class if any, whether it
waits for its threads' earlier operations (a release that is performed at issue, R274), whether it is gang-wide
(R210), whether it is a swap point of itself (R46), and whether it accesses memory and so waits for its threads' earlier
acquires (R276). -/
structure MemDesc where
  guard : Guard
  srcs : List (Src × Nat)
  dst : Option (Dst × Nat) := none
  cls : Option Nat := none
  waits : Bool := false
  wide : Bool := false
  swap : Bool := false
  kdst : List (BitVec 6) := []
  mem : Bool := false
  early : State → Iss → Mask → Option Flt := fun _ _ _ => none

def MemDesc.dstNames (d : MemDesc) : List Nat := match d.dst with | some (x, n) => Machine.dstNames n x | none => d.kdst.map (fun k => kBase + k.toNat)
def MemDesc.names (d : MemDesc) : List Nat := d.srcs.flatMap (fun p => srcNames p.2 p.1) ++ d.dstNames
def MemDesc.latches (d : MemDesc) : List Nat := d.srcs.flatMap (fun p => srcLatch p.1)

/-- The range and clique faults of a scratchpad access, which come before cause 7 and lost latches (R44 items 7 to 9), in the guard-true
threads (R190) that can read their address: `addr` are its sources, `at_` the place of a lane. -/
def MemDesc.spEarly (d : MemDesc) (access n : Nat) (addr : List (Src × Nat)) (lanes : Mask)
    (at_ : State → Block → Gang → Nat → Option Block × Nat) : MemDesc :=
  { d with early := fun s i m => match getBlk s i.blk, i.party with
    | some b, .gang gi => (sfind b.gangs gi).bind (fun g =>
      let names := addr.flatMap (fun p => srcNames p.2 p.1)
      let latches := addr.flatMap (fun p => srcLatch p.1)
      let sw := firstLanes g d.names m
      let g1 := clearLatches (clearFirst g d.names sw) sw
      let gt := guardMask g d.guard m &&& lanes
      let able := gt &&& ~~~(lostLanes g1 latches gt) &&& ~~~(poisonLanes g1 (addr.flatMap (fun p => srcBad p.2 p.1)) gt)
      if overAlloc g names then none else spRange access n ((lanesOf able).map (fun l => (l, at_ s b g l))))
    | _, _ => none }

/-- Whether the counter of its class stands at its limit (R192). -/
def MemDesc.full (d : MemDesc) (g : Gang) : Bool := (d.cls.map (fun c => classFull g c)).getD false

/-- The checked threads `m` of a gang execute it; none: they wait. A fault that names no lane is a fault of all of them. -/
def memBody (s : State) (addr : W64) (len : Nat) (insn : W128) (f : Frag) (d : MemDesc)
    (body : State → Block → Nat → Gang → Mask → MRes) (b : Block) (g : Gang) (m : Mask) : Option (State × Shared) :=
  let raise := fun (e : Flt) => some (raiseGang s f.blk f.gang 0 addr len insn e.lanes e, ({} : Shared))
  match d.early s { blk := f.blk, party := .gang f.gang, addr := addr, len := len, insn := insn } m with
  | some e => raise e
  | none => match prepLane g m d.guard d.srcs d.dstNames d.swap with
    | .error e => raise e
    | .ok (g1, gt) =>
      if d.waits && pendingFor g gt then none
      else
        let g2 := pushFalses g1 (m &&& ~~~gt) d.dst
        let s1 := modGang s f.blk f.gang (fun _ => g2)
        let next := fun (s : State) (m : Mask) => modGang s f.blk f.gang (fun g => advance g m addr len)
        if gt = 0 then some (next s1 m, {})
        else match body s1 b f.gang g2 gt with
          | .ok s2 sh => some (next s2 m, sh)
          | .placed s2 => some (next s2 (m &&& ~~~gt), {})
          | .hold => none
          | .fault e => some (raiseGang s f.blk f.gang 0 addr len insn (if e.lanes = 0 then m else e.lanes) e, {})

/-- One gang's part of an issue group. The body sees the gang's checked state and its guard-true threads. -/
def memFrag (s : State) (addr : W64) (len : Nat) (insn : W128) (f : Frag) (d : MemDesc)
    (body : State → Block → Nat → Gang → Mask → MRes) : State × Shared :=
  match getBlk s f.blk, getGang s f.blk f.gang with
  | some b, some g =>
    let held := stalledLanes g d.names d.latches f.mask
    let stop := held ||| (if d.mem then acqPending g &&& f.mask else 0)
    let m := if d.full g then 0
      else if d.wide then (if f.mask = g.live ∧ stop = 0 ∧ !spPending g then f.mask else 0) else f.mask &&& ~~~stop
    let r := if m = 0 then none else memBody s addr len insn f d body b g m
    (marked s f addr m (firstLanes g d.names held) (r.map (·.1)), (r.map (·.2)).getD {})
  | _, _ => (s, {})

/-- The lanes of an operation that loads or stores for its threads. -/
def opLanes (o : Op) : List LaneAcc :=
  match o.body with
  | .load _ _ (.lane _) acc _ _ => acc
  | .store acc _ => acc
  | .wsig acc _ false => acc
  | _ => []
/-- Changes them. -/
def OpBody.mapLanes (x : OpBody) (f : LaneAcc → LaneAcc) : OpBody :=
  match x with
  | .load t n d acc a r => .load t n d (acc.map f) a r
  | .store acc r => .store (acc.map f) r
  | .wsig acc gs p => .wsig (acc.map f) gs p
  | _ => x

/-- The location of a lane's access: scratchpad or aperture, address, and the child whose copy it is (R107). -/
def lanePlace (s : State) (b : Block) (a : LaneAcc) : Option Nat × Nat × Nat × Nat × Option (Nat × Nat) :=
  (a.sp, a.loc.ap, a.loc.peer, a.loc.addr, if a.sp.isNone && a.loc.ap == 0 then ownerOf s (a.loc.addr / 32) b.views else none)

/-- The operation that a part of an issue group has issued, with its block. -/
def fragOp (s : State) (f : Frag) : Option (Frag × Block × Op) :=
  match getBlk s f.blk, getGang s f.blk f.gang with
  | some b, some g => (g.ops.find? (fun o => o.id == g.issuedOp && g.issuedOp != 0)).map (fun o => (f, b, o))
  | _, _ => none

/-- Gangs of an issue group that address one location with their loads or stores: the data of its highest lane stands, and their
operations are performed together, so that all lanes that load it read one value (R189). -/
def joinOps (s : State) (frags : List Frag) : State :=
  if frags.length < 2 then s
  else
    let parts := frags.filterMap (fragOp s)
    let at_ := fun (x : Frag × Block × Op) => (opLanes x.2.2).map (fun a => (lanePlace s x.2.1 a, a))
    let all := parts.flatMap at_
    let joined := parts.filter (fun x => parts.any (fun y => y.2.2.id != x.2.2.id
      && (at_ x).any (fun p => (at_ y).any (fun q => q.1 == p.1))))
    let settle := fun (b : Block) (a : LaneAcc) =>
      let same := all.filter (fun q => q.1 == lanePlace s b a)
      { a with data := ((leastBy (fun (q : _ × LaneAcc) => 64 - q.2.lane) same).map (fun q => q.2.data)).getD a.data }
    joined.foldl (fun t x => modGang t x.1.blk x.1.gang (fun g => { g with ops := updFirst (fun o => o.id == x.2.2.id) (fun o =>
      { o with group := ((joined.head?).map (fun y => y.2.2.id)).getD 0, body := o.body.mapLanes (settle x.2.1) }) g.ops })) s

/-- What the parts of an issue group do together (R184, R189, R196). -/
def runShared (s : State) (frags : List Frag) (sh : Shared) : State :=
  joinOps (countReplays ((sortBy (fun (x y : Nat × (State → State)) => decide (x.1 ≤ y.1)) sh.steps).foldl (fun s x => x.2 s) s) sh.banks) frags

/-- The parts of an issue group, then what they do together. -/
def runFrags (s : State) (addr : W64) (len : Nat) (insn : W128) (frags : List Frag) (d : MemDesc)
    (body : State → Block → Nat → Gang → Mask → MRes) : State :=
  let r := frags.foldl (fun (acc : State × Shared) f =>
    let x := memFrag acc.1 addr len insn f d body
    (x.1, { steps := acc.2.steps ++ x.2.steps, banks := acc.2.banks ++ x.2.banks })) (s, {})
  runShared r.1 frags r.2

/-- The same for the whole issue. -/
def runMem (s : State) (d : MemDesc) (body : State → Block → Nat → Gang → Mask → MRes) : State :=
  match s.active with
  | none => s
  | some a => match a.who with
    | .feeder blk addr => feederIllegal s blk addr a.insn
    | .group _ addr frags => runFrags s addr a.len a.insn frags d body

/-- A per-thread instruction that a feeder may execute too (R138). -/
def runMemOr (s : State) (d : MemDesc) (body : State → Block → Nat → Gang → Mask → MRes) (early : State → Iss → Option Flt)
    (feeder : State → Iss → GRes) : State :=
  match s.active with
  | none => s
  | some a => match a.who with
    | .feeder blk addr => feederPart s blk addr a.len a.insn { guard := d.guard, srcs := [], feederOk := true, early := early } feeder
    | .group _ addr frags => runFrags s addr a.len a.insn frags d body

/-- The address of the issue that is being carried out. -/
def issueAddr (s : State) : W64 :=
  match s.active with
  | some ⟨.group _ a _, _, _⟩ => a
  | some ⟨.feeder _ a, _, _⟩ => a
  | none => 0
/-- Its length and its bytes. -/
def issueLen (s : State) : Nat := (s.active.map (fun a => a.len)).getD 0
def issueInsn (s : State) : W128 := (s.active.map (fun a => a.insn)).getD 0

/-- Marks and pushes of a value that arrives later (R46, R47): L0 is valid and waits for operation `op`. -/
def pushPending (g : Gang) (gt : Mask) (d : Dst) (n op : Nat) : Gang :=
  markFirst ((lanesOf gt).foldl (fun g l => pushLatch g l 0 true op) g) (dstNames n d) gt

/-- A value arrives in one lane: the register, and the latches that wait for it. -/
def deliverLane (g : Gang) (op l : Nat) (d : Dst) (n x : Nat) : Gang :=
  let g := unmarkBad (writeDst g l n x d) (dstNames n d) (laneBit l)
  [0, 1, 2, 3].foldl (fun g i =>
    if sget 0 g.latOp (reg i l) = op
    then { g with lat := sset 0 g.lat (reg i l) (BitVec.ofNat 64 x), latOp := sset 0 g.latOp (reg i l) 0 } else g) g

end Sys2Proof.Machine
end

