-- ==== Sys2Proof/Machine/IntOps.lean ====
section
/-! DEFINITION. Machine/IntOps.lean: the integer group (08 R211 to R216). -/

namespace Sys2Proof.Machine

open Sys2Proof

/-- The outcome of a meaning. -/
abbrev Out := Host.Outcome State Fault Refusal

/-! ### Results -/

/-- A two-operand exact result narrowed to the type (R211). -/
def exact2 (f : Int → Int → Int) (t : LaneTy) (sat : Bool) (a b : Nat) : Nat × Flags :=
  satInt (ltSigned t) sat (ltBits t) (f (intVal (ltSigned t) (ltBits t) a) (intVal (ltSigned t) (ltBits t) b))

/-- IMULH: the high half of the double-width product. -/
def mulHigh (t : LaneTy) (a b : Nat) : Nat :=
  wrap (ltBits t) (intVal (ltSigned t) (ltBits t) a * intVal (ltSigned t) (ltBits t) b / ((2 ^ ltBits t : Nat) : Int))

/-- Quotient and remainder (R212). -/
def divRem (t : LaneTy) (a b : Nat) : Nat × Nat :=
  let w := ltBits t
  if b = 0 then (2 ^ w - 1, a)
  else if ltSigned t then
    let x := sx w a
    let y := sx w b
    if y = -1 then (wrap w (-x), 0) else (wrap w (x.tdiv y), wrap w (x.tmod y))
  else (a / b, a % b)

/-- The smaller and the larger by the type's signedness. -/
def intLess (t : LaneTy) (a b : Nat) : Bool :=
  decide (intVal (ltSigned t) (ltBits t) a < intVal (ltSigned t) (ltBits t) b)
def intMinOf (t : LaneTy) (a b : Nat) : Nat := if intLess t b a then b else a
def intMaxOf (t : LaneTy) (a b : Nat) : Nat := if intLess t a b then b else a

/-- Shifts (R213); `s` is the amount. -/
def shiftL (w a s : Nat) : Nat := if w ≤ s then 0 else a * 2 ^ s % 2 ^ w
def shiftR (w a s : Nat) : Nat := if w ≤ s then 0 else a / 2 ^ s
def shiftA (w a s : Nat) : Nat := wrap w (sx w a / ((2 ^ min s w : Nat) : Int))
def rotL (w a s : Nat) : Nat := (a * 2 ^ (s % w) + a / 2 ^ (w - s % w)) % 2 ^ w
def funnelL (w a b c : Nat) : Nat := (a * 2 ^ w + b) * 2 ^ min c w / 2 ^ w % 2 ^ w

def popCount (w a : Nat) : Nat := ((List.range w).filter (fun i => a / 2 ^ i % 2 = 1)).length
def leadZeros (w a : Nat) : Nat := w - bitLen a
def trailZeros (w a : Nat) : Nat := ((List.range w).takeWhile (fun i => a / 2 ^ i % 2 = 0)).length
def bitReverse (w a : Nat) : Nat := (List.range w).foldl (fun r i => 2 * r + a / 2 ^ i % 2) 0

/-- BFE (R214). -/
def fieldExtract (signed : Bool) (w a spec : Nat) : Nat :=
  let start := spec % 256
  let len := spec / 256 % 256
  if len = 0 ∨ w ≤ start then 0
  else
    let f := ((intVal signed w a / ((2 ^ start : Nat) : Int)) % ((2 ^ len : Nat) : Int)).toNat
    wrap w (intVal signed len f)
/-- BFI (R214). -/
def fieldInsert (w a ins spec : Nat) : Nat :=
  let start := spec % 256
  let stop := min (start + spec / 256 % 256) w
  if w ≤ start then a
  else
    let hole := 2 ^ stop - 2 ^ start
    (a - (a &&& hole)) + (ins * 2 ^ start &&& hole)
/-- PRMB (R214). -/
def permBytes (a b sel : Nat) : Nat :=
  (List.range 4).foldl (fun r i =>
    let n := sel / 16 ^ i % 16
    let x := (b * 2 ^ 32 + a) / 256 ^ (n % 8) % 256
    r + (if 8 ≤ n then (if 128 ≤ x then 255 else 0) else x) * 256 ^ i) 0
/-- BMASK (R215): n bytes of a. -/
def byteMask (r : MaskRule) (n a b c : Nat) : Nat :=
  let hit := fun x => match r with
    | .eq => x == b % 256
    | .rng => decide (b % 256 ≤ x) && decide (x ≤ b / 256 % 256)
    | .set => x != 0 && (List.range 4).any (fun j => b / 256 ^ j % 256 == x)
  let m := (List.range n).foldl (fun m i => if hit (a / 256 ^ i % 256) then m + 2 ^ i else m) 0
  (c * 2 ^ n + m) % 2 ^ 32
/-- The carry-less product of two 32-bit operands (R216). -/
def carryless (a b : Nat) : Nat := (List.range 32).foldl (fun p j => if a / 2 ^ j % 2 = 1 then p ^^^ (b * 2 ^ j) else p) 0

/-- The integer conditions of R42. -/
def intCond (c : ICond) (t : LaneTy) (a b : Nat) : Bool :=
  let x := intVal (ltSigned t) (ltBits t) a
  let y := intVal (ltSigned t) (ltBits t) b
  match c with
  | .eq => x = y
  | .ne => x ≠ y
  | .lt => x < y
  | .le => x ≤ y
  | .gt => y < x
  | .ge => y ≤ x

/-! ### Shapes -/

abbrev n32 : ReadAs := .int 32

/-- One source. -/
def laneOp1 (g : Guard) (d : Dst) (nd : Nat) (ra : ReadAs) (a : Src) (f : Nat → Nat × Flags) : LaneDesc :=
  { guard := g, srcs := [(a, wordsOf ra.bits)], dst := .lane d nd,
    eval := fun _ _ gg _ l => let r := f (readSrc gg l ra a); { val := r.1, flags := r.2 } }
/-- Two sources. -/
def laneOp2 (g : Guard) (d : Dst) (nd : Nat) (ra rb : ReadAs) (a b : Src) (f : Nat → Nat → Nat × Flags) : LaneDesc :=
  { guard := g, srcs := [(a, wordsOf ra.bits), (b, wordsOf rb.bits)], dst := .lane d nd,
    eval := fun _ _ gg _ l => let r := f (readSrc gg l ra a) (readSrc gg l rb b); { val := r.1, flags := r.2 } }
/-- Three sources. -/
def laneOp3 (g : Guard) (d : Dst) (nd : Nat) (ra rb rc : ReadAs) (a b c : Src) (f : Nat → Nat → Nat → Nat × Flags) : LaneDesc :=
  { guard := g, srcs := [(a, wordsOf ra.bits), (b, wordsOf rb.bits), (c, wordsOf rc.bits)], dst := .lane d nd,
    eval := fun _ _ gg _ l =>
      let r := f (readSrc gg l ra a) (readSrc gg l rb b) (readSrc gg l rc c)
      { val := r.1, flags := r.2 } }

/-- A result without flags. -/
abbrev plain (x : Nat) : Nat × Flags := (x, 0)

/-! ### One description per instruction -/

def descIadd (g : Guard) (t : LaneTy) (sat : Bool) (d : Dst) (a b : Src) : LaneDesc :=
  laneOp2 g d t.regs (ltRead t) (ltRead t) a b (exact2 (fun x y => x + y) t sat)
def descIsub (g : Guard) (t : LaneTy) (sat : Bool) (d : Dst) (a b : Src) : LaneDesc :=
  laneOp2 g d t.regs (ltRead t) (ltRead t) a b (exact2 (fun x y => x - y) t sat)
def descIadd3 (g : Guard) (t : LaneTy) (sat : Bool) (d : Dst) (a b c : Src) : LaneDesc :=
  laneOp3 g d t.regs (ltRead t) (ltRead t) (ltRead t) a b c (fun x y z =>
    satInt (ltSigned t) sat (ltBits t)
      (intVal (ltSigned t) (ltBits t) x + intVal (ltSigned t) (ltBits t) y + intVal (ltSigned t) (ltBits t) z))
def descImul (g : Guard) (t : LaneTy) (d : Dst) (a b : Src) : LaneDesc :=
  laneOp2 g d t.regs (ltRead t) (ltRead t) a b (exact2 (fun x y => x * y) t false)
def descImulh (g : Guard) (t : LaneTy) (d : Dst) (a b : Src) : LaneDesc :=
  laneOp2 g d t.regs (ltRead t) (ltRead t) a b (fun x y => plain (mulHigh t x y))
/-- a × b + c narrowed to the type. -/
def mulAdd (t : LaneTy) (sat : Bool) (x y z : Nat) : Nat × Flags :=
  satInt (ltSigned t) sat (ltBits t)
    (intVal (ltSigned t) (ltBits t) x * intVal (ltSigned t) (ltBits t) y + intVal (ltSigned t) (ltBits t) z)
def descImad (g : Guard) (t : LaneTy) (sat : Bool) (d : Dst) (a b c : Src) : LaneDesc :=
  laneOp3 g d t.regs (ltRead t) (ltRead t) (ltRead t) a b c (mulAdd t sat)
def descIdiv (g : Guard) (t : LaneTy) (d : Dst) (a b : Src) : LaneDesc :=
  laneOp2 g d t.regs (ltRead t) (ltRead t) a b (fun x y => plain (divRem t x y).1)
def descIrem (g : Guard) (t : LaneTy) (d : Dst) (a b : Src) : LaneDesc :=
  laneOp2 g d t.regs (ltRead t) (ltRead t) a b (fun x y => plain (divRem t x y).2)
def descImin (g : Guard) (t : LaneTy) (d : Dst) (a b : Src) : LaneDesc :=
  laneOp2 g d t.regs (ltRead t) (ltRead t) a b (fun x y => plain (intMinOf t x y))
def descImax (g : Guard) (t : LaneTy) (d : Dst) (a b : Src) : LaneDesc :=
  laneOp2 g d t.regs (ltRead t) (ltRead t) a b (fun x y => plain (intMaxOf t x y))
def descIabs (g : Guard) (t : LaneTy) (sat : Bool) (d : Dst) (a : Src) : LaneDesc :=
  laneOp1 g d t.regs (ltRead t) a (fun x => satInt true sat (ltBits t) ((sx (ltBits t) x).natAbs : Int))
def descIneg (g : Guard) (t : LaneTy) (sat : Bool) (d : Dst) (a : Src) : LaneDesc :=
  laneOp1 g d t.regs (ltRead t) a (fun x => satInt true sat (ltBits t) (-(sx (ltBits t) x)))
def descAnd (g : Guard) (t : LaneTy) (d : Dst) (a b : Src) : LaneDesc :=
  laneOp2 g d t.regs (ltRead t) (ltRead t) a b (fun x y => plain (x &&& y))
def descOr (g : Guard) (t : LaneTy) (d : Dst) (a b : Src) : LaneDesc :=
  laneOp2 g d t.regs (ltRead t) (ltRead t) a b (fun x y => plain (x ||| y))
def descXor (g : Guard) (t : LaneTy) (d : Dst) (a b : Src) : LaneDesc :=
  laneOp2 g d t.regs (ltRead t) (ltRead t) a b (fun x y => plain (x ^^^ y))
/-- a AND NOT b at a width. -/
def andNot (w x y : Nat) : Nat := x &&& (2 ^ w - 1 - y)
def descAndn (g : Guard) (t : LaneTy) (d : Dst) (a b : Src) : LaneDesc :=
  laneOp2 g d t.regs (ltRead t) (ltRead t) a b (fun x y => plain (andNot (ltBits t) x y))
def descNot (g : Guard) (t : LaneTy) (d : Dst) (a : Src) : LaneDesc :=
  laneOp1 g d t.regs (ltRead t) a (fun x => plain (2 ^ ltBits t - 1 - x))
def descShl (g : Guard) (t : LaneTy) (d : Dst) (a b : Src) : LaneDesc :=
  laneOp2 g d t.regs (ltRead t) n32 a b (fun x y => plain (shiftL (ltBits t) x y))
def descShr (g : Guard) (t : LaneTy) (d : Dst) (a b : Src) : LaneDesc :=
  laneOp2 g d t.regs (ltRead t) n32 a b (fun x y => plain (shiftR (ltBits t) x y))
def descSar (g : Guard) (t : LaneTy) (d : Dst) (a b : Src) : LaneDesc :=
  laneOp2 g d t.regs (ltRead t) n32 a b (fun x y => plain (shiftA (ltBits t) x y))
def descRot (g : Guard) (t : LaneTy) (d : Dst) (a b : Src) : LaneDesc :=
  laneOp2 g d t.regs (ltRead t) n32 a b (fun x y => plain (rotL (ltBits t) x y))
def descFshl (g : Guard) (t : LaneTy) (d : Dst) (a b c : Src) : LaneDesc :=
  laneOp3 g d t.regs (ltRead t) (ltRead t) n32 a b c (fun x y z => plain (funnelL (ltBits t) x y z))
def descPopc (g : Guard) (t : LaneTy) (d : Dst) (a : Src) : LaneDesc :=
  laneOp1 g d 1 (ltRead t) a (fun x => plain (popCount (ltBits t) x))
def descClz (g : Guard) (t : LaneTy) (d : Dst) (a : Src) : LaneDesc :=
  laneOp1 g d 1 (ltRead t) a (fun x => plain (leadZeros (ltBits t) x))
def descCtz (g : Guard) (t : LaneTy) (d : Dst) (a : Src) : LaneDesc :=
  laneOp1 g d 1 (ltRead t) a (fun x => plain (trailZeros (ltBits t) x))
def descBrev (g : Guard) (t : LaneTy) (d : Dst) (a : Src) : LaneDesc :=
  laneOp1 g d t.regs (ltRead t) a (fun x => plain (bitReverse (ltBits t) x))
def descBfe (g : Guard) (t : LaneTy) (d : Dst) (a b : Src) : LaneDesc :=
  laneOp2 g d t.regs (ltRead t) n32 a b (fun x y => plain (fieldExtract (ltSigned t) (ltBits t) x y))
def descBfi (g : Guard) (t : LaneTy) (d : Dst) (a b c : Src) : LaneDesc :=
  laneOp3 g d t.regs (ltRead t) (ltRead t) n32 a b c (fun x y z => plain (fieldInsert (ltBits t) x y z))
def descPrmb (g : Guard) (d : Dst) (a b c : Src) : LaneDesc :=
  laneOp3 g d 1 n32 n32 n32 a b c (fun x y z => plain (permBytes x y z))
def descBmask (g : Guard) (r : MaskRule) (t : LaneTy) (d : Dst) (a b c : Src) : LaneDesc :=
  laneOp3 g d 1 (ltRead t) n32 n32 a b c (fun x y z => plain (byteMask r (ltBits t / 8) x y z))
def descClmul (g : Guard) (d : Dst) (a b : Src) : LaneDesc :=
  laneOp2 g d 1 n32 n32 a b (fun x y => plain (carryless x y % 2 ^ 32))
def descClmulh (g : Guard) (d : Dst) (a b : Src) : LaneDesc :=
  laneOp2 g d 1 n32 n32 a b (fun x y => plain (carryless x y / 2 ^ 32))
def descIcmp (g : Guard) (c : ICond) (t : LaneTy) (pd : BitVec 3) (a b : Src) : LaneDesc :=
  { guard := g, srcs := [(a, t.regs), (b, t.regs)], dst := .pred pd,
    eval := fun _ _ gg _ l => { val := if intCond c t (readSrc gg l (ltRead t) a) (readSrc gg l (ltRead t) b) then 1 else 0 } }
def descSel (g : Guard) (t : LaneTy) (d : Dst) (a b : Src) (ps : PSel) : LaneDesc :=
  { guard := g, srcs := [(a, t.regs), (b, t.regs)], dst := .lane d t.regs,
    eval := fun _ _ gg _ l => { val := if pselLane gg ps l then readSrc gg l (ltRead t) a else readSrc gg l (ltRead t) b } }
def descLea (g : Guard) (t : LaneTy) (d : Dst) (a b : Src) (sh : BitVec 5) : LaneDesc :=
  laneOp2 g d 2 (.int 64) n32 a b (fun x y => plain (wrap 64 ((x : Int) + intVal (ltSigned t) 32 y * ((2 ^ sh.toNat : Nat) : Int))))
def descMov (g : Guard) (t : LaneTy) (d : Dst) (a : Src) : LaneDesc :=
  laneOp1 g d t.regs (ltRead t) a plain
def descMovi (g : Guard) (t : LaneTy) (d : Dst) (a b : Src) : LaneDesc :=
  { guard := g, srcs := [(a, t.regs), (b, t.regs)], dst := .lane d t.regs,
    eval := fun _ _ gg _ l => { val := (readSrc gg l (ltRead t) b + l * readSrc gg l (ltRead t) a) % 2 ^ ltBits t } }

/-! ### Meanings -/

def execIadd (g : Guard) (t : LaneTy) (sat : Bool) (d : Dst) (a b : Src) (s : State) : Out := .next (runLane s (descIadd g t sat d a b))
def execIsub (g : Guard) (t : LaneTy) (sat : Bool) (d : Dst) (a b : Src) (s : State) : Out := .next (runLane s (descIsub g t sat d a b))
def execIadd3 (g : Guard) (t : LaneTy) (sat : Bool) (d : Dst) (a b c : Src) (s : State) : Out := .next (runLane s (descIadd3 g t sat d a b c))
def execImul (g : Guard) (t : LaneTy) (d : Dst) (a b : Src) (s : State) : Out := .next (runLane s (descImul g t d a b))
def execImulh (g : Guard) (t : LaneTy) (d : Dst) (a b : Src) (s : State) : Out := .next (runLane s (descImulh g t d a b))
def execImad (g : Guard) (t : LaneTy) (sat : Bool) (d : Dst) (a b c : Src) (s : State) : Out := .next (runLane s (descImad g t sat d a b c))
def execIdiv (g : Guard) (t : LaneTy) (d : Dst) (a b : Src) (s : State) : Out := .next (runLane s (descIdiv g t d a b))
def execIrem (g : Guard) (t : LaneTy) (d : Dst) (a b : Src) (s : State) : Out := .next (runLane s (descIrem g t d a b))
def execImin (g : Guard) (t : LaneTy) (d : Dst) (a b : Src) (s : State) : Out := .next (runLane s (descImin g t d a b))
def execImax (g : Guard) (t : LaneTy) (d : Dst) (a b : Src) (s : State) : Out := .next (runLane s (descImax g t d a b))
def execIabs (g : Guard) (t : LaneTy) (sat : Bool) (d : Dst) (a : Src) (s : State) : Out := .next (runLane s (descIabs g t sat d a))
def execIneg (g : Guard) (t : LaneTy) (sat : Bool) (d : Dst) (a : Src) (s : State) : Out := .next (runLane s (descIneg g t sat d a))
def execAnd (g : Guard) (t : LaneTy) (d : Dst) (a b : Src) (s : State) : Out := .next (runLane s (descAnd g t d a b))
def execOr (g : Guard) (t : LaneTy) (d : Dst) (a b : Src) (s : State) : Out := .next (runLane s (descOr g t d a b))
def execXor (g : Guard) (t : LaneTy) (d : Dst) (a b : Src) (s : State) : Out := .next (runLane s (descXor g t d a b))
def execAndn (g : Guard) (t : LaneTy) (d : Dst) (a b : Src) (s : State) : Out := .next (runLane s (descAndn g t d a b))
def execNot (g : Guard) (t : LaneTy) (d : Dst) (a : Src) (s : State) : Out := .next (runLane s (descNot g t d a))
def execShl (g : Guard) (t : LaneTy) (d : Dst) (a b : Src) (s : State) : Out := .next (runLane s (descShl g t d a b))
def execShr (g : Guard) (t : LaneTy) (d : Dst) (a b : Src) (s : State) : Out := .next (runLane s (descShr g t d a b))
def execSar (g : Guard) (t : LaneTy) (d : Dst) (a b : Src) (s : State) : Out := .next (runLane s (descSar g t d a b))
def execRot (g : Guard) (t : LaneTy) (d : Dst) (a b : Src) (s : State) : Out := .next (runLane s (descRot g t d a b))
def execFshl (g : Guard) (t : LaneTy) (d : Dst) (a b c : Src) (s : State) : Out := .next (runLane s (descFshl g t d a b c))
def execPopc (g : Guard) (t : LaneTy) (d : Dst) (a : Src) (s : State) : Out := .next (runLane s (descPopc g t d a))
def execClz (g : Guard) (t : LaneTy) (d : Dst) (a : Src) (s : State) : Out := .next (runLane s (descClz g t d a))
def execCtz (g : Guard) (t : LaneTy) (d : Dst) (a : Src) (s : State) : Out := .next (runLane s (descCtz g t d a))
def execBrev (g : Guard) (t : LaneTy) (d : Dst) (a : Src) (s : State) : Out := .next (runLane s (descBrev g t d a))
def execBfe (g : Guard) (t : LaneTy) (d : Dst) (a b : Src) (s : State) : Out := .next (runLane s (descBfe g t d a b))
def execBfi (g : Guard) (t : LaneTy) (d : Dst) (a b c : Src) (s : State) : Out := .next (runLane s (descBfi g t d a b c))
def execPrmb (g : Guard) (d : Dst) (a b c : Src) (s : State) : Out := .next (runLane s (descPrmb g d a b c))
def execBmask (g : Guard) (r : MaskRule) (t : LaneTy) (d : Dst) (a b c : Src) (s : State) : Out := .next (runLane s (descBmask g r t d a b c))
def execClmul (g : Guard) (d : Dst) (a b : Src) (s : State) : Out := .next (runLane s (descClmul g d a b))
def execClmulh (g : Guard) (d : Dst) (a b : Src) (s : State) : Out := .next (runLane s (descClmulh g d a b))
def execIcmp (g : Guard) (c : ICond) (t : LaneTy) (pd : BitVec 3) (a b : Src) (s : State) : Out := .next (runLane s (descIcmp g c t pd a b))
def execSel (g : Guard) (t : LaneTy) (d : Dst) (a b : Src) (ps : PSel) (s : State) : Out := .next (runLane s (descSel g t d a b ps))
def execLea (g : Guard) (t : LaneTy) (d : Dst) (a b : Src) (sh : BitVec 5) (s : State) : Out := .next (runLane s (descLea g t d a b sh))
def execMov (g : Guard) (t : LaneTy) (d : Dst) (a : Src) (s : State) : Out := .next (runLane s (descMov g t d a))
def execMovi (g : Guard) (t : LaneTy) (d : Dst) (a b : Src) (s : State) : Out := .next (runLane s (descMovi g t d a b))

end Sys2Proof.Machine
end

