-- ==== Sys2Proof/Machine/Observe.lean ====
section
/-! DEFINITION. Machine/Observe.lean: Skelbor records (13 R372, R374) and level-2 checksums (13 R375, R376). -/

namespace Sys2Proof.Machine

open Sys2Proof

/-! ### Skelbor records (R372) -/

/-- Writes one 64-byte record of a gang into the capture buffer of its context. `tail`: bytes 0x20 to 0x3F. -/
def skelRecord (s : State) (b : Block) (gi kind flags : Nat) (addr : W64) (regions : List (BitVec 16)) (tail : List Byte) : State :=
  match getCtx s b.ctx with
  | none => s
  | some c => match c.capture with
    | none => s
    | some cap =>
      if cap.filter ≠ 0 ∧ !regions.any (fun r => r.toNat == cap.filter) then s
      else if cap.size < 64 * (cap.written + 1) then
        modCtx s b.ctx (fun c => { c with capture := some { cap with dropped := cap.dropped + 1 } })
      else
        let bs := le 1 kind ++ le 1 flags ++ le 2 gi ++ le 2 b.core ++ zeros 2 ++ le64 addr ++ le64 (topFour regions)
          ++ le 8 b.idx ++ (tail ++ zeros 32).take 32
        let s1 := modCtx s b.ctx (fun c => { c with capture := some { cap with written := cap.written + 1 } })
        match structWrite s1 b.ctx none [] (cap.buf + BitVec.ofNat 64 (64 * cap.written)) bs with
        | .ok s2 => s2
        | .error e => devWriteFailed s1 (b.core / 64) b.ctx e

/-- Threads of a gang in the issue group that is being carried out. -/
def issueLanes (s : State) (blk gi : Nat) : Mask :=
  match s.active with
  | some ⟨.group _ _ fs, _, _⟩ => ((fs.find? (fun f => f.blk == blk && f.gang == gi)).map (fun f => f.mask)).getD 0
  | _ => 0

/-- The record of a region enter (kind 3) or leave (kind 4), when region records are enabled. -/
def regionRecord (s : State) (blk gi kind : Nat) (addr : W64) : State :=
  match getBlk s blk, getGang s blk gi with
  | some b, some g =>
    match (getCtx s b.ctx).bind (fun c => c.capture) with
    | some cap => if cap.opts % 2 = 1 then skelRecord s b gi kind 0 addr g.regions (le 8 (issueLanes s blk gi).toNat) else s
    | none => s
  | _, _ => s

/-- A debug stop (R374): a kind 5 record, a breakpoint report in the fault log, and the gang parks. `len`: how
far the gang moves when the host releases it. `raised`: the stop stands in for the domain's action on a fault that is
delivered otherwise as any other is (R355, R358). -/
def debugStop (s : State) (blk gi : Nat) (addr : W64) (insn : W128) (mask : Mask) (len : Nat) (raised : Bool) : State :=
  match getBlk s blk, getGang s blk gi with
  | some b, some g =>
    let s1 := skelRecord s b gi 5 0 addr g.regions (le 8 (issueLanes s blk gi).toNat)
    let r := mkReport s1 b (some gi) false 0 addr insn { cls := 30, lanes := mask }
    let s2 := (logReport (if raised then countCtr s1 b.ctx 14 1 else s1) (b.core / 64) b.ctx r).1
    let s3 := modGang s2 blk gi (fun g => { g with wait := .debugStop, waitLen := len })
    if raised then gaugeAddLogged s3 (b.core / 64) b.ctx [] (regionOf s3 b.ctx b.region).ngauge 1 else s3
  | _, _ => s

/-! ### Checksums (R375) -/

/-- One byte into a CRC-64/ECMA-182. -/
def crcByte (c : W64) (b : Byte) : W64 :=
  (List.range 8).foldl (fun (c : W64) _ => if c.msb then (c <<< 1) ^^^ 0x42F0E1EBA9EA3693 else c <<< 1) (c ^^^ (b.setWidth 64 <<< 56))
def crc64 (l : List Byte) : W64 := l.foldl crcByte 0

/-- The bytes that a checksum folds, in order. -/
def checksumBytes (g : Gang) : List Byte :=
  (List.range 64).flatMap (fun i => le64 (sget 0 g.k i)) ++ le 1 g.q.toNat
    ++ (lanesOf g.live).flatMap (fun l =>
      le 1 l ++ (List.range g.alloc).flatMap (fun i => le 4 (sget 0 g.v (reg i l)).toNat)
        ++ (List.range 8).flatMap (fun i => le 4 (sget 0 g.o (reg i l)).toNat)
        ++ le 1 ((List.range 7).foldl (fun a i => a + if (sget 0 g.p i).getLsbD l then 2 ^ i else 0) 0))


/-- One log entry. -/
def checksumEntry (b : Block) (gi : Nat) (period : Nat) (x : W64) : List Byte :=
  le64 b.launchKey ++ le64 b.kd.entry ++ le 8 b.idx ++ le 8 period ++ le 2 gi ++ zeros 6 ++ le64 x ++ zeros 16

/-- The reference table's checksum for an entry's key, if the table has one (R376). -/
def referenceOf (s : State) (c : Ctx) (entry : List Byte) : Option W64 :=
  match structRead s c.id none [] c.refVa (64 * c.refEntries) with
  | .error _ => none
  | .ok t => ((List.range c.refEntries).find? (fun i => (t.drop (64 * i)).take 0x28 == entry.take 0x28)).map
      (fun i => w64At t (64 * i + 0x28))

/-- Logs one gang's checksum and compares it. -/
def logChecksum (s : State) (b : Block) (gi period : Nat) (x : W64) : State :=
  match getCtx s b.ctx with
  | none => s
  | some c =>
    let entry := checksumEntry b gi period x
    let s1 := if c.ckVa = 0 then s else (ringAppend s (b.core / 64) b.ctx c.ckVa c.ckEntries entry).1
    if c.refVa = 0 then s1
    else
      let want := referenceOf s1 c entry
      if want = some x then s1
      else if c.diverged.contains b.grid then
        (if c.ckVa = 0 then s1 else ringOverflow s1 (b.core / 64) b.ctx c.ckVa)
      else
        let s2 := modCtx s1 b.ctx (fun c => { c with diverged := c.diverged ++ [b.grid] })
        let f : Flt := { cls := 26, cause := 1, w := [x, want.getD 0, BitVec.ofNat 64 period] }
        let r := mkReport s2 b (some gi) false 2 0 0 f
        modBlk s2 b.id (fun b => { b with async := b.async ++ [r] })

/-- When a barrier that spans the block completes, its checksums are logged (R375). -/
def logBarrier (s : State) (blk bar : Nat) : State :=
  match getBlk s blk with
  | none => s
  | some b =>
    let s1 := b.gangs.foldl (fun s (p : Nat × Gang) =>
      (p.2.checksum.filter (fun x => x.1 == bar)).foldl (fun s x => logChecksum s b p.1 b.period x.2) s) s
    modBlk s1 blk (fun b => { b with gangs := b.gangs.map (fun p =>
      (p.1, { p.2 with checksum := p.2.checksum.filter (fun x => x.1 != bar) })) })

end Sys2Proof.Machine
end

