-- ==== Sys2Proof/Machine/Objects.lean ====
section
/-! DEFINITION. Machine/Objects.lean: events (11 R304 to R306), named barriers (06 R155 to R157), mailboxes (06
R160), the matrix gate and the freeing of banks (09 R238, R239), the end of a gang and of a feeder (11 R302). -/

namespace Sys2Proof.Machine

open Sys2Proof

/-- A block whose gangs may issue: stopped and killed blocks issue nothing. -/
def Block.runs (b : Block) : Bool :=
  match b.stat with
  | .resident | .stopping => true
  | _ => false

/-! ### Events -/

/-- An edge of a barrier reaches a slot list (R305). -/
def Events.edge (e : Events) (bar : Nat) : Events :=
  e.slots.foldl (fun (e : Events) (p : Nat × EvSlot) =>
    if p.2.kind = 1 ∧ p.2.idx = bar then
      { e with slots := smod e.slots p.1 (fun x => { x with count := min 255 (x.count + 1) }),
               pend := e.pend ||| (1#16 <<< p.1) }
    else e) e
/-- An edge reaches every party of a block. -/
def Block.edge (b : Block) (bar : Nat) : Block :=
  { b with gangs := b.gangs.map (fun (p : Nat × Gang) => (p.1, { p.2 with ev := p.2.ev.edge bar })),
           feeder := b.feeder.map (fun f => { f with ev := f.ev.edge bar }) }

/-- The value at a gauge. -/
def gaugeValue (s : State) (b : Block) (l : Loc) : Nat := locNat s b.views l 8
def mboxLen (b : Block) (m : Nat) : Nat := (sget [] b.mboxes m).length
def gateFree (s : State) (core : Nat) : Bool := let c := getCore s core; c.gate.isNone && c.gateQ.isEmpty
def rqReady (s : State) (q : Nat) : Nat := ((getRq s q).map (fun r => r.committed.length)).getD 0

/-- The condition of a level source (R305). -/
def levelCond (s : State) (b : Block) (x : EvSlot) : Bool :=
  match x.kind with
  | 2 => decide (x.target.toNat ≤ gaugeValue s b x.loc)
  | 3 => decide (0 < mboxLen b x.idx)
  | 4 => gateFree s b.core
  | 5 => decide (0 < rqReady s x.idx)
  | _ => false
def isLevel (x : EvSlot) : Bool := decide (2 ≤ x.kind)

/-- PEND of the level slots that `sel` picks becomes their condition. -/
def Events.evalLevels (e : Events) (s : State) (b : Block) (sel : Nat → EvSlot → Bool) : Events :=
  e.slots.foldl (fun (e : Events) (p : Nat × EvSlot) =>
    if isLevel p.2 && sel p.1 p.2 then
      let c := levelCond s b p.2
      { e with slots := smod e.slots p.1 (fun x => { x with last := c }),
               pend := if c then e.pend ||| (1#16 <<< p.1) else e.pend &&& ~~~(1#16 <<< p.1) }
    else e) e

/-- Evaluates the level slots of one party. -/
def evalLevels (s : State) (blk : Nat) (p : Party) : State :=
  match getBlk s blk with
  | none => s
  | some b => modEv s blk p (fun e => e.evalLevels s b (fun _ _ => true))

/-- At each change of a level condition its PEND bit follows (R305). -/
def followLevels (s : State) : State :=
  { s with blocks := s.blocks.map (fun b =>
      if b.onCore then
        let f := fun (e : Events) => if e.slots.isEmpty then e else e.evalLevels s b (fun _ x => levelCond s b x != x.last)
        { b with gangs := b.gangs.map (fun (p : Nat × Gang) => (p.1, { p.2 with ev := f p.2.ev })),
                 feeder := b.feeder.map (fun x => { x with ev := f x.ev }) }
      else b) }

def boundMask (e : Events) : BitVec 16 := e.slots.foldl (fun m p => m ||| (1#16 <<< p.1)) 0

/-- The slot that WAITANY dispatches (R306). -/
def candidate (e : Events) (c : BitVec 16) : Option Nat :=
  (bitsOf (e.pend &&& ~~~e.emask &&& c &&& boundMask e)).head?

/-- The payload of a slot (R305). -/
def slotPayload (s : State) (b : Block) (x : EvSlot) : Nat :=
  if x.raised then 0
  else match x.kind with
    | 1 => x.count + (if (sget ({} : Barrier) b.bars x.idx).phase then 256 else 0)
    | 2 => gaugeValue s b x.loc
    | 3 => mboxLen b x.idx
    | 5 => rqReady s x.idx
    | _ => 0

/-- Dispatches slot i of a party whose WAITANY ends at `ret` (R306). -/
def dispatchSlot (s : State) (blk : Nat) (p : Party) (i : Nat) (ret : W64) : State :=
  match getBlk s blk with
  | none => s
  | some b =>
    let e := partyEv s blk p
    let x := sget ({} : EvSlot) e.slots i
    let s1 := modEv s blk p (fun e => { e with
      pend := e.pend &&& ~~~(1#16 <<< i), srEv := BitVec.ofNat 32 (i + 16 * x.kind),
      srEvpay := BitVec.ofNat 64 (slotPayload s b x), srEvret := ret,
      slots := smod e.slots i (fun x => { x with count := 0, raised := false }) })
    jumpTo s1 blk p x.handler

/-! ### Named barriers -/

def modBar (s : State) (blk bar : Nat) (f : Barrier → Barrier) : State :=
  modBlk s blk (fun b => { b with bars := sset {} b.bars bar (f (sget {} b.bars bar)) })

/-- Evaluates completion (R155); a block-wide phase raises the period count and logs checksums (R20, R375). -/
def evalBarrier (s : State) (blk bar : Nat) : State :=
  match getBlk s blk with
  | none => s
  | some b =>
    let x := sget ({} : Barrier) b.bars bar
    if x.expected ≠ 0 ∧ x.arrivals = x.expected ∧ x.balance = 0 then
      let s1 := modBar s blk bar (fun x => { x with phase := !x.phase, arrivals := 0, arrived := [] })
      let s2 := modBlk s1 blk (fun b => b.edge bar)
      if x.mode = 0 then s2
      else logBarrier (modBlk s2 blk (fun b => { b with period := (b.period + 1) % 2 ^ 64 })) blk bar
    else s

/-- A party leaves the block-wide barriers (R156): 32 names the feeder. -/
def leaveBarriers (s : State) (blk who : Nat) : State :=
  match getBlk s blk with
  | none => s
  | some b => (List.range b.kd.nbar).foldl (fun s i =>
      let x := sget ({} : Barrier) b.bars i
      if x.mode = 0 ∨ (who = 32 ∧ x.mode ≠ 2) then s
      else
        let there := x.arrived.contains who
        evalBarrier (modBar s blk i (fun x => { x with
          expected := x.expected - 1, arrivals := x.arrivals - (if there then 1 else 0),
          arrived := x.arrived.filter (fun g => g != who) })) blk i) s

/-- A delivery draws down a balance (R147, R157). `cmd` names the command in the report. -/
def drawDown (s : State) (blk bar n cmd : Nat) : State :=
  match getBlk s blk with
  | none => s
  | some b =>
    let x := sget ({} : Barrier) b.bars bar
    if x.balance < (n : Int) then
      let excess := ((n : Int) - x.balance).toNat
      let s1 := modBar s blk bar (fun x => { x with balance := 0 })
      let f : Flt := { cls := 14, cause := 1, w := [BitVec.ofNat 64 bar, BitVec.ofNat 64 cmd, BitVec.ofNat 64 excess] }
      let s2 := addAsync s1 blk f (fun r => match r.w with
        | [w0, w1, w2] => if w0 = BitVec.ofNat 64 bar then { r with w := [w0, w1, w2 + BitVec.ofNat 64 excess] } else r
        | _ => r)
      evalBarrier s2 blk bar
    else evalBarrier (modBar s blk bar (fun x => { x with balance := x.balance - (n : Int) })) blk bar

/-! ### The gate (R238) -/

/-- Whether a pre-emption of the block is pending. -/
def preemptPending (s : State) (blk : Nat) : Bool := ((getBlk s blk).map (fun b => b.stat == .stopping)).getD false

/-- A gang takes the gate: the planes become empty when the previous holder's block was another one. -/
def takeGate (s : State) (core blk gang : Nat) : State :=
  let stay := ((getBlk s blk).map (fun b => b.admitted)).getD 0
  modCore s core (fun c =>
    let same := c.gateBlk == some (blk, stay)
    { c with gate := some (blk, gang), gateBlk := some (blk, stay), gateQ := c.gateQ.filter (fun p => p != (blk, gang)),
             active := if same then c.active else none, shadow := if same then c.shadow else none })

/-- Whether a waiting take can be granted: a block with a pending pre-emption is passed over (R251), and so is
one that is stopped. -/
def gateGrantable (s : State) (p : Nat × Nat) : Bool :=
  match getBlk s p.1, getGang s p.1 p.2 with
  | some b, some g => !ctxHalted s b.ctx && (b.stat == .resident || (b.stat == .stopping && g.restart.isSome))
  | _, _ => false

/-- The gate becomes free. -/
def releaseGate (s : State) (core : Nat) : State := modCore s core (fun c => { c with gate := none })

/-! ### Banks (R239) -/

def getBank (c : Core) (b : Bool) : Bank := if b then c.acc1 else c.acc0
def modBank (s : State) (core : Nat) (b : Bool) (f : Bank → Bank) : State :=
  modCore s core (fun c => if b then { c with acc1 := f c.acc1 } else { c with acc0 := f c.acc0 })
/-- A freed bank: its contents and flags are discarded. -/
def freeBank (s : State) (core : Nat) (b : Bool) : State := modBank s core b (fun _ => {})
def drainsOf (g : Gang) (b : Bool) : Bool :=
  g.ops.any (fun o => !o.done && (match o.body with | .drain _ x _ _ _ _ _ _ _ _ => x == b | _ => false))

/-- Frees the banks that an exited gang claims once its drains are through. -/
def freeBanksOf (s : State) (core blk gang : Nat) : State :=
  [false, true].foldl (fun s x =>
    if (getBank (getCore s core) x).claim = some (blk, gang)
        ∧ !((getGang s blk gang).map (fun g => drainsOf g x)).getD false
    then freeBank s core x else s) s

/-- Whether a gang holds the gate, a bank, or an open region (R251, R255). -/
def holdsGate (s : State) (b : Block) (gi : Nat) : Bool := (getCore s b.core).gate == some (b.id, gi)
def holdsBank (s : State) (b : Block) (gi : Nat) : Bool :=
  (getCore s b.core).acc0.claim == some (b.id, gi) || (getCore s b.core).acc1.claim == some (b.id, gi)
/-- A gang whose drains have not completed counts as holding the bank that they free. -/
def matrixBound (s : State) (b : Block) (gi : Nat) : Bool :=
  ((sfind b.gangs gi).map (fun g => g.restart.isNone && !g.exited
    && (holdsGate s b gi || holdsBank s b gi || drainsOf g false || drainsOf g true))).getD false

/-- The restart area of a block's record (R253, R366): a snapshot for each gang with an open region. -/
def putRestarts (s : State) (blk : Nat) : State :=
  modBlk s blk (fun b =>
    let secs := b.gangs.flatMap (fun (p : Nat × Gang) => match p.2.restart with
      | some r => [(0x0E, p.1, secRestart p.2 r)]
      | none => [])
    { b with recordBytes := if secs.isEmpty then [] else encodeRecord b (rcbAddr b.region) 0 b.childIdx secs })

/-! ### The end of a gang and of a feeder (R302) -/

/-- A gang whose last live thread has ended. -/
def endGang (s : State) (blk gi : Nat) : State :=
  match getBlk s blk with
  | none => s
  | some b =>
    let open_ := ((sfind b.gangs gi).map (fun g => g.restart.isSome)).getD false
    let s := modGang s blk gi (fun g => { g with
      exited := true, live := 0, v := [], alloc := 0, ev := {}, watch := {}, regions := [], restart := none, wait := .none,
      active := false, parked := 0, fetchWait := 0, handler := none, inlet := [] })
    let s := modCore s b.core (fun c => { c with growQ := c.growQ.filter (fun p => p != (blk, gi)),
                                                 gateQ := c.gateQ.filter (fun p => p != (blk, gi)) })
    let s := if open_ then putRestarts s blk else s
    let s := if holdsGate s b gi then releaseGate s b.core else s
    leaveBarriers (freeBanksOf s b.core blk gi) blk gi

/-- Some threads of a gang end. -/
def endThreads (s : State) (blk gi : Nat) (m : Mask) (addr : W64) : State :=
  let s := modGang s blk gi (fun g => { g with live := g.live &&& ~~~m, lastExit := addr })
  match getGang s blk gi with
  | some g => if g.live = 0 && !g.exited then endGang s blk gi else s
  | none => s

/-- The feeder ends. -/
def endFeeder (s : State) (blk : Nat) : State :=
  leaveBarriers (modFeeder s blk (fun f => { f with exited := true, wait := .none, ev := {} })) blk 32

end Sys2Proof.Machine
end

