-- ==== Sys2Proof/Machine/RecQueues.lean ====
section
/-! DEFINITION. Machine/RecQueues.lean: record queues (12 R334 to R338): opening, free records, groups. -/

namespace Sys2Proof.Machine

open Sys2Proof

/-- A failed read or write of a structure as a precise fault. -/
def lerrFlt (access : Nat) (e : LErr) : Flt :=
  { cls := e.2.1, cause := e.2.2.1, va := e.1, tlevel := e.2.2.2, access := access }

/-- The queue of a context that a handle names. -/
def findRq (s : State) (ctx : Nat) (h : W64) : Option RecQueue := s.rqs.find? (fun q => q.ctx == ctx && q.handle == h)

/-- Fields of a queue descriptor within the limits of R334, with a gauge at a multiple of 8 and a launch parameter block at a multiple of
128, for which it states no alignment (DESIGN CHOICE, log 61). -/
def rqFields (l : List Byte) : Bool :=
  let base := natAt l 0 8
  let size := natAt l 8 8
  let rsize := natAt l 0x10 2
  let g := natAt l 0x12 2
  decide (base % 128 = 0) && decide (64 ≤ rsize) && decide (rsize ≤ 1024) && decide (rsize % 64 = 0)
    && decide (rsize ≠ 0 ∧ size % rsize = 0) && decide (1 ≤ g) && decide (g ≤ 1024) && decide (1 ≤ natAt l 0x18 4)
    && allZero l 0x1C 4 && decide (natAt l 0x40 8 % 8 = 0) && allZero l 0x48 0x38 && decide (natAt l 0x20 8 % 128 = 0)

/-- The launch parameter block of a node kernel: its X, Y, Z and lflags are ignored (R334), and with lflags the count bpc
that they give a meaning to (DEDUCED, log 54). -/
def parseNodeLpb (l : List Byte) : Option (KDesc × LParams) :=
  match parseKdesc l with
  | none => none
  | some kd => parseLpb (l.take 0x40 ++ le 4 kd.shape.2 ++ le 2 kd.shape.1 ++ le 2 1 ++ (l.drop 0x48).take 4 ++ le 2 0 ++ l.drop 0x4E)

/-- Opens a queue at its first use (R334): the queue and the state, or the precise fault of R349. A queue that is done stays
known by its handle: it is closed for good (R347, R348). A base that is not mapped is a translation fault here, only the page of the base
is tested for aperture 0, and bytes 0x48 to 0x7F of the open descriptor stay as they are (DESIGN CHOICE, log 61). -/
def openRq (s : State) (b : Block) (h : W64) : Except Flt (RecQueue × State) :=
  if h.toNat % 128 ≠ 0 then .error { cls := 5, va := h, access := 1 }
  else match findRq s b.ctx h with
    | some q => .ok (q, s)
    | none =>
      let bad : Flt := { cls := 3, cause := 10, va := h }
      match structLoad s b.ctx (some b.core) b.views h 128 with
      | .error e => .error (lerrFlt 1 e)
      | .ok (s, l) =>
        if !rqFields l then .error bad
        else match nameRegion s b.ctx (some b.core) b.views (w64At l 0x38) with
          | .error x => .error { cls := 3, cause := 8, va := x.1 }
          | .ok s => match structLoad s b.ctx (some b.core) b.views (w64At l 0x20) 128 with
            | .error e => .error (lerrFlt 1 e)
            | .ok (s, lp) => match parseNodeLpb lp, translate s b.ctx (tlbHolds s b.ctx b.core (natAt l 0 8)) .wr (w64At l 0) with
              | some (kd, p), .ok t =>
                let r := regionOf s b.ctx (w64At l 0x38)
                if t.loc.ap ≠ 0 ∨ r.rqmem < natAt l 8 8 ∨ ((getCtx s b.ctx).map (fun c => c.spillPlaces)).getD 0 < kd.sd then .error bad
                else
                  let i := freshId s
                  let j := freshId i.2
                  let g : Grid := { id := j.1, ctx := b.ctx, road := 3, parent := some b.grid, rq := some i.1, queue := b.queue,
                                    level := b.level, seed := w64At l 0x30, arg := w64At l 0x28, rcb := w64At l 0x38,
                                    source := w64At l 0x20, kd := kd, lp := { p with x := 1, y := 1, z := 1 },
                                    order := j.2.pktOrder, read := readOf s (some b.grid) none }
                  let q : RecQueue := { id := i.1, ctx := b.ctx, handle := h, level := b.level, base := natAt l 0 8, size := natAt l 8 8,
                                        rsize := natAt l 0x10 2, group := natAt l 0x12 2, timer := natAt l 0x14 4, left := natAt l 0x18 4,
                                        lpb := w64At l 0x20, arg := w64At l 0x28, seed := w64At l 0x30, rcb := w64At l 0x38,
                                        gauge := w64At l 0x40, queue := b.queue, grid := j.1 }
                  .ok (q, dropRobuf { j.2 with grids := j.2.grids ++ [g], rqs := j.2.rqs ++ [q], pktOrder := j.2.pktOrder + 1 })
              | some _, .error (c, lv) => .error { cls := 6, cause := c, tlevel := lv, va := w64At l 0, access := 2 }
              | none, _ => .error bad

/-- The lowest free record of a queue (the spec says only: a free one, log 11). -/
def freeRecord (q : RecQueue) : Option Nat :=
  let n := if q.rsize = 0 then 0 else q.size / q.rsize
  (((List.range n).map (fun i => q.base + i * q.rsize))).find? (fun a =>
    !q.allocated.contains a && !q.taken.contains a && !q.committed.any (fun r => r.addr == a))

/-- Takes a free record for a block: its header becomes zero (R347). -/
def takeRecord (s : State) (b : Block) (q : RecQueue) (a : Nat) : Except Flt State :=
  match structWrite s b.ctx (some b.core) b.views (BitVec.ofNat 64 a) (zeros 32) with
  | .error e => .error (lerrFlt 2 e)
  | .ok s1 => .ok (modRq s1 q.id (fun q => { q with allocated := q.allocated ++ [a] }))

/-- Payload order of two records (R337). -/
def bytesLt : List Byte → List Byte → Bool
  | [], [] => false
  | [], _ => true
  | _, [] => false
  | x :: xs, y :: ys => decide (x < y) || (x == y && bytesLt xs ys)
def recPayload (s : State) (q : RecQueue) (r : Rec) : List Byte :=
  match structRead s q.ctx none [] (BitVec.ofNat 64 (r.addr + 32)) (q.rsize - 32) with
  | .ok l => l
  | .error _ => []
/-- Committed records in the order in which groups take them. -/
def recOrder (s : State) (q : RecQueue) : List Rec :=
  if q.level = 0 then q.committed
  else
    let l := q.committed.map (fun r => (r, recPayload s q r))
    (sortBy (fun (x y : Rec × List Byte) =>
      decide (x.1.key < y.1.key) || (x.1.key == y.1.key && !bytesLt y.2 x.2)) l).map (·.1)

/-- Whether the launcher may start a group now, the timer apart (R336, R337). -/
def groupReady (q : RecQueue) : Bool :=
  let n := q.committed.length
  if q.level = 0 then decide (0 < n) && (decide (q.group ≤ n) || q.closed || !q.rqwait.isEmpty)
  else q.closed && decide (0 < n)

/-- A queue that is closed, with no record left and no node block, is done: its gauge is incremented (R334, R337). -/
def rqDone (s : State) (id : Nat) : State :=
  match getRq s id with
  | none => s
  | some q =>
    if q.closed && !q.done && q.committed.isEmpty && q.liveBlks == 0 then
      gaugeAddLogged (modRq s id (fun q => { q with done := true })) 8 q.ctx [] q.gauge 1
    else s

end Sys2Proof.Machine
end

