-- ==== Sys2Proof/Machine/Events.lean ====
section
/-! DEFINITION. Machine/Events.lean: EVBIND, EVCTL and WAITANY (11 R308 to R310). -/

namespace Sys2Proof.Machine

open Sys2Proof

/-- A privilege fault that names a resource and its index (R154); the resource's number is a free value (log 6). -/
def resourceFault (kind : Nat) (i : W64) : Flt := { cls := 3, cause := 1, w := [Config.resourceCode kind, i] }

/-- A fault that a block and a party's uniform registers decide. -/
def atBlk (f : Block → Store W64 → Option Flt) (s : State) (i : Iss) : Option Flt :=
  (getBlk s i.blk).bind (fun b => f b (b.kOf i.party))
/-- A barrier or mailbox index beyond the block's count (R154): kinds 0 and 1. -/
def barIndex (a : Src) (b : Block) (k : Store W64) : Option Flt :=
  if b.kd.nbar ≤ (readUni k a).toNat then some (resourceFault 0 (readUni k a)) else none
def mboxIndex (a : Src) (b : Block) (k : Store W64) : Option Flt :=
  if b.kd.nmbox ≤ (readUni k a).toNat then some (resourceFault 1 (readUni k a)) else none

/-- The place of a gauge or watch: alignment, translation and key; poison where `poison` (R64, R73, R76). -/
def gaugePlace (s : State) (b : Block) (need : Need) (poison : Poi) (va : W64) : Except Flt Loc :=
  match checkGlobal s b.ctx b.core b.views need 9 8 poison [(0, va)] with
  | .error f => .error { f with lanes := 0 }
  | .ok hits => match hits with
    | h :: _ => .ok h.2.loc
    | [] => .error { cls := 6, cause := 1, va := va, access := 9 }

/-- Whether the party has an operation under way that touches a gauge: it reads the gauge after it (R271, R276). -/
def gaugeOwed (s : State) (b : Block) (p : Party) (l : Loc) : Bool :=
  match p with
  | .feeder => false
  | .gang gi => ((sfind b.gangs gi).map (fun g => touchPending s b.id gi g [{ lane := none, sp := none, loc := l, n := 8 }])).getD false
/-- The same for the gauges of some of its slots. -/
def slotsOwed (s : State) (b : Block) (p : Party) (sel : Nat → Bool) : Bool :=
  (partyEv s b.id p).slots.any (fun x => x.2.kind == 2 && sel x.1 && gaugeOwed s b p x.2.loc)
/-- Whether a gang's own accesses are under way: a structure of memory is read after them. -/
def accessOwed (b : Block) : Party → Bool
  | .feeder => false
  | .gang gi => ((sfind b.gangs gi).map (fun g => pendingFor g g.live)).getD false

/-- Installs a binding: the old one and its PEND bit are discarded, a level source is evaluated. -/
def bindSlot (s : State) (i : Iss) (slot : Nat) (x : EvSlot) : State :=
  let s1 := modEv s i.blk i.party (fun e => { e with slots := sput e.slots slot x, pend := e.pend &&& ~~~(1#16 <<< slot) })
  match getBlk s1 i.blk with
  | none => s1
  | some b => modEv s1 i.blk i.party (fun e => e.evalLevels s1 b (fun j _ => j == slot))

def evbindBody (slot : BitVec 4) (e : EvSpec) (s : State) (i : Iss) : GRes :=
  match getBlk s i.blk with
  | none => .stall
  | some b =>
    let k := b.kOf i.party
    let at_ := fun (d : BitVec 32) => i.addr + d.signExtend 64
    match e with
    | .none => .done (modEv s i.blk i.party (fun e => { e with slots := sdel e.slots slot.toNat, pend := e.pend &&& ~~~(1#16 <<< slot.toNat) }))
    | .bar a d =>
      .done (bindSlot s i slot.toNat { kind := 1, idx := (readUni k a).toNat, handler := at_ d })
    | .gauge ka t d => match gaugePlace s b .watch .page (readUni k (.k ka)) with
      | .error f => .fault f
      | .ok l =>
        if gaugeOwed s b i.party l then .stall
        else orMiss s b i.party (readUni k (.k ka)) (.done (bindSlot s i slot.toNat { kind := 2, loc := l, target := readUni k t, handler := at_ d }))
    | .mbox a d =>
      .done (bindSlot s i slot.toNat { kind := 3, idx := (readUni k a).toNat, handler := at_ d })
    | .gate d => .done (bindSlot s i slot.toNat { kind := 4, handler := at_ d })
    | .rq kq d =>
      if accessOwed b i.party then .stall
      else orMisses s b i.party (match openRq s b (readUni k (.k kq)) with
        | .error f => .fault f
        | .ok (q, s1) => .done (bindSlot s1 i slot.toNat { kind := 5, idx := q.id, loc := { va := q.handle }, handler := at_ d }))

/-- The index faults of EVBIND. -/
def evIndex : EvSpec → Block → Store W64 → Option Flt
  | .bar a _ => barIndex a
  | .mbox a _ => mboxIndex a
  | _ => fun _ _ => none

def evSrcs : EvSpec → List Src
  | .bar a _ => [a]
  | .gauge ka t _ => [.k ka, t]
  | .mbox a _ => [a]
  | .rq kq _ => [.k kq]
  | _ => []

def execEvbind (g : Guard) (slot : BitVec 4) (e : EvSpec) (s : State) : Out :=
  .next (runGang s { guard := g, srcs := evSrcs e, feederOk := true, mem := true, early := atBlk (evIndex e) } (evbindBody slot e))

/-- The 16-bit mask operand of EVCTL and WAITANY. -/
def maskOperand (s : State) (i : Iss) (m : Src) : BitVec 16 := (readUni (partyK s i.blk i.party) m).setWidth 16

/-- A change of PEND and EMASK. -/
def evctl (g : Guard) (m : Src) (f : State → Iss → BitVec 16 → State) (s : State) : Out :=
  .next (runGang s { guard := g, srcs := [m], feederOk := true } (fun s i => .done (f s i (maskOperand s i m))))

/-- Whether the gauges that the slots of a mask read are touched by the party's operations under way. -/
def maskOwed (s : State) (i : Iss) (x : BitVec 16) : Bool :=
  ((getBlk s i.blk).map (fun b => slotsOwed s b i.party (fun j => x.getLsbD j))).getD false

def execEvctlMask (g : Guard) (m : Src) (s : State) : Out :=
  evctl g m (fun s i x => modEv s i.blk i.party (fun e => { e with emask := e.emask ||| x })) s
def execEvctlUnmask (g : Guard) (m : Src) (s : State) : Out :=
  evctl g m (fun s i x => modEv s i.blk i.party (fun e => { e with emask := e.emask &&& ~~~x })) s

/-- .clr: PEND and the counts of the named slots are cleared, then their level sources are evaluated. -/
def clearPend (s : State) (i : Iss) (x : BitVec 16) : State :=
  let s1 := modEv s i.blk i.party (fun e => { e with
    pend := e.pend &&& ~~~x,
    slots := e.slots.map (fun p => if x.getLsbD p.1 then (p.1, { p.2 with count := 0, raised := false }) else p) })
  match getBlk s1 i.blk with
  | none => s1
  | some b => modEv s1 i.blk i.party (fun e => e.evalLevels s1 b (fun j _ => x.getLsbD j))
def execEvctlClr (g : Guard) (m : Src) (s : State) : Out :=
  .next (runGang s { guard := g, srcs := [m], feederOk := true } (fun s i =>
    if maskOwed s i (maskOperand s i m) then .stall else .done (clearPend s i (maskOperand s i m))))

/-- .raise: a bound slot becomes pending with payload 0. -/
def raisePend (e : Events) (x : BitVec 16) : Events :=
  { e with pend := e.pend ||| (x &&& boundMask e),
           slots := e.slots.map (fun p => if x.getLsbD p.1 then (p.1, { p.2 with raised := true }) else p) }
def execEvctlRaise (g : Guard) (m : Src) (s : State) : Out :=
  evctl g m (fun s i x => modEv s i.blk i.party (fun e => raisePend e x)) s

def execEvctlRead (g : Guard) (kd : BitVec 6) (s : State) : Out :=
  .next (runGang s { guard := g, srcs := [], kdst := [kd], feederOk := true } (fun s i =>
    let e := partyEv s i.blk i.party
    .done (setK s i.blk i.party kd (e.pend.setWidth 64 ||| (e.emask.setWidth 64 <<< 16) ||| ((boundMask e).setWidth 64 <<< 32)))))

/-- WAITANY with no bound unmasked candidate (R310). -/
def noCandidate (c : Src) (s : State) (i : Iss) : Option Flt :=
  let e := partyEv s i.blk i.party
  if (maskOperand s i c &&& boundMask e &&& ~~~e.emask) == 0 then some { cls := 3, cause := 6 } else none

/-- WAITANY (R306, R310): dispatch, or go on, or park. -/
def waitanyBody (poll : Bool) (c : Src) (s : State) (i : Iss) : GRes :=
  let m := maskOperand s i c
  let s1 := evalLevels s i.blk i.party
  if maskOwed s i (BitVec.allOnes 16) then .stall
  else match candidate (partyEv s1 i.blk i.party) m with
  | some n => .placed (dispatchSlot s1 i.blk i.party n (i.addr + BitVec.ofNat 64 i.len))
  | none => if poll then .done s1 else .wait s1 (.waitany m)

def execWaitany (g : Guard) (c : Src) (s : State) : Out :=
  .next (runGang s { guard := g, srcs := [c], swap := true, feederOk := true, early := noCandidate c } (waitanyBody false c))
def execWaitanyPoll (g : Guard) (c : Src) (s : State) : Out :=
  .next (runGang s { guard := g, srcs := [c], feederOk := true } (waitanyBody true c))

end Sys2Proof.Machine
end

