-- ==== Sys2Proof/Machine/FloatOps.lean ====
section
/-! DEFINITION. Machine/FloatOps.lean: the float group (08 R217 to R219), rounding by 04 R83 to R85, flags by R87. -/

namespace Sys2Proof.Machine

open Sys2Proof

/-! ### One value, or the two halves of a packed one -/

/-- Word i of a thread's stochastic rounding; 0 under the other modes, which do not use it. -/
def rndWord (r : Rnd) (b : Block) (gg : Gang) (gi l i : Nat) : Nat :=
  if r = .rsr then rsrWord b gg gi l i else 0

/-- An exact value with its flags, rounded once. -/
def finishF (f : Fmt) (r : Rnd) (u : Nat) (v : FVal × Flags) : Nat × Flags :=
  let c := roundF f r u {} v.1
  (c.1, v.2 ||| c.2)

/-- A function of codes applied to a scalar, or to both halves of a packed operand, each with its own word. -/
def halves (t : LaneTy) (u : Nat → Nat) (f : Nat → (Nat → Nat) → Nat × Flags) : Nat × Flags :=
  if ltPacked t then
    let lo := f (u 0) (fun x => x % 65536)
    let hi := f (u 1) (fun x => x / 65536 % 65536)
    (lo.1 + 65536 * hi.1, lo.2 ||| hi.2)
  else f (u 0) (fun x => x)

/-- Values that an instruction of the type rounds in one thread (R84). -/
def roundings (t : LaneTy) : Nat := if ltPacked t then 2 else 1

/-- A rounded operation of one, two or three operands of the type. -/
def fltOp (g : Guard) (t : LaneTy) (r : Rnd) (d : Dst) (srcs : List Src) (f : List FVal → FVal × Flags) : LaneDesc :=
  { guard := g, srcs := srcs.map (fun a => (a, 1)), dst := .lane d 1,
    eval := fun b gi gg _ l =>
      let xs := srcs.map (fun a => readSrc gg l (ltRead t) a)
      let x := halves t (rndWord r b gg gi l) (fun u part =>
        finishF (ltFmt t) r u (f (xs.map (fun x => unpackF (ltFmt t) (part x)))))
      { val := x.1, flags := x.2, draws := rsrDraws r (roundings t) } }

/-- An operation on codes that does not round. -/
def fltBits (g : Guard) (t : LaneTy) (d : Dst) (srcs : List Src) (f : List Nat → Nat) : LaneDesc :=
  { guard := g, srcs := srcs.map (fun a => (a, 1)), dst := .lane d 1,
    eval := fun _ _ gg _ l =>
      let xs := srcs.map (fun a => readSrc gg l (ltRead t) a)
      { val := (halves t (fun _ => 0) (fun _ part => (f (xs.map part), 0))).1 } }

def arg (l : List FVal) (i : Nat) : FVal := l.getD i .nan
def code (l : List Nat) (i : Nat) : Nat := l.getD i 0

/-! ### Special functions -/

/-- The code of an exact value of the format. -/
def packF (f : Fmt) (v : FVal) : Nat := (roundF f .rne 0 {} v).1

/-- FSCALE: the exponent of a value moved by n; beyond ±4096 the result no longer depends on n. -/
def scaleV (a : FVal) (n : Int) : FVal :=
  match a with
  | .fin s m e => .fin s m (e + max (-4096) (min 4096 n))
  | v => v

/-- FRND: the integral value that a mode chooses, with a's sign (R219). -/
def integralF (f : Fmt) (r : Rnd) (c : Nat) : Nat :=
  match unpackF f c with
  | .fin s m e =>
    let x := (roundInt r 0 s m e).1
    packF f (if x = 0 then .fin s 0 0 else .fin s x.natAbs 0)
  | v => packF f v

/-- FCLASS (R219). -/
def classOf (f : Fmt) (c : Nat) : Nat :=
  match unpackF f c with
  | .nan => 256
  | .inf s => if s then 1 else 128
  | .fin s m _ =>
    if m = 0 then (if s then 8 else 16)
    else if m < 2 ^ ((fshape f).p - 1) then (if s then 4 else 32)
    else (if s then 2 else 64)

/-- FCOPYS (R219). -/
def copySign (f : Fmt) (a b : Nat) : Nat :=
  if (unpackF f a).isNan then nanCode f
  else
    let w := (fshape f).width
    a % 2 ^ (w - 1) + b / 2 ^ (w - 1) % 2 * 2 ^ (w - 1)

/-- The float conditions of R42. -/
def fltCond (c : FCond) (a b : FVal) : Bool :=
  let un := a.isNan || b.isNan
  match c with
  | .eq => !un && cmpV a b == 0
  | .ne => un || cmpV a b != 0
  | .lt => !un && decide (cmpV a b < 0)
  | .le => !un && decide (cmpV a b ≤ 0)
  | .gt => !un && decide (0 < cmpV a b)
  | .ge => !un && decide (0 ≤ cmpV a b)
  | .ord => !un
  | .uno => un

/-! ### One description per instruction -/

def descFadd (g : Guard) (t : LaneTy) (r : Rnd) (d : Dst) (a b : Src) : LaneDesc :=
  fltOp g t r d [a, b] (fun x => addV r (arg x 0) (arg x 1))
def descFsub (g : Guard) (t : LaneTy) (r : Rnd) (d : Dst) (a b : Src) : LaneDesc :=
  fltOp g t r d [a, b] (fun x => addV r (arg x 0) (arg x 1).neg)
def descFmul (g : Guard) (t : LaneTy) (r : Rnd) (d : Dst) (a b : Src) : LaneDesc :=
  fltOp g t r d [a, b] (fun x => mulV (arg x 0) (arg x 1))
def descFfma (g : Guard) (t : LaneTy) (r : Rnd) (d : Dst) (a b c : Src) : LaneDesc :=
  fltOp g t r d [a, b, c] (fun x => fmaV r (arg x 0) (arg x 1) (arg x 2))
def descFmin (g : Guard) (t : LaneTy) (d : Dst) (a b : Src) : LaneDesc :=
  fltBits g t d [a, b] (fun x => packF (ltFmt t) (minV (unpackF (ltFmt t) (code x 0)) (unpackF (ltFmt t) (code x 1))))
def descFmax (g : Guard) (t : LaneTy) (d : Dst) (a b : Src) : LaneDesc :=
  fltBits g t d [a, b] (fun x => packF (ltFmt t) (maxV (unpackF (ltFmt t) (code x 0)) (unpackF (ltFmt t) (code x 1))))
def descFcmp (g : Guard) (c : FCond) (t : LaneTy) (pd : BitVec 3) (a b : Src) : LaneDesc :=
  { guard := g, srcs := [(a, 1), (b, 1)], dst := .pred pd,
    eval := fun _ _ gg _ l =>
      { val := if fltCond c (unpackF (ltFmt t) (readSrc gg l (ltRead t) a)) (unpackF (ltFmt t) (readSrc gg l (ltRead t) b))
          then 1 else 0 } }
def descFclass (g : Guard) (t : LaneTy) (d : Dst) (a : Src) : LaneDesc :=
  laneOp1 g d 1 (ltRead t) a (fun x => plain (classOf (ltFmt t) x))
def descFrcp (g : Guard) (r : Rnd) (d : Dst) (a : Src) : LaneDesc := fltOp g .f32 r d [a] (fun x => rcpV (arg x 0))
def descFrsq (g : Guard) (r : Rnd) (d : Dst) (a : Src) : LaneDesc := fltOp g .f32 r d [a] (fun x => rsqV (arg x 0))
def descFsqrt (g : Guard) (r : Rnd) (d : Dst) (a : Src) : LaneDesc := fltOp g .f32 r d [a] (fun x => sqrtV (arg x 0))
def descFdiv (g : Guard) (r : Rnd) (d : Dst) (a b : Src) : LaneDesc :=
  fltOp g .f32 r d [a, b] (fun x => divV (arg x 0) (arg x 1))
/-- A transcendental function of an f32 operand (R218). -/
def transOp (g : Guard) (f : TFun) (d : Dst) (a : Src) : LaneDesc :=
  laneOp1 g d 1 (.flt .f32) a (fun x => transF f (unpackF .f32 x))
def descFexp2 (g : Guard) (d : Dst) (a : Src) : LaneDesc := transOp g .exp2 d a
def descFlog2 (g : Guard) (d : Dst) (a : Src) : LaneDesc := transOp g .log2 d a
def descFsin (g : Guard) (d : Dst) (a : Src) : LaneDesc := transOp g .sin d a
def descFcos (g : Guard) (d : Dst) (a : Src) : LaneDesc := transOp g .cos d a
def descFtanh (g : Guard) (d : Dst) (a : Src) : LaneDesc := transOp g .tanh d a
def descFsigm (g : Guard) (d : Dst) (a : Src) : LaneDesc := transOp g .sigm d a
def descFscale (g : Guard) (t : LaneTy) (r : Rnd) (d : Dst) (a b : Src) : LaneDesc :=
  { guard := g, srcs := [(a, 1), (b, 1)], dst := .lane d 1,
    eval := fun blk gi gg _ l =>
      let x := unpackF (ltFmt t) (readSrc gg l (ltRead t) a)
      let y := finishF (ltFmt t) r (rndWord r blk gg gi l 0) (scaleV x (sx 32 (readSrc gg l n32 b)), 0)
      { val := y.1, flags := y.2, draws := rsrDraws r 1 } }
def descFrnd (g : Guard) (t : LaneTy) (r : Rnd) (d : Dst) (a : Src) : LaneDesc :=
  laneOp1 g d 1 (ltRead t) a (fun x => plain (integralF (ltFmt t) r x))
def descFcopys (g : Guard) (t : LaneTy) (d : Dst) (a b : Src) : LaneDesc :=
  fltBits g t d [a, b] (fun x => copySign (ltFmt t) (code x 0) (code x 1))

/-! ### Meanings -/

def execFadd (g : Guard) (t : LaneTy) (r : Rnd) (d : Dst) (a b : Src) (s : State) : Out := .next (runLane s (descFadd g t r d a b))
def execFsub (g : Guard) (t : LaneTy) (r : Rnd) (d : Dst) (a b : Src) (s : State) : Out := .next (runLane s (descFsub g t r d a b))
def execFmul (g : Guard) (t : LaneTy) (r : Rnd) (d : Dst) (a b : Src) (s : State) : Out := .next (runLane s (descFmul g t r d a b))
def execFfma (g : Guard) (t : LaneTy) (r : Rnd) (d : Dst) (a b c : Src) (s : State) : Out := .next (runLane s (descFfma g t r d a b c))
def execFmin (g : Guard) (t : LaneTy) (d : Dst) (a b : Src) (s : State) : Out := .next (runLane s (descFmin g t d a b))
def execFmax (g : Guard) (t : LaneTy) (d : Dst) (a b : Src) (s : State) : Out := .next (runLane s (descFmax g t d a b))
def execFcmp (g : Guard) (c : FCond) (t : LaneTy) (pd : BitVec 3) (a b : Src) (s : State) : Out := .next (runLane s (descFcmp g c t pd a b))
def execFclass (g : Guard) (t : LaneTy) (d : Dst) (a : Src) (s : State) : Out := .next (runLane s (descFclass g t d a))
def execFrcp (g : Guard) (r : Rnd) (d : Dst) (a : Src) (s : State) : Out := .next (runLane s (descFrcp g r d a))
def execFrsq (g : Guard) (r : Rnd) (d : Dst) (a : Src) (s : State) : Out := .next (runLane s (descFrsq g r d a))
def execFsqrt (g : Guard) (r : Rnd) (d : Dst) (a : Src) (s : State) : Out := .next (runLane s (descFsqrt g r d a))
def execFdiv (g : Guard) (r : Rnd) (d : Dst) (a b : Src) (s : State) : Out := .next (runLane s (descFdiv g r d a b))
def execFexp2 (g : Guard) (d : Dst) (a : Src) (s : State) : Out := .next (runLane s (descFexp2 g d a))
def execFlog2 (g : Guard) (d : Dst) (a : Src) (s : State) : Out := .next (runLane s (descFlog2 g d a))
def execFsin (g : Guard) (d : Dst) (a : Src) (s : State) : Out := .next (runLane s (descFsin g d a))
def execFcos (g : Guard) (d : Dst) (a : Src) (s : State) : Out := .next (runLane s (descFcos g d a))
def execFtanh (g : Guard) (d : Dst) (a : Src) (s : State) : Out := .next (runLane s (descFtanh g d a))
def execFsigm (g : Guard) (d : Dst) (a : Src) (s : State) : Out := .next (runLane s (descFsigm g d a))
def execFscale (g : Guard) (t : LaneTy) (r : Rnd) (d : Dst) (a b : Src) (s : State) : Out := .next (runLane s (descFscale g t r d a b))
def execFrnd (g : Guard) (t : LaneTy) (r : Rnd) (d : Dst) (a : Src) (s : State) : Out := .next (runLane s (descFrnd g t r d a))
def execFcopys (g : Guard) (t : LaneTy) (d : Dst) (a b : Src) (s : State) : Out := .next (runLane s (descFcopys g t d a b))

end Sys2Proof.Machine
end

