-- ==== Sys2Proof/Machine/System.lean ====
section
/-! DEFINITION. Machine/System.lean: PLOP (11 R295), special registers (11 R296 to R298), FENCE (10 R286), CLK and
random numbers (08 R234 to R236), regions (11 R314, R315), MONITOR and MWAIT (11 R311 to R313), WAITC, GROW and
SHRINK (07 R207, R208). -/

namespace Sys2Proof.Machine

open Sys2Proof

/-! ### PLOP (R295) -/

def lutBit (lut : BitVec 8) (a b c : Bool) : Bool :=
  lut.getLsbD ((if a then 4 else 0) + (if b then 2 else 0) + (if c then 1 else 0))

def descPlop (g : Guard) (d a b c : BitVec 3) (lut : BitVec 8) : LaneDesc :=
  { guard := g, srcs := [], dst := .pred d,
    eval := fun _ _ gg _ l =>
      { val := if lutBit lut (predBit gg a.toNat l) (predBit gg b.toNat l) (predBit gg c.toNat l) then 1 else 0 } }

def execPlop (g : Guard) (q : Bool) (d a b c : BitVec 3) (lut : BitVec 8) (s : State) : Out :=
  .next (if q then runGang s { guard := g, srcs := [], feederOk := true } (fun s i =>
      let x := partyQ s i.blk i.party
      .done (setQp s i.blk i.party d (lutBit lut (uniBit x a.toNat) (uniBit x b.toNat) (uniBit x c.toNat))))
    else runLane s (descPlop g d a b c lut))

/-! ### Special registers (R296 to R298) -/

/-- The nesting depth, scope and tag of a view, with its child index (R136). -/
def viewInfo (s : State) (b : Block) : Nat :=
  let child := b.childIdx.getD 0
  match b.views.head?.bind (fun x => getFork s x.1) with
  | none => child % 65536
  | some f =>
    let sc := match f.scope with | .block => 0 | .cluster => 1 | .die => 2 | .chip => 3
    child % 65536 + 2 ^ 16 * (b.views.length % 16) + 2 ^ 20 * sc + 2 ^ 22 * (f.tag % 256)

/-- The value of a register that is held per block (R296), as gangs and the feeder read it. -/
def srBlock (s : State) (b : Block) (sr : Nat) : Nat :=
  match sr with
  | 0x08 => b.idx
  | 0x09 => b.bx
  | 0x0A => b.byy
  | 0x0B => b.bz
  | 0x0C => b.gangs.length
  | 0x0D => b.nrec
  | 0x0E => b.cliqueIdx
  | 0x14 => viewInfo s b % 2 ^ 20
  | 0x15 => b.childIdx.getD 0
  | 0x18 => b.level
  | 0x19 => b.period
  | 0x1C => if b.level = 0 then b.core % 16 else b.lCore
  | 0x1D => if b.level = 0 then b.core / 16 % 4 else b.lClu
  | 0x1E => if b.level = 0 then b.core / 64 else b.lDie
  | _ => 0

/-- The value that one thread sees. -/
def srThread (s : State) (b : Block) (gi : Nat) (g : Gang) (l sr : Nat) : Nat :=
  let tid := 64 * gi + l
  match sr with
  | 0x00 => tid
  | 0x01 => l
  | 0x02 => tid % b.kd.bx
  | 0x03 => tid / b.kd.bx % b.kd.byy
  | 0x04 => tid / b.kd.bx / b.kd.byy
  | 0x05 => gi
  | 0x06 => (sget ({} : RStack) g.rstack l).depth
  | 0x10 => g.ev.srEv.toNat
  | 0x11 => g.ev.srEvpay.toNat
  | 0x12 => g.ev.srEvret.toNat
  | 0x1A => g.fstat.toNat
  | 0x20 => g.regions.length
  | 0x21 => ((g.regions.head?).getD 0).toNat
  | 0x22 => g.alloc
  | n => srBlock s b n

/-- Registers held per thread, and per gang. -/
def srIsThread (sr : Nat) : Bool := sr ≤ 4 || sr == 6
def srIsGang (sr : Nat) : Bool := sr == 5 || sr == 0x1A || sr == 0x20 || sr == 0x21 || sr == 0x22
/-- 64-bit registers. -/
def srWide (sr : Nat) : Bool := sr == 8 || sr == 0x11 || sr == 0x12 || sr == 0x19

/-- Atomics under way: an instruction that reads or writes sr.fstat waits for the flags of those before it (R88, R198). -/
def flagsPend (g : Gang) : Bool := g.ops.any (fun o => !o.done && o.cls == 2)

def descSread (s : State) (g : Guard) (sr : BitVec 8) (d : Dst) : LaneDesc :=
  { guard := g, srcs := [], dst := .lane d (if srWide sr.toNat then 2 else 1), hold := fun g => sr == 0x1A && flagsPend g,
    eval := fun b gi gg _ l => { val := srThread s b gi gg l sr.toNat } }
def execSread (g : Guard) (sr : BitVec 8) (d : Dst) (s : State) : Out := .next (runLane s (descSread s g sr d))

/-- SREAD.k of a register that a feeder has not (R138). -/
def sreadIllegal (sr : Nat) (_ : State) (_ : Iss) : Option Flt :=
  if srIsGang sr then some { cls := 13, cause := 2 } else none
/-- SREAD.k of a feeder (R138, R297). -/
def sreadFeeder (sr : Nat) (kd : BitVec 6) (s : State) (i : Iss) : GRes :=
  match getBlk s i.blk with
  | none => .stall
  | some b =>
    let e := partyEv s i.blk .feeder
    let x := if sr = 0x10 then e.srEv.toNat else if sr = 0x11 then e.srEvpay.toNat else if sr = 0x12 then e.srEvret.toNat
      else srBlock s b sr
    .done (setK s i.blk .feeder kd (BitVec.ofNat 64 x))

/-- SREAD.k of a gang: every live thread stands here; kd is written when some thread takes part (R210, R297). -/
def execSreadK (g : Guard) (sr : BitVec 8) (kd : BitVec 6) (s : State) : Out :=
  .next (runMemOr s { guard := g, srcs := [], wide := true, kdst := [kd] }
    (fun s b gi gg _ =>
      if sr == 0x1A && flagsPend gg then .hold
      else .ok (setK s b.id (.gang gi) kd (BitVec.ofNat 64 (srThread s b gi gg 0 sr.toNat))))
    (sreadIllegal sr.toNat) (sreadFeeder sr.toNat kd))

/-- SWRITE: the value of the lowest guard-true lane (R298). -/
def execSwrite (g : Guard) (sr : BitVec 8) (a : Src) (s : State) : Out :=
  .next (runMem s { guard := g, srcs := [(a, if sr = 0x12 then 2 else 1)] } (fun s b gi gg gt =>
    let l := lowestLane gt
    if sr == 0x1A && flagsPend gg then .hold
    else .ok (modGang s b.id gi (fun g =>
      if sr = 0x12 then { g with ev := { g.ev with srEvret := BitVec.ofNat 64 (readSrc gg l (.int 64) a) } }
      else { g with fstat := BitVec.ofNat 6 (readSrc gg l n32 a) }))))

/-! ### FENCE (R286): waits until the earlier accesses of its threads are performed -/

def fenceWaits (g : Gang) (m : Mask) (f : FenceKind) : Bool :=
  match f with
  | .acq => g.ops.any (fun o => !o.done && (o.cls == 0 || o.cls == 2) && (o.lanes &&& m) != 0)
  | _ => pendingFor g m

def execFence (g : Guard) (f : FenceKind) (_sc : Scope) (s : State) : Out :=
  .next (runMem s { guard := g, srcs := [] } (fun s _ _ gg gt => if fenceWaits gg gt f then .hold else .ok s))

/-! ### CLK and random numbers (R234 to R236) -/

def descClk (s : State) (g : Guard) (d : Dst) : LaneDesc :=
  { guard := g, srcs := [], dst := .lane d 2,
    eval := fun b _ _ _ _ => { val := if b.level = 0 then (getCore s b.core).cyc.toNat else b.period } }
def execClk (g : Guard) (d : Dst) (s : State) : Out := .next (runLane s (descClk s g d))

/-- The result form of four words (R235). -/
def rngValue (f : RngForm) (ws : List Nat) : Nat :=
  let w := fun i => ws.getD i 0
  match f with
  | .b32 => w 0
  | .b64 => w 0 + 2 ^ 32 * w 1
  | .b128 => w 0 + 2 ^ 32 * w 1 + 2 ^ 64 * w 2 + 2 ^ 96 * w 3
  | .f32 => packF .f32 (.fin false (w 0 / 256) (-24))

def descRng (g : Guard) (f : RngForm) (d : Dst) : LaneDesc :=
  { guard := g, srcs := [], dst := .lane d f.regs,
    eval := fun b gi gg _ l => { val := rngValue f (drawWords b gg gi l 0), draws := 1 } }
def execRng (g : Guard) (f : RngForm) (d : Dst) (s : State) : Out := .next (runLane s (descRng g f d))

def descRngx (g : Guard) (f : RngForm) (d : Dst) (a : Src) : LaneDesc :=
  { guard := g, srcs := [(a, 4)], dst := .lane d f.regs,
    eval := fun b _ gg _ l =>
      let x := readSrc gg l (.int 128) a
      let c := fun i => x / 2 ^ (32 * i) % 2 ^ 32
      { val := rngValue f (philox b.launchKey (c 0, c 1, c 2, c 3)) } }
def execRngx (g : Guard) (f : RngForm) (d : Dst) (a : Src) (s : State) : Out := .next (runLane s (descRngx g f d a))

/-! ### The region stack (R314, R315) -/

/-- Whether an id stops a gang in debug mode (R374). -/
def isStopId (s : State) (ctx : Nat) (id : BitVec 16) : Bool :=
  debugOn s ctx && ((getCtx s ctx).map (fun c => c.stopIds.contains id)).getD false

/-- Runs a body for a gang; a feeder cannot reach it. -/
def withGang (s : State) (i : Iss) (f : Block → Nat → Gang → GRes) : GRes :=
  match i.party, getBlk s i.blk with
  | .gang gi, some b => match sfind b.gangs gi with
    | some g => f b gi g
    | none => .stall
  | _, _ => .stall

def execRgenter (g : Guard) (id : Src) (s : State) : Out :=
  .next (runGang s { guard := g, srcs := [id] } (fun s i => withGang s i (fun b gi gg =>
    let x : BitVec 16 := (readUni gg.k id).setWidth 16
    if 16 ≤ gg.regions.length then .fault { cls := 23, cause := 3, w := [x.setWidth 64] }
    else
      let s1 := regionRecord (modGang s i.blk gi (fun g => { g with regions := x :: g.regions })) i.blk gi 3 i.addr
      if isStopId s b.ctx x then
        .placed (modGang (debugStop s1 i.blk gi i.addr i.insn gg.live i.len false) i.blk gi (fun g => { g with parked := g.live }))
      else .done s1)))

/-- Whether a capture has a gang stop at an accidental mismatch (R370, option bit 2); the fault follows when it is released
(DESIGN CHOICE, log 52). -/
def stopsOnMismatch (s : State) (ctx : Nat) : Bool :=
  (((getCtx s ctx).bind (fun c => c.capture)).map (fun c => c.opts / 4 % 2 == 1)).getD false

def execRgleave (g : Guard) (id : Src) (s : State) : Out :=
  .next (runGang s { guard := g, srcs := [id] } (fun s i => withGang s i (fun b gi gg =>
    let x : BitVec 16 := (readUni gg.k id).setWidth 16
    let top : BitVec 16 := (gg.regions.head?).getD 0
    let wrong := debugOn s b.ctx && (gg.regions.isEmpty || top != x)
    if (isStopId s b.ctx x || (wrong && stopsOnMismatch s b.ctx)) && !gg.stopNext then
      .placed (modGang (debugStop s i.blk gi i.addr i.insn gg.live 0 false) i.blk gi (fun g => { g with stopNext := true, parked := g.live }))
    else if wrong then
      .placed (raiseGang (modGang s i.blk gi (fun g => { g with stopNext := false })) i.blk gi 0 i.addr i.len i.insn gg.live
        { cls := 23, cause := 4, w := [x.setWidth 64, top.setWidth 64] })
    else
      let s1 := modGang s i.blk gi (fun g => { g with regions := g.regions.drop 1, stopNext := false })
      .done (regionRecord s1 i.blk gi 4 i.addr))))

/-! ### MONITOR and MWAIT (R311 to R313) -/

def execMonitor (g : Guard) (ka : BitVec 6) (off : Src) (s : State) : Out :=
  .next (runGang s { guard := g, srcs := [.k ka, off], mem := true } (fun s i => withGang s i (fun b gi gg =>
    let va := readUni gg.k (.k ka) + readUni gg.k off
    match gaugePlace s b .watch .page va with
    | .error f => .fault f
    | .ok l => orMiss s b i.party va (.done (modGang s i.blk gi (fun g => { g with watch := { va := va, loc := l, armed := true } }))))))

def execMonitorClr (g : Guard) (s : State) : Out :=
  .next (runGang s { guard := g, srcs := [] } (fun s i => withGang s i (fun _ gi _ =>
    .done (modGang s i.blk gi (fun g => { g with watch := { g.watch with armed := false } })))))

/-- What MWAIT returns at once, and the watch after it; none: it parks. -/
def mwaitNow (w : Watch) : Option (W64 × Watch) :=
  if w.restored then some (1, { w with restored := false })
  else if w.triggered then some (0, { w with armed := false, triggered := false })
  else if !w.armed then some (2, w)
  else none

def execMwait (g : Guard) (kd : BitVec 6) (s : State) : Out :=
  .next (runGang s { guard := g, srcs := [], kdst := [kd], swap := true } (fun s i => withGang s i (fun _ gi gg =>
    match mwaitNow gg.watch with
    | some (x, w) => .done (setK (modGang s i.blk gi (fun g => { g with watch := w })) i.blk i.party kd x)
    | none => .wait s (.mwait kd))))

/-! ### WAITC (R208) -/

def waitcMet (g : Gang) (c : WaitClass) (n : Nat) : Bool :=
  match c with
  | .ld => decide (classCount g 0 ≤ n)
  | .st => decide (classCount g 1 ≤ n)
  | .at => decide (classCount g 2 ≤ n)
  | .dr => decide (classCount g 3 ≤ n)
  | .all => [0, 1, 2, 3].all (fun c => decide (classCount g c ≤ n))

def execWaitc (g : Guard) (c : WaitClass) (n : Src) (s : State) : Out :=
  .next (runGang s { guard := g, srcs := [n], swap := true } (fun s i => withGang s i (fun _ _ gg =>
    let b := min 63 (readUni gg.k n).toNat
    if waitcMet gg c b then .done s else .wait s (.waitc c b))))

/-! ### GROW and SHRINK (R177 to R179, R207) -/

/-- Chunks that a block's gangs hold. -/
def Block.chunks (b : Block) : Nat := (b.gangs.map (fun (p : Nat × Gang) => if p.2.exited then 0 else p.2.alloc / 8)).foldl (· + ·) 0

/-- The least regshare of the regions on a chain, the root's among them (R325). -/
def minRegshare (c : Ctx) (a : W64) : Nat :=
  ((chainOf c a).map (fun r => (effRegion c r.addr).regshare)).foldl min c.rootRegion.regshare

/-- The allocation fault, with n. -/
def allocFault (n : W64) : Flt := { cls := 3, cause := 4, w := [n] }

/-- What GROW refuses: a size outside the kernel's, and one that can never be granted (R179, R207). -/
def growRefused (n : Src) (s : State) (i : Iss) : Option Flt :=
  match i.party, getBlk s i.blk with
  | .gang gi, some b =>
    let x := readUni (b.kOf i.party) n
    let r := x.toNat
    let alloc := ((sfind b.gangs gi).map (fun g => g.alloc)).getD 0
    let after := b.chunks + (r - alloc) / 8
    if r % 8 ≠ 0 ∨ r < 8 * b.kd.rmin ∨ 8 * b.kd.rmax < r then some (allocFault x)
    else if alloc < r ∧ (384 < after ∨ ((getCtx s b.ctx).map (fun c => decide (c.chunks < after ∨ minRegshare c b.region < after))).getD false) then
      some (allocFault x)
    else none
  | _, _ => none

def execGrow (g : Guard) (n : Src) (s : State) : Out :=
  .next (runGang s { guard := g, srcs := [n], swap := true, early := growRefused n } (fun s i => withGang s i (fun b gi gg =>
    let r := (readUni gg.k n).toNat
    if r ≤ gg.alloc then .done s
    else .wait (modCore s b.core (fun c => { c with growQ := c.growQ ++ [(b.id, gi)] })) (.grow r))))

/-- An operation whose destination has left the allocation writes no register (R178). -/
def OpBody.dropDst (n : Nat) (b : OpBody) : OpBody :=
  if (opNames b).any (fun i => decide (n ≤ i) && decide (i < oBase)) then
    match b with
    | .load t w (.lane _) acc a r => .load t w (.lane .none) acc a r
    | .atomic w _ l a r => .atomic w .none l a r
    | x => x
  else b

/-- Drops registers at or above n. -/
def dropRegs (g : Gang) (n : Nat) : Gang :=
  { g with v := g.v.filter (fun p => decide (p.1 < 64 * n)), alloc := n,
           ops := g.ops.map (fun o => { o with body := o.body.dropDst n }),
           badRegs := g.badRegs.filter (fun k => decide (k < 64 * n) || decide (64 * oBase ≤ k)) }

/-- What SHRINK refuses (R207). -/
def shrinkRefused (n : Src) (b : Block) (k : Store W64) : Option Flt :=
  if (readUni k n).toNat % 8 ≠ 0 ∨ (readUni k n).toNat < 8 * b.kd.rmin then some (allocFault (readUni k n)) else none

def execShrink (g : Guard) (n : Src) (s : State) : Out :=
  .next (runGang s { guard := g, srcs := [n], early := atBlk (shrinkRefused n) } (fun s i => withGang s i (fun _ gi gg =>
    let r := (readUni gg.k n).toNat
    if gg.alloc ≤ r then .done s
    else .done (modGang s i.blk gi (fun g => dropRegs g r)))))

end Sys2Proof.Machine
end

