-- ==== Sys2Proof/Machine/Fork.lean ====
section
/-! DEFINITION. Machine/Fork.lean: fork descriptors (05 R103), opening a fork (05 R104, R105, R110, R111, R121,
R132), its end (05 R116 to R120, R126), JOIN (05 R133), ABANDON (05 R135) and VIEW (05 R136). -/

namespace Sys2Proof.Machine

open Sys2Proof

/-! ### Fork descriptors (R103) -/

structure ForkDesc where
  entry : W64
  count : Nat
  tag : Nat
  wcount : Nat
  retry : Nat
  quota : Option Nat
  arg : W64
  gauge : W64
  gadd : W64
  frec : W64
  seed : W64
  wins : List (Nat × Nat)
  slots : W64
  slice : Nat
  homes : List Nat
  gx : Nat
  gy : Nat
  gz : Nat

/-- No two ranges overlap. -/
def disjointAll : List (Nat × Nat) → Bool
  | [] => true
  | x :: t => t.all (fun y => decide (x.1 + x.2 ≤ y.1) || decide (y.1 + y.2 ≤ x.1)) && disjointAll t

def isPow2 (n : Nat) : Bool := n != 0 && 2 ^ Nat.log2 n == n

/-- A descriptor within R103; none otherwise. -/
def parseFork (chip : Bool) (l : List Byte) : Option ForkDesc :=
  let n := fun o k => natAt l o k
  let wc := n 0x0D 1
  let hc := n 0x8C 1
  let d : ForkDesc :=
    { entry := w64At l 0, count := n 8 4, tag := n 0x0C 1, wcount := wc, retry := n 0x0E 1,
      quota := if n 0x0F 1 % 2 = 1 then some (n 0x10 8) else none, arg := w64At l 0x18, gauge := w64At l 0x20,
      gadd := w64At l 0x28, frec := w64At l 0x30, seed := w64At l 0x38,
      wins := (List.range wc).map (fun w => (n (0x40 + 16 * w) 8, n (0x48 + 16 * w) 8)),
      slots := w64At l 0x80, slice := n 0x88 4, homes := (List.range hc).map (fun i => n (0x90 + i) 1),
      gx := if chip then n 0xA0 4 else 1, gy := if chip then n 0xA4 2 else 1, gz := if chip then n 0xA6 2 else 1 }
  let chipOk := if chip then
      isPow2 d.slice && decide (65536 ≤ d.slice) && decide (d.slice ≤ 2 ^ 30) && decide (1 ≤ hc) && decide (hc ≤ 16)
        && d.homes.all (fun h => decide (h < 16)) && allZero l (0x90 + hc) (16 - hc) && allZero l 0x8D 3
        && decide (1 ≤ d.gx) && decide (d.gx < 2 ^ 31) && decide (1 ≤ d.gy) && decide (1 ≤ d.gz) && allZero l 0xA8 88
    else allZero l 0x80 128
  if d.entry.toNat % 32 = 0 ∧ 1 ≤ d.count ∧ d.count ≤ 65536 ∧ 1 ≤ wc ∧ wc ≤ 4 ∧ d.retry ≤ 15 ∧ n 0x0F 1 < 2
      ∧ d.quota.all (fun q => decide (64 ≤ q) && decide (q ≤ 2 ^ 32)) ∧ d.gauge.toNat % 8 = 0
      ∧ (d.gauge = 0 ∨ d.gadd ≠ 0) ∧ d.frec.toNat % 128 = 0
      ∧ allZero l (0x40 + 16 * wc) (64 - 16 * wc) ∧ chipOk then some d else none

/-- The windows of one fork as R101 has them. -/
def windowsOk (ws : List (Nat × Nat)) : Bool :=
  ws.all (fun w => w.1 % 32 == 0 && w.2 % 32 == 0 && decide (32 ≤ w.2) && decide (w.1 + w.2 ≤ 2 ^ 57)) && disjointAll ws

/-- Bytes of code that FORK reads with the ex permission (R132), with what the read leaves in the buffers and in L2. -/
def codeLoad (s : State) (ctx : Nat) (core : Option Nat) (v : View) (va : W64) (n : Nat) : Except LErr (State × List Byte) :=
  match transRun s ctx core .ex va n with
  | .error e => .error e
  | .ok l => match runPoison s v l with
    | some p => .error (p.va, 8, poisonCause p, 0)
    | none => .ok (runSeen s ctx core .ex va n, l.flatMap (fun p => locReadRun s v p.1 p.2))

/-! ### Windows (R101) -/

/-- The tracked runs of a window: mapped pages whose leaf has tracked = 1. -/
def windowSegs (s : State) (root : Nat) (base len : Nat) : List Seg :=
  (byPage (BitVec.ofNat 64 base) (len / 65536 + 2) len).filterMap (fun p =>
    match walk s false root p.1.toNat with
    | .fault _ _ => none
    | .leaf e lv =>
      if fld e 62 1 = 1 then
        some { pa := fld e 16 24 * 65536 + p.1.toNat % 2 ^ pageLog lv, len := p.2, va := p.1.toNat,
               redop := fld e 59 3, redtype := fld e 56 3, key := fld e 44 12 }
      else none)

/-- Dies that home a page of the windows (R56, R121): every page that is mapped to local memory. -/
def homeDies (s : State) (root : Nat) (ws : List (Nat × Nat)) : List Nat :=
  (ws.flatMap (fun w => (byPage (BitVec.ofNat 64 w.1) (w.2 / 65536 + 2) w.2).filterMap (fun p =>
    match walk s false root p.1.toNat with
    | .fault _ _ => none
    | .leaf e lv => if fld e 40 2 = 0 then some (homeDie (fld e 16 24 * 65536 + p.1.toNat % 2 ^ pageLog lv)) else none))).eraseDups

/-- Reservoir slots of a die: the parameter counts half gibibytes, a slot is 128 bytes (R121, R387). -/
def dieSlots (s : State) : Nat := s.dev.reservoir * 4194304

/-- Slices of a chip-scope fork (R128). -/
def forkSlices (size : Nat) (ws : List (Nat × Nat)) : List SliceSt :=
  (ws.zipIdx).flatMap (fun p => (List.range ((p.1.2 + size - 1) / size)).map (fun i => { win := p.2, slice := i }))

/-! ### Opening a fork -/

def scopeRank : ForkScope → Nat
  | .block => 0
  | .cluster => 1
  | .die => 2
  | .chip => 3

def tagHeld (s : State) (ctx t : Nat) : Bool := s.forks.any (fun f => f.ctx == ctx && f.held.contains t)

/-- Who opens a fork. -/
structure Opener where
  ctx : Nat
  view : View := []
  blk : Option Nat := none
  grid : Option Nat := none
  queue : Nat := 0
  packet : Bool := false
  level : Nat := 1
  region : W64 := 0
  core : Option Nat := none

/-- The entries of a slot table (R127); none when a reserved bit is set: a view violation of cause 4, as for a field of the
descriptor, after the reservation check (DESIGN CHOICE, log 55). -/
def parseSlots (l : List Byte) (n : Nat) : Option (List (Nat × Nat × Bool)) :=
  (List.range n).foldr (fun i acc =>
    let e := natAt l (2 * i) 2
    match acc with
    | some t => if e / 256 % 128 = 0 then some ((e % 16, e / 16 % 16, decide (2 ^ 15 ≤ e)) :: t) else none
    | none => none) (some [])

/-- The region node of a fork (R105): its quota when the descriptor gives one, else every field of its parent. -/
def forkRegionOf (fid : Nat) (parent : W64) (quota : Option Nat) : Region :=
  { addr := forkNode fid, parent := parent, imask := if quota.isSome then 16 else 0, quota := quota.getD 16777216 }

/-- Copies that a home keeps for a bucket's tag are void once the tag is opened again (R129). -/
def voidAccepted (s : State) (f : Fork) : State :=
  { s with accepted := s.accepted.map (fun a => if a.ctx == f.ctx && f.tags.contains a.tag then { a with void := true } else a) }

/-- Whether an outstanding operation of the context has yet to write inside a fork's windows: FORK takes effect after it. -/
def winPending (s : State) (f : Fork) : Bool :=
  s.blocks.any (fun b => b.ctx == f.ctx && b.gangs.any (fun (p : Nat × Gang) => p.2.ops.any (fun o =>
    !o.done && (o.cls == 1 || o.cls == 2)
      && (opTouches s b.id p.1 o).any (fun t => t.sp.isNone && t.loc.ap == 0 && (forkSeg f t.loc.addr).isSome))))

/-- Checks and opens a fork (R132): the fault, or the state with the fork and its name. -/
def openFork (s : State) (o : Opener) (sc : ForkScope) (ka : W64) : Except Flt (State × Nat) :=
  let view := fun (cause : Nat) => ({ cls := 17, cause := cause, va := ka } : Flt)
  if ka.toNat % 128 ≠ 0 then .error { cls := 5, va := ka, access := 1 }
  else match structLoad s o.ctx o.core o.view ka 256, getCtx s o.ctx with
    | .error e, _ => .error (lerrFlt 1 e)
    | _, none => .error (view 4)
    | .ok (s, l), some c => match parseFork (sc == .chip) l with
      | none => .error (view 4)
      | some d => match codeLoad s o.ctx o.core o.view (d.entry - 64) 64 with
        | .error e => .error (if o.packet then { cls := 3, cause := 7, va := d.entry - 64 } else lerrFlt 1 e)
        | .ok (s, kl) =>
          let launch : Flt := { cls := 3, cause := 7, va := d.entry - 64 }
          match parseKdesc kl with
          | none => .error launch
          | some kd =>
            let n := if sc = .chip then d.wcount else 1
            let wins := d.wins.map (fun w => ({ base := w.1, len := w.2, segs := windowSegs s c.root w.1 w.2 } : Window))
            let peers := s.forks.filter (fun f => !f.ended && f.ctx == o.ctx && f.parentView == o.view)
            let outer := o.view.head?.bind (fun x => getFork s x.1)
            let quota := d.quota.getD (effRegion c o.region).quota
            let dies := homeDies s c.root d.wins
            if kd.entry ≠ d.entry ∨ c.spillPlaces < kd.sd ∨ d.gx % kd.shape.2 ≠ 0 ∨ d.gy % kd.shape.1 ≠ 0 then .error launch
            else if (List.range n).any (fun i => tagHeld s o.ctx (d.tag + i)) then .error { cls := 18, cause := 2, va := ka }
            else if c.tags < d.tag + n then .error { cls := 18, cause := 3, va := ka }
            else if !windowsOk d.wins then .error (view 4)
            else if (match outer with
                | some f => d.wins.any (fun w => !f.wins.any (fun x => decide (x.base ≤ w.1) && decide (w.1 + w.2 ≤ x.base + x.len)))
                | none => false) then .error (view 2)
            else if (match outer with | some f => decide (scopeRank f.scope ≤ scopeRank sc) | none => false) then .error (view 3)
            else if peers.any (fun f => f.wins.any (fun x => d.wins.any (fun w =>
                decide (w.1 < x.base + x.len) && decide (x.base < w.1 + w.2)))) then .error { cls := 18, cause := 1, va := ka }
            else if dies.any (fun i => decide (dieSlots s < (getDie s i).reserved + quota)) then .error { cls := 20, cause := 2, va := ka }
            else match (if sc = .chip then
                (match structLoad s o.ctx o.core o.view d.slots (2 * d.count) with
                  | .error e => .error (lerrFlt 1 e)
                  | .ok (s, t) => match parseSlots t d.count with
                    | none => .error (view 4)
                    | some x => .ok (s, x)) else (.ok (s, []) : Except Flt (State × List (Nat × Nat × Bool)))) with
              | .error e => .error e
              | .ok (s, slots) =>
                let r := freshId s
                let f : Fork :=
                  { id := r.1, ctx := o.ctx, tag := d.tag, scope := sc, opener := o.blk, openerGrid := o.grid,
                    packetQueue := if o.packet then some o.queue else none, parentView := o.view, desc := ka, count := d.count,
                    retry := d.retry, quota := quota, arg := d.arg, gauge := d.gauge, gadd := d.gadd, frec := d.frec,
                    seed := d.seed, kd := kd, parentRegion := o.region, region := forkNode r.1, level := o.level, queue := o.queue,
                    wins := wins, slots := slots, sliceSize := d.slice, homes := d.homes, gx := d.gx, gy := d.gy, gz := d.gz,
                    children := (List.range d.count).map (fun i => { idx := i }), reserved := dies,
                    slices := if sc = .chip then forkSlices d.slice d.wins else [], order := s.pktOrder,
                    read := readOf s o.grid (if o.packet then some o.queue else none) }
                let s1 := voidAccepted (putRcb r.2 o.ctx (forkRegionOf r.1 o.region d.quota)) f
                .ok (dies.foldl (fun s i => modDie s i (fun x => { x with reserved := x.reserved + quota }))
                  { s1 with forks := s1.forks ++ [f], pktOrder := s.pktOrder + 1 }, r.1)

def execFork (g : Guard) (sc : ForkScope) (ka : BitVec 6) (s : State) : Out :=
  .next (runGang s { guard := g, srcs := [.k ka], mem := true, rel := true } (fun s i => withGang s i (fun b _ gg =>
    let o : Opener := { ctx := b.ctx, view := b.views, blk := some b.id, grid := some b.grid, queue := b.queue,
                        level := b.level, region := b.region, core := some b.core }
    orMisses s b i.party (match openFork s o sc (readUni gg.k (.k ka)) with
    | .error f => .fault f
    | .ok (s1, fid) => if ((getFork s1 fid).map (winPending s1)).getD false then .stall else .done s1))))

/-! ### The end of a fork (R116 to R119, R126) -/

/-- Cancels the children that are not merged, from index `lo` on (R112). -/
def cancelFrom (s : State) (f : Fork) (lo : Nat) : State :=
  (f.children.filter (fun c => decide (lo ≤ c.idx) && c.st != .merged && c.st != .cancelled)).foldl (fun s c =>
    let s := match c.st with
      | .unstarted => s
      | _ => stopChild s f.id c.idx
    modChild (modFork s f.id (fun f => dropVersions f c.idx)) f.id c.idx (fun x => { x with st := .cancelled })) s

/-- What a fork's failure does at a parent without a JOIN (R118): a packet's fork, at which every action except HALT
AND DUMP acts as NOTIFY. NOTIFY starts the domain's hgrid here, as R356 has it; at a JOIN the table of R118 gives it the gauge alone (DESIGN
CHOICE, log 56). -/
def packetForkFault (s : State) (f : Fork) : State :=
  let dom := regionOf s f.ctx f.parentRegion
  let rep : Report := { cls := f.report.cls, cause := f.report.cause, kind := 4, level := f.level, flags := if debugOn s f.ctx then 8 else 0,
                        ctx := f.ctx, va := f.report.va, tlevel := f.report.tlevel, w := f.report.w }
  let lg := logReport (countCtr s f.ctx 14 1) 8 f.ctx rep
  if dom.action = actHalt then haltCtx lg.1 f.ctx rep none f.parentRegion
  else gaugeAddLogged (startHgrid lg.1 8 f.ctx dom f.level f.queue (lg.2.getD 0)) 8 f.ctx [] dom.ngauge 1

/-- Whether a join of this status applies R118. -/
def joinFails (outcome : Nat) : Bool := outcome != 0 && outcome != 5

/-- Tags of a packet's fork are released as its buckets end: no JOIN names them (R111). -/
def dropTags (f : Fork) (ts : List Nat) : Fork := if f.opener.isNone then { f with tagsDone := f.tagsDone ++ ts } else f

/-- The end of a fork: record, release of its twins, gauge. -/
def endFork (s : State) (fid outcome merged : Nat) : State :=
  match getFork s fid with
  | none => s
  | some f =>
    if f.ended then s
    else
      let s := cancelFrom s f 0
      let s := modFork s fid (fun f => dropTags { f with ended := true, outcome := outcome, merged := merged } f.tags)
      let f := (getFork s fid).getD f
      let s := gaugeAddLogged (releaseFork (writeRecord s f outcome merged) f) 8 f.ctx f.parentView f.gauge f.gadd
      purgeForks (if f.opener.isNone && joinFails outcome then packetForkFault s f else s)

/-- Outcome, merged prefix count and flags of a tag. -/
def Fork.status (f : Fork) (t : Nat) : Nat × Nat × BitVec 5 :=
  if f.scope = .chip then
    let bs := f.bucket t
    let lowest := leastBy (fun (x : SliceSt) => x.merged) (bs.filter (fun x => x.outcome != 0))
    let o := (lowest.map (fun x => x.outcome)).getD (if f.ended then f.outcome else 0)
    (o, (bs.map (fun x => x.merged)).foldl min f.count, bs.foldl (fun a x => a ||| x.mflags) 0)
  else (f.outcome, f.merged, f.mflags)
/-- The fork as the record and the report of one of its tags name it: with that tag and, at chip scope, what its bucket's home
recorded of the failing child (R130). -/
def Fork.atTag (f : Fork) (t : Nat) : Fork :=
  if f.scope = .chip then
    match leastBy (fun (x : SliceFail) => x.child) ((f.bucket t).filterMap (fun x => x.fail)) with
    | none => { f with tag := t }
    | some x => { f with tag := t, failAt := some (x.child, (f.status t).1, x.report), report := x.report,
                         children := updFirst (fun c => c.idx == x.child) (fun c => { c with reruns := x.reruns, last := x.last }) f.children }
  else f
/-- The join status word (R120). -/
def statusWord (x : Nat × Nat × BitVec 5) : W64 := BitVec.ofNat 64 (x.1 + x.2.2.toNat * 2 ^ 8 + x.2.1 * 2 ^ 32)

/-- Releases a tag; a fork with no tag held any more is gone. -/
def releaseTag (s : State) (f : Fork) (t : Nat) : State :=
  purgeForks (modFork s f.id (fun f => { f with tagsDone := f.tagsDone ++ [t] }))

/-- R118 at the parent: `gi` is the joining gang, none at an implicit join. In handler mode it acts as KILL BLOCK (R357). -/
def joinFault (s : State) (b : Block) (gi : Option Nat) (f : Fork) (addr : W64) (insn : W128) : State :=
  let dom := regionOf s b.ctx f.parentRegion
  let base := mkReport s b gi false 4 addr insn { cls := f.report.cls, cause := f.report.cause, va := f.report.va, tlevel := f.report.tlevel, w := f.report.w }
  let lg := logReport (countCtr s b.ctx 14 1) (b.core / 64) b.ctx base
  let act := if base.flags % 2 = 1 then actKillBlock
    else if dom.action = actHandler ∧ (gi.isNone ∨ dom.handler = 0) then actNotify
    else dom.action
  let s := lg.1
  let s := if act = actHandler then match gi with
      | some i => modGang s b.id i (fun g => handlerEntry g dom.handler 0 0 base false)
      | none => s
    else if act = actKillBlock then killFor s b base false
    else if act = actKillGrid then killFor s b base true
    else if act = actHalt then haltCtx s b.ctx base (some b.id) f.parentRegion
    else s
  if act = actHalt then s else gaugeAddLogged s (b.core / 64) b.ctx [] dom.ngauge 1

def findTag (s : State) (b : Block) (t : Nat) : Option Fork :=
  s.forks.find? (fun f => f.ctx == b.ctx && f.opener == some b.id && f.held.contains t)

def execJoin (g : Guard) (kd : BitVec 6) (tag : Src) (s : State) : Out :=
  .next (runGang s { guard := g, srcs := [tag], kdst := [kd], swap := true, mem := true } (fun s i => withGang s i (fun b gi gg =>
    let t := (readUni gg.k tag).toNat
    match findTag s b t with
    | none => .fault { cls := 17, cause := 6 }
    | some f =>
      if !f.bucketEnded t then .wait s (.join t)
      else
        let st := f.status t
        let s1 := setK (modGang s i.blk gi (fun g => { g with fstat := g.fstat ||| st.2.2.setWidth 6 })) i.blk i.party kd (statusWord st)
        let s2 := jumpTo (releaseTag s1 f t) i.blk i.party (i.addr + BitVec.ofNat 64 i.len)
        .placed (if joinFails st.1 then (match getBlk s2 i.blk with
          | some b2 => joinFault s2 b2 (some gi) (f.atTag t) i.addr i.insn
          | none => s2) else s2))))

/-- The implicit joins of a block (R134): forks still open are waited for, ended ones joined in ascending tag order. -/
def openForks (s : State) (b : Block) : List Fork := s.forks.filter (fun f => f.ctx == b.ctx && f.opener == some b.id)
def allForksEnded (s : State) (b : Block) : Bool := (openForks s b).all (fun f => f.held.all (fun t => f.bucketEnded t))
def implicitJoins (s : State) (b : Block) : State :=
  let tags := (openForks s b).flatMap (fun f => f.held.map (fun t => (t, f.id)))
  (sortBy (fun (x y : Nat × Nat) => decide (x.1 ≤ y.1)) tags).foldl (fun s p =>
    match getFork s p.2, getBlk s b.id with
    | some f, some b =>
      if ctxHalted s b.ctx then s else
      let s1 := releaseTag s f p.1
      if joinFails (f.status p.1).1 then joinFault s1 b none (f.atTag p.1) 0 0 else s1
    | _, _ => s) s

/-! ### ABANDON -/

def execAbandon (g : Guard) (s : State) : Out :=
  .next (runGang s { guard := g, srcs := [] } (fun s i => withGang s i (fun b _ _ =>
    match b.views with
    | [] => .fault { cls := 17, cause := 5 }
    | (f, c) :: _ =>
      .placed (modChild (modFork (stopChild s f c) f (fun x => dropVersions x c)) f c (fun x => { x with ending := .abandoned })))))

/-! ### VIEW -/

def execViewInfo (g : Guard) (kd : BitVec 6) (s : State) : Out :=
  .next (runGang s { guard := g, srcs := [], kdst := [kd] } (fun s i => withGang s i (fun b _ _ =>
    .done (setK s i.blk i.party kd (BitVec.ofNat 64 (viewInfo s b))))))

/-- What one fork says of an address in its open windows: the kind of granule and the window. -/
def forkCovers (f : Fork) (ap pa va : Nat) : Option (Nat × Nat) :=
  let ws := f.wins.zipIdx.filter (fun p => f.winOpen p.2)
  match ws.find? (fun p => ap == 0 && p.1.segs.any (fun g => g.holds pa)) with
  | some p =>
    let red := ((p.1.segs.find? (fun g => g.holds pa)).map (fun g => g.redop)).getD 0
    some (if red = 0 then 1 else 2, p.2)
  | none => (ws.find? (fun p => decide (p.1.base ≤ va) && decide (va < p.1.base + p.1.len))).map (fun p => (3, p.2))

/-- The place of an address to which no access is made (R136): the walk and the aperture's own conditions. -/
def viewPlace (s : State) (ctx : Nat) (va : W64) : Option Loc :=
  match getCtx s ctx with
  | none => none
  | some c =>
    if 2 ^ 57 ≤ va.toNat then none
    else match walk s false c.root va.toNat with
      | .fault _ _ => none
      | .leaf e lv =>
        reach s c (fld e 12 4) { ap := fld e 40 2, addr := fld e 16 24 * 65536 + va.toNat % 2 ^ pageLog lv, key := fld e 44 12, va := va }

/-- The word of VIEW.addr. -/
def viewAddrWord (s : State) (b : Block) (va : W64) : W64 :=
  match viewPlace s b.ctx va with
  | none => 0x8000_0000_0000_0000
  | some l =>
    let own := (s.forks.filter (fun f => !f.ended && f.opener == some b.id && f.ctx == b.ctx)).map (fun f => (f, (none : Option Nat)))
    let enc := b.views.filterMap (fun x => (getFork s x.1).map (fun f => (f, some x.2)))
    match (own ++ enc).findSome? (fun p => (forkCovers p.1 l.ap l.addr va.toNat).map (fun k => (p.1, k))) with
    | none => 0
    | some (f, k) =>
      let holds := l.ap == 0 && (enc.find? (fun p => (forkSeg p.1 l.addr).isSome)).any (fun p =>
        (verOf p.1 (p.2.getD 0) (l.addr / 32)).isSome)
      BitVec.ofNat 64 (k.1 + (if holds then 4 else 0) + k.2 * 16
        + (f.tag + if f.scope = .chip then k.2 else 0) % 256 * 256)

def execViewAddr (g : Guard) (kd : BitVec 6) (ka : BitVec 6) (off : Src) (s : State) : Out :=
  .next (runGang s { guard := g, srcs := [.k ka, off], kdst := [kd] } (fun s i => withGang s i (fun b _ gg =>
    .done (setK s i.blk i.party kd (viewAddrWord s b (readUni gg.k (.k ka) + readUni gg.k off))))))

end Sys2Proof.Machine
end

