-- ==== Sys2Proof/Machine/Parcels.lean ====
section
/-! DEFINITION. Machine/Parcels.lean: scale groups, parcels and terraces (04 R89 to R98), quantisation (08 R222,
09 R247), and the sum order of the matrix array (04 R99, R100). -/

namespace Sys2Proof.Machine

open Sys2Proof

/-- Element format of a group parcel code (R91). -/
def parcelFmt : Nat → Option Fmt
  | 0x10 => some .e4m3 | 0x11 => some .e5m2 | 0x12 => some .s8 | 0x20 => some .e3m2 | 0x21 => some .e2m3
  | 0x30 => some .e2m1 | 0x31 => some .s4 | _ => none
/-- The parcel code of an element format (R91). -/
def parcelCode : Fmt → Nat
  | .e4m3 => 0x10 | .e5m2 => 0x11 | .s8 => 0x12 | .e3m2 => 0x20 | .e2m3 => 0x21 | .e2m1 => 0x30 | _ => 0x31

/-- Offset of the scale byte of group g (R90). -/
def groupOff (w g : Nat) : Nat := 2 + g * (1 + 3 * w)

/-- The checks of a group parcel, on bytes 0 and 1 (R94): the cause of the format fault. -/
def parcelFault (code n : Nat) (want : Option Fmt) : Option Nat :=
  if code = 0 then none
  else match parcelFmt code with
    | none => if 0x40 ≤ code ∧ code ≤ 0x48 then some 3 else some 1
    | some f =>
      if n = 0 ∨ f.groups < n then some 2
      else match want with
        | none => none
        | some e => if e = f then none else some 4

/-- Scale and element codes of group g; zeros with scale 0x7F where the parcel gives none (R93). -/
def parcelGroup (l : List Byte) (g : Nat) : Nat × (Nat → Nat) :=
  match parcelFmt (natAt l 0 1) with
  | none => (0x7F, fun _ => 0)
  | some f =>
    if natAt l 1 1 ≤ g ∨ f.groups ≤ g then (0x7F, fun _ => 0)
    else
      let o := groupOff f.width g
      let bits := natAt l (o + 1) (3 * f.width)
      (natAt l o 1, fun j => bits / 2 ^ (f.width * j) % 2 ^ f.width)

/-- The exact value of an element code, integers included. -/
def elemVal (f : Fmt) (c : Nat) : FVal := if f.isIntF then ofSInt false (sx f.width c) 0 else unpackF f c
/-- A value times 2^(scale − 127); scale 0xFF is NaN (R82, R89). -/
def scaled (v : FVal) (sc : Nat) : FVal :=
  if sc = 255 then .nan
  else match v with
    | .fin s m e => .fin s m (e + (sc : Int) - 127)
    | v => v

/-- Replaces bytes of a list. -/
def setBytes (l : List Byte) (o : Nat) (bs : List Byte) : List Byte := l.take o ++ bs ++ l.drop (o + bs.length)

/-- Writes group g into a parcel image: byte 0, scale and elements (R90, R92). -/
def putGroup (l : List Byte) (f : Fmt) (g sc : Nat) (cs : List Nat) : List Byte :=
  let bits := (cs.zipIdx).foldl (fun a p => a + p.1 % 2 ^ f.width * 2 ^ (f.width * p.2)) 0
  setBytes (setBytes l 0 (le 1 (parcelCode f))) (groupOff f.width g) (le 1 sc ++ le (3 * f.width) bits)

/-! ### Terraces (R96, R97) -/

/-- The checks of a terrace at depth d: offset of the parcel at fault and the cause. `rd` reads byte i. -/
def terraceFault (rd : Nat → Nat) (d : Nat) : Option (Nat × Nat) :=
  let G := rd 1
  if rd 0 ≠ 0x48 ∨ G < 1 ∨ 40 < G ∨ rd 2 < 1 ∨ 8 < rd 2 then some (0, 5)
  else if rd 2 < d then some (0, 6)
  else ((List.range d).find? (fun p => rd (128 * (1 + p)) != 0x40 + p || rd (128 * (1 + p) + 1) != G)).map
    (fun p => (128 * (1 + p), 7))

/-- The integer v of element j of group g at depth d, and the group's scale; 0 with scale 0x7F beyond the count. -/
def terraceElem (rd : Nat → Nat) (d g j : Nat) : Int × Nat :=
  if rd 1 ≤ g then (0, 0x7F)
  else
    let e := 24 * g + j
    let t := (List.range d).foldl (fun t p => 2 * t + rd (128 * (1 + p) + 2 + e / 8) / 2 ^ (e % 8) % 2) 0
    let q := sx d t
    (if d < 8 then q * ((2 ^ (8 - d) : Nat) : Int) + ((2 ^ (7 - d) : Nat) : Int) else q, rd (3 + g))

/-! ### Quantisation (R222, R247) -/

/-- Exponent of the largest finite value (R222). -/
def emaxOf : Fmt → Int
  | .e4m3 => 8 | .e5m2 => 15 | .e3m2 => 4 | .e2m3 => 2 | .e2m1 => 2 | .s8 => 6 | _ => 2

/-- floor(log2 |x|), infinities as the largest finite f32; none for zero. -/
def floorLog : FVal → Option Int
  | .inf _ => some 127
  | .fin _ m e => if m = 0 then none else some (e + ((bitLen m : Nat) : Int) - 1)
  | .nan => none

/-- The shared exponent byte of a group (R222). -/
def groupScale (f : Fmt) (xs : List FVal) : Nat :=
  if xs.any (fun x => x.isNan) then 255
  else
    let m := xs.foldl (fun a x => match a, floorLog x with
      | none, y => y
      | x, none => x
      | some x, some y => some (max x y)) (none : Option Int)
    match m with
    | none => 0
    | some x => (max (-127) (x - emaxOf f) + 127).toNat

/-- A value rounded into an element format, saturated: s8 and s4 clamp with IS and NX (R222). -/
def quantElem (f : Fmt) (r : Rnd) (u : Nat) (v : FVal) : Nat × Flags :=
  if f.isIntF then
    match v with
    | .nan => (0, 0)
    | .inf s => (wrap f.width (if s then intMin true f.width else intMax true f.width), flIS ||| flNX)
    | .fin s m e =>
      let x := roundInt r u s m e
      let c := clampInt true f.width x.1
      (wrap f.width c.1, if c.2 then flIS ||| flNX else if x.2 then flNX else 0)
  else roundF f r u { sat := true } v

/-- Element l of a quantised group with the shared scale. -/
def quantAt (f : Fmt) (r : Rnd) (u sc : Nat) (x : FVal) : Nat × Flags :=
  if sc = 255 then (0, 0)
  else quantElem f r u (match x with | .fin s m e => .fin s m (e - ((sc : Int) - 127)) | v => v)

/-! ### The matrix sum order (R99, R100) -/

/-- Exact products and their sum over one group; the flag is the NV of a NaN made from other values. -/
def groupSum (ps : List (FVal × FVal)) : FVal × Flags :=
  if ps.any (fun p => p.1.isNan || p.2.isNan) then (.nan, 0)
  else
    let xs := ps.map (fun p => (mulV p.1 p.2).1)
    if xs.any (fun x => x.isNan) then (.nan, flNV)
    else
      let pos := xs.any (fun x => x == .inf false)
      let neg := xs.any (fun x => x == .inf true)
      if pos && neg then (.nan, flNV)
      else if pos then (.inf false, 0)
      else if neg then (.inf true, 0)
      else
        let q := xs.foldl (fun a x => match x with | .fin _ m e => if m = 0 then a else min a e | _ => a) (0 : Int)
        let s := xs.foldl (fun a x => match x with
          | .fin s m e => if m = 0 then a else a + sInt s (m * 2 ^ (e - q).toNat)
          | _ => a) (0 : Int)
        let allMinus := xs.all (fun x => match x with | .fin s m _ => s && m == 0 | _ => false)
        (ofSInt allMinus s q, 0)

/-- One float group added to an accumulator word (R99). Under scale 0xFF every element is a NaN input, which raises no flag
(R88, R89). -/
def accFloat (acc : Nat) (ps : List (FVal × FVal)) (sa sw : Nat) : Nat × Flags :=
  let s : FVal × Flags := if sa = 255 ∨ sw = 255 then (.nan, 0) else groupSum ps
  let v := scaled (scaled s.1 sa) sw
  let r1 := roundF .f32 .rne 0 {} v
  let a := addV .rne (unpackF .f32 acc) (unpackF .f32 r1.1)
  let r2 := roundF .f32 .rne 0 {} a.1
  (r2.1, s.2 ||| r1.2 ||| a.2 ||| r2.2)

/-- One integer group added with saturation (R100). -/
def accInt (acc : Nat) (ps : List (Int × Int)) : Nat × Flags :=
  let c := clampInt true 32 (sx 32 acc + ps.foldl (fun a p => a + p.1 * p.2) 0)
  (wrap 32 c.1, if c.2 then flIS else 0)

end Sys2Proof.Machine
end

