-- ==== Sys2Proof/Machine/Matrix.lean ====
section
/-! DEFINITION. Machine/Matrix.lean: the matrix array (09 R237 to R268). -/

namespace Sys2Proof.Machine

open Sys2Proof

/-! ### Faults (R257) -/

def gateFlt (cause : Nat) : Flt := { cls := 11, cause := cause }
def typeFlt (cause : Nat) : Flt := { cls := 10, cause := cause }
def misFlt (access : Nat) (a : Nat) : Flt := { cls := 5, access := access, va := BitVec.ofNat 64 a }

/-- Whether a gang holds the gate, and whether it claims a bank. -/
def holdsTheGate (s : State) (i : Iss) (b : Block) : Bool :=
  match i.party with
  | .gang g => holdsGate s b g
  | .feeder => false
def claims (s : State) (b : Block) (gi : Nat) (bk : Bool) : Bool := (getBank (getCore s b.core) bk).claim == some (b.id, gi)

/-- A gang-issued matrix instruction. -/
def runMatrix (s : State) (d : GangDesc) (f : State → Iss → Block → Nat → Gang → GRes) : Out :=
  .next (runGang s d (fun s i => withGang s i (f s i)))

/-! ### Scratchpad operands -/

/-- Range and poison of byte runs in the block's scratchpad: the first failing run. -/
def runsRange (b : Block) (access : Nat) (l : List (Nat × Nat)) : Option Flt :=
  (l.find? (fun p => decide (b.kd.scratch < p.1 + p.2))).map
    (fun p => { cls := 3, cause := 2, access := access, va := BitVec.ofNat 64 p.1 })
def runsPoison (b : Block) (l : List (Nat × Nat)) : Option Flt :=
  (l.find? (fun p => spBad b p.1 p.2)).map (fun p => { cls := 8, cause := 3, access := 1, va := BitVec.ofNat 64 p.1 })

/-- The gang's own accesses under way to byte runs of its scratchpad (STC, LDC of its own core): they come before (R271, R276). -/
def runsOwed (s : State) (b : Block) (gi : Nat) (gg : Gang) (l : List (Nat × Nat)) : Bool :=
  spPending gg && touchPending s b.id gi gg (l.map (fun p => { lane := none, sp := some b.id, loc := spLoc p.1, n := p.2 }))

/-- A format fault at a parcel: its address, and its first two bytes. -/
def formatFlt (b : Block) (a cause : Nat) : Flt :=
  let w := fun i => BitVec.ofNat 64 (sget 0 b.scratch (a + i)).toNat
  { cls := 9, cause := cause, access := 1, va := BitVec.ofNat 64 a, w := [w 0, w 1] }

/-- The format check of one group parcel. -/
def parcelCheck (b : Block) (f : Fmt) (a : Nat) : Option Flt :=
  (parcelFault (sget 0 b.scratch a).toNat (sget 0 b.scratch (a + 1)).toNat (some f)).map (formatFlt b a)

/-- The code of element k of a bare run. -/
def bareCode (b : Block) (f : Fmt) (a k : Nat) : Nat := natOf (spRead b (a + k * (f.width / 8)) (f.width / 8))

/-- Parcels of one row or column at a: one in a 4-bit format; two in an 8-bit one, the second from group 5 on. -/
def parcelRuns (f : Fmt) (a groups : Nat) : List Nat :=
  if f.width = 8 ∧ 5 < groups then [a, a + 128] else [a]
/-- Scale and codes of group g of a row or column of parcels (R242, R243). -/
def rowGroup (b : Block) (f : Fmt) (a g : Nat) : Nat × (Nat → Nat) :=
  if f.width = 8 ∧ 5 ≤ g then parcelGroup (spRead b (a + 128) 128) (g - 5) else parcelGroup (spRead b a 128) g

/-- Under a false guard only the privilege faults of a matrix instruction are raised (R44 item 7); under a true one its checks
come in the order of R257. -/
def idlePrivilege (g : Guard) (f : Block → Store W64 → Option Flt) (s : State) (i : Iss) : Option Flt :=
  if guardUni (partyQ s i.blk i.party) g then none else (atBlk f s i).filter (fun e => e.cls == 3)

/-! ### MLDW (R242, R259) -/

/-- Codes and scales of a tile from its columns: `col n` gives, for each group, its scale and its 24 codes. -/
def planeOf (f : Fmt) (parcel : Bool) (depth : Nat) (col : Nat → Nat → Nat × (Nat → Nat)) : Plane :=
  { fmt := f, parcel := parcel, depth := depth,
    w := (List.range 192).flatMap (fun n => (List.range 8).flatMap (fun g =>
      let x := col n g
      (List.range 24).filterMap (fun j =>
        let v : W32 := BitVec.ofNat 32 (x.2 j)
        if v = 0 then none else some (192 * n + 24 * g + j, v)))),
    scale := (List.range 192).flatMap (fun n => (List.range 8).filterMap (fun g =>
      let sc := (col n g).1
      if sc = 0 then none else some (8 * n + g, sc))) }

/-- MLDW of one form: alignment and operand sizes, ranges read, format check, the tile. -/
def mldwBody (s : State) (i : Iss) (b : Block) (owed : Bool) (early : Option Flt) (runs : List (Nat × Nat)) (fmtBad : Unit → Option Flt)
    (tile : Unit → Plane) : GRes :=
  if owed then .stall
  else if !holdsTheGate s i b then .fault (gateFlt 1)
  else match early with
    | some f => .fault f
    | none => match runsRange b 1 runs with
      | some f => .fault f
      | none => match runsPoison b runs with
        | some f => .fault f
        | none => match fmtBad () with
          | some f => .fault f
          | none => .done (modCore s b.core (fun c => { c with shadow := some (tile ()) }))

/-- The first fault over a list of checks. -/
def firstFault {α : Type} (f : α → Option Flt) : List α → Option Flt
  | [] => none
  | x :: t => match f x with
    | some e => some e
    | none => firstFault f t

def mldwSrcs : MldwSpec → List Src
  | .bare _ ka => [.k ka]
  | .par _ ka => [.k ka]
  | .ter ka tp _ => [.k ka, tp]

/-- Scratchpad address of a matrix operand. -/
def spAddr (k : Store W64) (ka : BitVec 6) : Nat := (readUni k (.k ka)).toNat % 2 ^ 32
/-- Bytes that a column of parcels takes. -/
def colBytes (f : Fmt) : Nat := if f.width = 8 then 256 else 128

/-- The runs of scratchpad that MLDW reads. -/
def mldwRuns (m : MldwSpec) (k : Store W64) : List (Nat × Nat) :=
  match m with
  | .bare f ka => [(spAddr k ka, 36864 * (f.width / 8))]
  | .par f ka => [(spAddr k ka, 192 * colBytes f)]
  | .ter ka tp dm1 => (List.range 39).map (fun t => (spAddr k ka + t * (readUni k tp).toNat, 128 * (2 + dm1.toNat)))

/-- A terrace pitch below its parcels (R259). -/
def pitchLow (m : MldwSpec) (k : Store W64) : Option Flt :=
  match m with
  | .ter _ tp dm1 => if (readUni k tp).toNat < 128 * (2 + dm1.toNat) then some { cls := 3, cause := 5 } else none
  | _ => none

/-- Alignment and operand sizes of MLDW, in their order. -/
def mldwOperands (m : MldwSpec) (k : Store W64) : Option Flt :=
  let ka := match m with | .bare _ x => x | .par _ x => x | .ter x _ _ => x
  if spAddr k ka % 128 ≠ 0 then some (misFlt 1 (spAddr k ka))
  else match m with
    | .ter _ tp _ => if (readUni k tp).toNat % 128 ≠ 0 then some (misFlt 1 (readUni k tp).toNat) else pitchLow m k
    | _ => none

def mldwPrivilege (m : MldwSpec) (b : Block) (k : Store W64) : Option Flt :=
  (pitchLow m k).orElse (fun _ => runsRange b 1 (mldwRuns m k))

def execMldw (g : Guard) (m : MldwSpec) (s : State) : Out :=
  runMatrix s { guard := g, srcs := mldwSrcs m, mem := true, early := idlePrivilege g (mldwPrivilege m) } (fun s i b gi gg =>
    let go := mldwBody s i b (runsOwed s b gi gg (mldwRuns m gg.k)) (mldwOperands m gg.k) (mldwRuns m gg.k)
    match m with
    | .bare f ka =>
      let a := spAddr gg.k ka
      go (fun _ => none) (fun _ => planeOf f false 8 (fun n g => (0x7F, fun j => bareCode b f a (192 * n + 24 * g + j))))
    | .par f ka =>
      let a := spAddr gg.k ka
      go (fun _ => firstFault (parcelCheck b f) ((List.range 192).flatMap (fun n => parcelRuns f (a + colBytes f * n) 8)))
        (fun _ => planeOf f true 8 (fun n g => rowGroup b f (a + colBytes f * n) g))
    | .ter ka tp dm1 =>
      let a := spAddr gg.k ka
      let d := dm1.toNat + 1
      let pitch := (readUni gg.k tp).toNat
      let rd := fun t i => (sget 0 b.scratch (a + t * pitch + i)).toNat
      go (fun _ => firstFault (fun t => (terraceFault (rd t) d).map (fun x => formatFlt b (a + t * pitch + x.1) x.2)) (List.range 39))
        (fun _ => planeOf .terrace true d (fun n g =>
          let e := fun j => terraceElem (rd (n / 5)) d (8 * (n % 5) + g) j
          ((e 0).2, fun j => wrap 32 (e j).1))))

/-! ### MSWAP (R260) -/

def execMswap (g : Guard) (s : State) : Out :=
  runMatrix s { guard := g, srcs := [] } (fun s i b _ _ =>
    if !holdsTheGate s i b then .fault (gateFlt 1)
    else .done (modCore s b.core (fun c => { c with active := c.shadow, shadow := c.active })))

/-! ### MSTR (R243 to R245, R261) -/

/-- The bank type of a pair of R244: whether it is s32; none when the pair is absent. -/
def pairType (par : Bool) (f : Fmt) (p : Plane) : Option Bool :=
  let e8 := fun (x : Fmt) => x == .e4m3 || x == .e5m2
  if p.fmt = .terrace then (if f = .e4m3 ∨ (f = .bf16 ∧ !par) then some false else none)
  else if !p.parcel then (if !par ∧ f = p.fmt ∧ (f = .bf16 ∨ f = .f16 ∨ f = .f32) then some false else none)
  else if e8 f ∧ e8 p.fmt then some false
  else if p.fmt = .e2m1 ∧ (f = .e2m1 ∨ f = .e4m3) then some false
  else if (f = .s8 ∨ f = .s4) ∧ f = p.fmt then some true
  else none

/-- The exact weight of a plane. -/
def Plane.weight (p : Plane) (n k : Nat) : FVal :=
  let c := (sget 0 p.w (192 * n + k)).toNat
  if p.fmt = .terrace then ofSInt false (sx 32 c) 0 else elemVal p.fmt c

/-- One activation row: for each group its scale and its 24 codes. -/
abbrev ActRow := List (Nat × List Nat)

/-- An element of the accumulator after one row's groups, with flags (R99, R100). -/
def accElem (p : Plane) (f : Fmt) (int : Bool) (n : Nat) (row : ActRow) (acc : Nat) : Nat × Flags :=
  (row.zipIdx).foldl (fun (a : Nat × Flags) x =>
    let g := x.2
    let r := if int then accInt a.1 ((x.1.2.zipIdx).map (fun e =>
          (sx f.width e.1, sx f.width (sget 0 p.w (192 * n + 24 * g + e.2)).toNat)))
      else accFloat a.1 ((x.1.2.zipIdx).map (fun e => (elemVal f e.1, p.weight n (24 * g + e.2)))) x.1.1 (sget 0 p.scale (8 * n + g))
    (r.1, a.2 ||| r.2)) (acc, 0)

/-- The rows of an MSTR accumulated into a bank. -/
def accRows (p : Plane) (f : Fmt) (int : Bool) (rows : List (Nat × ActRow)) (k : Bank) : Bank :=
  rows.foldl (fun k r => (List.range 192).foldl (fun (k : Bank) n =>
    let x := accElem p f int n r.2 (sget 0 k.acc (192 * r.1 + n)).toNat
    { k with acc := sset 0 k.acc (192 * r.1 + n) (BitVec.ofNat 32 x.1), flags := k.flags ||| x.2 }) k) k

/-- Array cycles of 128 rows of 8 groups (R245). -/
def strCycles (f : Fmt) : Nat := if f.width = 4 then 64 else if f.width = 8 then 128 else if f.width = 16 then 256 else 1024

/-- Rows that the participants supply: lane, row, address. -/
def mstrRows (g : Gang) (gt : Mask) (va : Src) : List (Nat × Nat × Nat) :=
  (lanesOf gt).flatMap (fun l =>
    let x := readSrc g l (.int 64) va
    [(l, l, x % 2 ^ 32), (l, l + 64, x / 2 ^ 32)].filter (fun r => r.2.2 != 0xFFFF_FFFF))

/-- The bytes of groups 0 to G − 1 of the row at r: all that MSTR reads of it; of a parcel, its code and count too (R90, R243). -/
def rowRuns (par : Bool) (f : Fmt) (groups r : Nat) : List (Nat × Nat) :=
  if !par then [(r, 24 * groups * (f.width / 8))]
  else if f.width = 8 ∧ 5 < groups then [(r, groupOff 8 5), (r + 128, groupOff 8 (groups - 5))]
  else [(r, groupOff f.width groups)]

/-- A class of checks over the supplied rows: the lowest lane's cause and address, the mask of all. -/
def rowFault (cls : Nat) (rows : List (Nat × Nat × Nat)) (bad : Nat → Option (Nat × Nat)) (w : Nat → List W64) : Option Flt :=
  let l := sortBy (fun (x y : Nat × Nat × Nat) => decide (x.1 ≤ y.1))
    (rows.filterMap (fun r => (bad r.2.2).map (fun c => (r.1, c.1, c.2))))
  match l with
  | [] => none
  | x :: _ => some { cls := cls, cause := x.2.1, lanes := maskOfList (l.map (·.1)), access := 1,
                     va := BitVec.ofNat 64 x.2.2, w := w x.2.2 }

def execMstr (g : Guard) (par : Bool) (f : Fmt) (bank : Bool) (va : Src) (gm1 : BitVec 3) (s : State) : Out :=
  .next (runMem s { guard := g, srcs := [(va, 2)], wide := true, mem := true } (fun s b gi gg gt =>
    let c := getCore s b.core
    let G := gm1.toNat + 1
    if c.gate ≠ some (b.id, gi) then .fault (gateFlt 1)
    else if (getBank c bank).claim ≠ some (b.id, gi) then .fault (gateFlt 2)
    else match c.active with
      | none => .fault (typeFlt 3)
      | some p => match pairType par f p with
        | none => .fault (typeFlt 1)
        | some int =>
          if (getBank c bank).s32 ≠ int then .fault (typeFlt 2)
          else
            let rows := mstrRows gg gt va
            let al := if par then 128 else 16
            let beyond := fun (r : Nat) => (rowRuns par f G r).any (fun p => decide (b.kd.scratch < p.1 + p.2))
            let none1 : Nat → List W64 := fun _ => []
            let checks : List (Unit → Option Flt) := [
              fun _ => rowFault 5 rows (fun r => if r % al = 0 then none else some (0, r)) none1,
              fun _ => rowFault 3 rows (fun r => if beyond r then some (2, r) else none) none1,
              fun _ => rowFault 8 rows (fun r => if (rowRuns par f G r).any (fun p => spBad b p.1 p.2) then some (3, r) else none) none1,
              fun _ => if !par then none else rowFault 9 rows (fun r =>
                (firstFault (parcelCheck b f) (parcelRuns f r G)).map (fun e => (e.cause, e.va.toNat)))
                (fun a => (formatFlt b a 0).w)]
            match firstFault (fun k => k ()) checks with
            | some e => .fault e
            | none =>
              let acts := rows.map (fun r => (r.2.1, (List.range G).map (fun g =>
                if par then let x := rowGroup b f r.2.2 g; (x.1, (List.range 24).map x.2)
                else (0x7F, (List.range 24).map (fun j => bareCode b f r.2.2 (24 * g + j))))))
              .ok (modCore (modBank s b.core bank (accRows p f int acts)) b.core
                (fun c => { c with busy := c.busy + strCycles f * rows.length * G / 1024 }))))

/-! ### MZERO (R262) -/

def execMzero (g : Guard) (s32 : Bool) (bank : Bool) (s : State) : Out :=
  runMatrix s { guard := g, srcs := [] } (fun s i b gi _ =>
    let cl := (getBank (getCore s b.core) bank).claim
    if !holdsTheGate s i b then .fault (gateFlt 1)
    else if cl.isSome && cl != some (b.id, gi) then .fault (gateFlt 3)
    else .done (modBank s b.core bank (fun _ => { claim := some (b.id, gi), s32 := s32 })))

/-! ### MDRAIN (R246 to R249, R263) -/

/-- Whether a drain format is paired with a bank type. -/
def drainPair (f : Fmt) (s32 : Bool) : Bool :=
  match f with
  | .f32 => true
  | .s32 => s32
  | .s8 => true
  | _ => !s32

/-- Bytes per row and alignment. -/
def drainRow (f : Fmt) : Nat × Nat :=
  match f with
  | .f32 => (768, 16)
  | .s32 => (768, 16)
  | .bf16 => (384, 16)
  | .e2m1 => (128, 128)
  | _ => (256, 128)

/-- The value of an accumulator element. -/
def accVal (s32 : Bool) (x : W32) : FVal := if s32 then ofSInt false (sx 32 x.toNat) 0 else unpackF .f32 x.toNat

/-- Column group h of a row quantised into an image. -/
def drainGroup (f : Fmt) (xs : List FVal) (at_ h : Nat) (acc : List Byte × Flags) : List Byte × Flags :=
  let x := (xs.drop (24 * h)).take 24
  let sc := groupScale f x
  let q := x.map (fun v => quantAt f .rne 0 sc v)
  (putGroup acc.1 f at_ sc (q.map (·.1)), q.foldl (fun a y => a ||| y.2) acc.2)

/-- A parcel of column groups with its valid count. -/
def drainParcel (f : Fmt) (xs : List FVal) (hs : List Nat) : List Byte × Flags :=
  let r := (hs.zipIdx).foldl (fun a p => drainGroup f xs p.2 p.1 a) (zeros 128, 0)
  (setBytes r.1 1 (le 1 hs.length), r.2)

/-- One drained row with the flags of its conversion (R247). -/
def drainBytes (f : Fmt) (s32 : Bool) (row : List W32) : List Byte × Flags :=
  let xs := row.map (accVal s32)
  let conv := fun (e : Fmt) => row.foldl (fun (a : List Byte × Flags) x =>
    let r := roundF e .rne 0 {} (accVal s32 x)
    (a.1 ++ le (e.width / 8) r.1, a.2 ||| r.2)) ([], 0)
  match f with
  | .s32 => (row.flatMap (fun x => le 4 x.toNat), 0)
  | .f32 => if s32 then conv .f32 else (row.flatMap (fun x => le 4 x.toNat), 0)
  | .bf16 => conv .bf16
  | .e2m1 => drainParcel .e2m1 xs (List.range 8)
  | e =>
    let p0 := drainParcel e xs (List.range 5)
    let p1 := drainParcel e xs [5, 6, 7]
    (p0.1 ++ p1.1, p0.2 ||| p1.2)

/-- The runs of scratchpad that MDRAIN writes. -/
def drainRuns (f : Fmt) (ka : BitVec 6) (pitch : Src) (nr : Nat) (k : Store W64) : List (Nat × Nat) :=
  (List.range nr).map (fun m => (spAddr k ka + m * (readUni k pitch).toNat, (drainRow f).1))

/-- A pitch below the row's bytes (R246). -/
def drainPitchLow (f : Fmt) (pitch : Src) (k : Store W64) : Option Flt :=
  if (readUni k pitch).toNat < (drainRow f).1 then some { cls := 3, cause := 5 } else none
/-- MDRAIN.coop without a binding (R263). -/
def coopUnbound (coop : Bool) (b : Block) : Option Flt := if coop && b.coop.isNone then some { cls := 3, cause := 3 } else none

def drainPrivilege (coop : Bool) (f : Fmt) (ka : BitVec 6) (pitch : Src) (nr : Nat) (b : Block) (k : Store W64) : Option Flt :=
  (drainPitchLow f pitch k).orElse (fun _ => (runsRange b 2 (drainRuns f ka pitch nr k)).orElse (fun _ => coopUnbound coop b))

def execMdrain (g : Guard) (rel coop : Bool) (f : Fmt) (bank : Bool) (ka : BitVec 6) (pitch : Src) (nrm1 : BitVec 7) (s : State) : Out :=
  runMatrix s { guard := g, srcs := [.k ka, pitch], mem := true,
                early := idlePrivilege g (drainPrivilege coop f ka pitch (nrm1.toNat + 1)) } (fun s i b gi gg =>
    let k := getBank (getCore s b.core) bank
    let a := spAddr gg.k ka
    let p := (readUni gg.k pitch).toNat
    let nr := nrm1.toNat + 1
    let row := drainRow f
    if classFull gg 3 || runsOwed s b gi gg (drainRuns f ka pitch nr gg.k) then .stall
    else if !claims s b gi bank then .fault (gateFlt 2)
    else if !drainPair f k.s32 then .fault (typeFlt 4)
    else if a % row.2 ≠ 0 then .fault (misFlt 2 a)
    else if p % row.2 ≠ 0 then .fault (misFlt 2 p)
    else match drainPrivilege coop f ka pitch nr b gg.k with
      | some e => .fault e
      | none =>
        if k.bad.any (fun x => decide (x < 192 * nr)) then .fault { cls := 8, cause := 5 }
        else
          let rows := (List.range nr).map (fun m => (List.range 192).map (fun n => sget 0 k.acc (192 * m + n)))
          let x := addOp s i.blk gi 3 gg.live i.addr []
            (.drain b.core bank f a p rows k.s32 k.flags (if coop then b.coop else none) rel)
          let s1 := modBank x.2 b.core bank (fun k => { k with flags := 0 })
          .done (if rel then freeBank s1 b.core bank else s1))

/-! ### MGATE (R238, R264) -/

/-- A pre-emption is pending and the gang is outside a restart region: a take waits and a try fails, its holder's too (R251). -/
def gateBarred (s : State) (me : Nat × Nat) : Bool :=
  preemptPending s me.1 && ((getGang s me.1 me.2).map (fun g => g.restart.isNone)).getD true

/-- A take enters the gate's queue, once. -/
def queueGate (s : State) (core : Nat) (me : Nat × Nat) : State :=
  modCore s core (fun c => { c with gateQ := if c.gateQ.contains me then c.gateQ else c.gateQ ++ [me] })

def execMgateTake (g : Guard) (s : State) : Out :=
  runMatrix s { guard := g, srcs := [], swap := true } (fun s _ b gi _ =>
    let c := getCore s b.core
    let me := (b.id, gi)
    if gateBarred s me then .wait (queueGate s b.core me) .mgate
    else if c.gate = some me then .done (modCore s b.core (fun c => { c with gateQ := c.gateQ.filter (fun p => p != me) }))
    else if c.gate.isNone && gateGrantable s me && !c.gateQ.any (gateGrantable s) then .done (takeGate s b.core b.id gi)
    else .wait (queueGate s b.core me) .mgate)

def execMgateTry (g : Guard) (qd : BitVec 3) (s : State) : Out :=
  runMatrix s { guard := g, srcs := [] } (fun s i b gi _ =>
    let c := getCore s b.core
    let me := (b.id, gi)
    if gateBarred s me then .done (setQp s i.blk i.party qd false)
    else if c.gate = some me then .done (setQp s i.blk i.party qd true)
    else if c.gate.isNone && c.gateQ.isEmpty && gateGrantable s me then
      .done (setQp (takeGate s b.core b.id gi) i.blk i.party qd true)
    else .done (setQp s i.blk i.party qd false))

def execMgateGive (g : Guard) (s : State) : Out :=
  runMatrix s { guard := g, srcs := [] } (fun s i b _ _ =>
    if holdsTheGate s i b then .done (releaseGate s b.core) else .fault (gateFlt 4))

/-! ### MCOOP (R265) -/

/-- A shape that is not the block's clique (R265). -/
def coopShape (shape : Src) (b : Block) (k : Store W64) : Option Flt :=
  let x := (readUni k shape).toNat
  if b.kd.clique.isNone || decide (16 ≤ x) || b.kd.clique != some (x % 4 + 1, x / 4 % 4 + 1) then some { cls := 3, cause := 3 } else none

def execMcoop (g : Guard) (kd : BitVec 6) (shape : Src) (kg : BitVec 6) (s : State) : Out :=
  runMatrix s { guard := g, srcs := [shape, .k kg], kdst := [kd], mem := true, early := atBlk (coopShape shape) } (fun s i b _ gg =>
    let cols := (readUni gg.k shape).toNat / 4 % 4 + 1
    match gaugePlace s b .rw .page (readUni gg.k (.k kg)) with
      | .error f => .fault f
      | .ok l =>
        let r := b.cliqueIdx / cols
        let q := b.cliqueIdx % cols
        let v := 128 * r + 192 * q * 2 ^ 16 + r * 2 ^ 32 + q * 2 ^ 36
        orMiss s b i.party (readUni gg.k (.k kg))
          (.done (setK (modBlk s i.blk (fun b => { b with coop := some l })) i.blk i.party kd (BitVec.ofNat 64 v))))

def execMcoopClr (g : Guard) (s : State) : Out :=
  runMatrix s { guard := g, srcs := [] } (fun s i _ _ _ => .done (modBlk s i.blk (fun b => { b with coop := none })))

/-! ### MRESTART and MEND (R266, R267) -/

/-- Whether a poison mark is one of a carry register. -/
def carryMark (kd : KDesc) (x : Nat) : Bool := (carryWords kd.carryv kd.carryk).contains (x / 64)

/-- The snapshot of a gang (R253), poison marks included (R75). -/
def snapshot (b : Block) (g : Gang) (label : W64) : Restart :=
  { label := label, carry := carryOf b.kd g, alloc := g.alloc, regions := g.regions, rstack := g.rstack, spill := g.spill, draw := g.draw,
    badRegs := g.badRegs.filter (carryMark b.kd), spillBad := g.spillBad }

def execMrestart (g : Guard) (disp : BitVec 32) (s : State) : Out :=
  runMatrix s { guard := g, srcs := [] } (fun s i b gi gg =>
    if holdsBank s b gi || gg.restart.isSome then .fault (gateFlt 5)
    else .done (putRestarts (modGang s i.blk gi (fun g => { g with restart := some (snapshot b g (i.addr + disp.signExtend 64)) })) i.blk))

def execMend (g : Guard) (s : State) : Out :=
  runMatrix s { guard := g, srcs := [] } (fun s i _ gi gg =>
    if gg.restart.isNone then .fault (gateFlt 5)
    else .done (putRestarts (modGang s i.blk gi (fun g => { g with restart := none })) i.blk))

/-! ### MSTAT (R268) -/

/-- R41 code of a plane's format. -/
def planeCode (p : Plane) : Nat :=
  match p.fmt with
  | .f32 => 0x08 | .f16 => 0x09 | .bf16 => 0x0A | .e4m3 => 0x0B | .e5m2 => 0x0C | .e2m1 => 0x0F | .s8 => 0x01
  | .s4 => 0x10 | _ => 0x14

/-- The MSTAT.st word. -/
def mstatWord (s : State) (b : Block) (gi : Nat) (g : Gang) : Nat :=
  let c := getCore s b.core
  let bit := fun (x : Bool) (n : Nat) => if x then 2 ^ n else 0
  let held := holdsGate s b gi
  let own := fun x => claims s b gi x
  let plane := fun (p : Option Plane) (f : Nat) => match p with
    | some p => if held then planeCode p * 2 ^ f + 2 ^ (if f = 21 then 20 else 26) else 0
    | none => 0
  let bank := fun (x : Bool) (o t f : Nat) =>
    if own x then 2 ^ o + bit (getBank c x).s32 t + (getBank c x).flags.toNat * 2 ^ f else 0
  bit held 0 + bit g.restart.isSome 1 + bit b.coop.isSome 2 + bank false 3 5 8 + bank true 4 6 14
    + plane c.active 21 + plane c.shadow 27

def execMstatSt (g : Guard) (kd : BitVec 6) (s : State) : Out :=
  runMatrix s { guard := g, srcs := [], kdst := [kd] } (fun s i b gi gg =>
    .done (setK s i.blk i.party kd (BitVec.ofNat 64 (mstatWord s b gi gg))))

/-- A position outside the bank (R268). -/
def posIllegal (pos : Src) (_ : Block) (k : Store W64) : Option Flt :=
  let x := (readUni k pos).toNat
  if 128 ≤ x % 256 ∨ 192 ≤ x / 256 then some { cls := 1, cause := 6 } else none

def execMstatAcc (g : Guard) (bank : Bool) (kd : BitVec 6) (pos : Src) (s : State) : Out :=
  runMatrix s { guard := g, srcs := [pos], kdst := [kd], early := atBlk (posIllegal pos) } (fun s i b gi gg =>
    let x := (readUni gg.k pos).toNat
    let row := x % 256
    let col := x / 256
    let k := getBank (getCore s b.core) bank
    if !claims s b gi bank then .fault (gateFlt 2)
    else if k.bad.contains (192 * row + col) then .fault { cls := 8, cause := 5 }
    else .done (setK s i.blk i.party kd ((sget 0 k.acc (192 * row + col)).setWidth 64)))

/-- MSTAT.bal: the ballast counter at level 0, zero above (R250). -/
def execMstatBal (g : Guard) (kd : BitVec 6) (s : State) : Out :=
  runMatrix s { guard := g, srcs := [], kdst := [kd] } (fun s i b _ _ =>
    .done (setK s i.blk i.party kd (if b.level = 0 then (getCore s b.core).ballast else 0)))

end Sys2Proof.Machine
end

