-- ==== Sys2Proof/Machine/Memory.lean ====
section
/-! DEFINITION. Machine/Memory.lean: loads and stores (07 R187 to R203), atomics (07 R195 to R206), WSIG
(06 R176), and the loads and stores of a gang or feeder (08 R232). Counted accesses become outstanding operations
that Machine/Completions.lean performs; scratchpad accesses take effect at issue (07 R186). -/

namespace Sys2Proof.Machine

open Sys2Proof

/-- Bytes of a width (R188). -/
def ltBytes (t : LaneTy) : Nat := ltBits t / 8

/-- Effective addresses (R187). -/
def eaLane (g : Gang) (l : Nat) (base off : Src) : W64 :=
  BitVec.ofNat 64 (readSrc g l (.int 64) base + readSrc g l (.int 64) off)
def spLane (g : Gang) (l : Nat) (base off : Src) : Nat :=
  (readSrc g l n32 base + readSrc g l n32 off) % 2 ^ 32

/-- A loaded value extended for its destination (R188). -/
def extendLoad (t : LaneTy) (x : Nat) : Nat :=
  match t with
  | .s8 => wrap 32 (sx 8 x)
  | .s16 => wrap 32 (sx 16 x)
  | _ => x

/-- Lanes of a mask with a value for each. -/
def perLane {α : Type} (m : Mask) (f : Nat → α) : List (Nat × α) := (lanesOf m).map (fun l => (l, f l))

/-- Writes and pushes of values that are there at once. -/
def landAll (g : Gang) (d : Dst) (n : Nat) (xs : List (Nat × Nat)) : Gang :=
  unmarkBad (xs.foldl (fun g p => writePush g p.1 d n p.2) g) (dstNames n d) (maskOfList (xs.map (·.1)))

def isAcq (k : Kind) : Bool := k == .acq
def isRel (k : Kind) : Bool := k == .rel

/-! ### Global loads and stores -/

/-- Adds an operation and attaches its misses. -/
def issueOp (s : State) (b : Block) (gi cls : Nat) (lanes : Mask) (vas : List W64) (body : OpBody) : Nat × State :=
  let r := addOp s b.id gi cls lanes (issueAddr s) [] body
  let w := attachWalks r.2 b.ctx b.core (b.id, gi, r.1) vas
  (r.1, modGang w.1 b.id gi (fun g => { g with ops := updFirst (fun o => o.id == r.1) (fun o => { o with walks := w.2 }) g.ops }))

/-- A counted load of guard-true threads: addresses, width, destination. -/
def loadBody (s : State) (b : Block) (gi : Nat) (gt : Mask) (need : Need) (t : LaneTy) (vas : List (Nat × W64))
    (d : Dst) (acq ro : Bool) : MRes :=
  match checkGlobal s b.ctx b.core b.views need 1 (ltBytes t) .all vas with
  | .error f => .fault f
  | .ok hits =>
    if !walkRoom s b.ctx b.core (vas.map (·.2)) then .hold
    else
      let acc := hits.map (fun h => ({ lane := h.1, loc := h.2.loc } : LaneAcc))
      let r := issueOp s b gi 0 gt (vas.map (·.2)) (.load t (ltBytes t) (.lane d) acc acq ro)
      .ok (modGang r.2 b.id gi (fun g => pushPending g gt d t.regs r.1))

/-- A counted store. -/
def storeBody (s : State) (b : Block) (gi : Nat) (gt : Mask) (t : LaneTy) (vas : List (Nat × W64))
    (data : Nat → List Byte) (rel : Bool) : MRes :=
  match checkGlobal s b.ctx b.core b.views .wr 2 (ltBytes t) .no vas with
  | .error f => .fault f
  | .ok hits =>
    if !walkRoom s b.ctx b.core (vas.map (·.2)) then .hold
    else
      let acc := hits.map (fun h => ({ lane := h.1, loc := h.2.loc, data := data h.1 } : LaneAcc))
      .ok (issueOp s b gi 1 gt (vas.map (·.2)) (.store acc rel)).2

/-- Data of a store in a lane. -/
def storeData (g : Gang) (l : Nat) (t : LaneTy) (data : Src) : List Byte :=
  le (ltBytes t) (readSrc g l (.int (ltBits t)) data)

def execLd (g : Guard) (t : LaneTy) (kd : Kind) (_sc : Scope) (d : Dst) (base off : Src) (s : State) : Out :=
  .next (runMem s { guard := g, mem := true, srcs := [(base, 2), (off, 1)], dst := some (d, t.regs), cls := some 0 }
    (fun s b gi gg gt => loadBody s b gi gt .rd t (perLane gt (fun l => eaLane gg l base off)) d (isAcq kd) false))

def execLdk (g : Guard) (t : LaneTy) (ln : Bool) (d : Dst) (ka : BitVec 6) (off : Src) (s : State) : Out :=
  .next (runMem s { guard := g, mem := true, srcs := [(.k ka, 2), (off, 1)], dst := some (d, t.regs), cls := some 0 }
    (fun s b gi gg gt => loadBody s b gi gt .rdk t
      (perLane gt (fun l => eaLane gg l (.k ka) off + BitVec.ofNat 64 (if ln then l * ltBytes t else 0))) d false true))

def execSt (g : Guard) (t : LaneTy) (kd : Kind) (_sc : Scope) (base off data : Src) (s : State) : Out :=
  .next (runMem s { guard := g, mem := true, srcs := [(base, 2), (off, 1), (data, t.regs)], cls := some 1 }
    (fun s b gi gg gt => storeBody s b gi gt t (perLane gt (fun l => eaLane gg l base off))
      (fun l => storeData gg l t data) (isRel kd)))

def execStk (g : Guard) (t : LaneTy) (kd : Kind) (_sc : Scope) (ka : BitVec 6) (off data : Src) (s : State) : Out :=
  .next (runMem s { guard := g, mem := true, srcs := [(.k ka, 2), (off, 1), (data, t.regs)], cls := some 1 }
    (fun s b gi gg gt => storeBody s b gi gt t
      (perLane gt (fun l => eaLane gg l (.k ka) off + BitVec.ofNat 64 (l * ltBytes t)))
      (fun l => storeData gg l t data) (isRel kd)))

/-- PFETCH asks the home slice for the line; what fails is dropped (R203). -/
def prefetchLine (s : State) (b : Block) (va : W64) : State :=
  match translate s b.ctx (tlbHolds s b.ctx b.core va.toNat) .rd va with
  | .error _ => s
  | .ok t => if t.pagePoison || (keyFault s b.ctx t.loc).isSome || locPoison s b.views t.loc then s else touchLine s t.loc

/-- A prefetch whose translation no buffer holds waits for its walk, not its thread (R69, R203). -/
def prefetch (s : State) (b : Block) (va : W64) : State :=
  if tlbHolds s b.ctx b.core va.toNat then prefetchLine s b va else (attachWalk s b.ctx b.core (prefetchRef b.id va) va).1

def execPfetch (g : Guard) (base off : Src) (s : State) : Out :=
  .next (runMem s { guard := g, srcs := [(base, 2), (off, 1)] }
    (fun s b _ gg gt =>
      let vas := ((lanesOf gt).map (fun l => eaLane gg l base off)).filter (fun va => va.toNat % 4 == 0 && decide (va.toNat < 2 ^ 57))
      if !walkRoom s b.ctx b.core vas then .hold else .ok (vas.foldl (fun s va => prefetch s b va) s)))

/-! ### Scratchpad loads and stores -/

/-- What the four scratchpad loads and stores are to the issue logic. -/
def ldsDesc (g : Guard) (t : LaneTy) (d : Dst) (base off : Src) : MemDesc :=
  ({ guard := g, mem := true, srcs := [(base, 1), (off, 1)], dst := some (d, t.regs) } : MemDesc).spEarly 1 (ltBytes t)
    [(base, 1), (off, 1)] (BitVec.allOnes 64) (fun _ b g l => (some b, spLane g l base off))
def stsDesc (g : Guard) (t : LaneTy) (kd : Kind) (base off data : Src) : MemDesc :=
  ({ guard := g, mem := true, srcs := [(base, 1), (off, 1), (data, t.regs)], waits := isRel kd } : MemDesc).spEarly 2 (ltBytes t)
    [(base, 1), (off, 1)] (BitVec.allOnes 64) (fun _ b g l => (some b, spLane g l base off))
/-- A place in the clique: its core's index is the 64-bit value of a uniform register (R185 gives no width: DESIGN CHOICE, log 61). -/
def cliquePlace (base c off : Src) (s : State) (b : Block) (g : Gang) (l : Nat) : Option Block × Nat :=
  (cliqueBlock s b (readSrc g l (.int 64) c), spLane g l base off)
def ldcDesc (g : Guard) (t : LaneTy) (d : Dst) (base c off : Src) : MemDesc :=
  ({ guard := g, mem := true, srcs := [(base, 1), (c, 2), (off, 1)], dst := some (d, t.regs), cls := some 0 } : MemDesc).spEarly 1
    (ltBytes t) [(base, 1), (c, 2), (off, 1)] (BitVec.allOnes 64) (cliquePlace base c off)
def stcDesc (g : Guard) (t : LaneTy) (base c data off : Src) : MemDesc :=
  ({ guard := g, mem := true, srcs := [(base, 1), (c, 2), (data, t.regs), (off, 1)], cls := some 1 } : MemDesc).spEarly 2
    (ltBytes t) [(base, 1), (c, 2), (off, 1)] (BitVec.allOnes 64) (cliquePlace base c off)

def execLds (g : Guard) (t : LaneTy) (_kd : Kind) (_sc : Scope) (d : Dst) (base off : Src) (s : State) : Out :=
  .next (runMem s (ldsDesc g t d base off)
    (fun s b gi gg gt =>
      let as := perLane gt (fun l => spLane gg l base off)
      match checkScratch 1 (ltBytes t) (ltBytes t) true (as.map (fun p => (p.1, some b, p.2))) with
      | some f => .fault f
      | none =>
        if spHeld s b gi gg (ltBytes t) as then .hold
        else .ok (modGang s b.id gi (fun g =>
          landAll g d t.regs (as.map (fun p => (p.1, extendLoad t (natOf (spRead b p.2 (ltBytes t))))))))
          { banks := spBanks b b (as.map (·.2)) }))

/-- The lanes of all gangs of the issue group write in ascending order (R189). -/
def execSts (g : Guard) (t : LaneTy) (kd : Kind) (_sc : Scope) (base off data : Src) (s : State) : Out :=
  .next (runMem s (stsDesc g t kd base off data)
    (fun s b gi gg gt =>
      let as := perLane gt (fun l => spLane gg l base off)
      match checkScratch 2 (ltBytes t) (ltBytes t) false (as.map (fun p => (p.1, some b, p.2))) with
      | some f => .fault f
      | none =>
        if spHeld s b gi gg (ltBytes t) as then .hold
        else
          let ws := as.map (fun p => (p.1, p.2, storeData gg p.1 t data))
          .ok (modBlk s b.id (fun b => spClear b (ws.map (·.2))))
            { steps := ws.map (fun w => (w.1, fun s => modBlk s b.id (fun b => spPut b [w.2]))), banks := spBanks b b (as.map (·.2)) }))

/-- The banks that accesses of a clique reach. -/
def cliqueBanks (b : Block) (as : List (Nat × Option Block × Nat)) : List (Nat × Nat × Nat) :=
  as.flatMap (fun p => match p.2.1 with
    | some on => spBanks b on [p.2.2]
    | none => [])

def execLdc (g : Guard) (t : LaneTy) (kd : Kind) (_sc : Scope) (d : Dst) (base c off : Src) (s : State) : Out :=
  .next (runMem s (ldcDesc g t d base c off)
    (fun s b gi gg gt =>
      let as := perLane gt (cliquePlace base c off s b gg)
      match checkScratch 1 (ltBytes t) (ltBytes t) true as with
      | some f => .fault f
      | none =>
        let acc := as.map (fun p => ({ lane := p.1, loc := spLoc p.2.2, sp := some ((p.2.1.map (fun b => b.id)).getD 0) } : LaneAcc))
        let r := issueOp s b gi 0 gt [] (.load t (ltBytes t) (.lane d) acc (isAcq kd) false)
        .ok (modGang r.2 b.id gi (fun g => pushPending g gt d t.regs r.1)) { banks := cliqueBanks b as }))

def execStc (g : Guard) (t : LaneTy) (kd : Kind) (_sc : Scope) (base c data off : Src) (s : State) : Out :=
  .next (runMem s (stcDesc g t base c data off)
    (fun s b gi gg gt =>
      let as := perLane gt (cliquePlace base c off s b gg)
      match checkScratch 2 (ltBytes t) (ltBytes t) false as with
      | some f => .fault f
      | none =>
        let acc := as.map (fun p => ({ lane := p.1, loc := spLoc p.2.2, sp := some ((p.2.1.map (fun b => b.id)).getD 0),
                                       data := storeData gg p.1 t data } : LaneAcc))
        .ok (issueOp s b gi 1 gt [] (.store acc (isRel kd))).2 { banks := cliqueBanks b as }))

/-! ### LDQ (R202) -/

/-- The exact value that LDQ decodes in a lane. -/
def ldqValue (b : Block) (a : Nat) (ter : Bool) (d grp l : Nat) : FVal :=
  let rd := fun i => (sget 0 b.scratch (a + i)).toNat
  if ter then
    let e := terraceElem rd d grp l
    scaled (ofSInt false e.1 0) e.2
  else match parcelFmt (rd 0) with
    | none => FVal.zero
    | some f =>
      if rd 1 ≤ grp ∨ f.groups ≤ grp then FVal.zero
      else
        let x := parcelGroup (spRead b a 128) grp
        scaled (elemVal f (x.2 l)) x.1

def ldqFormat (b : Block) (ter : Bool) (d : Nat) (as : List (Nat × Nat)) : Option Flt :=
  let bad := as.filterMap (fun p =>
    let rd := fun i => (sget 0 b.scratch (p.2 + i)).toNat
    if ter then (terraceFault rd d).map (fun c => (p.1, p.2 + c.1, c.2))
    else (parcelFault (rd 0) (rd 1) none).map (fun c => (p.1, p.2, c)))
  match bad with
  | [] => none
  | x :: _ =>
    let w := fun i => BitVec.ofNat 64 (sget 0 b.scratch (x.2.1 + i)).toNat
    some { cls := 9, cause := x.2.2, lanes := maskOfList (bad.map (·.1)), access := 1, va := BitVec.ofNat 64 x.2.1, w := [w 0, w 1] }

/-- Bytes that LDQ reads for a lane, and what it is to the issue logic. -/
def ldqSize (ter : Bool) (dm1 : BitVec 3) : Nat := if ter then 128 * (1 + (dm1.toNat + 1)) else 128
def ldqDesc (g : Guard) (d : Dst) (base off : Src) (ter : Bool) (dm1 : BitVec 3) : MemDesc :=
  ({ guard := g, mem := true, srcs := [(base, 1), (off, 1)], dst := some (d, 1) } : MemDesc).spEarly 1 (ldqSize ter dm1)
    [(base, 1), (off, 1)] 0xFF_FFFF (fun _ b g l => (some b, spLane g l base off))

/-- Every lane's words of the parcel or terrace prefix count for its bank replays (R184). -/
def execLdq (g : Guard) (t : LaneTy) (d : Dst) (base off : Src) (ter : Bool) (dm1 : BitVec 3) (grp : BitVec 6) (s : State) : Out :=
  .next (runMem s (ldqDesc g d base off ter dm1)
    (fun s b gi gg gt =>
      let depth := dm1.toNat + 1
      let size := ldqSize ter dm1
      let as := perLane (gt &&& 0xFF_FFFF) (fun l => spLane gg l base off)
      match checkScratch 1 size 128 true (as.map (fun p => (p.1, some b, p.2))) with
      | some f => .fault f
      | none =>
        if spHeld s b gi gg size as then .hold
        else match ldqFormat b ter depth as with
        | some f => .fault f
        | none =>
          .ok (modGang s b.id gi (fun gx => (lanesOf gt).foldl (fun gx l =>
            let v := if l < 24 then ldqValue b (spLane gg l base off) ter depth grp.toNat l else FVal.zero
            let r := roundF (ltFmt t) .rne 0 {} v
            raiseFlags (landAll gx d 1 [(l, r.1)]) r.2) gx))
            { banks := spBanks b b (as.flatMap (fun p => (List.range (size / 16)).map (fun i => p.2 + 16 * i))) }))

/-! ### Atomics (R195 to R198, R204 to R206) -/

/-- The new value of an integer atomic at a width. -/
def atomNew (op : AtomOp) (w old v : Nat) : Nat :=
  match op with
  | .add => (old + v) % 2 ^ w
  | .smin => if sx w v < sx w old then v else old
  | .smax => if sx w old < sx w v then v else old
  | .and => old &&& v
  | .or => old ||| v
  | .xor => old ^^^ v
  | .exch => v
  | .nmin => min old v
  | .nmax => max old v

/-- The new value of a float atomic with its flags. -/
def atomFNew (op : AtomFOp) (old v : Nat) : Nat × Flags :=
  let x := unpackF .f32 old
  let y := unpackF .f32 v
  match op with
  | .add => finishF .f32 .rne 0 (addV .rne x y)
  | .min => (packF .f32 (minV x y), 0)
  | .max => (packF .f32 (maxV x y), 0)

/-- One lane's step of an atomic: new value, flags. -/
def atomStep (k : AtomKind) (w old opnd cmp : Nat) : Nat × Flags :=
  match k with
  | .int op => (atomNew op w old opnd, 0)
  | .cas => (if old = cmp then opnd else old, 0)
  | .flt op => atomFNew op old opnd

def ordAcq (o : Order) : Bool := o == .acq || o == .ar
def ordRel (o : Order) : Bool := o == .rel || o == .ar

/-- Whether two blocks reach one location at a place: of local memory, where a write of either lands in the same copy (R107). -/
def sameCopy (s : State) (l : Loc) (b1 b2 : Nat) : Bool :=
  let at_ := fun (b : Nat) => (getBlk s b).map (fun b => viewTarget s (l.addr / 32) b.views)
  b1 == b2 || l.ap != 0 || at_ b1 == at_ b2

/-- Puts a lane's request with those that the issue group sends to the same place, in ascending lane order (R196). -/
def combineAtom (s : State) (w64 : Bool) (k : AtomKind) (rs : List AtomReq) (loc : Loc) (x : AtomLane) : List AtomReq :=
  let same := fun (r : AtomReq) => r.loc.ap == loc.ap && r.loc.peer == loc.peer && r.loc.addr == loc.addr
    && (r.lanes.head?.map (fun y => sameCopy s loc y.blk x.blk)).getD false
  if rs.any same then updFirst same (fun r => { r with lanes := insSorted (fun (a b : AtomLane) => decide (a.lane ≤ b.lane)) x r.lanes }) rs
  else rs ++ [{ id := 0, loc := loc, w64 := w64, kind := k, lanes := [x] }]

/-- Whether an ATOMF.add is refused by its determinism level (R197). -/
def orderDependent (b : Block) (s : State) (k : AtomKind) (hits : List Hit) : Option Flt :=
  match k with
  | .flt .add =>
    if b.level = 0 then none
    else match hits.filter (fun h => !privately s b.views h.2.loc) with
      | [] => none
      | h :: t => some { cls := 21, lanes := maskOfList ((h :: t).map (·.1)), access := 3, va := h.2.loc.va }
  | _ => none

/-- How an atomic reads its operands (R42). -/
def atomReadAs (k : AtomKind) (n : Nat) : ReadAs := match k with
  | .flt _ => .flt .f32
  | _ => .int (8 * n)

/-- A global atomic: every gang's part becomes an operation; the requests of the whole issue group follow. The checks of R190
come before that of R197 (DESIGN CHOICE, log 50: the spec gives no order between them). -/
def runAtom (s : State) (k : AtomKind) (w64 : Bool) (o : Order) (g : Guard) (d : Dst) (base off v cmp : Src) : State :=
  let n := if w64 then 8 else 4
  let r := atomReadAs k n
  let before := s.nextId
  let s1 := runMem s { guard := g, mem := true, srcs := [(base, 2), (off, 1), (v, n / 4), (cmp, n / 4)], dst := some (d, n / 4), cls := some 2 }
    (fun s b gi gg gt =>
      let vas := perLane gt (fun l => eaLane gg l base off)
      match checkGlobal s b.ctx b.core b.views .rw 3 n .all vas with
      | .error f => .fault f
      | .ok hits => match orderDependent b s k hits with
        | some f => .fault f
        | none =>
          if !walkRoom s b.ctx b.core (vas.map (·.2)) then .hold
          else
            let x := issueOp s b gi 2 gt (vas.map (·.2)) (.atomic (n / 4) d (lanesOf gt) (ordAcq o) (ordRel o))
            let s2 := modGang x.2 b.id gi (fun g => pushPending g gt d (n / 4) x.1)
            .ok { s2 with atoms := hits.foldl (fun rs h =>
              let a : AtomLane := { blk := b.id, gang := gi, op := x.1, lane := h.1,
                                    opnd := BitVec.ofNat 64 (readSrc gg h.1 r v), cmp := BitVec.ofNat 64 (readSrc gg h.1 r cmp) }
              let mine := rs.filter (fun q => q.id == 0)
              rs.filter (fun q => q.id != 0) ++ combineAtom s2 w64 k mine h.2.loc a) s2.atoms })
  let fresh := s1.atoms.zipIdx.map (fun p => if p.1.id = 0 then { p.1 with id := s1.nextId + p.2 } else p.1)
  if s1.nextId = before then s1 else { s1 with atoms := fresh, nextId := s1.nextId + s1.atoms.length }

def execAtom (g : Guard) (op : AtomOp) (w64 : Bool) (ord : Order) (_sc : Scope) (d : Dst) (base off v : Src) (s : State) : Out :=
  .next (runAtom s (.int op) w64 ord g d base off v (.inl 0))
def execAtomcas (g : Guard) (w64 : Bool) (ord : Order) (_sc : Scope) (d : Dst) (base cmp new off : Src) (s : State) : Out :=
  .next (runAtom s .cas w64 ord g d base off new cmp)
def execAtomf (g : Guard) (op : AtomFOp) (ord : Order) (_sc : Scope) (d : Dst) (base off v : Src) (s : State) : Out :=
  .next (runAtom s (.flt op) false ord g d base off v (.inl 0))

/-- What a scratchpad atomic is to the issue logic. -/
def atomsDesc (w64 : Bool) (o : Order) (g : Guard) (d : Dst) (base off v cmp : Src) : MemDesc :=
  let n := if w64 then 8 else 4
  ({ guard := g, mem := true, srcs := [(base, 1), (off, 1), (v, n / 4), (cmp, n / 4)], dst := some (d, n / 4), waits := ordRel o } : MemDesc).spEarly
    3 n [(base, 1), (off, 1)] (BitVec.allOnes 64) (fun _ b g l => (some b, spLane g l base off))

/-- A scratchpad atomic: the lanes of all gangs of the issue group in ascending order, at issue (R186, R196). -/
def runAtomS (s : State) (k : AtomKind) (w64 : Bool) (o : Order) (g : Guard) (d : Dst) (base off v cmp : Src) : State :=
  let n := if w64 then 8 else 4
  let r := atomReadAs k n
  runMem s (atomsDesc w64 o g d base off v cmp)
    (fun s b gi gg gt =>
      let as := perLane gt (fun l => spLane gg l base off)
      match checkScratch 3 n n true (as.map (fun p => (p.1, some b, p.2))) with
      | some f => .fault f
      | none =>
        if spHeld s b gi gg n as then .hold
        else .ok s { banks := spBanks b b (as.map (·.2)), steps := as.map (fun p => (p.1, fun s =>
          let old := ((getBlk s b.id).map (fun x => natOf (spRead x p.2 n))).getD 0
          let new := (atomStep k (8 * n) old (readSrc gg p.1 r v) (readSrc gg p.1 r cmp)).1
          modGang (spWrite s b.id [(p.2, le n new)]) b.id gi (fun g => landAll g d (n / 4) [(p.1, old)]))) })

def execAtoms (g : Guard) (op : AtomOp) (w64 : Bool) (ord : Order) (d : Dst) (base off v : Src) (s : State) : Out :=
  .next (runAtomS s (.int op) w64 ord g d base off v (.inl 0))
def execAtomscas (g : Guard) (w64 : Bool) (ord : Order) (d : Dst) (base cmp new off : Src) (s : State) : Out :=
  .next (runAtomS s .cas w64 ord g d base off new cmp)

/-! ### WSIG (R176) -/

/-- The checks of WSIG in the order of R190 over payloads and gauges; the gauge's poison is met after the payload (R176). -/
def checkWsig (s : State) (b : Block) (n : Nat) (pas gas : List (Nat × W64)) : Except Flt (List Hit × List Hit) :=
  match checkGlobal s b.ctx b.core b.views .rw 2 n .page pas, checkGlobal s b.ctx b.core b.views .rw 9 8 .no gas with
  | .ok x, .ok y => .ok (x, y)
  | .error e, .ok _ => .error e
  | .ok _, .error e => .error e
  | .error e1, .error e2 =>
    let rank := fun (e : Flt) => if e.cls = 5 then 0 else if e.cls = 6 ∧ e.cause = 2 then 1 else if e.cls = 6 then 2
      else if e.cls = 7 then 3 else if e.cls = 17 then 4 else 5
    if rank e1 < rank e2 then .error { e1 with lanes := e1.lanes }
    else if rank e2 < rank e1 then .error e2
    else .error (if lowestLane e1.lanes ≤ lowestLane e2.lanes then { e1 with lanes := e1.lanes ||| e2.lanes }
      else { e2 with lanes := e1.lanes ||| e2.lanes })

def execWsig (g : Guard) (w64 : Bool) (_sc : Scope) (base data gaddr off : Src) (s : State) : Out :=
  let n := if w64 then 8 else 4
  .next (runMem s { guard := g, mem := true, srcs := [(base, 2), (data, n / 4), (gaddr, 2), (off, 1)], cls := some 1 }
    (fun s b gi gg gt =>
      let pas := perLane gt (fun l => eaLane gg l base off)
      let gas := perLane gt (fun l => BitVec.ofNat 64 (readSrc gg l (.int 64) gaddr))
      match checkWsig s b n pas gas with
      | .error f => .fault f
      | .ok (ps, gs) =>
        if !walkRoom s b.ctx b.core ((pas ++ gas).map (·.2)) then .hold
        else
          let acc := ps.map (fun h => ({ lane := h.1, loc := h.2.loc, data := le n (readSrc gg h.1 (.int (8 * n)) data) } : LaneAcc))
          .ok (issueOp s b gi 1 gt ((pas ++ gas).map (·.2)) (.wsig acc (gs.map (fun h => (h.1, h.2.loc))) false)).2))

/-! ### KLD and KST (R232) -/

/-- Sign or zero extension of a loaded value to a uniform register. -/
def extendUni (t : LaneTy) (x : Nat) : W64 :=
  BitVec.ofNat 64 (if ltSigned t then wrap 64 (sx (ltBits t) x) else x)

/-- The place of one access of a feeder or gang as a whole: a fault names the gang (R71). -/
def checkUni (s : State) (b : Block) (need : Need) (n : Nat) (poison : Poi) (va : W64) : Except Flt Loc :=
  match checkGlobal s b.ctx b.core b.views need (if need == .wr then 2 else 1) n poison [(0, va)] with
  | .error f => .error { f with lanes := 0 }
  | .ok hits => match hits with
    | h :: _ => .ok h.2.loc
    | [] => .error { cls := 6, cause := 1 }

def execKld (g : Guard) (t : LaneTy) (kd : BitVec 6) (ka : BitVec 6) (off : Src) (s : State) : Out :=
  .next (runGang s { guard := g, srcs := [.k ka, off], kdst := [kd], feederOk := true, mem := true } (fun s i =>
    match getBlk s i.blk with
    | none => .stall
    | some b =>
      let k := b.kOf i.party
      let va := readUni k (.k ka) + readUni k off
      match checkUni s b .rd (ltBytes t) .all va with
      | .error f => .fault f
      | .ok loc => match i.party with
        | .feeder => orMiss s b .feeder va
            (.done (setK (touchLine s loc) i.blk i.party kd (extendUni t (locNat s b.views loc (ltBytes t)))))
        | .gang gi =>
          match getGang s i.blk gi with
          | none => .stall
          | some gg =>
            if classFull gg 0 || !walkRoom s b.ctx b.core [va] then .stall
            else
              let x := issueOp s b gi 0 gg.live [va] (.load t (ltBytes t) (.uni kd) [{ lane := 0, loc := loc }] false false)
              .done (modGang x.2 i.blk gi (fun g => markFirst g [kBase + kd.toNat] g.live))))

def execKst (g : Guard) (t : LaneTy) (ka : BitVec 6) (off ks : Src) (s : State) : Out :=
  .next (runGang s { guard := g, srcs := [.k ka, off, ks], words := [2, 2, t.regs], feederOk := true, mem := true } (fun s i =>
    match getBlk s i.blk with
    | none => .stall
    | some b =>
      let k := b.kOf i.party
      let va := readUni k (.k ka) + readUni k off
      let bytes := le (ltBytes t) (readUni k ks).toNat
      match checkUni s b .wr (ltBytes t) .no va with
      | .error f => .fault f
      | .ok loc => match i.party with
        | .feeder => orMiss s b .feeder va (match locWrite s b.views loc bytes with
            | .ok s => .done s
            | .blocked f c n => .wait (blockChild s f c n) .blocked
            | .violation => .fault { cls := 17, cause := 1, access := 2, va := va })
        | .gang gi =>
          match getGang s i.blk gi with
          | none => .stall
          | some gg =>
            if classFull gg 1 || !walkRoom s b.ctx b.core [va] then .stall
            else .done (issueOp s b gi 1 gg.live [va] (.store [{ lane := 0, loc := loc, data := bytes }] false)).2))

end Sys2Proof.Machine
end

