-- ==== Sys2Proof/Machine/Streamer.lean ====
section
/-! DEFINITION. Machine/Streamer.lean: streamer commands as the feeder issues them (06 R142 to R148, R163), inlet
queues (06 R141, R164, R165), guard slots (06 R148, R166) and LOOPK (06 R167). -/

namespace Sys2Proof.Machine

open Sys2Proof

/-! ### The fields of a command (R143, R144) -/

/-- Extents, global strides and scratchpad strides. -/
structure Shape where
  x0 : Nat
  x1 : Nat
  x2 : Nat
  x3 : Nat
  s1 : Int
  s2 : Int
  s3 : Int
  t1 : Nat
  t2 : Nat
  t3 : Nat

def Cmd.word (c : Cmd) (i : Nat) : W64 := c.kn.getD i 0
/-- Whether a command writes memory. -/
def Cmd.toMem (c : Cmd) : Bool :=
  match c.kind with
  | .copy _ m => m
  | .fill _ m => m
  | .scatter _ _ => true
  | .gather _ _ => false
def Cmd.isTer (c : Cmd) : Bool := match c.kind with | .gather .ter _ => true | _ => false
/-- Dimensions of a command. -/
def Cmd.dims (c : Cmd) : Nat :=
  match c.kind with
  | .copy n _ => n + 1
  | .fill n _ => n + 1
  | _ => 2
/-- Whether it has an index list, in scratchpad or not, and the bytes of an entry. -/
def Cmd.list (c : Cmd) : Option (Bool × Nat) :=
  match c.kind with
  | .gather f ls => some (ls, if f = .x64 then 8 else 4)
  | .scatter x ls => some (ls, if x then 8 else 4)
  | _ => none
/-- Whether it touches the scratchpad: every one but SFILL .mem. -/
def Cmd.hasSp (c : Cmd) : Bool := match c.kind with | .fill _ true => false | _ => true

def Cmd.shape (c : Cmd) : Shape :=
  let w := (c.word 0).toNat
  let x := fun o => w / 2 ^ o % 65536 + 1
  let t := (c.word 4).toNat
  { x0 := if c.isTer then 128 * (1 + x 0) else x 0, x1 := x 16, x2 := x 32, x3 := x 48,
    s1 := (c.word 1).toInt, s2 := (c.word 2).toInt, s3 := (c.word 3).toInt,
    t1 := t % 2 ^ 21, t2 := t / 2 ^ 21 % 2 ^ 21, t3 := t / 2 ^ 42 % 2 ^ 21 }

def Cmd.spa (c : Cmd) : Nat := c.kb.toNat % 2 ^ 24
def Cmd.mcast (c : Cmd) : BitVec 16 := c.kb.extractLsb' 24 16
def Cmd.bidx (c : Cmd) : Nat := c.kb.toNat / 2 ^ 40 % 128
def Cmd.bbind (c : Cmd) : Bool := c.kb.getLsbD 47
def Cmd.gbind (c : Cmd) : Bool := c.kb.getLsbD 48
/-- Clique cores that receive the bytes of a command to scratchpad. -/
def Cmd.cores (c : Cmd) (b : Block) : List Nat := if c.mcast = 0 then [b.cliqueIdx] else bitsOf c.mcast
/-- Bytes for each destination, and in all. -/
def Cmd.bytesEach (c : Cmd) : Nat := let s := c.shape; s.x0 * s.x1 * s.x2 * s.x3
def Cmd.bytes (c : Cmd) (b : Block) : Nat := if c.toMem then c.bytesEach else c.bytesEach * (c.cores b).length
/-- The increment of its gauge. -/
def Cmd.increment (c : Cmd) (b : Block) : W64 := if c.word 6 = 0 then BitVec.ofNat 64 (c.bytes b) else c.word 6
/-- Scratchpad bytes that a command spans from spa. -/
def Cmd.span (c : Cmd) : Nat :=
  let s := c.shape
  (s.x1 - 1) * s.t1 + (s.x2 - 1) * s.t2 + (s.x3 - 1) * s.t3 + s.x0

/-! ### The checks at issue (R145) -/

def rightsFlt (cause : Nat) : Flt := { cls := 12, cause := cause }

/-- The block of a clique index as a streamer names it: a block outside a clique is index 0 (R143). -/
def cmdBlock (s : State) (b : Block) (c : Nat) : Option Block := if c = b.cliqueIdx then some b else cliqueBlock s b c

/-- Fields outside R143 and R144. -/
def cmdFieldsBad (c : Cmd) (b : Block) : Bool :=
  let w := (c.word 0).toNat
  let d := c.dims
  decide (2 ^ 49 ≤ c.kb.toNat) || (!c.bbind && c.bidx != 0) || (c.word 4).getLsbD 63
    || (decide (d < 2) && w / 2 ^ 16 % 65536 != 0) || (decide (d < 3) && w / 2 ^ 32 % 65536 != 0)
    || (decide (d < 4) && w / 2 ^ 48 != 0) || (c.isTer && decide (8 ≤ w % 65536))
    || decide (2 ^ 40 < c.bytes b)
    || (match c.list with | some (true, _) => decide (2 ^ 24 ≤ (c.word 7).toNat) | _ => false)

/-- A scratchpad range outside an allocation: of the bytes, at every destination of a multicast, or of the index list. -/
def cmdRangeBad (s : State) (b : Block) (c : Cmd) : Bool :=
  let sides := if c.toMem then [some b] else (c.cores b).map (cmdBlock s b)
  (c.hasSp && sides.any (fun x => match x with | some x => decide (x.kd.scratch < c.spa + c.span) | none => false))
    || (match c.list with | some (true, n) => decide (b.kd.scratch < (c.word 7).toNat + n * c.shape.x1) | _ => false)

/-- The faults of a command at issue that are raised whatever its guard (R44 items 6 and 7): streamer rights, then privilege. -/
def cmdEarly (s : State) (b : Block) (c : Cmd) : Option Flt :=
  if cmdFieldsBad c b then some (rightsFlt 2)
  else if cmdRangeBad s b c then some (rightsFlt 3)
  else if c.mcast != 0 && (c.toMem || (c.cores b).any (fun i => decide (b.kd.shape.1 * b.kd.shape.2 ≤ i))) then some (rightsFlt 4)
  else if c.bbind && decide (b.kd.nbar ≤ c.bidx) then some (resourceFault 0 (BitVec.ofNat 64 c.bidx))
  else none

/-- The faults of its own entry, in the order of R145. -/
def cmdFault (c : Cmd) : Option Flt :=
  if c.gbind && (c.word 5).toNat % 8 != 0 then some { cls := 5, access := 9, va := c.word 5 }
  else if c.gbind && (c.word 6).getLsbD 63 then some { cls := 28, cause := 1 }
  else match c.list with
    | some (_, n) => if (c.word 7).toNat % n != 0 then some { cls := 5, access := 5, va := c.word 7 } else none
    | none => none

/-! ### Issue (R142, R163) -/

def chanLen (b : Block) (ch : Nat) : Nat := (b.chans.filter (fun c => c.ch == ch)).length

/-- The command that a feeder issues. -/
def mkCmd (kind : CmdKind) (func : BitVec 10) (ch : BitVec 2) (tag : Option (BitVec 3)) (ka : Option (BitVec 6)) (kb kn : BitVec 6)
    (s : State) (i : Iss) (k : Store W64) : Cmd :=
  let rd := fun (r : BitVec 6) => sget 0 k r.toNat
  { id := s.nextId, kind := kind, ch := ch.toNat, tag := tag.map (fun t => t.toNat), ka := (ka.map rd).getD 0, kb := rd kb,
    kn := (List.range 8).map (fun j => rd (kn + BitVec.ofNat 6 j)), func := func, addr := i.addr }

/-- Queues a command, or stalls the feeder at a full channel. -/
def issueCmd (g : Guard) (kind : CmdKind) (func : BitVec 10) (ch : BitVec 2) (tag : Option (BitVec 3)) (ka : Option (BitVec 6))
    (kb kn : BitVec 6) (s : State) : Out :=
  let ks := (ka.map (fun k => [Src.k k])).getD [] ++ [.k kb]
  let names := (List.range 8).map (fun i => Src.k (kn + BitVec.ofNat 6 i))
  let early := fun (s : State) (i : Iss) => atBlk (fun b k => cmdEarly s b (mkCmd kind func ch tag ka kb kn s i k)) s i
  .next (runGang s { guard := g, srcs := ks ++ names, feederOk := true, feederOnly := true, early := early } (fun s i =>
    match getBlk s i.blk with
    | none => .stall
    | some b =>
      let c := mkCmd kind func ch tag ka kb kn s i (b.kOf i.party)
      match cmdFault c with
      | some f => .fault f
      | none =>
        if 16 ≤ chanLen b ch.toNat then .wait s (.channel ch.toNat)
        else .done (modBlk { s with nextId := s.nextId + 1 } i.blk (fun b => { b with chans := b.chans ++ [c] }))))

/-- Function bits [63:54] of a streamer command. -/
def cmdFunc (hi : BitVec 2) (mid : Bool) (tag : Option (BitVec 3)) (ch : BitVec 2) : BitVec 10 :=
  hi ++ (if mid then 1#1 else 0#1) ++ 0#1 ++ (if tag.isSome then 1#1 else 0#1) ++ tag.getD 0 ++ ch

def execScopy (g : Guard) (nm1 : BitVec 2) (toMem : Bool) (ch : BitVec 2) (tag : Option (BitVec 3)) (ka kb kn : BitVec 6) (s : State) : Out :=
  issueCmd g (.copy nm1.toNat toMem) (cmdFunc nm1 toMem tag ch) ch tag (some ka) kb kn s
def execSgather (g : Guard) (f : GatherForm) (ls : Bool) (ch : BitVec 2) (tag : Option (BitVec 3)) (ka kb kn : BitVec 6) (s : State) : Out :=
  issueCmd g (.gather f ls) (cmdFunc (match f with | .x32 => 0 | .x64 => 1 | .ter => 2) ls tag ch) ch tag (some ka) kb kn s
def execSscatter (g : Guard) (x64 : Bool) (ls : Bool) (ch : BitVec 2) (tag : Option (BitVec 3)) (ka kb kn : BitVec 6) (s : State) : Out :=
  issueCmd g (.scatter x64 ls) (cmdFunc (if x64 then 1 else 0) ls tag ch) ch tag (some ka) kb kn s
def execSfill (g : Guard) (nm1 : BitVec 2) (fdst : FillDst) (ch : BitVec 2) (tag : Option (BitVec 3)) (kb kn : BitVec 6) (s : State) : Out :=
  match fdst with
  | .sp => issueCmd g (.fill nm1.toNat false) (cmdFunc nm1 false tag ch) ch tag none kb kn s
  | .mem ka => issueCmd g (.fill nm1.toNat true) (cmdFunc nm1 true tag ch) ch tag (some ka) kb kn s

/-! ### PUSHQ and POPQ -/

/-- The closed value (R141). -/
def closedValue : W64 := 0xFFFF_FFFF_FFFF_FFFF

/-- Appends to a gang's inlet queue; a push to an exited gang is discarded. -/
def appendInlet (s : State) (blk gang q : Nat) (v : W64) : State :=
  modGang s blk gang (fun g => if g.exited then g else { g with inlet := sset [] g.inlet q (sget [] g.inlet q ++ [v]) })
def inletFull (s : State) (blk gang q : Nat) : Bool :=
  ((getGang s blk gang).map (fun g => !g.exited && decide (16 ≤ (sget [] g.inlet q).length))).getD false

/-- PUSHQ to a gang that the block has not, or of the closed value (R164). -/
def pushIllegal (gang ks : Src) (b : Block) (k : Store W64) : Option Flt :=
  if b.gangs.length ≤ (readUni k gang).toNat ∨ readUni k ks = closedValue then some { cls := 13, cause := 3 } else none

def execPushq (g : Guard) (q : BitVec 2) (gang ks : Src) (s : State) : Out :=
  .next (runGang s { guard := g, srcs := [gang, ks], feederOk := true, feederOnly := true, early := atBlk (pushIllegal gang ks) } (fun s i =>
    match getBlk s i.blk with
    | none => .stall
    | some b =>
      let k := b.kOf i.party
      let t := (readUni k gang).toNat
      let v := readUni k ks
      if inletFull s i.blk t q.toNat then .wait s (.pushq t q.toNat v)
      else .done (appendInlet s i.blk t q.toNat v)))

/-- Whether no more values can come: no feeder, or it has exited. -/
def feederDone (b : Block) : Bool := (b.feeder.map (fun f => f.exited)).getD true

/-- What POPQ takes now: the value and the gang's queues after it. -/
def popqNow (b : Block) (g : Gang) (q : Nat) : Option (W64 × Store (List W64)) :=
  match sget [] g.inlet q with
  | v :: t => some (v, sset [] g.inlet q t)
  | [] => if feederDone b then some (closedValue, g.inlet) else none

def execPopq (g : Guard) (kd : BitVec 6) (q : BitVec 2) (s : State) : Out :=
  .next (runGang s { guard := g, srcs := [], kdst := [kd], swap := true, mem := true } (fun s i => withGang s i (fun b gi gg =>
    match popqNow b gg q.toNat with
    | some (v, inl) => .done (setK (modGang s i.blk gi (fun g => { g with inlet := inl })) i.blk i.party kd v)
    | none => .wait s (.popq kd q.toNat))))

/-! ### Guard slots -/

def slotOf (b : Block) (i : Nat) : GSlot := ((b.gslots.find? (fun p => p.1 == i)).map (·.2)).getD .unresolved
/-- The list of resolved slots holds no unresolved one. -/
def putSlot (b : Block) (i : Nat) (v : GSlot) : Block :=
  let rest := b.gslots.filter (fun p => p.1 != i)
  { b with gslots := if v = .unresolved then rest else insSorted (fun x y => decide (x.1 ≤ y.1)) (i, v) rest }

def execSetgs (g : Guard) (slot : BitVec 3) (m : SetgsSpec) (s : State) : Out :=
  .next (runGang s { guard := g, srcs := (match m with | .ks k => [.k k] | _ => []), feederOk := true, mem := true } (fun s i =>
    match getBlk s i.blk with
    | none => .stall
    | some b =>
      let want := match m with
        | .t => true
        | .f => false
        | .ks k => sget 0 (b.kOf i.party) k.toNat != 0
      let v : GSlot := if want then .isTrue else .isFalse
      let old := slotOf b slot.toNat
      if old = v then .done s
      else if old ≠ .unresolved then .fault { cls := 16, cause := 2 }
      else
        let waits := match i.party with
          | .gang gi => want && ((sfind b.gangs gi).map (fun g => pendingFor g g.live)).getD false
          | .feeder => false
        if waits then .stall else .done (modBlk s i.blk (fun b => putSlot b slot.toNat v))))

def execSetgsClr (g : Guard) (slot : BitVec 3) (s : State) : Out :=
  .next (runGang s { guard := g, srcs := [], feederOk := true, feederOnly := true } (fun s i =>
    match getBlk s i.blk with
    | none => .stall
    | some b =>
      if b.chans.any (fun c => c.tag == some slot.toNat) then .wait s (.setgsClr slot.toNat)
      else .done (modBlk s i.blk (fun b => putSlot b slot.toNat .unresolved))))

/-! ### LOOPK -/

def execLoopk (g : Guard) (kc : BitVec 6) (disp : BitVec 32) (s : State) : Out :=
  .next (runGang s { guard := g, srcs := [.k kc], kdst := [kc], feederOk := true } (fun s i =>
    let v := sget 0 (partyK s i.blk i.party) kc.toNat
    let v' := if v = 0 then 0 else v - 1
    let s1 := setK s i.blk i.party kc v'
    if v' ≠ 0 then .placed (jumpTo s1 i.blk i.party (i.addr + disp.signExtend 64)) else .done s1))

end Sys2Proof.Machine
end

