-- ==== Sys2Proof/Machine/Sync.lean ====
section
/-! DEFINITION. Machine/Sync.lean: named barriers (06 R155 to R157, R168 to R171), gauges (06 R153, R172, R173) and
mailboxes (06 R160, R174, R175). -/

namespace Sys2Proof.Machine

open Sys2Proof

/-! ### Barriers -/

/-- The name of a party among a barrier's arrivals: gangs by index, 32 the feeder. -/
def partyName : Party → Nat
  | .gang i => i
  | .feeder => 32

/-- Runs a body on a barrier operand. -/
def withBar (s : State) (i : Iss) (a : Src) (f : Block → Store W64 → Nat → Barrier → GRes) : GRes :=
  match getBlk s i.blk with
  | none => .stall
  | some b =>
    let k := b.kOf i.party
    let n := readUni k a
    f b k n.toNat (sget {} b.bars n.toNat)

def barSrcs : BarinitSpec → List Src
  | .counted n => [n]
  | _ => []

def execBarinit (g : Guard) (a : Src) (m : BarinitSpec) (s : State) : Out :=
  .next (runGang s { guard := g, srcs := a :: barSrcs m, feederOk := true, mem := true, early := atBlk (barIndex a) } (fun s i => withBar s i a (fun b k n x =>
    if x.arrivals ≠ 0 ∨ x.balance ≠ 0 then .fault { cls := 15, cause := 2 }
    else
      let put := fun (mode expected : Nat) =>
        GRes.done (modBar s i.blk n (fun x => { x with mode := mode, expected := expected, arrived := [] }))
      match m with
      | .counted c =>
        let e := (readUni k c).toNat
        if e = 0 ∨ 65535 < e then .fault { cls := 14, cause := 2 } else put 0 e
      | .blk => put 1 b.liveGangs.length
      | .blkf => put 2 (b.liveGangs.length + (if feederDone b then 0 else 1)))))

/-- Whether an arrival is refused (R169). -/
def arrivalBad (x : Barrier) (who : Nat) (n : Nat) : Bool :=
  x.expected == 0 || decide (x.expected < x.arrivals + n) || (x.mode != 0 && (n != 1 || x.arrived.contains who))

/-- Whether a level-2 gang still owes the checksum of this arrival (R375). -/
def owesChecksum (b : Block) (g : Gang) (bar : Nat) : Bool := b.level == 2 && !g.checksum.any (fun p => p.1 == bar)

/-- The arrival itself. -/
def arrive (s : State) (i : Iss) (qd : BitVec 3) (n cnt : Nat) (x : Barrier) : State :=
  evalBarrier (modBar (setQp s i.blk i.party qd x.phase) i.blk n (fun x => { x with
    arrivals := x.arrivals + cnt, arrived := if x.mode = 0 then x.arrived else x.arrived ++ [partyName i.party] })) i.blk n

def execBararr (g : Guard) (qd : BitVec 3) (a c : Src) (s : State) : Out :=
  .next (runGang s { guard := g, srcs := [a, c], feederOk := true, mem := true, rel := true, early := atBlk (barIndex a) } (fun s i => withBar s i a (fun b k n x =>
    let cnt := (readUni k c).toNat
    if arrivalBad x (partyName i.party) cnt then .fault { cls := 14, cause := 2 }
    else match i.party with
      | .feeder => .done (arrive s i qd n cnt x)
      | .gang gi => match sfind b.gangs gi with
        | none => .stall
        | some gg =>
          if x.mode ≠ 0 && owesChecksum b gg n then .wait (modGang s i.blk gi (fun g => { g with ckAt := some n })) .checksum
          else .done (arrive s i qd n cnt x))))

/-- A byte count: a register or inline integer signed, the immediate unsigned (R170). -/
def byteCount (k : Store W64) : Src → Int
  | .imm w => ((w.toNat : Nat) : Int)
  | a => (readUni k a).toInt

def execBarexp (g : Guard) (a c : Src) (s : State) : Out :=
  .next (runGang s { guard := g, srcs := [a, c], feederOk := true, mem := true, early := atBlk (barIndex a) } (fun s i => withBar s i a (fun _ k n x =>
    let v := byteCount k c
    if v < 0 ∨ 2 ^ 63 - 1 < x.balance + v then .fault { cls := 14, cause := 3 }
    else .done (evalBarrier (modBar s i.blk n (fun x => { x with balance := x.balance + v })) i.blk n))))

/-- BARWAIT waits until the phase bit differs from qs, qt read as 1. -/
def execBarwait (g : Guard) (a : Src) (qs : BitVec 3) (s : State) : Out :=
  .next (runGang s { guard := g, srcs := [a], swap := true, feederOk := true, early := atBlk (barIndex a) } (fun s i => withBar s i a (fun b _ n x =>
    let q := uniBit (b.qOf i.party) qs.toNat
    if x.phase != q then .done s else .wait s (.barwait n q))))

/-! ### Gauges -/

def execGaugeadd (g : Guard) (_sc : Scope) (ka : BitVec 6) (amount : Src) (s : State) : Out :=
  .next (runGang s { guard := g, srcs := [.k ka, amount], feederOk := true, mem := true } (fun s i =>
    match getBlk s i.blk with
    | none => .stall
    | some b =>
      let k := b.kOf i.party
      let va := readUni k (.k ka)
      let v := readUni k amount
      match gaugePlace s b .rw .all va with
      | .error f => .fault f
      | .ok l =>
        if v.getLsbD 63 then .fault { cls := 28, cause := 1, access := 9, va := va }
        else match i.party with
          | .feeder => orMiss s b .feeder va (match gaugeAddLoc s b.views l v with
            | .error (c, x) => .fault { cls := c, cause := x, access := 9, va := va }
            | .ok (.ok s) => .done s
            | .ok (.blocked f c n) => .wait (blockChild s f c n) .blocked
            | .ok .violation => .fault { cls := 17, cause := 1, access := 9, va := va })
          | .gang gi => match sfind b.gangs gi with
            | none => .stall
            | some gg =>
              if classFull gg 2 || !walkRoom s b.ctx b.core [va] then .stall
              else .done (issueOp s b gi 2 gg.live [va] (.gaugeAdd l v)).2))

/-- The target of GAUGEWAIT: the immediate is zero-extended (R173). -/
def gaugeTarget (k : Store W64) : Src → W64
  | .imm w => w.setWidth 64
  | a => readUni k a

def execGaugewait (g : Guard) (_sc : Scope) (ka : BitVec 6) (target : Src) (s : State) : Out :=
  .next (runGang s { guard := g, srcs := [.k ka, target], swap := true, feederOk := true, mem := true } (fun s i =>
    match getBlk s i.blk with
    | none => .stall
    | some b =>
      let k := b.kOf i.party
      let t := gaugeTarget k target
      match gaugePlace s b .watch .all (readUni k (.k ka)) with
      | .error f => .fault f
      | .ok l =>
        if gaugeOwed s b i.party l then .stall
        else orMiss s b i.party (readUni k (.k ka))
          (if t.toNat ≤ gaugeValue s b l then .done (touchLine s l) else .wait s (.gaugewait l t))))

/-! ### Mailboxes -/

/-- A target core outside the clique, or a mailbox beyond the block's count (R160). -/
def targetBad (target : Src) (b : Block) (k : Store W64) : Option Flt :=
  let t := (readUni k target).toNat
  if b.kd.shape.1 * b.kd.shape.2 ≤ t / 32 then some { cls := 3, cause := 3 }
  else if b.kd.nmbox ≤ t % 32 then some (resourceFault 1 (BitVec.ofNat 64 (t % 32)))
  else none

/-- The receiving block of a message, none when it has ended (R160). -/
def mboxTarget (s : State) (b : Block) (t : W64) : Option Block :=
  (cmdBlock s b (t.toNat / 32)).filter (fun x => x.stat != .ended && x.stat != .killed)

def appendMbox (s : State) (blk m : Nat) (v : W64) : State :=
  modBlk s blk (fun b => { b with mboxes := sset [] b.mboxes m (sget [] b.mboxes m ++ [v]) })

/-- A send: appended, discarded, or no room. -/
def mbsendNow (s : State) (b : Block) (x : Option Block) (m : Nat) (v : W64) : Option State :=
  match x with
  | none => some (countCtr s b.ctx 13 1)
  | some x => if 8 ≤ mboxLen x m then none else some (appendMbox s x.id m v)

def mbsendDesc (g : Guard) (target ks : Src) : GangDesc :=
  { guard := g, srcs := [target, ks], feederOk := true, mem := true, rel := true, early := atBlk (targetBad target) }

def execMbsend (g : Guard) (target ks : Src) (s : State) : Out :=
  .next (runGang s (mbsendDesc g target ks) (fun s i =>
    match getBlk s i.blk with
    | none => .stall
    | some b =>
      let k := b.kOf i.party
      let t := readUni k target
      let v := readUni k ks
      match mbsendNow s b (mboxTarget s b t) (t.toNat % 32) v with
      | some s1 => .done s1
      | none => .wait s (.mbsend (t.toNat / 32) (t.toNat % 32) v)))

def execMbsendTry (g : Guard) (qd : BitVec 3) (target ks : Src) (s : State) : Out :=
  .next (runGang s (mbsendDesc g target ks) (fun s i =>
    match getBlk s i.blk with
    | none => .stall
    | some b =>
      let k := b.kOf i.party
      let t := readUni k target
      match mbsendNow s b (mboxTarget s b t) (t.toNat % 32) (readUni k ks) with
      | some s1 => .done (setQp s1 i.blk i.party qd true)
      | none => .done (setQp s i.blk i.party qd false)))

/-- Gangs that wait to receive from a mailbox, the earliest first. -/
def mboxWaiters (b : Block) (m : Nat) : List Nat :=
  let ws := b.gangs.filter (fun (p : Nat × Gang) => match p.2.wait with | .mbrecv _ x => x == m | _ => false)
  (sortBy (fun (x y : Nat × Gang) => decide (x.2.waitSince ≤ y.2.waitSince)) ws).map (·.1)

/-- Takes the oldest message of a mailbox into a uniform register. -/
def recvInto (s : State) (blk gi m : Nat) (kd : BitVec 6) (v : W64) (rest : List W64) : State :=
  setK (modBlk s blk (fun b => { b with mboxes := sset [] b.mboxes m rest })) blk (.gang gi) kd v

def execMbrecv (g : Guard) (kd : BitVec 6) (a : Src) (s : State) : Out :=
  .next (runGang s { guard := g, srcs := [a], kdst := [kd], swap := true, mem := true, early := atBlk (mboxIndex a) } (fun s i => withGang s i (fun b gi gg =>
    let n := readUni gg.k a
    match sget [] b.mboxes n.toNat, mboxWaiters b n.toNat with
      | v :: rest, [] => .done (recvInto s i.blk gi n.toNat kd v rest)
      | _, _ => .wait s (.mbrecv kd n.toNat))))

end Sys2Proof.Machine
end

