-- ==== Sys2Proof/Machine/Blocks.lean ====
section
/-! DEFINITION. Machine/Blocks.lean: the start state of gangs and feeders (01 R9 to R11, 12 R321), the checks at a
phase boundary and at the end of a block (06 R158, 09 R255), and PHASE (12 R343, 01 R17, R18). -/

namespace Sys2Proof.Machine

open Sys2Proof

/-! ### Start states -/

/-- Threads of a block. -/
def KDesc.threads (k : KDesc) : Nat := k.bx * k.byy * k.bz
/-- Lanes of gang i that hold a thread (R11). -/
def liveAtStart (k : KDesc) (i : Nat) : Mask := maskOf (fun l => decide (64 * i + l < k.threads))
/-- Uniform registers at block start (R321). -/
def startK (b : Block) : Store W64 := ssetMany 0 [] [(0, b.k0), (1, b.k1), (2, b.k2)]
def startGang (b : Block) (i : Nat) : Gang :=
  let m := liveAtStart b.kd i
  { live := m, pc := (lanesOf m).foldl (fun r l => sset 0 r l b.kd.entry) [], k := startK b, alloc := 8 * b.kd.rmin }
def startFeeder (b : Block) : Option Feeder := if b.kd.feeder = 0 then none else some { pc := b.kd.feeder, k := startK b }
/-- A block with its gangs and feeder at their start; its scratchpad reads as zero. -/
def Block.atStart (b : Block) : Block :=
  { b with gangs := (List.range b.kd.gangs).map (fun i => (i, startGang b i)), feeder := startFeeder b, scratch := [],
           scratchBad := [], bars := [], mboxes := [], gslots := [], chans := [],
           portable := decide (b.kd.scratch = 0) && b.kd.clique.isNone }

/-! ### Checks at PHASE and block end -/

/-- Whether no command is under way or can start (R158). -/
def settled (b : Block) : Bool :=
  b.started.isEmpty && (List.range 4).all (fun ch => match b.chans.find? (fun c => c.ch == ch) with
    | none => true
    | some c => match c.tag with
      | some t => slotOf b t == .unresolved
      | none => false)

/-- Commands that wait on an unresolved slot, and positive balances: the faults of R158. The command is named by its major in w2 and its
function field in w3: the rule does not say how (DESIGN CHOICE, log 61). -/
def boundaryFault (b : Block) : Option Flt :=
  match b.chans with
  | c :: _ => some { cls := 16, cause := 1, w := [BitVec.ofNat 64 (c.tag.getD 0), BitVec.ofNat 64 c.ch,
      BitVec.ofNat 64 c.kind.major, c.func.setWidth 64] }
  | [] => (b.bars.find? (fun p => decide (0 < p.2.balance))).map
      (fun p => { cls := 15, cause := 1, w := [BitVec.ofNat 64 p.1, BitVec.ofInt 64 p.2.balance] })

/-- Whether every counted operation of a block is complete. -/
def opsDone (b : Block) : Bool := b.gangs.all (fun (p : Nat × Gang) => p.2.ops.all (fun o => o.done))

/-- Whether a gang of the block holds the gate, a bank or an open region (R255). -/
def matrixHeld (s : State) (b : Block) : Bool :=
  b.gangs.any (fun (p : Nat × Gang) => !p.2.exited && (holdsGate s b p.1 || holdsBank s b p.1 || p.2.restart.isSome))

/-! ### PHASE -/

/-- Whether the block can pass its phase boundary once gang `gi` stands at PHASE. -/
def phaseReady (s : State) (b : Block) (gi : Nat) : Bool :=
  b.gangs.all (fun (p : Nat × Gang) => p.1 == gi || p.2.exited || p.2.wait == .phase)
    && feederDone b && settled b && opsDone b && allForksEnded s b

/-- A gang after a phase boundary (R18). Its watch is dropped: neither R18's table nor R311 says that it stays (DESIGN CHOICE, log 61).
Where the barriers stay, the checksums that it has folded for them await their completion (R23). -/
def phaseGang (kd : KDesc) (portable : Bool) (g : Gang) : Gang :=
  let sums := if portable then [] else g.checksum
  if g.exited then { g with checksum := sums }
  else
    let c := carryOf kd g
    let keep := carryWords kd.carryv kd.carryk
    let vs : Store W32 := c.vs.foldl (fun s p => ssetMany 0 s (p.2.map (fun x => (reg p.1 x.1, x.2)))) []
    { live := g.live, pc := g.pc, v := vs, k := ssetMany 0 [] c.ks, alloc := 8 * kd.rmin, fstat := g.fstat,
      draw := g.draw, rangeCount := g.rangeCount, rstack := g.rstack, spill := g.spill, spillBad := g.spillBad,
      regions := g.regions, lastExit := g.lastExit, checksum := sums,
      badRegs := g.badRegs.filter (fun x => keep.contains (x / 64)) }

/-- A block after a phase boundary, queued with its phase record. -/
def phaseBlock (b : Block) (order : Nat) : Block :=
  let fd := (startFeeder b).map (fun f => { f with rangeCount := (b.feeder.map (fun f => f.rangeCount)).getD 0 })
  let gs := b.gangs.map (fun (p : Nat × Gang) => (p.1, phaseGang b.kd b.portable p.2))
  let b0 := if b.portable then { b with bars := [], scratch := [], scratchBad := [] } else b
  let b1 := { b0 with gangs := gs, feeder := fd, mboxes := [], gslots := [], chans := [], stat := .queued,
                      image := .phaseRecord, order := order }
  { b1 with recordBytes := encodeRecord b1 (rcbAddr b1.region) 0 b1.childIdx (phaseSections b1) }

/-- The boundary itself: the period count, the checksums, the record, the next phase. -/
def passPhase (s : State) (blk : Nat) : State :=
  let s1 := modBlk s blk (fun b => { b with period := (b.period + 1) % 2 ^ 64 })
  let s2 := logBarrier s1 blk phaseBar
  modBlk { s2 with pktOrder := s2.pktOrder + 1 } blk (fun b => phaseBlock b s2.pktOrder)

/-- Moves every gang of a block past its PHASE. -/
def pastPhase (s : State) (blk gi : Nat) (addr : W64) (len : Nat) : State :=
  modBlk s blk (fun b => { b with gangs := b.gangs.map (fun (p : Nat × Gang) =>
    if p.2.exited then p
    else
      let g := p.2
      let a := if p.1 = gi then addr else sget 0 g.pc (lowestLane g.live)
      (p.1, advance { g with wait := .none, waitLen := 0 } g.live a (if p.1 = gi then len else g.waitLen))) })

def phaseBody (s : State) (i : Iss) (b : Block) (gi : Nat) (gg : Gang) : GRes :=
  let counted := [0, 2, 3].any (fun c => decide (0 < classCount gg c))
  if owesChecksum b gg phaseBar then .wait (modGang s i.blk gi (fun g => { g with ckAt := some phaseBar })) .checksum
  else if counted || !phaseReady s b gi then .wait s .phase
  else
    let s1 := implicitJoins s b
    match getBlk s1 i.blk with
    | none => .placed s1
    | some b1 =>
      if b1.stat = .killed ∨ ctxHalted s1 b1.ctx then .placed s1
      else match boundaryFault b1 with
        | some f =>
          .placed (raiseGang (modBlk s1 i.blk (fun b => { b with chans := [] })) i.blk gi 5 i.addr i.len i.insn gg.live f)
        | none =>
          if matrixHeld s1 b1 then .fault (gateFlt 6)
          else .placed (passPhase (pastPhase s1 i.blk gi i.addr i.len) i.blk)

def execPhase (g : Guard) (s : State) : Out :=
  .next (runGang s { guard := g, srcs := [], swap := true, mem := true } (fun s i => withGang s i (phaseBody s i)))

end Sys2Proof.Machine
end

