-- ==== Sys2Proof/Machine/Completions.lean ====
section
/-! DEFINITION. Machine/Completions.lean: the completion of counted operations (07 R192 to R196, 06 R176), the end
of walks (03 R69), of drains (09 R248), and what lets a waiting party go on (06 R171 to R175, 11 R306, R313, 09 R238). -/

namespace Sys2Proof.Machine

open Sys2Proof

/-! ### When an operation can complete -/

def opAcq (o : Op) : Bool :=
  match o.body with
  | .load _ _ _ _ a _ => a
  | .atomic _ _ _ a _ => a
  | _ => false
def opRel (o : Op) : Bool :=
  match o.body with
  | .store _ r => r
  | .atomic _ _ _ _ r => r
  | .gaugeAdd _ _ => true
  | _ => false

/-- Whether an older operation of the gang holds this one back: an acquire of a common thread, the operations that a
release covers, an access of a common thread to a common place (R192, R274, R276). -/
def heldBy (s : State) (blk gi : Nat) (o x : Op) (rel : Bool) : Bool :=
  let common := (x.lanes &&& o.lanes) != 0
  common && x.cls != 3 && o.cls != 3
    && (opAcq x || rel || (opTouches s blk gi o).any (fun t => (opTouches s blk gi x).any (fun u => t.meets u)))

/-- The core whose array a drain reads. -/
def drainCore (o : Op) : Option Nat := match o.body with | .drain c _ _ _ _ _ _ _ _ _ => some c | _ => none

/-- Whether an older drain of the same array is not done: the drains of a core complete in its order (R240, R271). -/
def drainBehind (s : State) (o : Op) : Bool :=
  (drainCore o).isSome && s.blocks.any (fun b => b.gangs.any (fun (p : Nat × Gang) =>
    p.2.ops.any (fun x => !x.done && decide (x.id < o.id) && drainCore x == drainCore o)))

/-- Whether an operation's places on peers can be reached (R403). -/
def linkOpen (s : State) (blk gi : Nat) (o : Op) : Bool :=
  (opTouches s blk gi o).all (fun t => t.loc.ap != 2 || entryUp s (((getBlk s blk).map (fun b => b.ctx)).getD 0) t.loc)

/-- Whether an operation can complete. A remote one is sent and performed by one event: the order of these events is the order in which
its channel sends and delivers (R401). -/
def opReady (s : State) (blk gi : Nat) (g : Gang) (o : Op) (rel : Bool) : Bool :=
  o.walks.isEmpty && linkOpen s blk gi o && !drainBehind s o && (g.ops.takeWhile (fun x => x.id != o.id)).all (fun x => x.done || !heldBy s blk gi o x rel)

/-- Runs a body on an operation that can complete. -/
def withOp (s : State) (blk gi id : Nat) (rel : Op → Bool) (f : Block → Gang → Op → State) : State :=
  match getBlk s blk, getGang s blk gi with
  | some b, some g => match g.ops.find? (fun o => o.id == id && !o.done) with
    | some o => if opReady s blk gi g o (rel o) && !childHeld s b.views then f b g o else s
    | none => s
  | _, _ => s

/-- The operations that are performed together with one (R189), but those of a child that waits for a slot and those of a link that
is down: block, gang, name. -/
def opMates (s : State) (o : Op) : List (Nat × Nat × Nat) :=
  if o.group = 0 then []
  else s.blocks.flatMap (fun b => if childHeld s b.views then [] else b.gangs.flatMap (fun (p : Nat × Gang) =>
    (p.2.ops.filter (fun x => x.group == o.group && x.id != o.id && !x.done && !(opLanes x).isEmpty && linkOpen s b.id p.1 x)).map
      (fun x => (b.id, p.1, x.id))))

/-- Runs a body on an operation that is not done. -/
def onOp (s : State) (m : Nat × Nat × Nat) (f : Block → Gang → Op → State) : State :=
  match getBlk s m.1, getGang s m.1 m.2.1 with
  | some b, some g => match g.ops.find? (fun o => o.id == m.2.2 && !o.done) with
    | some o => f b g o
    | none => s
  | _, _ => s

/-- Whether such an operation can complete. -/
def mateReady (s : State) (m : Nat × Nat × Nat) : Bool :=
  match getGang s m.1 m.2.1 with
  | some g => ((g.ops.find? (fun o => o.id == m.2.2 && !o.done)).map (fun o => opReady s m.1 m.2.1 g o (opRel o))).getD true
  | none => true

/-- Performs a load or store that can complete, and those that are performed with it. -/
def withOps (s : State) (blk gi id : Nat) (serve : State → Nat → Block → Op → State) : State :=
  withOp s blk gi id opRel (fun b _ o =>
    if (opMates s o).all (mateReady s) then
      (opMates s o).foldl (fun s m => onOp s m (fun b _ o => serve s m.2.1 b o)) (serve s gi b o)
    else s)

/-- Whether an operation accesses global memory. -/
def opGlobal (o : Op) : Bool :=
  match o.body with
  | .load _ _ _ acc _ _ => acc.any (fun a => a.sp.isNone)
  | .store acc _ => acc.any (fun a => a.sp.isNone)
  | .drain _ _ _ _ _ _ _ _ _ _ => false
  | _ => true

/-- Sectors that an operation touches, after combining (R372). -/
def opSectors (s : State) (blk gi : Nat) (o : Op) : Nat :=
  ((opTouches s blk gi o).map (fun t => (t.loc.ap, t.loc.peer, t.loc.addr / 32))).eraseDups.length

/-- The record of a sampled access (R372). Its times and L2 replays are not part of any result: they are free. A global
access has no scratchpad replay (R184). -/
def sampleOp (s : State) (b : Block) (gi : Nat) (o : Op) : State :=
  match o.sampled, getGang s b.id gi with
  | some (lanes, secs), some g =>
    let x := Config.sampleTime s.tick
    skelRecord s b gi 2 0 o.addr g.regions
      (le 8 lanes ++ le 2 secs ++ zeros 2 ++ le 2 (x 1) ++ le 1 (x 2) ++ zeros 1 ++ le 4 (x 3) ++ le 4 (x 4) ++ le 4 (x 5) ++ le 4 (x 6))
  | _, _ => s

/-- Completes an operation, with the L2 replays that a global one took (R370). -/
def finish (s : State) (b : Block) (gi : Nat) (o : Op) : State :=
  let s1 := if opGlobal o then countCtr s b.ctx 4 (Config.sampleTime s.tick 1) else s
  modGang (sampleOp s1 b gi o) b.id gi (fun g => finishOp g o.id)

/-- Whether a write of a block is discarded: it is killed, and the write reaches versions of a child that are discarded
(R117); every other effect stands. -/
def blockLost (s : State) (b : Block) (l : Loc) : Bool := b.stat == .killed && !b.views.isEmpty && lostWrite s b.views l

/-! ### Loads -/

/-- A byte's place in a read-only buffer (R200). -/
def roKey (l : Loc) : Nat := (l.ap * 2 ^ 64 + l.peer) * 2 ^ 40 + l.addr

/-- What the core's buffer holds of some bytes, if it holds them all and returns them in place of the current ones (R200): one
access is served whole by one of them (R273). -/
def ldkHeld (s : State) (b : Block) (l : Loc) (n : Nat) : Option (List Byte) :=
  let held := (List.range n).filterMap (fun i => sget none (getCore s b.core).robuf (roKey l + i))
  if b.views.isEmpty && held.length == n && Config.ldkStale s.tick then some held else none
/-- What LDK reads: the current bytes, or those that the buffer still holds. -/
def ldkRead (s : State) (b : Block) (l : Loc) (n : Nat) : List Byte := (ldkHeld s b l n).getD (locRead s b.views l n)
/-- The buffer takes the sector that LDK has read from memory. -/
def ldkFill (s : State) (b : Block) (l : Loc) (n : Nat) : State :=
  if b.views.isEmpty && (ldkHeld s b l n).isNone then
    let x := { l with addr := l.addr / 32 * 32 }
    let bytes := (locRead s b.views x 32).zipIdx.map (fun p => (roKey x + p.2, some p.1))
    modCore s b.core (fun c => { c with robuf := ssetMany none c.robuf bytes })
  else s

/-- The bytes that one lane of a load reads. -/
def accRead (s : State) (b : Block) (n : Nat) (ro : Bool) (a : LaneAcc) : List Byte :=
  match a.sp with
  | some x => ((getBlk s x).map (fun x => spRead x a.loc.addr n)).getD (zeros n)
  | none => if ro then ldkRead s b a.loc n else locRead s b.views a.loc n
/-- Whether a peer answers a lane of a load as poisoned (R76). Every other place has been checked at issue (log 20). -/
def accPoison (s : State) (b : Block) (a : LaneAcc) : Bool := a.sp.isNone && a.loc.ap == 2 && locPoison s b.views a.loc

/-- Marks the lines that a load filled. -/
def accTouched (s : State) (b : Block) (ro : Bool) (n : Nat) (a : LaneAcc) : State :=
  if a.sp.isSome then s
  else
    let s1 := touchLine s a.loc
    if ro then ldkFill s1 b a.loc n else s1

/-- Delivers the values of a load. -/
def landLoad (s : State) (b : Block) (gi : Nat) (o : Op) (t : LaneTy) (n : Nat) (dst : LoadDst) (acc : List LaneAcc)
    (ro : Bool) : State :=
  let got := acc.map (fun a => (a.lane, natOf (accRead s b n ro a)))
  let s1 := acc.foldl (fun s a => accTouched s b ro n a) s
  match dst with
  | .lane d => modGang s1 b.id gi (fun g => if g.exited then g else
      got.foldl (fun g p => deliverLane g o.id p.1 d t.regs (extendLoad t p.2)) g)
  | .uni kd => match got with
    | p :: _ => if ((getGang s1 b.id gi).map (fun g => g.exited)).getD true then s1 else setK s1 b.id (.gang gi) kd (extendUni t p.2)
    | [] => s1

/-- Takes the values of an operation that has no effect off the latches that it pushed. -/
def popLatch (g : Gang) (id l : Nat) : Gang :=
  if sget 0 g.latOp (reg 0 l) ≠ id then g
  else
    let next := fun (i : Nat) => (sget 0 g.lat (reg (i + 1) l), (sget 0 g.latValid (i + 1)).getLsbD l, sget 0 g.latOp (reg (i + 1) l))
    let put := fun (g : Gang) (i : Nat) (x : W64 × Bool × Nat) =>
      { g with lat := sset 0 g.lat (reg i l) x.1, latValid := setLane g.latValid i l x.2.1, latOp := sset 0 g.latOp (reg i l) x.2.2 }
    put (put (put (put g 0 (next 0)) 1 (next 1)) 2 (next 2)) 3 (0, false, 0)

/-- An operation that faults before any effect is withdrawn. -/
def withdrawOp (s : State) (blk gang : Nat) (o : Op) : State :=
  let s1 := { s with atoms := (s.atoms.map (fun r => { r with lanes := r.lanes.filter (fun a => a.op != o.id) })).filter (fun r => !r.lanes.isEmpty) }
  modGang s1 blk gang (fun g =>
    clearFirst ((lanesOf o.lanes).foldl (fun g l => popLatch g o.id l) { g with ops := g.ops.filter (fun x => x.id != o.id) })
      (opNames o.body) o.lanes)

/-- A load of which a peer answers some lanes as poisoned: a precise fault, since its threads have waited for it. -/
def loadPoisoned (s : State) (b : Block) (gi : Nat) (o : Op) (bad : List LaneAcc) : State :=
  match bad with
  | [] => s
  | a :: _ =>
    let lanes := match o.body with
      | .load _ _ (.uni _) _ _ _ => o.lanes
      | _ => maskOfList (bad.map (fun a => a.lane))
    raiseHeld (withdrawOp s b.id gi o) b.id gi o o.lanes { cls := 8, cause := 8, lanes := lanes, access := 1, va := a.loc.va }

def serveLoad (s : State) (gi : Nat) (b : Block) (o : Op) : State :=
  match o.body with
  | .load t n dst acc _ ro => match acc.filter (accPoison s b) with
    | [] => finish (landLoad s b gi o t n dst acc ro) b gi o
    | x :: l => loadPoisoned s b gi o (x :: l)
  | _ => s

def execLoadComplete (blk gang op : Nat) (s : State) : Out := .next (withOps s blk gang op serveLoad)

/-! ### Stores -/

/-- What comes of performing the lanes of a store: all of them, with those that are through marked, and whether one waits for a
slot. -/
structure Perf where
  s : State
  acc : List LaneAcc
  blocked : Bool

/-- Performs the lanes of a store in ascending order (R189); it stops where a child needs a slot (R122). No view refuses a write
here: each was checked at issue, and FORK waits for the writes under way in its windows. -/
def performLanes (b : Block) : List LaneAcc → State → Perf
  | [], s => { s := s, acc := [], blocked := false }
  | a :: t, s =>
    let on := fun (s : State) => let r := performLanes b t s; { r with acc := { a with fin := true } :: r.acc }
    if a.fin then on s
    else match a.sp with
      | some x => on (modBlk s x (fun k => spPut k [(a.loc.addr, a.data)]))
      | none =>
        if blockLost s b a.loc then on s
        else match locWrite s b.views a.loc a.data with
          | .ok s1 => on s1
          | .blocked f c n => { s := blockChild s f c n, acc := a :: t, blocked := true }
          | .violation => on s

/-- Sectors and scratchpad words that the lanes of one store write whole lose their poison (R76). -/
def clearWhole (s : State) (b : Block) (acc : List LaneAcc) : State :=
  let bytes := acc.flatMap (fun a => (List.range a.data.length).map (fun i => (a.sp, a.loc.ap, a.loc.peer, a.loc.addr + i)))
  acc.foldl (fun s a => match a.sp with
    | some x =>
      let w := a.loc.addr / 8
      if (List.range 8).all (fun i => bytes.contains (some x, a.loc.ap, a.loc.peer, 8 * w + i))
      then modBlk s x (fun b => { b with scratchBad := b.scratchBad.filter (fun k => k != w) }) else s
    | none =>
      let g := a.loc.addr / 32
      if locPoison s b.views a.loc && !blockLost s b a.loc
        && (List.range 32).all (fun i => bytes.contains (none, a.loc.ap, a.loc.peer, 32 * g + i))
      then clearBad s b.views a.loc else s) s

/-- Performs the accesses of an operation; `done` says what follows when none is left. -/
def performOp (s : State) (b : Block) (gi : Nat) (o : Op) (acc : List LaneAcc) (put : List LaneAcc → OpBody)
    (done : Perf → State) : State :=
  let r := performLanes b acc s
  if r.blocked then modGang r.s b.id gi (fun g => { g with ops := updFirst (fun x => x.id == o.id) (fun x => { x with body := put r.acc }) g.ops })
  else done r

/-- A store, or the payload of a WSIG. All lanes of a store count for the marks, whenever each was written (R76). -/
def serveStore (s : State) (gi : Nat) (b : Block) (o : Op) : State :=
  match o.body with
  | .store acc rel => performOp s b gi o acc (fun l => .store l rel) (fun r => finish (clearWhole r.s b r.acc) b gi o)
  | .wsig acc gs false => performOp s b gi o acc (fun l => .wsig l gs false) (fun r =>
      modGang r.s b.id gi (fun g => { g with ops := updFirst (fun x => x.id == o.id) (fun x => { x with body := .wsig [] gs true }) g.ops }))
  | _ => s

def execStorePerformed (blk gang op : Nat) (s : State) : Out := .next (withOps s blk gang op serveStore)

/-- The poison that a WSIG meets at its gauge when it signals (R176): of the page, or of the sector. -/
def gaugePoison (s : State) (b : Block) (l : Loc) : Option Nat :=
  match translate s b.ctx (tlbHolds s b.ctx b.core l.va.toNat) .rw l.va with
  | .ok t => if t.pagePoison then some 1 else none
  | .error _ => none

/-- The adds of a WSIG, one after the other: those left, and the failing lanes with class, cause and address. Where a slot is
awaited, the failing ones are tried again with the rest. -/
def signalGauges (b : Block) : List (Nat × Loc) → State → State × List (Nat × Loc) × List (Nat × Nat × Nat × W64)
  | [], s => (s, [], [])
  | (l, loc) :: t, s =>
    let bad := fun (cls c : Nat) =>
      let r := signalGauges b t s
      (r.1, if r.2.1.isEmpty then [] else (l, loc) :: r.2.1, (l, cls, c, loc.va) :: r.2.2)
    if blockLost s b loc then signalGauges b t s
    else match gaugePoison s b loc with
      | some c => bad 8 c
      | none => match gaugeAddLoc s b.views loc 1 with
        | .error e => bad e.1 e.2
        | .ok (.ok s1) => signalGauges b t s1
        | .ok (.blocked f c n) => (blockChild s f c n, (l, loc) :: t, [])
        | .ok .violation => bad 17 1

/-- A failing gauge is reported precisely at the WSIG, whose threads have waited for it. -/
def execWsigSignal (blk gang op : Nat) (s : State) : Out :=
  .next (withOp s blk gang op (fun _ => true) (fun b _ o => match o.body with
    | .wsig _ gs true =>
      let r := signalGauges b gs s
      if r.2.1.isEmpty then
        let s1 := finish r.1 b gang o
        match r.2.2 with
        | [] => s1
        | x :: _ =>
          let same := maskOfList ((r.2.2.filter (fun y => y.2.1 == x.2.1)).map (fun y => y.1))
          raiseHeld s1 blk gang o same { cls := x.2.1, cause := x.2.2.1, lanes := same, access := 9, va := x.2.2.2 }
      else modGang r.1 blk gang (fun g => { g with ops := updFirst (fun x => x.id == o.id) (fun x => { x with body := .wsig [] r.2.1 true }) g.ops })
    | _ => s))

/-! ### Atomics -/

/-- Lane by lane: the last value, what each lane receives, flags of each lane. -/
def atomRun (k : AtomKind) (w : Nat) : List AtomLane → Nat → Nat × List (AtomLane × Nat × Flags)
  | [], v => (v, [])
  | a :: t, v =>
    let x := atomStep k w v a.opnd.toNat a.cmp.toNat
    let r := atomRun k w t x.1
    (r.1, (a, v, x.2) :: r.2)

/-- A lane of an atomic is through: the value (none after a fault), then the operation when it was the last lane. The flags of
all lanes are raised when the operation completes (R198). -/
def landAtom (s : State) (a : AtomLane) (x : Option (Nat × Flags)) : State :=
  match getBlk s a.blk, getGang s a.blk a.gang with
  | some b, some g => match g.ops.find? (fun o => o.id == a.op) with
    | some o => match o.body with
      | .atomic n d waiting acq rel =>
        let left := waiting.filter (fun l => l != a.lane)
        let fl := o.flags ||| ((x.map (·.2)).getD 0)
        let s1 := modGang s a.blk a.gang (fun g =>
          let g1 := match x with
            | some (v, _) => if g.exited then g else deliverLane g o.id a.lane d n v
            | none => g
          { g1 with ops := updFirst (fun y => y.id == o.id) (fun y => { y with body := .atomic n d left acq rel, flags := fl }) g1.ops })
        if left.isEmpty then finish (modGang s1 a.blk a.gang (fun g => if g.exited then g else raiseFlags g fl)) b a.gang o else s1
      | _ => s
    | none => s
  | _, _ => s

/-- Whether every operation of a request can complete now. -/
def atomReady (s : State) (r : AtomReq) : Bool :=
  r.lanes.all (fun a => match getGang s a.blk a.gang with
    | some g => match g.ops.find? (fun o => o.id == a.op) with
      | some o => opReady s a.blk a.gang g o (opRel o)
      | none => true
    | none => true)

/-- The lanes of a request whose child waits for a slot stand apart, so that the others are performed (R122). -/
def splitAtom (s : State) (r : AtomReq) : State :=
  let held := fun (a : AtomLane) => ((getBlk s a.blk).map (fun b => childHeld s b.views)).getD false
  let i := freshId s
  { i.2 with atoms := i.2.atoms.flatMap (fun x => if x.id = r.id
      then [{ r with lanes := r.lanes.filter (fun a => !held a) }, { r with id := i.1, lanes := r.lanes.filter held }].filter (fun y => !y.lanes.isEmpty)
      else [x]) }

/-- Performs a combined request at its home (R195, R196). -/
def performAtom (s : State) (r : AtomReq) : State :=
  let gone := fun (s : State) => { s with atoms := s.atoms.filter (fun x => x.id != r.id) }
  let lost := fun (a : AtomLane) => ((getBlk s a.blk).map (fun b => blockLost s b r.loc)).getD true
  let held := fun (a : AtomLane) => ((getBlk s a.blk).map (fun b => childHeld s b.views)).getD false
  let s0 := (r.lanes.filter lost).foldl (fun s a => landAtom s a none) s
  match (r.lanes.filter (fun a => !lost a)) with
  | [] => gone s0
  | a :: t => match getBlk s a.blk with
    | none => gone s
    | some b =>
      if (a :: t).all held then s
      else if (a :: t).any held then splitAtom s r
      else if !atomReady s r then s
      else
        let n := if r.w64 then 8 else 4
        let x := atomRun r.kind (8 * n) (a :: t) (locNat s b.views r.loc n)
        match locWrite s0 b.views r.loc (le n x.1) with
        | .ok s1 => gone (x.2.foldl (fun s p => landAtom s p.1 (some p.2)) s1)
        | .blocked f c k => blockChild s f c k
        | .violation => gone ((a :: t).foldl (fun s a => landAtom s a none) s0)

/-- The gauge add of a gang: a fault of the sum comes with the answer (R172). -/
def performGauge (s : State) (id : Nat) : State :=
  match s.blocks.findSome? (fun b => b.gangs.findSome? (fun (p : Nat × Gang) =>
      if p.2.ops.any (fun o => o.id == id) then some (b.id, p.1) else none)) with
  | none => s
  | some (blk, gi) => withOp s blk gi id (fun _ => true) (fun b _ o => match o.body with
    | .gaugeAdd l v =>
      if blockLost s b l then finish s b gi o
      else
        match gaugeStep s b.views l v with
        | .error e => raiseLate (finish s b gi o) blk gi o { cls := e.1, cause := e.2, access := 9, va := l.va }
        | .ok (.ok s1) => finish s1 b gi o
        | .ok (.blocked f c n) => blockChild s f c n
        | .ok .violation => finish s b gi o
    | _ => s)

def execAtomicPerformed (req : Nat) (s : State) : Out :=
  .next (match s.atoms.find? (fun r => r.id == req) with
    | some r => performAtom s r
    | none => performGauge s req)

/-! ### Drains (R248) -/

/-- The bytes of a drain, row by row, with its own flags. -/
def drainAll (fmt : Fmt) (s32 : Bool) (addr pitch : Nat) (rows : List (List W32)) : List (Nat × List Byte) × Flags :=
  rows.zipIdx.foldl (fun acc p =>
    let r := drainBytes fmt s32 p.1
    (acc.1 ++ [(addr + p.2 * pitch, r.1)], acc.2 ||| r.2)) ([], 0)

/-- The coop gauge of a drain (R256): none while the child waits for a slot; a failed add is logged. -/
def coopAdd (s : State) (b : Block) (coop : Option Loc) : Except State State :=
  match coop with
  | none => .ok s
  | some l =>
    let failed := fun (cls c : Nat) => Except.ok (devWriteFailed s (b.core / 64) b.ctx (l.va, cls, c, 0))
    if blockLost s b l then .ok s
    else match gaugeAddLoc s b.views l 1 with
      | .ok (.ok s1) => .ok s1
      | .ok (.blocked f c n) => .error (blockChild s f c n)
      | .ok .violation => failed 17 1
      | .error e => failed e.1 e.2

/-- A drain writes its bytes and raises its flags, then adds to its gauge; it completes with the add (R248). -/
def execMdrainComplete (blk gang op : Nat) (s : State) : Out :=
  .next (withOp s blk gang op (fun _ => false) (fun b _ o => match o.body with
    | .drain core _ fmt addr pitch rows s32 flags coop _ =>
      let d := drainAll fmt s32 addr pitch rows
      let s0 := modGang (modBlk s blk (fun k => spPut k d.1)) blk gang (fun g => raiseFlags g (flags ||| d.2))
      match coopAdd s0 b coop with
      | .error s1 => s1
      | .ok s1 =>
        let s2 := finish s1 b gang o
        if ((getGang s2 blk gang).map (fun g => g.exited)).getD false then freeBanksOf s2 core blk gang else s2
    | _ => s))

/-! ### Walks (R69) -/

/-- Takes a walk off every operation that waits for it. -/
def detachWalk (s : State) (w : Walk) : State :=
  w.ops.foldl (fun s r => modGang s r.1 r.2.1 (fun g => { g with
    ops := updFirst (fun o => o.id == r.2.2) (fun o => { o with walks := o.walks.filter (fun x => x != w.id) }) g.ops })) s

/-- Starts queued walks on free walkers, in order of arrival. -/
def startWalks (s : State) (die : Nat) : State :=
  let d := getDie s die
  let free := 64 - (d.walks.filter (fun w => w.running)).length
  let next := (d.walks.filter (fun w => !w.running)).take free
  next.foldl (fun s w => countCtr (modDie s die (fun d => { d with
    walks := updFirst (fun x => x.id == w.id) (fun x => { x with running := true }) d.walks })) w.ctx 6 1) s

/-- The kind of access of an operation (R353). -/
def opAccess (o : Op) : Nat :=
  match o.body with
  | .load _ _ _ _ _ _ => 1
  | .atomic _ _ _ _ _ => 3
  | .gaugeAdd _ _ => 9
  | _ => 2

/-- The end of a walk in a fault, for one access attached to it (R69): a counted operation takes the fault in the lanes whose
page it is; a feeder, a command or a fetch meets it when it tries again. -/
def walkFails (s : State) (w : Walk) (cause lv : Nat) (r : Nat × Nat × Nat) : State :=
  match (getGang s r.1 r.2.1).bind (fun g => g.ops.find? (fun o => o.id == r.2.2 && !o.done)) with
  | none => s
  | some o =>
    let hit := (opTouches s r.1 r.2.1 o).filter (fun t => t.sp.isNone && missKey t.loc.va == w.page)
    let lanes := if hit.any (fun t => t.lane.isNone) then o.lanes else maskOfList (hit.filterMap (fun t => t.lane))
    raiseHeld (withdrawOp s r.1 r.2.1 o) r.1 r.2.1 o o.lanes
      { cls := 6, cause := cause, lanes := lanes, access := opAccess o, va := ((hit.head?).map (fun t => t.loc.va)).getD (BitVec.ofNat 64 (w.page * 65536)), tlevel := lv }

/-- A walk ends (R69): the lines it read are in L2; a leaf fills the buffers of the cores that asked and completes the queued
walks of its page. -/
def execWalkComplete (die walk_ : Nat) (s : State) : Out :=
  .next (match (getDie s die).walks.find? (fun w => w.id == walk_ && w.running) with
    | none => s
    | some w =>
      let va := w.page * 65536
      let s0 := walkSeen s w.ctx va
      match walk s false (((getCtx s w.ctx).map (fun c => c.root)).getD 0) va with
      | .fault c lv =>
        let s1 := detachWalk (modDie s0 die (fun d => { d with walks := d.walks.filter (fun x => x.id != w.id) })) w
        startWalks (w.ops.foldl (fun s r => walkFails s w c lv r) s1) die
      | .leaf _ lv =>
        let size := 2 ^ pageLog lv
        let base := va / size * size
        let inPage := fun (x : Walk) => x.ctx == w.ctx && decide (base ≤ x.page * 65536) && decide (x.page * 65536 < base + size)
        let doneW := w :: (getDie s die).walks.filter (fun x => !x.running && inPage x)
        let s1 := modDie s0 die (fun d => { d with walks := d.walks.filter (fun x => !doneW.any (fun y => y.id == x.id)) })
        let s2 := (doneW.flatMap (fun x => x.cores)).eraseDups.foldl (fun s c =>
          fillTlbs s c { ctx := w.ctx, va := base, size := size }) s1
        let refs := doneW.flatMap (fun x => x.ops.filter (fun r => r.2.1 == 35))
        startWalks (refs.foldl (fun s r => match getBlk s r.1 with
          | some b => prefetchLine s b (BitVec.ofNat 64 r.2.2)
          | none => s) (doneW.foldl detachWalk s2)) die)

/-! ### Waiting parties -/

/-- Runs a body on a party's wait while its block may go on: a stopped block, one of a context that halts among them, issues nothing
more (R360, R367). -/
def withWait (s : State) (blk : Nat) (p : Party) (f : Block → Wait → State) : State :=
  match getBlk s blk with
  | some b => if b.runs && !ctxHalted s b.ctx then f b (partyWait s blk p) else s
  | none => s

def execMwaitWake (blk gang : Nat) (s : State) : Out :=
  .next (withWait s blk (.gang gang) (fun _ w => match w, getGang s blk gang with
    | .mwait kd, some g =>
      if g.watch.triggered then
        resumeParty (setK (modGang s blk gang (fun g => { g with watch := { g.watch with armed := false, triggered := false } }))
          blk (.gang gang) kd 0) blk (.gang gang)
      else s
    | _, _ => s))

def execBarwaitResume (blk : Nat) (p : Party) (s : State) : Out :=
  .next (withWait s blk p (fun b w => match w with
    | .barwait bar qs => if (sget ({} : Barrier) b.bars bar).phase != qs then resumeParty s blk p else s
    | _ => s))

/-- Bytes of the instruction at which a party of a block stands. -/
def insnAt (s : State) (b : Block) (a : W64) : W128 :=
  match fetchAt s b.ctx b.core b.views a with
  | .instr _ _ x => x
  | .illegal _ _ x => x
  | .bad _ => 0

/-- A precise fault of a party at the instruction that it waits at. -/
def raiseWaiting (s : State) (blk : Nat) (p : Party) (f : Flt) : State :=
  let a := partyPc s blk p
  let insn := ((getBlk s blk).map (fun b => insnAt s b a)).getD 0
  match p with
  | .gang gi =>
    let live := ((getGang s blk gi).map (fun g => g.live)).getD 0
    let len := ((getGang s blk gi).map (fun g => g.waitLen)).getD 0
    raiseGang s blk gi 0 a len insn live f
  | .feeder => raiseFeeder s blk 0 a insn f

def execGaugewaitResume (blk : Nat) (p : Party) (s : State) : Out :=
  .next (withWait s blk p (fun b w => match w with
    | .gaugewait l t =>
      if locPoison s b.views l then raiseWaiting s blk p { cls := 8, cause := poisonCause l, access := 9, va := l.va }
      else if t.toNat ≤ gaugeValue s b l then resumeParty (touchLine s l) blk p else s
    | _ => s))

def execMbrecvResume (blk gang : Nat) (s : State) : Out :=
  .next (withWait s blk (.gang gang) (fun b w => match w with
    | .mbrecv kd m => match sget [] b.mboxes m with
      | v :: rest => if (mboxWaiters b m).head? = some gang then resumeParty (recvInto s blk gang m kd v rest) blk (.gang gang) else s
      | [] => s
    | _ => s))

def execMbsendAppend (blk : Nat) (p : Party) (s : State) : Out :=
  .next (withWait s blk p (fun b w => match w with
    | .mbsend c m v =>
      match mbsendNow s b ((cmdBlock s b c).filter (fun x => x.stat != .ended && x.stat != .killed)) m v with
      | some s1 => resumeParty s1 blk p
      | none => s
    | _ => s))

def execPopqResume (blk gang : Nat) (s : State) : Out :=
  .next (withWait s blk (.gang gang) (fun b w => match w, getGang s blk gang with
    | .popq kd q, some g => match popqNow b g q with
      | some (v, inl) => resumeParty (setK (modGang s blk gang (fun g => { g with inlet := inl })) blk (.gang gang) kd v) blk (.gang gang)
      | none => s
    | _, _ => s))

def execPushqAppend (blk : Nat) (s : State) : Out :=
  .next (withWait s blk .feeder (fun _ w => match w with
    | .pushq gang q v => if inletFull s blk gang q then s else resumeParty (appendInlet s blk gang q v) blk .feeder
    | _ => s))

/-- A candidate for a parked WAITANY: PEND follows each level as it changes (R305), so nothing is evaluated again. -/
def execEventDispatch (blk : Nat) (p : Party) (s : State) : Out :=
  .next (withWait s blk p (fun b w => match w with
    | .waitany c => match candidate (partyEv s blk p) c with
      | some n =>
        let len := match p with
          | .gang gi => ((sfind b.gangs gi).map (fun g => g.waitLen)).getD 0
          | .feeder => (b.feeder.map (fun f => f.waitLen)).getD 0
        dispatchSlot (setWait s blk p .none 0) blk p n (partyPc s blk p + BitVec.ofNat 64 len)
      | none => s
    | _ => s))

/-! ### Gate and pool -/

def execGateGrant (core : Nat) (s : State) : Out :=
  let c := getCore s core
  .next (if c.gate.isSome then s
    else match c.gateQ.find? (gateGrantable s) with
      | none => s
      | some (blk, gi) =>
        let s1 := takeGate s core blk gi
        match partyWait s blk (.gang gi) with
        | .mgate => resumeParty s1 blk (.gang gi)
        | _ => setWait s1 blk (.gang gi) .none 0)

/-- Chunks that blocks of a core hold which satisfy `p`. -/
def coreChunks (s : State) (core : Nat) (p : Block → Bool) : Nat :=
  ((s.blocks.filter (fun b => b.onCore && b.core == core && p b)).map Block.chunks).foldl (· + ·) 0

/-- Whether every region on a block's chain keeps its chunk budget with some more chunks on a core (R325). -/
def regBudget (s : State) (core : Nat) (b : Block) (more : Nat) : Bool :=
  match getCtx s b.ctx with
  | none => false
  | some c =>
    ((chainOf c b.region).map (fun (r : Region) => r.addr) ++ [0]).all (fun (a : W64) =>
        decide (coreChunks s core (fun x => x.ctx == b.ctx && inSubtree c a x.region) + more ≤ (effRegion c a).regshare))

/-- The same, and the context's own limit (R179). -/
def chunkBudget (s : State) (core : Nat) (b : Block) (more : Nat) : Bool :=
  ((getCtx s b.ctx).map (fun c => decide (coreChunks s core (fun x => x.ctx == b.ctx) + more ≤ c.chunks))).getD false
    && regBudget s core b more

/-- More chunks that a waiting GROW asks for. -/
def growNeed (g : Gang) : Nat := match g.wait with | .grow r => (r - g.alloc) / 8 | _ => 0

/-- What the pool's queue comes to: nothing to do, its oldest request waits for free chunks, or one that it grants (R179). -/
inductive GrowTurn where
  | idle
  | lacks
  | grant (blk gang : Nat)
  deriving DecidableEq, Repr

/-- The queue in order: a request that has the chunks but not the budget is passed over, one that lacks the chunks holds back
all later ones. -/
def growScan (s : State) (core free : Nat) : List (Nat × Nat) → GrowTurn
  | [] => .idle
  | p :: t => match getBlk s p.1, getGang s p.1 p.2 with
    | some b, some g =>
      if !b.runs || ctxHalted s b.ctx then growScan s core free t
      else if free < growNeed g then .lacks
      else if chunkBudget s core b (growNeed g) then .grant p.1 p.2
      else growScan s core free t
    | _, _ => growScan s core free t
def growNext (s : State) (core : Nat) : GrowTurn :=
  growScan s core (384 - coreChunks s core (fun _ => true)) (getCore s core).growQ

/-- Registers that enter the allocation are zero (R178, R207). -/
def growRegs (g : Gang) (n : Nat) : Gang :=
  if n ≤ g.alloc then g
  else { g with alloc := n, v := g.v.filter (fun p => decide (p.1 < 64 * g.alloc)),
                badRegs := g.badRegs.filter (fun k => decide (k < 64 * g.alloc) || decide (64 * oBase ≤ k)) }

def execGrowGrant (core : Nat) (s : State) : Out :=
  .next (match growNext s core with
    | .idle => s
    | .lacks => s
    | .grant blk gi =>
      let n := match partyWait s blk (.gang gi) with | .grow r => r | _ => 0
      let s1 := modCore s core (fun c => { c with growQ := c.growQ.filter (fun p => p != (blk, gi)), sinceGrant := 0 })
      let s2 := resumeParty (modGang s1 blk gi (fun g => growRegs g n)) blk (.gang gi)
      if (getCore s2 core).growQ.isEmpty then { s2 with blocks := s2.blocks.map (fun b => { b with notAgain := b.notAgain.filter (fun c => c != core) }) }
      else s2)

/-- Whether a gang stands at a waiting instruction of R46 that is parked. -/
def Wait.parks : Wait → Bool
  | .popq _ _ | .barwait _ _ | .gaugewait _ _ | .mbrecv _ _ | .mwait _ | .waitany _ | .rqalloc _ _ | .join _ | .waitc _ _
  | .phase | .mgate | .restartGate | .grow _ => true
  | _ => false

/-- Whether the pool stands still (R180). -/
def poolStuck (s : State) (core : Nat) : Bool :=
  let c := getCore s core
  let bs := s.blocks.filter (fun b => b.core == core && b.onCore)
  !c.growQ.isEmpty && decide (4096 ≤ c.sinceGrant)
    && bs.all (fun b => b.gangs.all (fun (p : Nat × Gang) => p.2.exited || p.2.wait.parks))

def execPoolStandstillEvict (core : Nat) (s : State) : Out :=
  .next (if !poolStuck s core then s
    else
      let bs := s.blocks.filter (fun b => b.core == core && b.stat == .resident)
      match leastBy (fun (b : Block) => 2 ^ 64 - b.admitted) bs with
      | none => s
      | some b =>
        let hit := fun (x : Block) => x.stat == .resident && (x.id == b.id || (b.clique != 0 && x.clique == b.clique))
        let s1 := { s with blocks := s.blocks.map (fun x =>
          if hit x then { x with stat := .stopping, evict := true, notAgain := x.notAgain ++ [x.core] } else x) }
        countCtr (modCore s1 core (fun c => { c with sinceGrant := 0 })) b.ctx 15 1)

/-! ### Checksums (R375) -/

/-- A gang that stands at a block-wide barrier folds its state once its counters are zero. -/
def execChecksumArrival (blk gang : Nat) (s : State) : Out :=
  .next (match getBlk s blk, getGang s blk gang with
    | some b, some g =>
      if b.runs && !ctxHalted s b.ctx && g.wait == .checksum && [0, 2, 3].all (fun c => classCount g c == 0) then
        match g.ckAt with
        | none => s
        | some bar => modGang s blk gang (fun g => { g with
            checksum := g.checksum ++ [(bar, crc64 (checksumBytes g))], ckAt := none, wait := .none })
      else s
    | _, _ => s)

end Sys2Proof.Machine
end

