-- ==== Sys2Proof/Machine/StreamEvents.lean ====
section
/-! DEFINITION. Machine/StreamEvents.lean: the streamer at work (06 R142, R146 to R152): the start of a command, its
pieces, its completion, its discarding, and copy faults. -/

namespace Sys2Proof.Machine

open Sys2Proof

/-! ### Runs and pieces (R146, R147) -/

/-- Runs of a command, and the i1, i2, i3 of run r. -/
def Cmd.runs (c : Cmd) : Nat := let s := c.shape; s.x1 * s.x2 * s.x3
def Cmd.runAt (c : Cmd) (r : Nat) : Nat × Nat × Nat :=
  let s := c.shape
  (r % s.x1, r / s.x1 % s.x2, r / s.x1 / s.x2)

/-- Global address of the first byte of a run. -/
def Cmd.globalAt (c : Cmd) (r : Nat) : W64 :=
  let s := c.shape
  let (i1, i2, i3) := c.runAt r
  match c.list with
  | some _ => c.ka + BitVec.ofNat 64 (c.idx.getD r 0) * BitVec.ofInt 64 s.s1
  | none => c.ka + BitVec.ofNat 64 i1 * BitVec.ofInt 64 s.s1 + BitVec.ofNat 64 i2 * BitVec.ofInt 64 s.s2
      + BitVec.ofNat 64 i3 * BitVec.ofInt 64 s.s3
/-- Scratchpad address of the first byte of a run. -/
def Cmd.spAt (c : Cmd) (r : Nat) : Nat :=
  let s := c.shape
  let (i1, i2, i3) := c.runAt r
  c.spa + i1 * s.t1 + i2 * s.t2 + i3 * s.t3

/-- Start of a run at its destination. -/
def Cmd.dstAt (c : Cmd) (r : Nat) : Nat := if c.toMem then (c.globalAt r).toNat else c.spAt r
/-- Pieces of a run of n bytes from destination address a. -/
def piecesIn (a n : Nat) : Nat := if n = 0 then 0 else (a + n - 1) / 128 - a / 128 + 1
/-- Offset and length of piece j of a run of n bytes from a. -/
def pieceSpan (a n j : Nat) : Nat × Nat :=
  let o := if j = 0 then 0 else 128 * (a / 128 + j) - a
  (o, min (n - o) (if j = 0 then 128 - a % 128 else 128))

/-- Places for pieces of one run in the numbering of a command's pieces. -/
def Cmd.perRun (c : Cmd) : Nat := c.shape.x0 / 128 + 2
/-- Destinations of a command: clique cores, or one for memory. -/
def Cmd.dests (c : Cmd) (b : Block) : List Nat := if c.toMem then [b.cliqueIdx] else c.cores b

/-- One piece: its destination, run, offset in the run and length. -/
structure Piece where
  dst : Nat
  run : Nat
  off : Nat
  len : Nat
  deriving DecidableEq, Repr

/-- Piece number p of a command. -/
def Cmd.piece (c : Cmd) (b : Block) (p : Nat) : Option Piece :=
  let j := p % c.perRun
  let r := p / c.perRun % c.runs
  match (c.dests b)[p / c.perRun / c.runs]? with
  | none => none
  | some d =>
    let a := c.dstAt r
    if j < piecesIn a c.shape.x0 then
      let x := pieceSpan a c.shape.x0 j
      some { dst := d, run := r, off := x.1, len := x.2 }
    else none
/-- Numbers that a command's pieces may have. -/
def Cmd.pieceRange (c : Cmd) (b : Block) : Nat := (c.dests b).length * c.runs * c.perRun
/-- Bytes delivered so far. -/
def Cmd.deliveredBytes (c : Cmd) (b : Block) : Nat :=
  ((c.delivered.filterMap (c.piece b)).map (fun x => x.len)).foldl (· + ·) 0
/-- Whether every piece is visible. -/
def Cmd.allDelivered (c : Cmd) (b : Block) : Bool := c.deliveredBytes b == c.bytes b

/-! ### Copy faults (R151) -/

/-- Takes a command out of those under way. -/
def dropCmd (s : State) (blk id : Nat) : State :=
  modBlk s blk (fun b => { b with started := b.started.filter (fun c => c.id != id) })

/-- A fault of a started command: the block is terminated, commands that have not started are discarded. -/
def copyFault (s : State) (blk : Nat) (c : Cmd) (f : Flt) : State :=
  let s1 := modBlk (dropCmd s blk c.id) blk (fun b => { b with chans := [] })
  raiseBlock s1 blk 2 c.addr
    { f with w := [BitVec.ofNat 64 c.kind.major, c.func.setWidth 64, BitVec.ofNat 64 c.ch, 0] }

/-- A failed place of a command. -/
def cmdErr (access : Nat) (e : LErr) : Flt := lerrFlt access e

/-! ### Start (R142) -/

/-- The index list of a command: read when it starts. -/
def readList (s : State) (b : Block) (c : Cmd) : Except Flt (List Nat) :=
  match c.list with
  | none => .ok []
  | some (ls, n) =>
    let k := c.shape.x1
    let a := (c.word 7).toNat
    let cut := fun (l : List Byte) => (List.range k).map (fun i => natAt l (n * i) n)
    if ls then
      if spBad b a (n * k) then .error { cls := 8, cause := 3, access := 5, va := c.word 7 } else .ok (cut (spRead b a (n * k)))
    else match structRead s b.ctx (some b.core) b.views (c.word 7) (n * k) with
      | .error e => .error (cmdErr 5 e)
      | .ok l => .ok (cut l)

/-- A translation that some bytes of a command wait for (R68, R69). -/
def missRun (s : State) (b : Block) (c : Cmd) (va : W64) (n : Nat) : Option State :=
  (byPage va (n / 65536 + 2) n).findSome? (fun p => missAt s b.ctx b.core (pieceRef b.id c.id) p.1)

/-- What the index list waits for. -/
def listMiss (s : State) (b : Block) (c : Cmd) : Option State :=
  match c.list with
  | some (false, n) => missRun s b c (c.word 7) (n * c.shape.x1)
  | _ => none
def listSeen (s : State) (b : Block) (c : Cmd) : State :=
  match c.list with
  | some (false, n) => runSeen s b.ctx (some b.core) .rd (c.word 7) (n * c.shape.x1)
  | _ => s

/-- The head of a channel. -/
def chanHead (b : Block) (ch : Nat) : Option Cmd := b.chans.find? (fun c => c.ch == ch)
/-- Whether the streamer starts commands of a block: not once the block stops (R360) or its context halts (R367). -/
def streamerOn (s : State) (b : Block) : Bool := b.runs && ((getCtx s b.ctx).map (fun c => c.goesOn)).getD false

def execCommandStart (blk ch : Nat) (s : State) : Out :=
  .next (match getBlk s blk with
    | none => s
    | some b => match chanHead b ch with
      | none => s
      | some c =>
        if !streamerOn s b || !(match c.tag with | some t => slotOf b t == .isTrue | none => true) then s
        else
          let s1 := modBlk s blk (fun b => { b with chans := b.chans.filter (fun x => x.id != c.id), started := b.started ++ [c] })
          match readList s b c with
          | .error f => copyFault s1 blk c f
          | .ok l => match listMiss s b c with
            | some s2 => s2
            | none => modBlk (listSeen s1 b c) blk (fun b => { b with started := updFirst (fun x => x.id == c.id) (fun x => { x with idx := l }) b.started }))

/-! ### Pieces -/

/-- The source bytes of a piece. -/
def pieceSource (s : State) (b : Block) (c : Cmd) (p : Piece) : Except Flt (List Byte) :=
  match c.kind with
  | .fill _ _ => .ok ((List.range p.len).map (fun i => BitVec.ofNat 8 ((c.word 7).toNat / 256 ^ ((p.off + i) % 8))))
  | _ =>
    if c.toMem then
      let a := c.spAt p.run + p.off
      if spBad b a p.len then .error { cls := 8, cause := 3, access := 5, va := BitVec.ofNat 64 a } else .ok (spRead b a p.len)
    else match structRead s b.ctx (some b.core) b.views (c.globalAt p.run + BitVec.ofNat 64 p.off) p.len with
      | .error e => .error (cmdErr 5 e)
      | .ok l => .ok l

/-- Where a piece lies: a physical place (R271), or a clique core's scratchpad. -/
def pieceKey (s : State) (b : Block) (c : Cmd) (p : Piece) : Nat × Nat × Nat :=
  let a := c.dstAt p.run + p.off
  if c.toMem then
    match translate s b.ctx (tlbHolds s b.ctx b.core a) .wr (BitVec.ofNat 64 a) with
    | .ok t => (t.loc.ap, t.loc.peer, t.loc.addr)
    | .error _ => (4, 0, a)
  else (5, p.dst, a)

/-- Where later elements of the command have already written (R146). -/
def laterSpans (s : State) (c : Cmd) (b : Block) (p : Piece) : List ((Nat × Nat × Nat) × Nat) :=
  ((c.delivered.filterMap (c.piece b)).filter (fun x => decide (p.run < x.run))).map (fun x => (pieceKey s b c x, x.len))
def laterWrote (spans : List ((Nat × Nat × Nat) × Nat)) (k : Nat × Nat × Nat) (i : Nat) : Bool :=
  spans.any (fun x => x.1.1 == k.1 && x.1.2.1 == k.2.1 && decide (x.1.2.2 ≤ k.2.2 + i) && decide (k.2.2 + i < x.1.2.2 + x.2))

/-- Runs of bytes, by address, with the bytes that later elements wrote left out. -/
def keepRuns : List (Nat × Byte) → List (Nat × List Byte)
  | [] => []
  | (a, x) :: t => match keepRuns t with
    | (a', l) :: r => if a' = a + 1 then (a, x :: l) :: r else (a, [x]) :: (a', l) :: r
    | [] => [(a, [x])]

/-- What writing a piece gives. -/
inductive PieceRes where
  | ok (s : State)
  | blocked (s : State)
  | fault (s : State) (f : Flt)

/-- Writes a run of a piece to scratchpad; a partial write of a poisoned word is a copy fault (R76). -/
def putSp (s : State) (dst : Block) (a : Nat) (bs : List Byte) : PieceRes :=
  let partialBad := dst.scratchBad.any (fun w => decide (8 * w < a + bs.length) && decide (a < 8 * w + 8)
    && !(decide (a ≤ 8 * w) && decide (8 * w + 8 ≤ a + bs.length)))
  let s1 := spWrite s dst.id [(a, bs)]
  if partialBad then .fault s1 { cls := 8, cause := 3, access := 6, va := BitVec.ofNat 64 a } else .ok s1

/-- Writes a run of a piece to memory: it lies in one 128-byte line. -/
def putMem (s : State) (b : Block) (va : W64) (bs : List Byte) : PieceRes :=
  match transRun s b.ctx (some b.core) .wr va bs.length with
  | .error e => .fault s (cmdErr 6 e)
  | .ok [] => .ok s
  | .ok ((l, _) :: _) => if blockLost s b l then .ok s else match locWriteRun true s b.views l bs with
    | .ok s1 =>
      if (sectorsOf l.addr bs.length).any (fun sec => locPoison s1 b.views { l with addr := 32 * sec })
      then .fault s1 { cls := 8, cause := 2, access := 6, va := va } else .ok s1
    | .blocked f c n => .blocked (blockChild s f c n)
    | .violation => .fault s { cls := 17, cause := 1, access := 6, va := va }

/-- Writes the bytes of a piece that stand. -/
def putPiece (s : State) (b : Block) (c : Cmd) (p : Piece) (bs : List Byte) : PieceRes :=
  let a := c.dstAt p.run + p.off
  let spans := laterSpans s c b p
  let k := pieceKey s b c p
  (keepRuns ((cells a bs).filter (fun x => !laterWrote spans k (x.1 - a)))).foldl (fun r x => match r with
    | .ok s =>
      if c.toMem then putMem s b (BitVec.ofNat 64 x.1) x.2
      else match cmdBlock s b p.dst with
        | some d => putSp s d x.1 x.2
        | none => .ok s
    | r => r) (.ok s)

/-- What reading a piece's global source leaves in L2. -/
def pieceSeen (s : State) (b : Block) (c : Cmd) (p : Piece) : State :=
  match c.kind with
  | .fill _ _ => s
  | _ => if c.toMem then s else runSeen s b.ctx (some b.core) .rd (c.globalAt p.run + BitVec.ofNat 64 p.off) p.len

/-- What a command is called in a report (R157): its major and its function bits. -/
def Cmd.name (c : Cmd) : Nat := c.kind.major + 256 * c.func.toNat

/-- The block whose barrier a delivery to a destination draws down. -/
def drawBlock (s : State) (b : Block) (c : Cmd) (dst : Nat) : Option Nat :=
  if c.toMem then some b.id else (cmdBlock s b dst).map (fun x => x.id)
def drawFor (s : State) (b : Block) (c : Cmd) (dst n : Nat) : State :=
  if c.bbind then match drawBlock s b c dst with
    | some d => drawDown s d c.bidx n c.name
    | none => s
  else s

/-- The translations that a piece waits for: of its source, of its destination. -/
def pieceMiss (s : State) (b : Block) (c : Cmd) (p : Piece) : Option State :=
  match c.kind with
  | .fill _ false => none
  | _ => missRun s b c (c.globalAt p.run + BitVec.ofNat 64 p.off) p.len

def execPieceDelivered (blk cmd piece : Nat) (s : State) : Out :=
  .next (match getBlk s blk with
    | none => s
    | some b => match b.started.find? (fun c => c.id == cmd) with
      | none => s
      | some c => match c.piece b piece with
        | none => s
        | some p =>
          if c.delivered.contains piece || childHeld s b.views then s
          else match pieceSource s b c p with
            | .error f => copyFault s blk c f
            | .ok bs => match pieceMiss s b c p with
              | some s1 => s1
              | none => match putPiece (pieceSeen s b c p) b c p bs with
              | .fault s1 f => copyFault s1 blk c f
              | .blocked s1 => s1
              | .ok s1 =>
                let s2 := modBlk s1 blk (fun b => { b with
                  started := updFirst (fun x => x.id == cmd) (fun x => { x with delivered := x.delivered ++ [piece] }) b.started })
                drawFor s2 b c p.dst p.len)

/-! ### Completion and discarding (R147, R148, R152) -/

/-- The gauge add of a command: the state and whether the add was performed, not held back for a slot of a fork or a translation. -/
def cmdGauge (s : State) (b : Block) (c : Cmd) : Except Flt (State × Bool) :=
  if !c.gbind then .ok (s, true)
  else
    let va := c.word 5
    match translate s b.ctx (tlbHolds s b.ctx b.core va.toNat) .rw va with
    | .error (x, lv) => .error { cls := 6, cause := x, access := 9, va := va, tlevel := lv }
    | .ok t => match keyFault s b.ctx t.loc with
      | some x => .error { cls := 7, cause := x, access := 9, va := va }
      | none =>
        if t.pagePoison then .error { cls := 8, cause := 1, access := 9, va := va }
        else if blockLost s b t.loc then .ok (s, true)
        else match missAt s b.ctx b.core (pieceRef b.id c.id) va with
        | some s1 => .ok (s1, false)
        | none => match gaugeAddLoc s b.views t.loc (c.increment b) with
          | .error e => .error { cls := e.1, cause := e.2, access := 9, va := va }
          | .ok (.ok s1) => .ok (s1, true)
          | .ok (.blocked f ch n) => .ok (blockChild s f ch n, false)
          | .ok .violation => .error { cls := 17, cause := 1, access := 9, va := va }

def execCommandComplete (blk cmd : Nat) (s : State) : Out :=
  .next (match getBlk s blk with
    | none => s
    | some b => match b.started.find? (fun c => c.id == cmd) with
      | none => s
      | some c =>
        if !c.allDelivered b || childHeld s b.views then s
        else match cmdGauge s b c with
          | .error f => copyFault s blk c f
          | .ok (s1, done) => if done then dropCmd s1 blk cmd else s1)

def execCommandDiscarded (blk ch : Nat) (s : State) : Out :=
  .next (match getBlk s blk with
    | none => s
    | some b => match chanHead b ch with
      | none => s
      | some c =>
        if !streamerOn s b || childHeld s b.views || !(match c.tag with | some t => slotOf b t == .isFalse | none => false) then s
        else match cmdGauge s b c with
          | .error f => copyFault s blk c f
          | .ok (s1, done) =>
            if !done then s1
            else (c.dests b).foldl (fun s d => drawFor s b c d c.bytesEach)
              (modBlk s1 blk (fun b => { b with chans := b.chans.filter (fun x => x.id != c.id) })))

end Sys2Proof.Machine
end

