-- ==== Sys2Proof/Machine/ForkEvents.lean ====
section
/-! DEFINITION. Machine/ForkEvents.lean: the sluices and the reservoir at work (05 R112 to R116, R122 to R124), and
forks of chip scope (05 R127 to R130). -/

namespace Sys2Proof.Machine

open Sys2Proof

/-! ### The parent view (R113, R124) -/

/-- A granule in a fork's parent view: memory, or what the parent child holds. No twin of the fork stands before it. -/
def parentRead (s : State) (m gran : Nat) : View → BitVec 256 × Bool
  | [] => (sectorUnder s gran m, sectorBad s gran)
  | (f, c) :: rest => match getFork s f with
    | none => parentRead s m gran rest
    | some fk => match forkSeg fk (32 * gran) with
      | none => parentRead s m gran rest
      | some g => match verOf fk c gran with
        | some w => (w.bytes, w.poisoned)
        | none =>
          if g.redop ≠ 0 then (redGranule g.redop g.redtype, false)
          else match twinOf fk gran with
            | some t => (t.bytes, t.poisoned)
            | none => parentRead s m gran rest

/-- Slots that committing a granule needs of the parent's own fork (R124). -/
def parentNeed (s : State) (gran : Nat) (v : View) : Nat :=
  match ownerOf s gran v with
  | some (f, c) => ((getFork s f).map (fun fk => slotNeed fk c gran)).getD 0
  | none => 0

/-- Writes a granule of the parent view. -/
def parentWrite (s : State) (m gran : Nat) (x : BitVec 256) : View → State
  | [] => hbmWrite s m (32 * gran) (granBytes x 0 32)
  | (f, c) :: rest => match getFork s f with
    | none => parentWrite s m gran x rest
    | some fk =>
      if (forkSeg fk (32 * gran)).isSome then modVer (makeVersion s m gran f c rest) f c gran (fun w => { w with bytes := x })
      else parentWrite s m gran x rest

/-! ### Folds (R115) -/

/-- The fold of one element of a reduction page: new element and flags. -/
def foldElem (op ty p v : Nat) : Nat × Flags :=
  let w := 8 * redBytes ty
  let signed := ty == 0 || ty == 2
  let less := fun (x y : Nat) => if signed then decide (sx w x < sx w y) else decide (x < y)
  if ty = 4 ∨ ty = 5 then
    let f : Fmt := if ty = 4 then .f32 else .bf16
    let x := unpackF f p
    let y := unpackF f v
    match op with
    | 1 => finishF f .rne 0 (addV .rne x y)
    | 2 => (packF f (minV x y), 0)
    | _ => (packF f (maxV x y), 0)
  else (match op with
    | 1 => (p + v) % 2 ^ w
    | 2 => if less v p then v else p
    | 3 => if less p v then v else p
    | 4 => p &&& v
    | 5 => p ||| v
    | _ => p ^^^ v, 0)

/-- The fold of a granule. -/
def foldGranule (op ty : Nat) (p v : BitVec 256) : BitVec 256 × Flags :=
  let n := redBytes ty
  (List.range (32 / n)).foldl (fun (acc : BitVec 256 × Flags) k =>
    let r := foldElem op ty (natOf (granBytes p (k * n) n)) (natOf (granBytes v (k * n) n))
    (patch acc.1 (k * n) (le n r.1), acc.2 ||| r.2)) (p, 0)

/-! ### One prefix step (R113) -/

/-- A granule that a step is about: its number, the child's bytes, its run. -/
abbrev StepGran := Nat × BitVec 256 × Seg

/-- The twin of a granule; one is made of the parent view where none exists. -/
def twinFor (s : State) (f : Fork) (g : StepGran) : Twin :=
  (twinOf f g.1).getD (let p := parentRead s (keyMat s g.2.2.key) g.1 f.parentView
    { gran := g.1, bytes := p.1, poisoned := p.2 })

/-- Virtual address of a byte of a granule. -/
def granVa (g : StepGran) (i : Nat) : Nat := g.2.2.va + (32 * g.1 + i - g.2.2.pa)
def byteOf (x : BitVec 256) (i : Nat) : Byte := x.extractLsb' (8 * i) 8

/-- Poisoned granules of a step, by virtual address, the lowest first. -/
def stepPoison (s : State) (f : Fork) (gs : List StepGran) : Option Nat :=
  ((gs.filter (fun g => (twinFor s f g).poisoned || (parentRead s (keyMat s g.2.2.key) g.1 f.parentView).2)).map
    (fun g => granVa g 0)).foldl (fun m a => some (min (m.getD a) a)) none

/-- Conflicts of a step: earlier child, virtual address, twin byte, the earlier child's byte, this child's byte. -/
def stepConflicts (s : State) (f : Fork) (gs : List StepGran) : List (Nat × Nat × Byte × Byte × Byte) :=
  gs.flatMap (fun g =>
    if g.2.2.redop ≠ 0 then []
    else
      let t := twinFor s f g
      let p := (parentRead s (keyMat s g.2.2.key) g.1 f.parentView).1
      (List.range 32).filterMap (fun i =>
        if byteOf g.2.1 i = byteOf t.bytes i then none
        else (sget none t.chg i).map (fun a => (a, granVa g i, byteOf t.bytes i, byteOf p i, byteOf g.2.1 i))))

/-- The report of a conflict of child b (R114). -/
def conflictReport (f : Fork) (b : Nat) (cs : List (Nat × Nat × Byte × Byte × Byte)) : Option Report :=
  match leastBy (fun x => x.1) cs with
  | none => none
  | some lo => (leastBy (fun x => x.2.1) (cs.filter (fun x => x.1 == lo.1))).map (fun x =>
      { cls := 19, kind := 4, level := f.level, ctx := f.ctx, va := BitVec.ofNat 64 x.2.1, child := b,
        w := [BitVec.ofNat 64 x.1, BitVec.ofNat 64 b,
              BitVec.ofNat 64 (x.2.2.1.toNat + 256 * x.2.2.2.1.toNat + 65536 * x.2.2.2.2.toNat)] })

/-- Records that child c changed bytes of a granule. -/
def markChanged (f : Fork) (t : Twin) (is : List Nat) (c : Nat) : Fork :=
  let t1 := { t with chg := ssetMany none t.chg (is.map (fun i => (i, some c))) }
  { f with twins := if (twinOf f t.gran).isSome then updFirst (fun x => x.gran == t.gran) (fun _ => t1) f.twins else f.twins ++ [t1] }

/-- Commits one granule of child c into the parent view: the state and the fold's flags. -/
def commitGranule (s : State) (fid c : Nat) (g : StepGran) : State × Flags :=
  match getFork s fid with
  | none => (s, 0)
  | some f =>
    let m := keyMat s g.2.2.key
    let t := twinFor s f g
    let p := (parentRead s m g.1 f.parentView).1
    let l : Loc := { ap := 0, addr := 32 * g.1, key := g.2.2.key, va := BitVec.ofNat 64 (granVa g 0) }
    if g.2.2.redop ≠ 0 then
      let r := foldGranule g.2.2.redop g.2.2.redtype p g.2.1
      let s1 := parentWrite s m g.1 r.1 f.parentView
      (notifyWrite (modFork s1 fid (fun f => markChanged f t (List.range 32) c)) f.parentView l, r.2)
    else
      let is := (List.range 32).filter (fun i => byteOf g.2.1 i != byteOf t.bytes i)
      if is.isEmpty then (s, 0)
      else
        let x := is.foldl (fun p i => patch p i [byteOf g.2.1 i]) p
        let s1 := parentWrite s m g.1 x f.parentView
        (notifyWrite (modFork s1 fid (fun f => markChanged f t is c)) f.parentView l, 0)

/-- Commits all granules. -/
def commitAll (s : State) (fid c : Nat) (gs : List StepGran) : State × Flags :=
  gs.foldl (fun (acc : State × Flags) g =>
    let r := commitGranule acc.1 fid c g
    (r.1, acc.2 ||| r.2)) (s, 0)

/-- Granules of which a child holds a version, ascending. -/
def stepGrans (f : Fork) (c : Nat) : List StepGran :=
  (sortBy (fun (x y : Version) => decide (x.gran ≤ y.gran)) (f.vers.filter (fun v => v.child == c))).filterMap
    (fun v => (forkSeg f (32 * v.gran)).map (fun g => (v.gran, v.bytes, g)))

/-! ### Failure and the end (R116, R117) -/

/-- Whether a device runs a child at chip scope (R127). -/
def selfDevice (s : State) (ctx : Nat) : Option Nat :=
  (getCtx s ctx).bind (fun c => (c.peers.find? (fun p => p.2.valid && p.2.self)).map (·.1))
def runsHere (s : State) (f : Fork) (c : Nat) : Bool :=
  if f.scope = .chip then match f.slots[c]?, selfDevice s f.ctx with
    | some (p, b, has), some d => p == d || (has && b == d)
    | _, _ => false
  else true

/-- The head: the lowest child that is not merged; at chip scope the lowest local one that has not ended. -/
def headOf (s : State) (f : Fork) : Option Child :=
  if f.scope = .chip then f.children.find? (fun c => runsHere s f c.idx && c.st != .merged && c.st != .complete && c.st != .cancelled
      && !(c.st == .failed && c.sent))
  else f.children.find? (fun c => c.st != .merged)

/-- The fork ends once its prefix reaches the failing child, or its end. -/
def forkSettle (s : State) (fid : Nat) : State :=
  match getFork s fid with
  | none => s
  | some f =>
    if f.ended || f.scope == .chip then s
    else match headOf s f, f.failAt with
      | none, _ => endFork s fid 0 f.count
      | some h, some (b, outcome, _) => if h.idx = b then endFork s fid outcome b else s
      | _, none => s

/-- A final failure at child b: the lower of two stands; children above it are cancelled. -/
def failAtChild (s : State) (fid b outcome : Nat) (rep : Report) : State :=
  match getFork s fid with
  | none => s
  | some f =>
    if (f.failAt.map (fun x => decide (x.1 ≤ b))).getD false then s
    else
      let s1 := modFork s fid (fun f => { f with failAt := some (b, outcome, rep), report := rep })
      forkSettle (cancelFrom s1 f (b + 1)) fid

/-- A poison report of a fork. -/
def forkPoison (f : Fork) (b cause : Nat) (va : Nat) : Report :=
  { cls := 8, cause := cause, kind := 4, level := f.level, ctx := f.ctx, va := BitVec.ofNat 64 va, child := b }

/-- The poisoned version of lowest address among those that a child holds: the child fails for it (R76). -/
def childPoison (f : Fork) (c : Nat) : Option Report :=
  (((stepGrans f c).filter (fun g => ((verOf f c g.1).map (fun v => v.poisoned)).getD false)).map (fun g => granVa g 0)).foldl
    (fun m a => some (min (m.getD a) a)) none |>.map (forkPoison f c 2)

/-- Whether a step writes a granule of the parent view: a fold always does, an ordinary granule where it differs from its twin. -/
def commits (s : State) (f : Fork) (g : StepGran) : Bool := g.2.2.redop != 0 || g.2.1 != (twinFor s f g).bytes
/-- Slots that a step needs of the fork that encloses the parent, for the granules that it writes (R124). -/
def stepNeed (s : State) (f : Fork) (gs : List StepGran) : Nat :=
  ((gs.filter (commits s f)).map (fun g => parentNeed s g.1 f.parentView)).foldl (· + ·) 0
/-- Whether the enclosing fork has them, and the child that must wait otherwise. -/
def stepRoom (s : State) (f : Fork) (need : Nat) : Option (Nat × Nat) :=
  match f.parentView with
  | [] => none
  | (o, c) :: _ => match getFork s o with
    | none => none
    | some fk => if slotRoom fk c need then none else some (o, c)

def execPrefixStep (fork : Nat) (s : State) : Out :=
  .next (match getFork s fork with
    | none => s
    | some f =>
      if f.ended || f.scope == .chip || childHeld s f.parentView || ctxHalted s f.ctx then s
      else match headOf s f with
        | none => forkSettle s fork
        | some h =>
          if h.st ≠ .complete then s
          else
            let gs := stepGrans f h.idx
            match stepPoison s f gs with
            | some va => failAtChild s fork h.idx 4 (forkPoison f h.idx 7 va)
            | none => match childPoison f h.idx with
              | some rep =>
                if h.reruns < f.retry && !h.noRerun then
                  modChild (failChild s fork h.idx rep false) fork h.idx (fun c => { c with st := .unstarted, reruns := c.reruns + 1 })
                else failAtChild (failChild s fork h.idx rep false) fork h.idx 2 { rep with kind := 4 }
              | none => match conflictReport f h.idx (stepConflicts s f gs) with
                | some rep => failAtChild s fork h.idx 1 rep
                | none => match stepRoom s f (stepNeed s f gs) with
                  | some (o, c) => blockChild s o c (stepNeed s f gs)
                  | none =>
                    let r := commitAll s fork h.idx gs
                    let s1 := modFork r.1 fork (fun f => dropVersions { f with mflags := f.mflags ||| r.2.setWidth 5 } h.idx)
                    forkSettle (countCtr (modChild s1 fork h.idx (fun c => { c with st := .merged })) f.ctx 12 1) fork)

/-! ### Slots (R122, R123) -/

/-- The lowest blocked child, when the fork has the slots that it asks for. -/
def slotWinner (f : Fork) : Option Child :=
  (f.children.find? (fun c => c.st == .blocked)).filter (fun c => slotRoom f c.idx c.need)

def execSlotGrant (fork : Nat) (s : State) : Out :=
  .next (match getFork s fork with
    | none => s
    | some f => match slotWinner f with
      | none => s
      | some c => if f.ended || ctxHalted s f.ctx then s
        else modChild s fork c.idx (fun c => { c with st := .running, granted := c.need, need := 0 }))

/-- Slots that were granted and not yet taken go back, and the child is Blocked again, so that room for the head never depends on
when a granted child runs (R123). -/
def withdrawGrants (f : Fork) (head : Nat) : Fork :=
  { f with children := f.children.map (fun c => if c.idx ≠ head ∧ c.st = .running ∧ c.granted ≠ 0 then
      { c with st := .blocked, need := c.granted, granted := 0 } else c) }
def grantsOut (f : Fork) (head : Nat) : Bool := f.children.any (fun c => c.idx != head && c.st == .running && c.granted != 0)

/-- The grid of a fork child leaves; the grids and record queues that it started and the forks that it opened are descendant work of
the grid that opened the fork (R318). -/
def dropChildGrid (s : State) (g : Grid) : State :=
  { s with grids := (s.grids.filter (fun x => x.id != g.id)).map (fun x => if x.parent = some g.id then { x with parent := g.parent } else x),
           forks := s.forks.map (fun f => if f.openerGrid = some g.id then { f with openerGrid := g.parent } else f) }

/-- Children other than the head that hold versions. -/
def holders (f : Fork) (head : Nat) : List Nat :=
  (f.children.filter (fun c => c.idx != head && f.vers.any (fun v => v.child == c.idx))).map (fun c => c.idx)

def execForkRollback (fork : Nat) (s : State) : Out :=
  .next (match getFork s fork with
    | none => s
    | some f => match headOf s f with
      | none => s
      | some h =>
        if f.ended || h.st != .blocked || (slotWinner f).isSome || ctxHalted s f.ctx then s
        else if grantsOut f h.idx then modFork s fork (fun f => withdrawGrants f h.idx)
        else match (holders f h.idx).getLast? with
          | some c =>
            let live := s.blocks.any (fun b => b.views.head? == some (fork, c) && b.stat != .ended)
            let s0 := modFork (stopChild s fork c) fork (fun f => dropVersions f c)
            let s1 := if live then s0 else (s0.grids.filter (fun g => g.fork == some fork && g.child == some c)).foldl dropChildGrid s0
            countCtr (modChild s1 fork c (fun x => { x with st := if live then .running else .unstarted, granted := 0, need := 0,
                                                            ending := if live then .rolledBack else .no })) f.ctx 11 1
          | none =>
            let rep : Report := { cls := 20, cause := 1, kind := 4, level := f.level, ctx := f.ctx, child := h.idx }
            let s1 := modFork s fork (fun f => { f with slotsAtExh := slotsHeld f })
            if f.scope = .chip then failChild s1 fork h.idx rep true else failAtChild s1 fork h.idx 3 rep)

/-! ### Chip scope (R127 to R130) -/

/-- Home device of slice i of window w. -/
def sliceHome (f : Fork) (w i : Nat) : Nat := f.homes.getD ((i + w) % (max 1 f.homes.length)) 0
def homedHere (s : State) (f : Fork) (w i : Nat) : Bool := selfDevice s f.ctx == some (sliceHome f w i)

/-- The tracked run of a window's byte offset: granule number and run. -/
def offGran (f : Fork) (w off : Nat) : Option (Nat × Seg) :=
  (f.wins[w]?).bind (fun x => (x.segs.find? (fun g => decide (g.va ≤ x.base + off) && decide (x.base + off < g.va + g.len))).map
    (fun g => ((g.pa + (x.base + off - g.va)) / 32, g)))

/-- A child's contribution to one slice: the offsets and bytes of its versions there, by offset, with its reruns and its last fault, which
the home's record names (R119, R130). -/
def contribution (f : Fork) (dev : Nat) (backup final : Bool) (c w i : Nat) : Contribution :=
  let x := f.children.find? (fun x => x.idx == c)
  { win := w, slice := i, child := c, backup := backup, device := dev, final := final,
    report := ((x.bind (fun x => x.last)).getD {}), reruns := (x.map (fun x => x.reruns)).getD 0,
    data := if final then [] else sortBy (fun (x y : Nat × BitVec 256) => decide (x.1 ≤ y.1)) ((stepGrans f c).filterMap (fun g =>
      match f.wins[w]? with
      | none => none
      | some x =>
        let a := granVa g 0
        if x.base ≤ a ∧ a < x.base + x.len ∧ (a - x.base) / f.sliceSize = i then some (a - x.base, g.2.1) else none)) }

/-- The outcome of a child's final failure: reservoir exhaustion at its device, or a versioned task failure (R116, R119). -/
def finalOutcome (rep : Report) : Nat := if rep.cls = 20 then 3 else 2

/-- Sends a child's contributions, or the news of its final failure. Those homed here arrive later; the others leave on
Plolux Link. The versions are freed. -/
def sendContributions (s : State) (f : Fork) (c : Nat) (final : Bool) : State :=
  match selfDevice s f.ctx with
  | none => s
  | some d =>
    let backup := (f.slots[c]?.map (fun x => x.1 != d)).getD false
    let here := (f.slices.filter (fun x => homedHere s f x.win x.slice)).map (fun x => contribution f d backup final c x.win x.slice)
    let s1 := modChild (modFork s f.id (fun f => dropVersions f c)) f.id c (fun x => { x with sent := true })
    { s1 with agenda := s1.agenda ++ here.map (fun k => Input.op (.contributionArrival f.id k)) }

def modSlice (f : Fork) (w i : Nat) (h : SliceSt → SliceSt) : Fork :=
  { f with slices := updFirst (fun x => x.win == w && x.slice == i) h f.slices }

/-- The bytes of a slice as they stand in the parent view. -/
def sliceBytes (s : State) (f : Fork) (w i : Nat) : List (Nat × BitVec 256) :=
  match f.wins[w]? with
  | none => []
  | some x => (List.range (min f.sliceSize (x.len - i * f.sliceSize) / 32)).filterMap (fun k =>
      let off := i * f.sliceSize + 32 * k
      (offGran f w off).map (fun g => (off, (parentRead s (keyMat s g.2.key) g.1 f.parentView).1)))

/-- The home is through with a slice: its broadcast goes to every device, this one among them, with how it failed. -/
def finishSlice (s : State) (fid w i outcome : Nat) (fail : Option SliceFail) : State :=
  match getFork s fid with
  | none => s
  | some f =>
    let st := (f.slices.find? (fun x => x.win == w && x.slice == i)).getD { win := w, slice := i }
    let x := fail.getD { child := 0, reruns := 0, report := {}, last := none }
    let b : Broadcast := { win := w, slice := i, outcome := outcome, merged := st.next, mflags := st.mflags, data := sliceBytes s f w i,
                           child := x.child, reruns := x.reruns, report := x.report, last := x.last }
    { modFork s fid (fun f => modSlice f w i (fun x => { x with got := [], outcome := outcome })) with
      agenda := s.agenda ++ [Input.op (.sliceBroadcast fid b)] }

/-- The failure of a slice at the child of a contribution. -/
def failOf (k : Contribution) (rep : Report) : SliceFail :=
  { child := k.child, reruns := k.reruns, report := rep, last := if k.report.cls = 0 then none else some k.report }

/-- The final failures that a child of a slice has to show: one for each device that runs it. -/
def finalsNeeded (f : Fork) (c : Nat) : Nat := if (f.slots[c]?.map (fun x => x.2.2)).getD false then 2 else 1

/-- The prefix steps of a slice at its home, in child order, as far as contributions have come. -/
def sliceSteps (fid w i : Nat) : Nat → State → State
  | 0, s => s
  | fuel + 1, s => match getFork s fid with
    | none => s
    | some f => match f.slices.find? (fun x => x.win == w && x.slice == i) with
      | none => s
      | some st =>
        if ctxHalted s f.ctx then s
        else if f.count ≤ st.next then finishSlice s fid w i 0 none
        else match st.got.find? (fun k => k.child == st.next && !k.final) with
          | some k =>
            let gs : List StepGran := k.data.filterMap (fun p => (offGran f w p.1).map (fun g => (g.1, p.2, g.2)))
            match stepPoison s f gs with
            | some va => finishSlice s fid w i 4 (some (failOf k (forkPoison f st.next 7 va)))
            | none => match conflictReport f st.next (stepConflicts s f gs) with
              | some rep => finishSlice s fid w i 1 (some (failOf k rep))
              | none =>
                let r := commitAll s fid st.next gs
                sliceSteps fid w i fuel (countCtr (modFork r.1 fid (fun f => modSlice f w i (fun x => { x with
                  next := x.next + 1, mflags := x.mflags ||| r.2.setWidth 5, got := x.got.filter (fun y => y.child != st.next) }))) f.ctx 12 1)
          | none =>
            let finals := st.got.filter (fun k => k.child == st.next && k.final)
            match finals.getLast? with
            | some k => if finalsNeeded f st.next ≤ finals.length then finishSlice s fid w i (finalOutcome k.report) (some (failOf k { k.report with kind := 4 })) else s
            | none => s

/-- The divergence fault of a backup's copy (R129), to the domain of the fork's region. The rule names no block for it: the model
takes the block that opened the fork, and no gang of it, so that KILL BLOCK and NOTIFY end that block and HANDLER acts as NOTIFY
(DESIGN CHOICE, log 61). -/
def backupDivergence (s : State) (x : Accepted) (k : Contribution) : State :=
  let r : Report := { cls := 26, cause := 2, kind := 2, level := x.level, ctx := x.ctx, child := k.child, flags := if debugOn s x.ctx then 8 else 0,
                      w := [BitVec.ofNat 64 x.tag, BitVec.ofNat 64 k.child, BitVec.ofNat 64 x.k.device, BitVec.ofNat 64 k.device] }
  deliver s { ctx := x.ctx, region := x.region, unit := 8, queue := x.queue, blk := x.opener, gang := none, faulting := 0, len := 0,
              async := true } r

/-- A contribution that the home takes for a slice. -/
def acceptContribution (s : State) (f : Fork) (k : Contribution) : State :=
  let keep := !k.final && finalsNeeded f k.child == 2
  let s1 := modFork s f.id (fun f => modSlice f k.win k.slice (fun y => { y with got := y.got ++ [k] }))
  let x : Accepted := { ctx := f.ctx, fork := f.id, tag := f.tag + k.win, level := f.level, region := f.parentRegion, queue := f.queue,
                        opener := f.opener, k := k }
  sliceSteps f.id k.win k.slice (f.count + 1) (if keep then { s1 with accepted := s1.accepted ++ [x] } else s1)

/-- A contribution arrives at its home: a copy of one that was accepted is compared with it, whether or not its bucket has ended,
until the tag is opened again (R129). -/
def execContributionArrival (fork : Nat) (k : Contribution) (s : State) : Out :=
  let same := fun (x : Accepted) => x.fork == fork && x.k.win == k.win && x.k.slice == k.slice && x.k.child == k.child
  .next (match s.accepted.find? same with
    | some x =>
      let s1 := { s with accepted := s.accepted.filter (fun x => !same x) }
      if x.void then countCtr s1 x.ctx 13 1
      else if k.final || x.k.data = k.data then s1 else backupDivergence s1 x k
    | none => match getFork s fork with
      | none => s
      | some f => match f.slices.find? (fun x => x.win == k.win && x.slice == k.slice) with
        | none => s
        | some st =>
          if f.scope ≠ .chip ∨ !homedHere s f k.win k.slice ∨ f.count ≤ k.child then s
          else if f.ended || f.tagsDone.contains (f.tag + k.win) || st.written || st.outcome != 0 || decide (k.child < st.next) then countCtr s f.ctx 13 1
          else acceptContribution s f k)

/-- Twins and versions of a window are given back. -/
def freeWindow (f : Fork) (w : Nat) : Fork :=
  let inside := fun (gran : Nat) => ((f.wins[w]?).map (fun x => x.segs.any (fun g => g.holds (32 * gran)))).getD false
  { f with twins := f.twins.filter (fun t => !inside t.gran), vers := f.vers.filter (fun v => !inside v.gran) }

/-- The children of a fork whose every bucket has ended: those below every merged prefix are Merged, the others are cancelled
(R112). -/
def settleChip (s : State) (f : Fork) : State :=
  let m := (f.slices.map (fun x => x.merged)).foldl min f.count
  let s1 := modFork s f.id (fun f => { f with children := f.children.map (fun c =>
    if c.idx < m ∧ (c.st = .complete ∨ !runsHere s f c.idx) then { c with st := .merged } else c) })
  cancelFrom s1 ((getFork s1 f.id).getD f) 0

/-- A bucket has ended: its twins are given back, its record, its gauge, and the fork when it was the last (R119, R126, R130). -/
def endBucket (s : State) (fid t : Nat) : State :=
  match getFork s fid with
  | none => s
  | some f =>
    let st := f.status t
    let s1 := writeRecord (modFork s fid (fun f => dropTags (freeWindow f (t - f.tag)) [t])) (f.atTag t) st.1 st.2.1
    let s2 := gaugeAddLogged s1 8 f.ctx f.parentView f.gauge f.gadd
    let s3 := if f.opener.isNone ∧ joinFails st.1 then packetForkFault s2 (f.atTag t) else s2
    match getFork s3 fid with
    | none => s3
    | some f3 =>
      if f3.tags.all (fun t => f3.bucketEnded t) then
        purgeForks (releaseFork (modFork (settleChip s3 f3) fid (fun f => { f with ended := true })) f3)
      else s3

/-- Whether this device has written a slice already. -/
def sliceWritten (f : Fork) (w i : Nat) : Bool := (f.slices.find? (fun x => x.win == w && x.slice == i)).any (fun x => x.written)

/-- How a broadcast slice fails, if it does. -/
def sliceFailure (b : Broadcast) : Option SliceFail :=
  if joinFails b.outcome then some { child := b.child, reruns := b.reruns, report := b.report, last := b.last } else none

def execSliceBroadcast (fork : Nat) (b : Broadcast) (s : State) : Out :=
  .next (match getFork s fork with
    | none => s
    | some f =>
      if f.scope ≠ .chip ∨ f.ended ∨ ctxHalted s f.ctx ∨ sliceWritten f b.win b.slice ∨ !f.slices.any (fun x => x.win == b.win && x.slice == b.slice) then s
      else
        let s1 := b.data.foldl (fun s p => match offGran f b.win p.1 with
          | some g =>
            let l : Loc := { ap := 0, addr := 32 * g.1, key := g.2.key }
            notifyWrite (parentWrite s (keyMat s g.2.key) g.1 p.2 f.parentView) f.parentView l
          | none => s) s
        let s2 := modFork s1 fork (fun f => modSlice f b.win b.slice (fun x => { x with
          written := true, outcome := b.outcome, merged := b.merged, mflags := b.mflags, fail := sliceFailure b }))
        match getFork s2 fork with
        | none => s2
        | some f2 => if f2.bucketEnded (f2.tag + b.win) then endBucket s2 fork (f2.tag + b.win) else s2)

/-! ### A child whose blocks have all ended -/

/-- A child whose run failed: it is rerun, or its failure is final. -/
def failedChild (s : State) (f : Fork) (x : Child) : State :=
  if x.reruns < f.retry && !x.noRerun then
    modChild s f.id x.idx (fun x => { x with st := .unstarted, reruns := x.reruns + 1, ending := .no })
  else if f.scope = .chip then sendContributions s f x.idx true
  else failAtChild s f.id x.idx 2 { (x.last.getD {}) with kind := 4 }

/-- A child of fork `fid` has no block left: it is complete, or what stopped it says how it goes on (R112, R117, R123, R135). At
chip scope a complete child's contributions leave at once, so that a poisoned version fails it here. -/
def childDone (s : State) (fid c : Nat) : State :=
  match getFork s fid with
  | none => s
  | some f => match f.children.find? (fun x => x.idx == c) with
    | none => s
    | some x => match x.st with
      | .failed => failedChild s f x
      | .running | .blocked =>
        match x.ending with
        | .rolledBack => modChild s fid c (fun x => { x with st := .unstarted, ending := .no, need := 0, granted := 0 })
        | _ =>
          let s1 := modChild s fid c (fun x => { x with st := .complete, need := 0, granted := 0 })
          if f.scope = .chip then match childPoison f c, getFork s1 fid with
            | some rep, _ =>
              let s2 := failChild s fid c rep false
              match (getFork s2 fid).bind (fun f => (f.children.find? (fun x => x.idx == c)).map (fun x => (f, x))) with
              | some (f, x) => failedChild s2 f x
              | none => s2
            | none, some f1 => sendContributions s1 f1 c false
            | none, none => s1
          else s1
      | _ => s

end Sys2Proof.Machine
end

