-- ==== Sys2Proof/Machine/Ends.lean ====
section
/-! DEFINITION. Machine/Ends.lean: the end of a block (06 R140, R158, 13 R356), of a grid (12 R318, R319) and its
retirement. -/

namespace Sys2Proof.Machine

open Sys2Proof

/-! ### Grids -/

/-- Elements of a grid that have started. -/
def Grid.begun (g : Grid) : Nat := (g.started.map (·.2)).foldl (· + ·) 0

/-- Whether a grid has blocks that have not ended. -/
def gridLive (s : State) (gid : Nat) : Bool := s.blocks.any (fun b => b.grid == gid && b.stat != .ended)

/-- Whether all blocks of a grid have ended: none stands here, and none has been carried to a peer (log 33). -/
def gridOver (s : State) (g : Grid) : Bool :=
  !g.away && !gridLive s g.id && (g.killed || (match g.rq with
    | some q => ((getRq s q).map (fun q => q.done)).getD true
    | none => decide (g.elements ≤ g.begun)))

/-- A grid that is over completes: its gauge is added; the grid of a fork child settles the child. The blocks of a halted context end
without completion (R367). -/
def gridSettle (s : State) (gid : Nat) : State :=
  match getGrid s gid with
  | none => s
  | some g =>
    if g.completed || ctxHalted s g.ctx || !gridOver s g then s
    else
      let s1 := modGrid s gid (fun g => { g with completed := true })
      match g.fork, g.child with
      | some f, some c => childDone (dropChildGrid s1 g) f c
      | _, _ => gaugeAddLogged s1 8 g.ctx [] g.gauge g.gadd

/-- Whether the descendant work of a grid has retired (R318). A record queue that is done stays known by its handle (R347, R348). -/
def descendantsDone (s : State) (gid : Nat) : Bool :=
  !s.grids.any (fun g => g.parent == some gid) && !s.forks.any (fun f => f.openerGrid == some gid && !f.ended)

def execGridRetire (grid : Nat) (s : State) : Out :=
  let s1 := gridSettle s grid
  .next (match getGrid s1 grid with
    | none => s1
    | some g =>
      if g.completed && descendantsDone s1 grid then
        { s1 with grids := s1.grids.filter (fun x => x.id != grid),
                  queues := s1.queues.map (fun p => (p.1, { p.2 with launched := p.2.launched.filter (fun x => x != grid) })) }
      else s1)

/-! ### Blocks -/

/-- What the gangs of a block hold on its core is released: gate, banks, places in queues. -/
def releaseHeld (s : State) (b : Block) : State :=
  b.gangs.foldl (fun s (p : Nat × Gang) =>
    let s1 := leaveQueues s b.id p.1
    let s2 := if holdsGate s1 b p.1 then releaseGate s1 b.core else s1
    [false, true].foldl (fun s x => if (getBank (getCore s b.core) x).claim = some (b.id, p.1) then freeBank s b.core x else s) s2) s

/-- Takes an ended block out; blocks of a clique stay until the last of them has ended (R13). -/
def dropBlock (s : State) (b : Block) : State :=
  if b.clique = 0 then { s with blocks := s.blocks.filter (fun x => x.id != b.id) }
  else
    let s1 := modBlk s b.id (fun b => { b with stat := .ended })
    if s1.blocks.all (fun x => x.clique != b.clique || x.stat == .ended)
    then { s1 with blocks := s1.blocks.filter (fun x => x.clique != b.clique) } else s1

/-- A block has ended: its records return to their queue, its grid may complete. -/
def endBlock (s : State) (b : Block) : State :=
  let s1 := modGrid (dropBlock (releaseHeld s b) b) b.grid (fun g => { g with ended := g.ended + 1 })
  let s2 := match b.nodeRq with
    | some q => rqDone (modRq s1 q (fun q => { q with taken := q.taken.filter (fun a => !b.nodeRecs.contains a), liveBlks := q.liveBlks - 1 })) q
    | none => s1
  purgeForks (gridSettle s2 b.grid)

/-- Whether every gang and the feeder have exited. -/
def allExited (b : Block) : Bool := b.gangs.all (fun (p : Nat × Gang) => p.2.exited) && feederDone b

/-- The end of a block that ran to its end, with the checks of R158; it does not end where an implicit join halts its context
(R134). -/
def endChecked (s : State) (b : Block) : State :=
  let s1 := implicitJoins s b
  match getBlk s1 b.id with
  | none => s1
  | some b1 =>
    if !b1.runs && b1.stat != .stopped || ctxHalted s1 b1.ctx then s1
    else match boundaryFault b1 with
      | some f => raiseBlock (modBlk s1 b.id (fun b => { b with chans := [] })) b.id 5 0 f
      | none => endBlock s1 b1

/-- Whether a block has ended under R140, the implicit joins and the checks apart. -/
def endReady (s : State) (b : Block) : Bool := allExited b && opsDone b && settled b && allForksEnded s b

def execBlockEnd (blk : Nat) (s : State) : Out :=
  .next (match getBlk s blk with
    | none => s
    | some b =>
      if ctxHalted s b.ctx then s
      else match b.stat with
        | .killed =>
          if opsDone b && b.started.isEmpty && allForksEnded s b then
            let s1 := implicitJoins s b
            match getBlk s1 blk with
            | some b1 => if ctxHalted s1 b1.ctx then s1 else endBlock s1 b1
            | none => s1
          else s
        | .resident | .stopping => if endReady s b then endChecked s b else s
        | _ => s)

end Sys2Proof.Machine
end

