-- ==== Sys2Proof/Machine/Control.lean ====
section
/-! DEFINITION. Machine/Control.lean: branches, calls and return stacks (11 R299, R300), NOP, EXIT and YIELD
(11 R301 to R303), TRAP, BKPT and RTE (13 R358, R359). -/

namespace Sys2Proof.Machine

open Sys2Proof

/-! ### Return stacks (R299) -/

/-- Key of a spillway place of a thread. -/
abbrev place (lane i : Nat) : Nat := 256 * lane + i

/-- Pushes a return address: with four entries on chip the oldest moves to the spillway. -/
def pushRet (g : Gang) (lane : Nat) (a : W64) : Gang :=
  let r := sget ({} : RStack) g.rstack lane
  if r.chip.length < 4 then { g with rstack := sset {} g.rstack lane { r with chip := a :: r.chip } }
  else { g with
    rstack := sset {} g.rstack lane { chip := a :: r.chip.dropLast, spilled := r.spilled + 1 },
    spill := sset 0 g.spill (place lane r.spilled) (r.chip.getLastD 0),
    spillBad := g.spillBad.filter (fun k => k != place lane r.spilled) }

/-- The entry that RET takes. -/
def topRet (g : Gang) (lane : Nat) : W64 := ((sget ({} : RStack) g.rstack lane).chip.head?).getD 0

/-- Whether the pop refills from a poisoned place (R300). -/
def refillBad (g : Gang) (lane : Nat) : Bool :=
  let r := sget ({} : RStack) g.rstack lane
  decide (r.chip.length ≤ 1) && decide (0 < r.spilled) && g.spillBad.contains (place lane (r.spilled - 1))

/-- Pops: when the on-chip places empty, the newest spilled entry moves back. -/
def popRet (g : Gang) (lane : Nat) : Gang :=
  let r := sget ({} : RStack) g.rstack lane
  let t := r.chip.drop 1
  let r' : RStack := if t.isEmpty ∧ 0 < r.spilled then { chip := [sget 0 g.spill (place lane (r.spilled - 1))], spilled := r.spilled - 1 }
    else { r with chip := t }
  { g with rstack := sset {} g.rstack lane r' }

/-! ### Branches and calls (R300) -/

/-- What a branch does with the return stack. -/
inductive StackUse where
  | keep | push (ret : W64) | pop
  deriving DecidableEq, Repr

/-- The fault of one thread, if any: class, cause. -/
def branchFault (b : Block) (g : Gang) (u : StackUse) (target : Nat → W64) (l : Nat) : Option (Nat × Nat) :=
  let depth := (sget ({} : RStack) g.rstack l).depth
  if (target l).toNat % 4 ≠ 0 then some (5, 0)
  else match u with
    | .keep => none
    | .push _ => if depth = 4 + b.kd.sd then some (23, 1) else none
    | .pop => if depth = 0 then some (23, 2) else if refillBad g l then some (8, 6) else none

/-- A branch, call or return of the guard-true threads; a fault in one leaves all of the gang unchanged. -/
def branchBody (uni : Bool) (u : StackUse) (target : Gang → Nat → W64) (s : State) (b : Block) (gi : Nat) (g : Gang) (gt : Mask) : MRes :=
  let t := target g
  let lead := t (lowestLane gt)
  let off := if uni then maskOf (fun l => gt.getLsbD l && t l != lead) else 0
  if off ≠ 0 then .fault { cls := 22, cause := 1, lanes := off, w := [lead, off] }
  else
    let bad := (lanesOf gt).filterMap (fun l => (branchFault b g u t l).map (fun c => (l, c)))
    match bad with
    | x :: _ => .fault { cls := x.2.1, cause := x.2.2, lanes := maskOfList ((bad.filter (fun y => y.2.1 == x.2.1)).map (·.1)),
                         va := if x.2.1 = 5 then t x.1 else 0 }
    | [] => .placed (modGang s b.id gi (fun g => (lanesOf gt).foldl (fun g l =>
        let g1 := match u with
          | .keep => g
          | .push r => pushRet g l r
          | .pop => popRet g l
        { g1 with pc := sset 0 g1.pc l (t l) }) g))

/-- Target of a branch to a displacement. -/
def dispTarget (s : State) (disp : BitVec 32) : W64 := issueAddr s + disp.signExtend 64
/-- A lane's 64-bit target operand. -/
def srcTarget (a : Src) (g : Gang) (l : Nat) : W64 := BitVec.ofNat 64 (readSrc g l (.int 64) a)

def execBra (g : Guard) (disp : BitVec 32) (s : State) : Out :=
  let t := dispTarget s disp
  .next (runMemOr s { guard := g, srcs := [] } (branchBody false .keep (fun _ _ => t)) (fun _ _ => none)
    (fun s i => .placed (jumpTo s i.blk i.party t)))
def execBrx (g : Guard) (a : Src) (s : State) : Out :=
  .next (runMem s { guard := g, srcs := [(a, 2)] } (branchBody false .keep (srcTarget a)))
def execBrxu (g : Guard) (a : Src) (s : State) : Out :=
  .next (runMem s { guard := g, srcs := [(a, 2)] } (branchBody true .keep (srcTarget a)))
def execCall (g : Guard) (disp : BitVec 32) (s : State) : Out :=
  let t := dispTarget s disp
  .next (runMem s { guard := g, srcs := [] } (branchBody false (.push (issueAddr s + 12)) (fun _ _ => t)))
def execCallx (g : Guard) (a : Src) (s : State) : Out :=
  .next (runMem s { guard := g, srcs := [(a, 2)] } (branchBody false (.push (issueAddr s + 8)) (srcTarget a)))
def execCallxu (g : Guard) (a : Src) (s : State) : Out :=
  .next (runMem s { guard := g, srcs := [(a, 2)] } (branchBody true (.push (issueAddr s + 8)) (srcTarget a)))
def execRet (g : Guard) (s : State) : Out :=
  .next (runMem s { guard := g, srcs := [] } (branchBody false .pop topRet))

/-! ### NOP, EXIT, YIELD -/

def execNop (g : Guard) (_f : LenForm) (s : State) : Out :=
  .next (runMemOr s { guard := g, srcs := [] } (fun s _ _ _ _ => .ok s) (fun _ _ => none) (fun s _ => .done s))

def execExit (g : Guard) (s : State) : Out :=
  .next (runMemOr s { guard := g, srcs := [] } (fun s b gi _ gt => .placed (endThreads s b.id gi gt (issueAddr s))) (fun _ _ => none)
    (fun s i => .placed (endFeeder s i.blk)))

/-- YIELD: where every live thread is parked, stands at the YIELD or at another swap point, the gang gives its place when the
pending set held a ready gang at the start of the cycle (R303). -/
def execYield (g : Guard) (s : State) : Out :=
  .next (runMem s { guard := g, srcs := [], swap := true } (fun s b gi gg gt =>
    .ok (if (gt ||| gg.parked ||| gg.atSwap) &&& gg.live = gg.live && (getCore s b.core).pendReady
      then modGang (countCtr s b.ctx 2 1) b.id gi (fun g => { g with active := false, since := s.tick }) else s)))

/-! ### TRAP, BKPT, RTE -/

def execTrap (g : Guard) (n : Src) (s : State) : Out :=
  .next (runMem s { guard := g, srcs := [(n, 1)] } (fun _ _ _ gg gt =>
    .fault { cls := 29, cause := readSrc gg (lowestLane gt) (.int 16) n, lanes := gt }))

def execBkpt (g : Guard) (s : State) : Out :=
  .next (runMem s { guard := g, srcs := [] } (fun s b gi _ gt =>
    if debugOn s b.ctx then
      .placed (modGang (debugStop s b.id gi (issueAddr s) (issueInsn s) gt (issueLen s) true) b.id gi (fun g => { g with parked := gt }))
    else .fault { cls := 30, lanes := gt }))

/-- RTE outside handler mode is a privilege fault of cause 11 (R359). -/
def notHandling (s : State) (i : Iss) : Option Flt :=
  match i.party with
  | .feeder => none
  | .gang gi => if ((getGang s i.blk gi).map (fun g => g.handler.isNone)).getD false then some { cls := 3, cause := 11 } else none

/-- What RTE does with the handler record. -/
def rteBody (s : State) (i : Iss) (f : Gang → HandlerRec → GRes) : GRes :=
  match i.party with
  | .feeder => .stall
  | .gang gi => match getGang s i.blk gi with
    | none => .stall
    | some g => match g.handler with
      | none => .stall
      | some h => f g h

def execRte (s : State) : Out :=
  .next (runGang s { guard := .always, srcs := [], early := notHandling } (fun s i => rteBody s i (fun g _ =>
    match i.party with
    | .gang gi => .placed (modGang s i.blk gi (fun _ => handlerReturn g false))
    | .feeder => .stall)))
def execRteSkip (s : State) : Out :=
  .next (runGang s { guard := .always, srcs := [], early := notHandling } (fun s i => rteBody s i (fun g _ =>
    match i.party with
    | .gang gi => .placed (modGang s i.blk gi (fun _ => handlerReturn g true))
    | .feeder => .stall)))
def execRteRd (kd : BitVec 6) (w : BitVec 4) (s : State) : Out :=
  .next (runGang s { guard := .always, srcs := [], kdst := [kd], early := notHandling } (fun s i => rteBody s i (fun _ h =>
    .done (setK s i.blk i.party kd (w64At (encodeReport h.report) (8 * w.toNat))))))

end Sys2Proof.Machine
end

