-- ==== Sys2Proof/Machine/ConvOps.lean ====
section
/-! DEFINITION. Machine/ConvOps.lean: the conversion group (08 R220 to R225). -/

namespace Sys2Proof.Machine

open Sys2Proof

/-- One conversion (R221, R86): result code and flags. A float that saturates to an integer raises NV alone, neither NX nor OF
(DESIGN CHOICE, log 51: R87 and R221 do not say whether the general NX condition holds too). -/
def convert (res op : Fmt) (r : Rnd) (nan sat : Bool) (u c : Nat) : Nat × Flags :=
  if op.isIntF then
    let x := intVal (fmtSigned op) op.width c
    if res.isIntF then
      let narrow := decide (res.width < op.width) || (res.width == op.width && fmtSigned res != fmtSigned op)
      if narrow && sat then
        let y := clampInt (fmtSigned res) res.width x
        (wrap res.width y.1, isFlag y.2)
      else (wrap res.width x, 0)
    else roundF res r u { sat := sat, nan := nan } (ofSInt false x 0)
  else
    let v := unpackF op c
    if res.isIntF then
      match v with
      | .nan => (0, flNV)
      | .inf s => (wrap res.width (if s then intMin (fmtSigned res) res.width else intMax (fmtSigned res) res.width), flNV)
      | .fin s m e =>
        let x := roundInt r u s m e
        let y := clampInt (fmtSigned res) res.width x.1
        (wrap res.width y.1, if y.2 then flNV else if x.2 then flNX else 0)
    else if res = op then (if v.isNan then nanCode res else c % 2 ^ (fshape op).width, 0)
    else if v.isNan then (nanCode res, if (fshape res).hasNan then 0 else flNV)
    else roundF res r u { sat := sat, nan := nan } v

/-- The scalar format of a packed result. -/
def halfFmt : Fmt → Fmt
  | .bf16x2 => .bf16
  | .f16x2 => .f16
  | f => f

def descCvt (g : Guard) (res op : Fmt) (r : Rnd) (nan sat : Bool) (d : Dst) (a : Src) (b : Option Src) : LaneDesc :=
  match b with
  | none =>
    { guard := g, srcs := [(a, op.regs)], dst := .lane d res.regs,
      eval := fun blk gi gg _ l =>
        let x := convert res op r nan sat (rndWord r blk gg gi l 0) (readSrc gg l (fmtRead op) a)
        { val := x.1, flags := x.2, draws := rsrDraws r 1 } }
  | some b =>
    { guard := g, srcs := [(a, 1), (b, 1)], dst := .lane d 1,
      eval := fun blk gi gg _ l =>
        let lo := convert (halfFmt res) op r nan sat (rndWord r blk gg gi l 0) (readSrc gg l (fmtRead op) a)
        let hi := convert (halfFmt res) op r nan sat (rndWord r blk gg gi l 1) (readSrc gg l (fmtRead op) b)
        { val := lo.1 + 65536 * hi.1, flags := lo.2 ||| hi.2, draws := rsrDraws r 2 } }

/-- The 24 values of a group held in lanes 0 to 23; lanes that take no part count as +0 (R222). -/
def groupVals (gg : Gang) (gt : Mask) (op : Fmt) (a : Src) : List FVal :=
  (List.range 24).map (fun l => if gt.getLsbD l then unpackF op (readSrc gg l (fmtRead op) a) else FVal.zero)

def descQgrp (g : Guard) (e op : Fmt) (r : Rnd) (d : Dst) (a : Src) : LaneDesc :=
  { guard := g, srcs := [(a, 1)], dst := .lane d 1, wide := true,
    eval := fun blk gi gg gt l =>
      let sc := groupScale e (groupVals gg gt op a)
      if l < 24 then
        let x := quantAt e r (rndWord r blk gg gi l 0) sc (unpackF op (readSrc gg l (fmtRead op) a))
        { val := sc * 256 + x.1, flags := x.2, draws := rsrDraws r 1 }
      else { val := sc * 256 } }

/-- DQGRP's operand: a register's 32 bits; an inline integer or an immediate as a code of the element format (R35, R36, R220). -/
def dqgrpRead (e : Fmt) : Src → ReadAs
  | .inl _ | .imm _ | .imm62 _ => fmtRead e
  | _ => n32

def descDqgrp (g : Guard) (res e : Fmt) (d : Dst) (a : Src) : LaneDesc :=
  laneOp1 g d 1 (dqgrpRead e a) a (fun x => roundF res .rne 0 {} (scaled (elemVal e (x % 2 ^ e.width)) (x / 256 % 256)))

/-- The parcel image spread over lanes 0 to 31; a lane without a live thread gives zeros (R224). -/
def imageOf (gg : Gang) (word : Nat → Nat) : List Byte :=
  (List.range 32).flatMap (fun w => le 4 (if gg.live.getLsbD w then word w else 0))

/-- PKPARCEL (R224). DESIGN CHOICE (log 61): with the write-back suppressed there is no old `vd`, and the image is taken
over zeros; the lanes at 32 and above, which hold no word of the image, then push 0. -/
def descPkparcel (g : Guard) (e : Fmt) (d : Dst) (q : Src) (grp : BitVec 8) : LaneDesc :=
  { guard := g, srcs := [(q, 1)], dst := .lane d 1, wide := true,
    bad := fun gg gt => if gt = 0 then none else (wideBad gg (srcBad 1 q) 0xFF_FFFF).or (wideBad gg (dstNames 1 d) 0xFFFF_FFFF),
    eval := fun _ _ gg _ l =>
      let old := fun w => match d with | .none => 0 | d => dstOld gg w 1 d
      let qs := (List.range 24).map (fun w => if gg.live.getLsbD w then readSrc gg w n32 q else 0)
      let img := putGroup (imageOf gg old) e grp.toNat (qs.getD 0 0 / 256 % 256) qs
      let img := setBytes img 1 (le 1 (max (natAt img 1 1) (grp.toNat + 1)))
      { val := if l < 32 then natAt img (4 * l) 4 else old l } }

def descUnparcel (g : Guard) (e : Fmt) (d : Dst) (img : Src) (grp : BitVec 8) : LaneDesc :=
  let image := fun (gg : Gang) => imageOf gg (fun w => readSrc gg w n32 img)
  { guard := g, srcs := [(img, 1)], dst := .lane d 1, wide := true,
    bad := fun gg gt =>
      let bs := image gg
      if gt = 0 then none
      else (wideBad gg (srcBad 1 img) 0xFFFF_FFFF).or ((parcelFault (natAt bs 0 1) (natAt bs 1 1) (some e)).map (fun c =>
        { cls := 9, cause := c, lanes := gt, w := [BitVec.ofNat 64 (natAt bs 0 1), BitVec.ofNat 64 (natAt bs 1 1)] })),
    eval := fun _ _ gg _ l =>
      let x := parcelGroup (image gg) grp.toNat
      { val := x.1 * 256 + (if l < 24 then x.2 l else 0) } }

def descPlanes (g : Guard) (d : Dst) (a : Src) (p : BitVec 3) : LaneDesc :=
  { guard := g, srcs := [(a, 1)], dst := .lane d 2, wide := true,
    eval := fun _ _ gg gt _ =>
      { val := (maskOf (fun l => gt.getLsbD l && readSrc gg l n32 a / 2 ^ (7 - p.toNat) % 2 == 1)).toNat } }

/-! ### Meanings -/

def execCvt (g : Guard) (res op : Fmt) (r : Rnd) (nan sat : Bool) (d : Dst) (a : Src) (b : Option Src) (s : State) : Out := .next (runLane s (descCvt g res op r nan sat d a b))
def execQgrp (g : Guard) (e op : Fmt) (r : Rnd) (d : Dst) (a : Src) (s : State) : Out := .next (runLane s (descQgrp g e op r d a))
def execDqgrp (g : Guard) (res e : Fmt) (d : Dst) (a : Src) (s : State) : Out := .next (runLane s (descDqgrp g res e d a))
def execPkparcel (g : Guard) (e : Fmt) (d : Dst) (q : Src) (grp : BitVec 8) (s : State) : Out := .next (runLane s (descPkparcel g e d q grp))
def execUnparcel (g : Guard) (e : Fmt) (d : Dst) (img : Src) (grp : BitVec 8) (s : State) : Out := .next (runLane s (descUnparcel g e d img grp))
def execPlanes (g : Guard) (d : Dst) (a : Src) (p : BitVec 3) (s : State) : Out := .next (runLane s (descPlanes g d a p))

end Sys2Proof.Machine
end

