-- ==== Sys2Proof/Machine/CrossLane.lean ====
section
/-! DEFINITION. Machine/CrossLane.lean: the cross-lane group (08 R226 to R230). -/

namespace Sys2Proof.Machine

open Sys2Proof

def descShfl (g : Guard) (m : ShflMode) (t : LaneTy) (d : Dst) (a b : Src) : LaneDesc :=
  { guard := g, srcs := [(a, t.regs), (b, 1)], dst := .lane d t.regs, wide := true,
    eval := fun _ _ gg gt l =>
      let x := readSrc gg l n32 b
      let src : Int := match m with
        | .idx => x
        | .up => (l : Int) - x
        | .dn => l + x
        | .xor => ((l ^^^ x : Nat) : Int)
      let from_ := if 0 ≤ src ∧ src < 64 ∧ gt.getLsbD src.toNat then src.toNat else l
      { val := readSrc gg from_ (ltRead t) a } }

/-- The participants whose named predicate is true. -/
def ballot (gg : Gang) (gt : Mask) (ps : PSel) : Mask := maskOf (fun l => gt.getLsbD l && pselLane gg ps l)

def descVote (g : Guard) (m : VoteSpec) (ps : PSel) : LaneDesc :=
  match m with
  | .any pd => { guard := g, srcs := [], dst := .pred pd, wide := true,
                 eval := fun _ _ gg gt _ => { val := if ballot gg gt ps ≠ 0 then 1 else 0 } }
  | .all pd => { guard := g, srcs := [], dst := .pred pd, wide := true,
                 eval := fun _ _ gg gt _ => { val := if ballot gg gt ps = gt then 1 else 0 } }
  | .ballot d => { guard := g, srcs := [], dst := .lane d 2, wide := true,
                   eval := fun _ _ gg gt _ => { val := (ballot gg gt ps).toNat } }

/-- Participants whose a equals that of lane l. -/
def sameAs (gg : Gang) (gt : Mask) (t : LaneTy) (a : Src) (l : Nat) : Mask :=
  maskOf (fun i => gt.getLsbD i && readSrc gg i (ltRead t) a == readSrc gg l (ltRead t) a)

def descMatchv (g : Guard) (m : MatchSpec) (t : LaneTy) (a : Src) : LaneDesc :=
  match m with
  | .any d => { guard := g, srcs := [(a, t.regs)], dst := .lane d 2, wide := true,
                eval := fun _ _ gg gt l => { val := (sameAs gg gt t a l).toNat } }
  | .all pd => { guard := g, srcs := [(a, t.regs)], dst := .pred pd, wide := true,
                 eval := fun _ _ gg gt l => { val := if sameAs gg gt t a l = gt then 1 else 0 } }

/-- One fold step (R226, R229): result and flags. -/
def foldStep (op : FoldOp) (t : LaneTy) (x y : Nat) : Nat × Flags :=
  if t = .f32 then
    let a := unpackF .f32 x
    let b := unpackF .f32 y
    match op with
    | .min => (packF .f32 (minV a b), 0)
    | .max => (packF .f32 (maxV a b), 0)
    | _ => finishF .f32 .rne 0 (addV .rne a b)
  else match op with
    | .add => ((x + y) % 2 ^ ltBits t, 0)
    | .xor => (x ^^^ y, 0)
    | .min => (intMinOf t x y, 0)
    | .max => (intMaxOf t x y, 0)
    | .and => (x &&& y, 0)
    | .or => (x ||| y, 0)

/-- The identity of an exclusive scan (R229). -/
def foldIdent (op : FoldOp) (t : LaneTy) : Nat :=
  match op with
  | .min => if t = .f32 then 0x7F800000 else wrap (ltBits t) (intMax (ltSigned t) (ltBits t))
  | .max => if t = .f32 then 0xFF800000 else wrap (ltBits t) (intMin (ltSigned t) (ltBits t))
  | .and => 2 ^ ltBits t - 1
  | _ => 0

/-- The fold of some lanes' values in ascending order, starting from the lowest one's; none without lanes. -/
def foldLanes (op : FoldOp) (t : LaneTy) (gg : Gang) (a : Src) (ls : List Nat) : Option (Nat × Flags) :=
  ls.foldl (fun acc l =>
    let x := readSrc gg l (ltRead t) a
    let x := if t = .f32 ∧ (unpackF .f32 x).isNan then nanCode .f32 else x
    match acc with
    | none => some (x, 0)
    | some y => let r := foldStep op t y.1 x; some (r.1, y.2 ||| r.2)) none

def descScan (g : Guard) (op : FoldOp) (t : LaneTy) (excl : Bool) (d : Dst) (a : Src) : LaneDesc :=
  { guard := g, srcs := [(a, t.regs)], dst := .lane d t.regs, wide := true,
    eval := fun _ _ gg gt l =>
      let x := (foldLanes op t gg a ((lanesOf gt).filter (fun i => if excl then i < l else i ≤ l))).getD (foldIdent op t, 0)
      { val := x.1, flags := x.2 } }

def descRed (g : Guard) (op : FoldOp) (t : LaneTy) (d : Dst) (a : Src) : LaneDesc :=
  { guard := g, srcs := [(a, t.regs)], dst := .lane d t.regs, wide := true,
    eval := fun _ _ gg gt _ => let x := (foldLanes op t gg a (lanesOf gt)).getD (0, 0); { val := x.1, flags := x.2 } }

/-! ### TOPK (R230) -/

/-- A candidate: score, index, whether it is new, lane. -/
structure Cand where
  score : Nat
  idx : Nat
  fresh : Bool
  lane : Nat
  deriving DecidableEq, Repr

/-- Scores descending, NaN below −∞, then index, then old before new, then lane. -/
def Cand.before (x y : Cand) : Bool :=
  let a := unpackF .f32 x.score
  let b := unpackF .f32 y.score
  let c : Int := if a.isNan && b.isNan then 0 else if a.isNan then 1 else if b.isNan then -1 else cmpV b a
  if c ≠ 0 then decide (c < 0)
  else if x.idx ≠ y.idx then decide (x.idx < y.idx)
  else if x.fresh ≠ y.fresh then y.fresh
  else decide (x.lane ≤ y.lane)

/-- The ordered candidates of a TOPK. -/
def topCands (gg : Gang) (gt : Mask) (d : Dst) (a b : Src) (k : Nat) : List Cand :=
  let old := ((List.range k).filter (fun l => gg.live.getLsbD l)).map (fun l =>
    let x := dstOld gg l 2 d
    ({ score := x % 2 ^ 32, idx := x / 2 ^ 32, fresh := false, lane := l } : Cand))
  let new := (lanesOf gt).map (fun l =>
    ({ score := readSrc gg l n32 a, idx := readSrc gg l n32 b, fresh := true, lane := l } : Cand))
  let sorted := sortBy Cand.before (old ++ new)
  sorted

/-- What live lane j receives: score and index as one pair of words. -/
def topEntry (cs : List Cand) (j : Nat) : Nat :=
  match cs[j]? with
  | some c => (if (unpackF .f32 c.score).isNan then nanCode .f32 else c.score) + 2 ^ 32 * c.idx
  | none => nanCode .f32 + 2 ^ 32 * 0xFFFFFFFF

/-- k of a TOPK: an inline integer, or a k register read whole. -/
def topK (gg : Gang) (k : Src) : Nat := (readUni gg.k k).toNat

/-- TOPK's score operand, read as f32 when inline (R35). -/
def f32In : Src → Src
  | .inl i => .imm (BitVec.ofNat 32 (fltOfInt .f32 i.toInt))
  | s => s

def descTopk (g : Guard) (d : Dst) (a b k : Src) : LaneDesc :=
  { guard := g, srcs := [(a, 1), (b, 1), (k, 1)], dst := .lane d 2, wide := true,
    priv := fun gg m => if 1 ≤ topK gg k ∧ topK gg k ≤ 64 then none else some { cls := 3, cause := 5, lanes := m },
    bad := fun gg _ => wideBad gg (dstNames 2 d) (maskOfList (List.range (topK gg k))),
    eval := fun _ _ _ _ _ => {},
    custom := some (fun gg gt acc =>
      let cs := topCands gg gt d (f32In a) b (topK gg k)
      let ls := (List.range (topK gg k)).filter (fun l => gg.live.getLsbD l)
      unmarkBad (ls.foldl (fun acc j =>
        let x := topEntry cs j
        pushLatch (writeDst acc j 2 x d) j (BitVec.ofNat 64 (x % 2 ^ 32)) true 0) acc) (dstNames 2 d) (maskOfList ls)) }

/-! ### Meanings -/

def execShfl (g : Guard) (m : ShflMode) (t : LaneTy) (d : Dst) (a b : Src) (s : State) : Out := .next (runLane s (descShfl g m t d a b))
def execVote (g : Guard) (m : VoteSpec) (ps : PSel) (s : State) : Out := .next (runLane s (descVote g m ps))
def execMatchv (g : Guard) (m : MatchSpec) (t : LaneTy) (a : Src) (s : State) : Out := .next (runLane s (descMatchv g m t a))
def execScan (g : Guard) (op : FoldOp) (t : LaneTy) (excl : Bool) (d : Dst) (a : Src) (s : State) : Out := .next (runLane s (descScan g op t excl d a))
def execRed (g : Guard) (op : FoldOp) (t : LaneTy) (d : Dst) (a : Src) (s : State) : Out := .next (runLane s (descRed g op t d a))
def execTopk (g : Guard) (d : Dst) (a b k : Src) (s : State) : Out := .next (runLane s (descTopk g d a b k))

end Sys2Proof.Machine
end

