-- ==== Sys2Proof/Machine/Uniform.lean ====
section
/-! DEFINITION. Machine/Uniform.lean: the uniform group (08 R231, R233). -/

namespace Sys2Proof.Machine

open Sys2Proof

/-- A uniform operation: guard, sources with their words, destination (`high`: its upper half alone), result with its flags from the k
registers and the uniform predicates. -/
structure UniDesc where
  guard : Guard
  srcs : List (Src × Nat)
  high : Bool := false
  kdst : Option (BitVec 6) := none
  qdst : BitVec 3 := 7
  eval : Store W64 → BitVec 7 → Nat × Flags

/-- A uniform source read by a type (R35, R36). -/
def readK (k : Store W64) (r : ReadAs) (a : Src) : Nat := readSrc { k := k } 0 r a

/-- The effect of a uniform operation; a feeder has no sr.fstat (R231). -/
def applyUni (s : State) (blk : Nat) (p : Party) (d : UniDesc) (x : Nat × Flags) : State :=
  let s1 := match d.kdst with
    | some kd => setKw d.high s blk p kd (BitVec.ofNat 64 x.1)
    | none => setQp s blk p d.qdst (x.1 != 0)
  match p with
  | .gang g => modGang s1 blk g (fun g => raiseFlags g x.2)
  | .feeder => s1

def UniDesc.gang (d : UniDesc) : GangDesc :=
  { guard := d.guard, srcs := d.srcs.map (·.1), words := d.srcs.map (·.2), kdst := (d.kdst.map (fun k => [k])).getD [], feederOk := true }

def runUni (s : State) (d : UniDesc) : State :=
  runGang s d.gang (fun s i => .done (applyUni s i.blk i.party d (d.eval (partyK s i.blk i.party) (partyQ s i.blk i.party))))

/-! ### Shapes -/

def uni1 (g : Guard) (kd : BitVec 6) (r : ReadAs) (a : Src) (f : Nat → Nat × Flags) : UniDesc :=
  { guard := g, srcs := [(a, wordsOf r.bits)], kdst := some kd, eval := fun k _ => f (readK k r a) }
def uni2 (g : Guard) (kd : BitVec 6) (r rb : ReadAs) (a b : Src) (f : Nat → Nat → Nat × Flags) : UniDesc :=
  { guard := g, srcs := [(a, wordsOf r.bits), (b, wordsOf rb.bits)], kdst := some kd, eval := fun k _ => f (readK k r a) (readK k rb b) }

/-- The amount of a uniform shift. -/
abbrev n64 : ReadAs := .int 64

/-! ### One description per operation -/

def descKmov (g : Guard) (t : LaneTy) (kd : BitVec 6) (a : Src) : UniDesc := uni1 g kd (ltRead t) a plain
def descKadd (g : Guard) (t : LaneTy) (sat : Bool) (kd : BitVec 6) (a b : Src) : UniDesc :=
  uni2 g kd (ltRead t) (ltRead t) a b (exact2 (fun x y => x + y) t sat)
def descKsub (g : Guard) (t : LaneTy) (sat : Bool) (kd : BitVec 6) (a b : Src) : UniDesc :=
  uni2 g kd (ltRead t) (ltRead t) a b (exact2 (fun x y => x - y) t sat)
def descKmul (g : Guard) (t : LaneTy) (kd : BitVec 6) (a b : Src) : UniDesc :=
  uni2 g kd (ltRead t) (ltRead t) a b (exact2 (fun x y => x * y) t false)
def descKmad (g : Guard) (t : LaneTy) (sat : Bool) (kd : BitVec 6) (a b c : Src) : UniDesc :=
  { guard := g, srcs := [a, b, c].map (fun x => (x, t.regs)), kdst := some kd,
    eval := fun k _ => mulAdd t sat (readK k (ltRead t) a) (readK k (ltRead t) b) (readK k (ltRead t) c) }
def descKand (g : Guard) (t : LaneTy) (kd : BitVec 6) (a b : Src) : UniDesc :=
  uni2 g kd (ltRead t) (ltRead t) a b (fun x y => plain (x &&& y))
def descKor (g : Guard) (t : LaneTy) (kd : BitVec 6) (a b : Src) : UniDesc :=
  uni2 g kd (ltRead t) (ltRead t) a b (fun x y => plain (x ||| y))
def descKxor (g : Guard) (t : LaneTy) (kd : BitVec 6) (a b : Src) : UniDesc :=
  uni2 g kd (ltRead t) (ltRead t) a b (fun x y => plain (x ^^^ y))
def descKshl (g : Guard) (t : LaneTy) (kd : BitVec 6) (a b : Src) : UniDesc :=
  uni2 g kd (ltRead t) n64 a b (fun x y => plain (shiftL (ltBits t) x y))
def descKshr (g : Guard) (t : LaneTy) (kd : BitVec 6) (a b : Src) : UniDesc :=
  uni2 g kd (ltRead t) n64 a b (fun x y => plain (shiftR (ltBits t) x y))
def descKsar (g : Guard) (t : LaneTy) (kd : BitVec 6) (a b : Src) : UniDesc :=
  uni2 g kd (ltRead t) n64 a b (fun x y => plain (shiftA (ltBits t) x y))
def descKmin (g : Guard) (t : LaneTy) (kd : BitVec 6) (a b : Src) : UniDesc :=
  uni2 g kd (ltRead t) (ltRead t) a b (fun x y => plain (intMinOf t x y))
def descKmax (g : Guard) (t : LaneTy) (kd : BitVec 6) (a b : Src) : UniDesc :=
  uni2 g kd (ltRead t) (ltRead t) a b (fun x y => plain (intMaxOf t x y))
def descKcmp (g : Guard) (c : ICond) (t : LaneTy) (qd : BitVec 3) (a b : Src) : UniDesc :=
  { guard := g, srcs := [a, b].map (fun x => (x, t.regs)), qdst := qd,
    eval := fun k _ => plain (if intCond c t (readK k (ltRead t) a) (readK k (ltRead t) b) then 1 else 0) }
def descKsel (g : Guard) (t : LaneTy) (kd : BitVec 6) (a b : Src) (qs : PSel) : UniDesc :=
  { guard := g, srcs := [a, b].map (fun x => (x, t.regs)), kdst := some kd,
    eval := fun k q => plain (if pselUni q qs then readK k (ltRead t) a else readK k (ltRead t) b) }

/-- KMOVI: the whole register, or its upper half. -/
def descKmovi (g : Guard) (t : LaneTy) (hi : Bool) (kd : BitVec 6) (a : Src) : UniDesc :=
  { guard := g, srcs := [(a, if hi then 1 else t.regs)], high := hi, kdst := some kd,
    eval := fun k _ => plain (if hi then readK k n32 a * 2 ^ 32 + (sget 0 k kd.toNat).toNat % 2 ^ 32
                              else readK k (ltRead t) a) }

/-! ### Meanings -/

def execKmov (g : Guard) (t : LaneTy) (kd : BitVec 6) (a : Src) (s : State) : Out := .next (runUni s (descKmov g t kd a))

def execKmovi (g : Guard) (t : LaneTy) (hi : Bool) (kd : BitVec 6) (a : Src) (s : State) : Out :=
  .next (runUni s (descKmovi g t hi kd a))

def execKadd (g : Guard) (t : LaneTy) (sat : Bool) (kd : BitVec 6) (a b : Src) (s : State) : Out := .next (runUni s (descKadd g t sat kd a b))
def execKsub (g : Guard) (t : LaneTy) (sat : Bool) (kd : BitVec 6) (a b : Src) (s : State) : Out := .next (runUni s (descKsub g t sat kd a b))
def execKmul (g : Guard) (t : LaneTy) (kd : BitVec 6) (a b : Src) (s : State) : Out := .next (runUni s (descKmul g t kd a b))
def execKmad (g : Guard) (t : LaneTy) (sat : Bool) (kd : BitVec 6) (a b c : Src) (s : State) : Out := .next (runUni s (descKmad g t sat kd a b c))
def execKand (g : Guard) (t : LaneTy) (kd : BitVec 6) (a b : Src) (s : State) : Out := .next (runUni s (descKand g t kd a b))
def execKor (g : Guard) (t : LaneTy) (kd : BitVec 6) (a b : Src) (s : State) : Out := .next (runUni s (descKor g t kd a b))
def execKxor (g : Guard) (t : LaneTy) (kd : BitVec 6) (a b : Src) (s : State) : Out := .next (runUni s (descKxor g t kd a b))
def execKshl (g : Guard) (t : LaneTy) (kd : BitVec 6) (a b : Src) (s : State) : Out := .next (runUni s (descKshl g t kd a b))
def execKshr (g : Guard) (t : LaneTy) (kd : BitVec 6) (a b : Src) (s : State) : Out := .next (runUni s (descKshr g t kd a b))
def execKsar (g : Guard) (t : LaneTy) (kd : BitVec 6) (a b : Src) (s : State) : Out := .next (runUni s (descKsar g t kd a b))
def execKmin (g : Guard) (t : LaneTy) (kd : BitVec 6) (a b : Src) (s : State) : Out := .next (runUni s (descKmin g t kd a b))
def execKmax (g : Guard) (t : LaneTy) (kd : BitVec 6) (a b : Src) (s : State) : Out := .next (runUni s (descKmax g t kd a b))
def execKcmp (g : Guard) (c : ICond) (t : LaneTy) (qd : BitVec 3) (a b : Src) (s : State) : Out := .next (runUni s (descKcmp g c t qd a b))
def execKsel (g : Guard) (t : LaneTy) (kd : BitVec 6) (a b : Src) (qs : PSel) (s : State) : Out := .next (runUni s (descKsel g t kd a b qs))

/-! ### Between lanes and k registers (R233) -/

/-- KREADLANE: a lane without a live thread gives 0; a poisoned word read faults. -/
def execKreadlane (g : Guard) (t : LaneTy) (kd : BitVec 6) (a n : Src) (s : State) : Out :=
  .next (runGang s { guard := g, srcs := [n], kdst := [kd], lsrcs := [(a, t.regs)] } (fun s i =>
    match i.party with
    | .feeder => .stall
    | .gang gi => match getGang s i.blk gi with
      | none => .stall
      | some gg =>
        let l := (readUni gg.k n).toNat % 64
        let bad := poisonLanes gg (srcBad t.regs a) (laneBit l &&& gg.live)
        if bad ≠ 0 then .fault { cls := 8, cause := 4, lanes := bad }
        else
          let x := if gg.live.getLsbD l then readSrc gg l (ltRead t) a else 0
          let y := if t = .s32 then wrap 64 (sx 32 x) else x
          .done (setK s i.blk i.party kd (BitVec.ofNat 64 y))))

/-- KBCAST: every live lane is written and pushed. -/
def execKbcast (g : Guard) (t : LaneTy) (d : Dst) (a : Src) (s : State) : Out :=
  .next (runGang s { guard := g, srcs := [a], words := [t.regs], ldst := some (d, t.regs) } (fun s i =>
    match i.party with
    | .feeder => .stall
    | .gang gi => match getGang s i.blk gi with
      | none => .stall
      | some gg =>
        let x := readK gg.k (ltRead t) a
        .done (modGang s i.blk gi (fun g =>
          unmarkBad ((lanesOf g.live).foldl (fun g l => writePush g l d t.regs x) g) (dstNames t.regs d) g.live))))

end Sys2Proof.Machine
end

