-- ==== Sys2Proof/Machine/Pair.lean ====
section
/-! DEFINITION. Machine/Pair.lean: pairs (02 R37): a lane operation and a uniform one under one uniform guard. -/

namespace Sys2Proof.Machine

open Sys2Proof

/-- The lane operations of a pair: majors 0x20 to 0x7F. -/
def laneDesc : Instr → Option LaneDesc
  | .iadd g t sat d a b => some (descIadd g t sat d a b)
  | .isub g t sat d a b => some (descIsub g t sat d a b)
  | .iadd3 g t sat d a b c => some (descIadd3 g t sat d a b c)
  | .imul g t d a b => some (descImul g t d a b)
  | .imulh g t d a b => some (descImulh g t d a b)
  | .imad g t sat d a b c => some (descImad g t sat d a b c)
  | .idiv g t d a b => some (descIdiv g t d a b)
  | .irem g t d a b => some (descIrem g t d a b)
  | .imin g t d a b => some (descImin g t d a b)
  | .imax g t d a b => some (descImax g t d a b)
  | .iabs g t sat d a => some (descIabs g t sat d a)
  | .ineg g t sat d a => some (descIneg g t sat d a)
  | .and g t d a b => some (descAnd g t d a b)
  | .or g t d a b => some (descOr g t d a b)
  | .xor g t d a b => some (descXor g t d a b)
  | .andn g t d a b => some (descAndn g t d a b)
  | .not g t d a => some (descNot g t d a)
  | .shl g t d a b => some (descShl g t d a b)
  | .shr g t d a b => some (descShr g t d a b)
  | .sar g t d a b => some (descSar g t d a b)
  | .rot g t d a b => some (descRot g t d a b)
  | .fshl g t d a b c => some (descFshl g t d a b c)
  | .popc g t d a => some (descPopc g t d a)
  | .clz g t d a => some (descClz g t d a)
  | .ctz g t d a => some (descCtz g t d a)
  | .brev g t d a => some (descBrev g t d a)
  | .bfe g t d a b => some (descBfe g t d a b)
  | .bfi g t d a b c => some (descBfi g t d a b c)
  | .prmb g d a b c => some (descPrmb g d a b c)
  | .bmask g r t d a b c => some (descBmask g r t d a b c)
  | .clmul g d a b => some (descClmul g d a b)
  | .clmulh g d a b => some (descClmulh g d a b)
  | .icmp g c t pd a b => some (descIcmp g c t pd a b)
  | .sel g t d a b ps => some (descSel g t d a b ps)
  | .lea g t d a b sh => some (descLea g t d a b sh)
  | .mov g t d a => some (descMov g t d a)
  | .movi g t d a b => some (descMovi g t d a b)
  | .fadd g t r d a b => some (descFadd g t r d a b)
  | .fsub g t r d a b => some (descFsub g t r d a b)
  | .fmul g t r d a b => some (descFmul g t r d a b)
  | .ffma g t r d a b c => some (descFfma g t r d a b c)
  | .fmin g t d a b => some (descFmin g t d a b)
  | .fmax g t d a b => some (descFmax g t d a b)
  | .fcmp g c t pd a b => some (descFcmp g c t pd a b)
  | .fclass g t d a => some (descFclass g t d a)
  | .frcp g r d a => some (descFrcp g r d a)
  | .frsq g r d a => some (descFrsq g r d a)
  | .fsqrt g r d a => some (descFsqrt g r d a)
  | .fdiv g r d a b => some (descFdiv g r d a b)
  | .fexp2 g d a => some (descFexp2 g d a)
  | .flog2 g d a => some (descFlog2 g d a)
  | .fsin g d a => some (descFsin g d a)
  | .fcos g d a => some (descFcos g d a)
  | .ftanh g d a => some (descFtanh g d a)
  | .fsigm g d a => some (descFsigm g d a)
  | .fscale g t r d a b => some (descFscale g t r d a b)
  | .frnd g t r d a => some (descFrnd g t r d a)
  | .fcopys g t d a b => some (descFcopys g t d a b)
  | .cvt g res op r nan sat d a b => some (descCvt g res op r nan sat d a b)
  | .qgrp g e op r d a => some (descQgrp g e op r d a)
  | .dqgrp g res e d a => some (descDqgrp g res e d a)
  | .pkparcel g e d q grp => some (descPkparcel g e d q grp)
  | .unparcel g e d img grp => some (descUnparcel g e d img grp)
  | .planes g d a p => some (descPlanes g d a p)
  | .shfl g m t d a b => some (descShfl g m t d a b)
  | .vote g m ps => some (descVote g m ps)
  | .matchv g m t a => some (descMatchv g m t a)
  | .scan g op t excl d a => some (descScan g op t excl d a)
  | .red g op t d a => some (descRed g op t d a)
  | .topk g d a b k => some (descTopk g d a b k)
  | _ => none

/-- The uniform operations of a pair: majors 0xC0 and 0xC2 to 0xCF. -/
def uniDesc : Instr → Option UniDesc
  | .kmov g t kd a => some (descKmov g t kd a)
  | .kadd g t sat kd a b => some (descKadd g t sat kd a b)
  | .ksub g t sat kd a b => some (descKsub g t sat kd a b)
  | .kmul g t kd a b => some (descKmul g t kd a b)
  | .kmad g t sat kd a b c => some (descKmad g t sat kd a b c)
  | .kand g t kd a b => some (descKand g t kd a b)
  | .kor g t kd a b => some (descKor g t kd a b)
  | .kxor g t kd a b => some (descKxor g t kd a b)
  | .kshl g t kd a b => some (descKshl g t kd a b)
  | .kshr g t kd a b => some (descKshr g t kd a b)
  | .ksar g t kd a b => some (descKsar g t kd a b)
  | .kmin g t kd a b => some (descKmin g t kd a b)
  | .kmax g t kd a b => some (descKmax g t kd a b)
  | .kcmp g c t qd a b => some (descKcmp g c t qd a b)
  | .ksel g t kd a b qs => some (descKsel g t kd a b qs)
  | _ => none

/-- Registers that both operations name. -/
def pairNames (d : LaneDesc) (u : UniDesc) : List Nat :=
  d.names ++ u.srcs.flatMap (fun p => srcNames 1 p.1) ++ (match u.kdst with | some k => [kBase + k.toNat] | none => [])

/-- A converged gang executes a pair. The guard in the lane operation names a uniform predicate; where it is false every lane
pushes its destination's old value and nothing else happens (R37). -/
def pairBody (s : State) (addr : W64) (len : Nat) (insn : W128) (f : Frag) (d : LaneDesc) (u : UniDesc) (b : Block) (g : Gang) : State :=
  let on := guardUni g.q d.guard
  let raise := fun (e : Flt) => raiseGang s f.blk f.gang 0 addr len insn e.lanes e
  match d.priv g g.live with
  | some e => raise e
  | none => match prepLane g g.live ⟨!on, 7⟩ d.srcs (d.dst.names ++ (u.srcs.flatMap (fun p => srcNames 1 p.1)) ++
      (match u.kdst with | some k => [kBase + k.toNat] | none => [])) false with
    | .error e => raise e
    | .ok (g1, gt) =>
      let done := fun (x : Gang) => modGang s f.blk f.gang (fun _ => advance x g.live addr len)
      if !on then done (applyLane b f.gang { d with custom := none } g1 g.live 0 g1)
      else match d.bad g1 gt with
        | some e => raise e
        | none =>
          if poisonLanes g1 (u.srcs.flatMap (fun p => srcBad p.2 p.1)) g.live ≠ 0 then raise { cls := 8, cause := 4, lanes := g.live }
          else applyUni (done (applyLane b f.gang d g1 g.live gt g1)) f.blk (.gang f.gang) u (u.eval g1.k g1.q)

/-- One gang's pair. -/
def pairFrag (s : State) (addr : W64) (len : Nat) (insn : W128) (f : Frag) (d : LaneDesc) (u : UniDesc) : State :=
  match getBlk s f.blk, getGang s f.blk f.gang with
  | some b, some g =>
    let held := stalledLanes g (pairNames d u) d.latches g.live
    marked s f addr g.live (firstLanes g (pairNames d u) held)
      (if f.mask ≠ g.live ∨ held ≠ 0 ∨ (d.wide && spPending g) = true then none else some (pairBody s addr len insn f d u b g))
  | _, _ => s

/-- A pair for the issue that is being carried out. -/
def runPair (s : State) (d : LaneDesc) (u : UniDesc) : State :=
  match s.active with
  | none => s
  | some a => match a.who with
    | .feeder blk addr => feederIllegal s blk addr a.insn
    | .group _ addr frags => frags.foldl (fun s f => pairFrag s addr a.len a.insn f d u) s

def execPair (lane uni : Instr) (s : State) : Out :=
  match laneDesc lane, uniDesc uni with
  | some d, some u => .next (runPair s d u)
  | _, _ => .next s

end Sys2Proof.Machine
end

