-- ==== Sys2Proof/Machine/Task.lean ====
section
/-! DEFINITION. Machine/Task.lean: RANGE (12 R330, R344), LAUNCH (12 R345) and the record-queue instructions
(12 R346 to R349). -/

namespace Sys2Proof.Machine

open Sys2Proof

/-! ### RANGE -/

def rangeEnd : W64 := 0xFFFF_FFFF_FFFF_FFFF
/-- The answer of the range unit: first index and count. -/
def rangeAnswer (i n : Nat) : W64 := BitVec.ofNat 64 (i + n * 2 ^ 40)
/-- Waves of a grid (R329). -/
def Grid.waves (g : Grid) : Nat := max 1 g.nblocks
/-- The chunk that a level-0 request takes. -/
def rangeChunk (g : Grid) : Nat :=
  let r := g.lp.rcount - g.rangeNext
  min r (min (2 ^ 24 - 1) (max g.lp.minchunk ((r + 2 * g.waves - 1) / (2 * g.waves))))

/-- Call count of a party, and its next value. -/
def partyRange (b : Block) : Party → Nat
  | .gang i => ((sfind b.gangs i).map (fun g => g.rangeCount)).getD 0
  | .feeder => (b.feeder.map (fun f => f.rangeCount)).getD 0
def bumpRange (s : State) (blk : Nat) : Party → State
  | .gang i => modGang s blk i (fun g => { g with rangeCount := g.rangeCount + 1 })
  | .feeder => modFeeder s blk (fun f => { f with rangeCount := f.rangeCount + 1 })

/-- RANGE in a grid without a range (R344). -/
def noRange (s : State) (i : Iss) : Option Flt :=
  if ((getBlk s i.blk).bind (fun b => getGrid s b.grid)).any (fun g => g.lp.rcount == 0) then some { cls := 3, cause := 9 } else none

def execRange (g : Guard) (kd : BitVec 6) (s : State) : Out :=
  .next (runGang s { guard := g, srcs := [], kdst := [kd], feederOk := true, early := noRange } (fun s i =>
    match getBlk s i.blk with
    | none => .stall
    | some b => match getGrid s b.grid with
      | none => .stall
      | some gr =>
        let put := fun (s : State) (x : W64) => GRes.done (setK s i.blk i.party kd x)
        if b.level = 0 then
          if gr.lp.rcount ≤ gr.rangeNext then put s rangeEnd
          else
            let n := rangeChunk gr
            put (modGrid s gr.id (fun g => { g with rangeNext := g.rangeNext + n })) (rangeAnswer gr.rangeNext n)
        else
          let x := b.wave + gr.waves * partyRange b i.party
          if x < gr.lp.rcount then put (bumpRange s i.blk i.party) (rangeAnswer x 1) else put s rangeEnd))

/-! ### LAUNCH -/

/-- The fault of a launch check: ramp violation, privilege, or the fault of a read. -/
def launchFlt (e : LErr) : Flt := { cls := e.2.1, cause := e.2.2.1, va := e.1, tlevel := e.2.2.2, access := if e.2.1 = 3 ∨ e.2.1 = 25 then 0 else 1 }

def execLaunch (g : Guard) (ka : BitVec 6) (s : State) : Out :=
  .next (runGang s { guard := g, srcs := [.k ka], mem := true, rel := true } (fun s i => withGang s i (fun b _ gg =>
    let va := readUni gg.k (.k ka)
    if va.toNat % 64 ≠ 0 then .fault { cls := 5, va := va, access := 1 }
    else orMisses s b i.party (match structLoad s b.ctx (some b.core) b.views va 64 with
      | .error e => .fault (lerrFlt 1 e)
      | .ok (s, l) =>
        if !launchMbz l then .fault { cls := 3, cause := 7, va := va }
        else match parseLaunch l with
          | none => .fault { cls := 3, cause := 7, va := va }
          | some body =>
            match checkLaunch s b.ctx (some b.core) b.views body (some b.region) with
            | .error e => .fault (launchFlt e)
            | .ok (s1, kd, lp) =>
              .done (weirAdmit (addGrid s1 b.ctx 1 (some b.grid) b.queue b.level body kd lp).2)))))

/-! ### Record queues -/

/-- Runs a body on the queue that a handle names, opening it at its first use, after the gang's own accesses (R276). -/
def withRq (s : State) (i : Iss) (kq : BitVec 6) (f : State → Block → Gang → RecQueue → GRes) : GRes :=
  withGang s i (fun b _ gg =>
    if accessOwed b i.party then .stall
    else orMisses s b i.party (match openRq s b (readUni gg.k (.k kq)) with
      | .error e => .fault e
      | .ok (q, s1) => f s1 b gg q))

def queueFlt : Flt := { cls := 3, cause := 10 }

/-- Takes the free record of a queue into kd; none when there is none. -/
def rqTake (s : State) (i : Iss) (b : Block) (q : RecQueue) (kd : BitVec 6) : Option GRes :=
  match freeRecord q with
  | none => none
  | some a => some (match takeRecord s b q a with
    | .error e => .fault e
    | .ok s1 => .done (setK s1 i.blk i.party kd (BitVec.ofNat 64 a)))

def rqallocDesc (g : Guard) (kd kq : BitVec 6) (swap : Bool) : GangDesc :=
  { guard := g, srcs := [.k kq], kdst := [kd], swap := swap, mem := true }

def execRqalloc (g : Guard) (kd kq : BitVec 6) (s : State) : Out :=
  .next (runGang s (rqallocDesc g kd kq true) (fun s i => withRq s i kq (fun s1 b _ q =>
    if q.closed then .fault queueFlt
    else match (if q.rqwait.isEmpty then rqTake s1 i b q kd else none) with
      | some r => r
      | none =>
        if b.level ≠ 0 then .fault { cls := 27, cause := 2 }
        else match i.party with
          | .feeder => .stall
          | .gang gi => .wait (modRq s1 q.id (fun q => { q with rqwait := q.rqwait ++ [(i.blk, gi)] })) (.rqalloc kd q.handle))))

def execRqallocTry (g : Guard) (kd kq : BitVec 6) (s : State) : Out :=
  .next (runGang s (rqallocDesc g kd kq false) (fun s i => withRq s i kq (fun s1 b _ q =>
    if q.closed then .fault queueFlt
    else match rqTake s1 i b q kd with
      | some r => r
      | none => .done (setK s1 i.blk i.party kd 0))))

/-- The launch depth of the records that a block commits (R335). -/
def commitDepth (b : Block) : Nat := b.depth + 1

def execRqcommit (g : Guard) (kq ka : BitVec 6) (key : Src) (s : State) : Out :=
  .next (runGang s { guard := g, srcs := [.k kq, .k ka, key], mem := true, rel := true } (fun s i => withRq s i kq (fun s1 b gg q =>
    let a := (readUni gg.k (.k ka)).toNat
    let k := readUni gg.k key
    if !q.allocated.contains a then .fault queueFlt
    else if 64 < commitDepth b then .fault { cls := 27, cause := 1 }
    else match structWrite s1 b.ctx (some b.core) b.views (BitVec.ofNat 64 a) (le64 k ++ zeros 8 ++ le 4 (commitDepth b) ++ zeros 12) with
      | .error e => .fault (lerrFlt 2 e)
      | .ok s2 => .done (modRq s2 q.id (fun q => { q with
          allocated := q.allocated.filter (fun x => x != a),
          committed := q.committed ++ [{ addr := a, key := k, depth := commitDepth b }] })))))

def execRqclose (g : Guard) (kq : BitVec 6) (s : State) : Out :=
  .next (runGang s { guard := g, srcs := [.k kq], mem := true, rel := true } (fun s i => withRq s i kq (fun s1 _ _ q =>
    if q.left = 0 then .fault queueFlt
    else .done (rqDone (modRq s1 q.id (fun q => { q with left := q.left - 1, closed := q.left == 1 })) q.id))))

end Sys2Proof.Machine
end

