-- ==== Sys2Proof/Machine/Insn.lean ====
section
/-! DEFINITION. Machine/Insn.lean: running one encoded instruction for the issue that is being carried out, apart from the
events of the machine. The selection of threads (11 R288) tries instructions with it. -/

namespace Sys2Proof.Machine

open Sys2Proof

/-- The meaning of an encoded instruction; an event of the machine does nothing here. -/
def runInsn (i : Instr) (s : State) : Out :=
  match i with
  | .nop g f => execNop g f s
  | .bra g disp => execBra g disp s
  | .brx g a => execBrx g a s
  | .brxu g a => execBrxu g a s
  | .call g disp => execCall g disp s
  | .callx g a => execCallx g a s
  | .callxu g a => execCallxu g a s
  | .ret g => execRet g s
  | .exit g => execExit g s
  | .yield g => execYield g s
  | .trap g n => execTrap g n s
  | .bkpt g => execBkpt g s
  | .rte => execRte s
  | .rteSkip => execRteSkip s
  | .rteRd kd w => execRteRd kd w s
  | .waitany g c => execWaitany g c s
  | .waitanyPoll g c => execWaitanyPoll g c s
  | .evbind g slot e => execEvbind g slot e s
  | .evctlMask g m => execEvctlMask g m s
  | .evctlUnmask g m => execEvctlUnmask g m s
  | .evctlClr g m => execEvctlClr g m s
  | .evctlRaise g m => execEvctlRaise g m s
  | .evctlRead g kd => execEvctlRead g kd s
  | .plop g q d a b c lut => execPlop g q d a b c lut s
  | .sread g sr d => execSread g sr d s
  | .sreadK g sr kd => execSreadK g sr kd s
  | .swrite g sr a => execSwrite g sr a s
  | .fence g f sc => execFence g f sc s
  | .clk g d => execClk g d s
  | .rng g f d => execRng g f d s
  | .rngx g f d a => execRngx g f d a s
  | .rgenter g id => execRgenter g id s
  | .rgleave g id => execRgleave g id s
  | .monitor g ka off => execMonitor g ka off s
  | .monitorClr g => execMonitorClr g s
  | .mwait g kd => execMwait g kd s
  | .waitc g c n => execWaitc g c n s
  | .grow g n => execGrow g n s
  | .shrink g n => execShrink g n s
  | .phase g => execPhase g s
  | .iadd g t sat d a b => execIadd g t sat d a b s
  | .isub g t sat d a b => execIsub g t sat d a b s
  | .iadd3 g t sat d a b c => execIadd3 g t sat d a b c s
  | .imul g t d a b => execImul g t d a b s
  | .imulh g t d a b => execImulh g t d a b s
  | .imad g t sat d a b c => execImad g t sat d a b c s
  | .idiv g t d a b => execIdiv g t d a b s
  | .irem g t d a b => execIrem g t d a b s
  | .imin g t d a b => execImin g t d a b s
  | .imax g t d a b => execImax g t d a b s
  | .iabs g t sat d a => execIabs g t sat d a s
  | .ineg g t sat d a => execIneg g t sat d a s
  | .and g t d a b => execAnd g t d a b s
  | .or g t d a b => execOr g t d a b s
  | .xor g t d a b => execXor g t d a b s
  | .andn g t d a b => execAndn g t d a b s
  | .not g t d a => execNot g t d a s
  | .shl g t d a b => execShl g t d a b s
  | .shr g t d a b => execShr g t d a b s
  | .sar g t d a b => execSar g t d a b s
  | .rot g t d a b => execRot g t d a b s
  | .fshl g t d a b c => execFshl g t d a b c s
  | .popc g t d a => execPopc g t d a s
  | .clz g t d a => execClz g t d a s
  | .ctz g t d a => execCtz g t d a s
  | .brev g t d a => execBrev g t d a s
  | .bfe g t d a b => execBfe g t d a b s
  | .bfi g t d a b c => execBfi g t d a b c s
  | .prmb g d a b c => execPrmb g d a b c s
  | .bmask g r t d a b c => execBmask g r t d a b c s
  | .clmul g d a b => execClmul g d a b s
  | .clmulh g d a b => execClmulh g d a b s
  | .icmp g c t pd a b => execIcmp g c t pd a b s
  | .sel g t d a b ps => execSel g t d a b ps s
  | .lea g t d a b sh => execLea g t d a b sh s
  | .mov g t d a => execMov g t d a s
  | .movi g t d a b => execMovi g t d a b s
  | .fadd g t r d a b => execFadd g t r d a b s
  | .fsub g t r d a b => execFsub g t r d a b s
  | .fmul g t r d a b => execFmul g t r d a b s
  | .ffma g t r d a b c => execFfma g t r d a b c s
  | .fmin g t d a b => execFmin g t d a b s
  | .fmax g t d a b => execFmax g t d a b s
  | .fcmp g c t pd a b => execFcmp g c t pd a b s
  | .fclass g t d a => execFclass g t d a s
  | .frcp g r d a => execFrcp g r d a s
  | .frsq g r d a => execFrsq g r d a s
  | .fsqrt g r d a => execFsqrt g r d a s
  | .fdiv g r d a b => execFdiv g r d a b s
  | .fexp2 g d a => execFexp2 g d a s
  | .flog2 g d a => execFlog2 g d a s
  | .fsin g d a => execFsin g d a s
  | .fcos g d a => execFcos g d a s
  | .ftanh g d a => execFtanh g d a s
  | .fsigm g d a => execFsigm g d a s
  | .fscale g t r d a b => execFscale g t r d a b s
  | .frnd g t r d a => execFrnd g t r d a s
  | .fcopys g t d a b => execFcopys g t d a b s
  | .cvt g res op r nan sat d a b => execCvt g res op r nan sat d a b s
  | .qgrp g e op r d a => execQgrp g e op r d a s
  | .dqgrp g res e d a => execDqgrp g res e d a s
  | .pkparcel g e d q grp => execPkparcel g e d q grp s
  | .unparcel g e d img grp => execUnparcel g e d img grp s
  | .planes g d a p => execPlanes g d a p s
  | .shfl g m t d a b => execShfl g m t d a b s
  | .vote g m ps => execVote g m ps s
  | .matchv g m t a => execMatchv g m t a s
  | .scan g op t excl d a => execScan g op t excl d a s
  | .red g op t d a => execRed g op t d a s
  | .topk g d a b k => execTopk g d a b k s
  | .ld g t kd sc d base off => execLd g t kd sc d base off s
  | .lds g t kd sc d base off => execLds g t kd sc d base off s
  | .ldc g t kd sc d base c off => execLdc g t kd sc d base c off s
  | .ldk g t ln d ka off => execLdk g t ln d ka off s
  | .st g t kd sc base off data => execSt g t kd sc base off data s
  | .sts g t kd sc base off data => execSts g t kd sc base off data s
  | .stc g t kd sc base c data off => execStc g t kd sc base c data off s
  | .stk g t kd sc ka off data => execStk g t kd sc ka off data s
  | .ldq g t d base off ter dm1 grp => execLdq g t d base off ter dm1 grp s
  | .pfetch g base off => execPfetch g base off s
  | .atom g op w64 ord sc d base off v => execAtom g op w64 ord sc d base off v s
  | .atoms g op w64 ord d base off v => execAtoms g op w64 ord d base off v s
  | .atomcas g w64 ord sc d base cmp new off => execAtomcas g w64 ord sc d base cmp new off s
  | .atomscas g w64 ord d base cmp new off => execAtomscas g w64 ord d base cmp new off s
  | .atomf g op ord sc d base off v => execAtomf g op ord sc d base off v s
  | .wsig g w64 sc base data gaddr off => execWsig g w64 sc base data gaddr off s
  | .mldw g m => execMldw g m s
  | .mswap g => execMswap g s
  | .mstr g par f bank va gm1 => execMstr g par f bank va gm1 s
  | .mzero g s32 bank => execMzero g s32 bank s
  | .mdrain g rel coop f bank ka pitch nrm1 => execMdrain g rel coop f bank ka pitch nrm1 s
  | .mgateTake g => execMgateTake g s
  | .mgateTry g qd => execMgateTry g qd s
  | .mgateGive g => execMgateGive g s
  | .mcoop g kd shape kg => execMcoop g kd shape kg s
  | .mcoopClr g => execMcoopClr g s
  | .mrestart g disp => execMrestart g disp s
  | .mend g => execMend g s
  | .mstatSt g kd => execMstatSt g kd s
  | .mstatAcc g bank kd pos => execMstatAcc g bank kd pos s
  | .mstatBal g kd => execMstatBal g kd s
  | .scopy g nm1 toMem ch tag ka kb kn => execScopy g nm1 toMem ch tag ka kb kn s
  | .sgather g f ls ch tag ka kb kn => execSgather g f ls ch tag ka kb kn s
  | .sscatter g x64 ls ch tag ka kb kn => execSscatter g x64 ls ch tag ka kb kn s
  | .sfill g nm1 fdst ch tag kb kn => execSfill g nm1 fdst ch tag kb kn s
  | .pushq g q gang ks => execPushq g q gang ks s
  | .popq g kd q => execPopq g kd q s
  | .setgs g slot m => execSetgs g slot m s
  | .setgsClr g slot => execSetgsClr g slot s
  | .loopk g kc disp => execLoopk g kc disp s
  | .barinit g b m => execBarinit g b m s
  | .bararr g qd b n => execBararr g qd b n s
  | .barexp g b bytes => execBarexp g b bytes s
  | .barwait g b qs => execBarwait g b qs s
  | .gaugeadd g sc ka amount => execGaugeadd g sc ka amount s
  | .gaugewait g sc ka target => execGaugewait g sc ka target s
  | .mbsend g target ks => execMbsend g target ks s
  | .mbsendTry g qd target ks => execMbsendTry g qd target ks s
  | .mbrecv g kd m => execMbrecv g kd m s
  | .kmov g t kd a => execKmov g t kd a s
  | .kmovi g t hi kd a => execKmovi g t hi kd a s
  | .kadd g t sat kd a b => execKadd g t sat kd a b s
  | .ksub g t sat kd a b => execKsub g t sat kd a b s
  | .kmul g t kd a b => execKmul g t kd a b s
  | .kmad g t sat kd a b c => execKmad g t sat kd a b c s
  | .kand g t kd a b => execKand g t kd a b s
  | .kor g t kd a b => execKor g t kd a b s
  | .kxor g t kd a b => execKxor g t kd a b s
  | .kshl g t kd a b => execKshl g t kd a b s
  | .kshr g t kd a b => execKshr g t kd a b s
  | .ksar g t kd a b => execKsar g t kd a b s
  | .kmin g t kd a b => execKmin g t kd a b s
  | .kmax g t kd a b => execKmax g t kd a b s
  | .kcmp g c t qd a b => execKcmp g c t qd a b s
  | .ksel g t kd a b qs => execKsel g t kd a b qs s
  | .kld g t kd ka off => execKld g t kd ka off s
  | .kst g t ka off ks => execKst g t ka off ks s
  | .kreadlane g t kd a n => execKreadlane g t kd a n s
  | .kbcast g t d a => execKbcast g t d a s
  | .pair lane uni => execPair lane uni s
  | .fork g sc ka => execFork g sc ka s
  | .join g kd tag => execJoin g kd tag s
  | .abandon g => execAbandon g s
  | .viewInfo g kd => execViewInfo g kd s
  | .viewAddr g kd ka off => execViewAddr g kd ka off s
  | .range g kd => execRange g kd s
  | .launch g ka => execLaunch g ka s
  | .rqalloc g kd kq => execRqalloc g kd kq s
  | .rqallocTry g kd kq => execRqallocTry g kd kq s
  | .rqcommit g kq ka key => execRqcommit g kq ka key s
  | .rqclose g kq => execRqclose g kq s
  | _ => .next s

end Sys2Proof.Machine
end

