-- ==== Sys2Proof/Machine/Issue.lean ====
section
/-! DEFINITION. Machine/Issue.lean: fetching for an issue (02 R30, R44), the PC table and the two ports (11 R287 to R291),
the active set (11 R292), uniformity (11 R294), the feeders of a core (06 R137), and the completion of a fetch. -/

namespace Sys2Proof.Machine

open Sys2Proof

/-! ### Fetching for an issue -/

/-- The block whose context and view an issuer fetches in: the parts of a group find one instruction there (`splitGroup`). -/
def issuerBlk (s : State) (x : Issuer) : Option Block :=
  match x with
  | .group _ _ frags => (frags.head?).bind (fun f => getBlk s f.blk)
  | .feeder blk _ => getBlk s blk
def issuerAddr : Issuer → W64
  | .group _ a _ => a
  | .feeder _ a => a

/-- What an issuer finds at its address. -/
def fetchFor (s : State) (x : Issuer) : Option Fetched :=
  (issuerBlk s x).map (fun b => fetchAt s b.ctx b.core b.views (issuerAddr x))

/-- Every thread of an issue takes a fault of its fetch (kind 1) or of an illegal instruction (kind 0). -/
def fetchFault (s : State) (x : Issuer) (kind len : Nat) (bytes : W128) (f : Flt) : State :=
  match x with
  | .group _ addr frags => frags.foldl (fun s p =>
      marked s p addr p.mask 0 (some (raiseGang s p.blk p.gang kind addr len bytes p.mask { f with lanes := p.mask }))) s
  | .feeder blk addr => raiseFeeder s blk kind addr bytes f

/-- What fetching for an issuer, in each context that takes part, leaves in L2 (R66, R73). -/
def fetchedFor (s : State) (x : Issuer) : State :=
  let blks : List Nat := match x with
    | .group _ _ frags => frags.map (fun (f : Frag) => f.blk)
    | .feeder blk _ => [blk]
  ((blks.filterMap (fun i => (getBlk s i).map (fun (b : Block) => (b.ctx, b.core)))).eraseDups).foldl (fun s p => fetchSeen s p.1 p.2 (issuerAddr x) 8) s

/-- The issue that stands while an instruction is carried out. -/
def startIssue (s : State) (x : Issuer) (len : Nat) (bytes : W128) : State :=
  { fetchedFor s x with active := some { who := x, len := len, insn := bytes } }

/-- One issue, whole: fetch, and the instruction or the fault. -/
def tryIssue (s : State) (x : Issuer) : State :=
  match fetchFor s x with
  | none => s
  | some (.bad f) => fetchFault s x 1 0 0 f
  | some (.illegal c len bytes) => fetchFault s x 0 len bytes { cls := 1, cause := c }
  | some (.instr i len bytes) => match runInsn i (startIssue s x len bytes) with
    | .next t => t
    | _ => s

/-! ### Ready threads (R288) -/

/-- Whether a block's gangs may issue. -/
def canIssue (s : State) (b : Block) : Bool := streamerOn s b && !childHeld s b.views

/-- Whether the wait of a gang is over, so that its instruction issues again. -/
def waitOver (s : State) (b : Block) (gi : Nat) (g : Gang) : Bool :=
  match g.wait with
  | .none => true
  | .waitc c n => waitcMet g c n
  | .join t => ((findTag s b t).map (fun f => f.bucketEnded t)).getD true
  | .phase => [0, 2, 3].all (fun c => classCount g c == 0) && phaseReady s b gi
  | .blocked => !walkAwaited s b gi
  | .mgate => holdsGate s b gi && !preemptPending s b.id
  | _ => false

/-- Addresses of live threads that wait for nothing but their turn, with the threads there. -/
def gangEntries (g : Gang) : List (W64 × Mask) :=
  let m := g.live &&& ~~~g.parked
  ((lanesOf m).map (fun l => sget 0 g.pc l)).eraseDups.map (fun a => (a, maskOf (fun l => m.getLsbD l && sget 0 g.pc l == a)))

/-- The guard of a waiting or yielding instruction, which is a swap point of its threads (R46). -/
def swapGuard : Instr → Option Guard
  | .waitc g _ _ | .waitany g _ | .mwait g _ | .barwait g _ _ | .gaugewait g _ _ _ | .mbrecv g _ _ | .popq g _ _ | .mgateTake g
  | .grow g _ | .rqalloc g _ _ | .join g _ _ | .yield g | .phase g => some g
  | _ => none

/-- Threads of a fragment that stand at such an instruction: at a YIELD those of its guard, at the others, which are gang-issued, all or
none. -/
def waitLanes (s : State) (core : Nat) (addr : W64) (f : Frag) (g : Gang) : Mask :=
  match fetchFor s (.group core addr [f]) with
  | some (.instr i _ _) => match swapGuard i with
    | none => 0
    | some x => if (match i with | .yield _ => true | _ => false) then guardMask g x f.mask else if guardUni g.q x then f.mask else 0
  | _ => 0

/-- A trial of one fragment: the threads that issue, and those that stand at a swap point (R46): stalled for the result that they access
first, at such an access, or at a waiting or yielding instruction. `alone`: as though the gang had no other live threads. -/
def tryFrag (s : State) (core : Nat) (addr : W64) (f : Frag) (alone : Bool) : Mask × Mask :=
  let s0 := modGang s f.blk f.gang (fun g => { g with issuedLanes := 0, atSwap := 0, live := if alone then f.mask else g.live })
  let s1 := tryIssue s0 (.group core addr [f])
  match getGang s0 f.blk f.gang, getGang s1 f.blk f.gang with
  | some g0, some g =>
    let first := g0.firstAcc.foldl (fun m p => m ||| (p.2 &&& ~~~(sget 0 g.firstAcc p.1))) 0
    (g.issuedLanes, g.atSwap ||| (first &&& f.mask) ||| waitLanes s core addr f g0)
  | _, _ => (f.mask, 0)

/-- Whether a fetch at an address waits for a translation (R68, R69). -/
def fetchMisses (s : State) (b : Block) (a : W64) : Bool :=
  !tlbHolds s b.ctx b.core a.toNat && decide (a.toNat < 2 ^ 57)
    && (match walk s false (((getCtx s b.ctx).map (fun c => c.root)).getD 0) a.toNat with
      | .leaf _ _ => true
      | .fault _ _ => false)

/-- One fragment of the PC table with its ready threads; `swap`: its threads that stand at a swap point. -/
structure Entry where
  addr : W64
  frag : Frag
  place : Nat
  swap : Mask := 0

/-- Fragments of the gangs of a core, active ones by their place or pending ones by the time they have waited, whose wait is
over. -/
def coreFrags (s : State) (core : Nat) (active : Bool) : List Entry :=
  (s.blocks.filter (fun b => b.core == core && canIssue s b)).flatMap (fun b =>
    b.gangs.flatMap (fun (p : Nat × Gang) =>
      if p.2.active == active && !p.2.exited && waitOver s b p.1 p.2 then
        (gangEntries p.2).map (fun x => { addr := x.1, frag := { blk := b.id, gang := p.1, mask := x.2 &&& ~~~p.2.fetchWait }, place := if active then p.2.place else p.2.since })
      else []))

/-- The ready part of a fragment. -/
def Entry.ready (s : State) (core : Nat) (e : Entry) : Entry :=
  let r := if e.frag.mask = 0 then (0, 0) else tryFrag s core e.addr e.frag false
  { e with frag := { e.frag with mask := r.1 }, swap := r.2 &&& e.frag.mask }

/-- The fragments of the active set with what is ready of them. -/
def activeFrags (s : State) (core : Nat) : List Entry := (coreFrags s core true).map (Entry.ready s core)
/-- Ready ones among some fragments. -/
def readyOf (es : List Entry) : List Entry := es.filter (fun e => e.frag.mask != 0)

/-- How long a thread has stood in its entry, as the time of its arrival. -/
def arrivedAt (s : State) (f : Frag) (l : Nat) : Nat := ((getGang s f.blk f.gang).map (fun g => sget 0 g.arrived l)).getD 0

/-- Whether the instruction issues only for all threads of a fragment (R210, R293): without the lowest one nothing issues. -/
def Entry.whole (s : State) (core : Nat) (e : Entry) : Bool :=
  let m := e.frag.mask &&& ~~~(laneBit (lowestLane e.frag.mask))
  m != 0 && (tryFrag s core e.addr { e.frag with mask := m } false).1 == 0

/-- Whether fragments of two gangs share a lane. -/
def Entry.meets (x y : Entry) : Bool := (x.frag.blk != y.frag.blk || x.frag.gang != y.frag.gang) && (x.frag.mask &&& y.frag.mask) != 0

/-- The time that ranks all threads of a fragment that issues as a whole, where another gang shares a lane with it: since when its
threads have all been in the entry (DESIGN CHOICE, log 49). -/
def Entry.since (s : State) (core : Nat) (es : List Entry) (e : Entry) : Option Nat :=
  if es.any e.meets && e.whole s core then some (((lanesOf e.frag.mask).map (arrivedAt s e.frag)).foldl max 0) else none

/-- The eligible threads of an entry: the first-ranked ready one of each lane. -/
def eligible (s : State) (core : Nat) (es : List Entry) : List Frag :=
  let xs := es.map (fun e => (e, e.since s core es))
  let best := (lanesOf (BitVec.allOnes 64)).filterMap (fun l =>
    (leastBy (fun (x : Entry × Option Nat) => (x.2.getD (arrivedAt s x.1.frag l)) * 2 ^ 64 + x.1.place) (xs.filter (fun x => x.1.frag.mask.getLsbD l))).map
      (fun x => (l, x.1.frag.blk, x.1.frag.gang)))
  es.filterMap (fun e =>
    let m := maskOfList ((best.filter (fun x => x.2.1 == e.frag.blk && x.2.2 == e.frag.gang)).map (·.1))
    if m = 0 then none else some { e.frag with mask := m })

/-- Lanes of some fragments. -/
def fragLanes (fs : List Frag) : Mask := fs.foldl (fun m f => m ||| f.mask) 0

/-- Ready addresses, ascending, with their fragments. -/
def readyEntries (es : List Entry) : List (W64 × List Entry) :=
  (sortBy (fun (x y : W64) => decide (x ≤ y)) (es.map (fun e => e.addr)).eraseDups).map (fun a => (a, es.filter (fun e => e.addr == a)))

def pctOf (c : Core) (a : W64) : PcEntry := (c.pct.find? (fun e => e.addr == a)).getD { addr := a, wait := 0, starved := false }

/-- Whether an entry is starved: ready for 64 cycles without issue (R289). -/
def PcEntry.hungry (e : PcEntry) : Bool := e.starved || decide (64 ≤ e.wait)

/-- The entry that port 0 takes (R289). -/
def portZero (c : Core) (rs : List (W64 × List Entry)) : Option (W64 × List Entry) :=
  let starved := rs.filter (fun r => (pctOf c r.1).hungry)
  match starved with
  | [] => rs.head?
  | _ => leastBy (fun (r : W64 × List Entry) => 2 ^ 64 - (pctOf c r.1).wait) starved

/-- The two issue groups of a cycle, from the ready fragments. -/
def chooseGroups (s : State) (core : Nat) (es : List Entry) : List (W64 × List Frag) :=
  let rs := readyEntries es
  match portZero (getCore s core) rs with
  | none => []
  | some r0 =>
    let g0 := eligible s core r0.2
    let free := ~~~(fragLanes g0)
    let r1 := (rs.filter (fun r => r.1 != r0.1)).findSome? (fun r =>
      let g := (eligible s core r.2).filterMap (fun f => if f.mask &&& free = 0 then none else some { f with mask := f.mask &&& free })
      if g.isEmpty then none else some (r.1, g))
    (r0.1, g0) :: (match r1 with | some g => [g] | none => [])

/-- A group in parts that each fetch one instruction: threads of several contexts may find different ones at its address. -/
def splitGroup (s : State) (core : Nat) (a : W64) (fs : List Frag) : List Issuer :=
  match fs with
  | [] => []
  | [f] => [.group core a [f]]
  | _ =>
    let xs := fs.map (fun f => (f, fetchFor s (.group core a [f])))
    ((xs.map (·.2)).eraseDups).map (fun k => .group core a ((xs.filter (fun x => x.2 == k)).map (·.1)))

/-! ### Uniformity (R294) -/

/-- A gang whose live threads all wait at convergence points, at two or more addresses. -/
def splitGang (s : State) (core : Nat) (b : Block) (gi : Nat) (g : Gang) : Bool :=
  let es := gangEntries g
  decide (2 ≤ es.length) && g.parked == 0 && g.fetchWait == 0 && es.all (fun x =>
    let f : Frag := { blk := b.id, gang := gi, mask := x.2 }
    (tryFrag s core x.1 f false).1 == 0 && (tryFrag s core x.1 f true).1 != 0)

/-- The first such gang of a core takes its fault at the lowest address. -/
def uniformityFault (s : State) (core : Nat) : Option State :=
  (s.blocks.filter (fun b => b.core == core && canIssue s b)).findSome? (fun b =>
    b.gangs.findSome? (fun (p : Nat × Gang) =>
      if !p.2.exited && p.2.wait == .none && splitGang s core b p.1 p.2 then
        let es := gangEntries p.2
        (leastBy (fun (x : W64 × Mask) => x.1.toNat) es).map (fun lo =>
          let away := p.2.live &&& ~~~lo.2
          let x := Issuer.group core lo.1 [{ blk := b.id, gang := p.1, mask := lo.2 }]
          let i : Nat × W128 := match fetchFor s x with
            | some (.instr _ len bytes) => (len, bytes)
            | _ => (0, 0)
          raiseGang s b.id p.1 0 lo.1 i.1 i.2 lo.2 { cls := 22, cause := 2, lanes := away, w := [lo.1, away] })
      else none))

/-! ### The cycle -/

/-- A fetch that misses waits for its walk, as an access does (R68, R69). -/
def startFetch (s : State) (b : Block) (gi : Nat) (x : W64 × Mask) : State :=
  if fetchMisses s b x.1 then
    modGang ((missAt s b.ctx b.core (fetchRef b.id gi) x.1).getD s) b.id gi (fun g => { g with fetchWait := g.fetchWait ||| x.2 })
  else s
/-- Threads whose fetch misses begin to wait for it. -/
def startFetches (s : State) (core : Nat) : State :=
  (s.blocks.filter (fun b => b.core == core && canIssue s b)).foldl (fun s b =>
    (b.gangs.filter (fun (p : Nat × Gang) => p.2.active && !p.2.exited && waitOver s b 32 p.2)).foldl (fun s p =>
      ((gangEntries p.2).filter (fun x => x.2 &&& ~~~p.2.fetchWait != 0)).foldl (fun s x => startFetch s b p.1 x) s) s) s

/-- Addresses at which threads of the active set stand. -/
def tableAddrs (s : State) (core : Nat) : List W64 :=
  ((s.blocks.filter (fun b => b.core == core)).flatMap (fun b => b.gangs.flatMap (fun (p : Nat × Gang) =>
    if p.2.active && !p.2.exited then (lanesOf p.2.live).map (fun l => sget 0 p.2.pc l) else []))).eraseDups

/-- Wait counts after a cycle's choice: an entry that is ready counts one cycle more, until it issues; the others keep theirs
(R289). -/
def nextPct (c : Core) (at_ ready : List W64) : List PcEntry :=
  at_.filterMap (fun a =>
    let e := pctOf c a
    let w := if ready.contains a then e.wait + 1 else e.wait
    if w = 0 then none else some { e with wait := w })

/-- What an issue leaves that was carried out: its entry's wait count starts again (R289), its group and threads are counted by
context (R370). -/
def settleIssue (s : State) (x : Issuer) : State :=
  match x with
  | .feeder _ _ => s
  | .group core addr frags =>
    let did := frags.filterMap (fun f => match getBlk s f.blk, getGang s f.blk f.gang with
      | some b, some g => if g.issued = some addr then some (b.ctx, (lanesOf g.issuedLanes).length) else none
      | _, _ => none)
    if did.isEmpty then s
    else ((did.map (·.1)).eraseDups).foldl (fun s c =>
        countCtr (countCtr s c 0 1) c 1 (((did.filter (fun d => d.1 == c)).map (·.2)).foldl (· + ·) 0))
      (modCore s core (fun c => { c with pct := c.pct.filter (fun e => e.addr != addr) }))

/-- The ready pending gang that has waited longest. -/
def nextPending (s : State) (core : Nat) : Option (Nat × Nat) :=
  let es := readyOf ((coreFrags s core false).map (Entry.ready s core))
  (leastBy (fun (e : Entry) => e.place) es).map (fun e => (e.frag.blk, e.frag.gang))

/-- One arithmetic cycle of a core: which of its threads are ready, those that stand at swap points, and the groups that the
ports take. -/
def execIssueCycle (core : Nat) (s : State) : Out :=
  .next (if !s.cur.isEmpty then s
    else match uniformityFault s core with
      | some t => t
      | none =>
        let s0 := startFetches s core
        let es := activeFrags s0 core
        let groups := chooseGroups s0 core (readyOf es)
        let ready := (readyEntries (readyOf es)).map (·.1)
        let pend := (nextPending s0 core).isSome
        let swapOf := fun (b gi : Nat) => es.foldl (fun m e => if e.frag.blk = b ∧ e.frag.gang = gi then m ||| e.swap else m) (0 : Mask)
        let s1 := { s0 with blocks := s0.blocks.map (fun b => if b.core = core then { b with gangs := b.gangs.map (fun (p : Nat × Gang) =>
          (p.1, { p.2 with issued := none, issuedLanes := 0, issuedOp := 0, atSwap := swapOf b.id p.1 })) } else b) }
        let s2 := modCore s1 core (fun c => { c with
          cyc := c.cyc + 1, sinceGrant := c.sinceGrant + 1, pct := nextPct c (tableAddrs s0 core) ready, pendReady := pend,
          issue2 := c.issue2 + (if groups.length = 2 then 1 else 0) })
        { s2 with cur := (sortBy (fun (x y : W64 × List Frag) => decide (x.1 ≤ y.1)) groups).flatMap (fun g => splitGroup s2 core g.1 g.2) })

/-- An entry that has been ready for 64 cycles without issue is starved. -/
def execEntryStarved (core : Nat) (addr : W64) (s : State) : Out :=
  .next (modCore s core (fun c => { c with
    pct := c.pct.map (fun e => if e.addr = addr ∧ 64 ≤ e.wait then { e with starved := true } else e) }))

/-! ### Feeders (R137) -/

/-- Whether a feeder can issue. -/
def feederReady (s : State) (b : Block) (f : Feeder) : Bool :=
  !f.exited && !f.fetchWait && canIssue s b && (match f.wait with
    | .none => true
    | .channel ch => decide (chanLen b ch < 16)
    | .setgsClr t => !b.chans.any (fun c => c.tag == some t)
    | .blocked => true
    | _ => false)

/-- The next ready feeder in rotation of block slots. -/
def nextFeeder (s : State) (core : Nat) : Option (Block × Feeder) :=
  let fs := (s.blocks.filter (fun b => b.core == core)).filterMap (fun b => match b.feeder with
    | some f => if feederReady s b f then some (b, f) else none
    | none => none)
  let last := (getCore s core).rotFeeder
  leastBy (fun (x : Block × Feeder) => (x.1.slot + 64 - (last + 1)) % 64) fs

def execFeederIssue (core : Nat) (s : State) : Out :=
  .next (if !s.cur.isEmpty then s
    else match nextFeeder s core with
      | none => s
      | some (b, f) =>
        if fetchMisses s b f.pc then
          modFeeder ((missAt s b.ctx b.core (fetchRef b.id 32) f.pc).getD s) b.id (fun f => { f with fetchWait := true })
        else { modCore s core (fun c => { c with rotFeeder := b.slot }) with cur := [.feeder b.id f.pc] })

/-! ### The fetch (R373) -/

/-- The fetch at an address, for every thread of a core that waits on it: it completes once the translation is held, or the walk
has shown that there is none; while neither is so, it asks for its walk, if the die had no room before. -/
def execInstructionFetchComplete (core : Nat) (addr : W64) (s : State) : Out :=
  let at_ := fun (g : Gang) => maskOf (fun l => g.fetchWait.getLsbD l && sget 0 g.pc l == addr)
  let waits := fun (b : Block) => (b.gangs.filter (fun (p : Nat × Gang) => at_ p.2 != 0)).map (·.1)
    ++ (if (b.feeder.map (fun f => f.fetchWait && f.pc == addr)).getD false then [32] else [])
  let hit := s.blocks.filter (fun b => b.core == core && !(waits b).isEmpty)
  .next (hit.foldl (fun s b =>
    if fetchMisses s b addr then (waits b).foldl (fun s g => (missAt s b.ctx core (fetchRef b.id g) addr).getD s) s
    else modBlk s b.id (fun b => { b with
      gangs := b.gangs.map (fun (p : Nat × Gang) => (p.1, { p.2 with fetchWait := p.2.fetchWait &&& ~~~(at_ p.2) })),
      feeder := b.feeder.map (fun f => if f.pc = addr then { f with fetchWait := false } else f) })) s)

/-! ### The active set (R292) -/

/-- Gangs of a core's active set. -/
def activeGangs (s : State) (core : Nat) : List (Nat × Nat × Gang) :=
  (s.blocks.filter (fun b => b.core == core && b.onCore)).flatMap (fun b =>
    (b.gangs.filter (fun (p : Nat × Gang) => p.2.active && !p.2.exited)).map (fun p => (b.id, p.1, p.2)))

/-- Whether a gang is parked as a whole. -/
def wholeParked (g : Gang) : Bool := g.wait.parks || g.wait == .debugStop

/-- Threads of a gang that stand stalled at a swap point. -/
def swapLanes (s : State) (core blk gi : Nat) (g : Gang) : Mask :=
  (gangEntries g).foldl (fun m x =>
    let r := tryFrag s core x.1 { blk := blk, gang := gi, mask := x.2 } false
    if r.1 = 0 then m ||| (r.2 &&& x.2) else m) 0

/-- Whether a gang may leave the active set (R46): each live thread is parked or stands stalled at a swap point. -/
def mayLeave (s : State) (core blk gi : Nat) (g : Gang) : Bool :=
  wholeParked g || (g.live &&& ~~~g.parked &&& ~~~(swapLanes s core blk gi g)) == 0

/-- A gang enters the active set at its lowest free place, where its threads join the entries of their addresses (R287, R288). -/
def enterActive (s : State) (core blk gi : Nat) : State :=
  let used := (activeGangs s core).map (fun x => x.2.2.place)
  let place := ((List.range 32).find? (fun i => !used.contains i)).getD 0
  modGang s blk gi (fun g => { g with active := true, since := s.tick, place := place,
                                      arrived := (lanesOf g.live).foldl (fun r l => sset 0 r l s.tick) g.arrived })
/-- A gang leaves it. -/
def leaveActive (s : State) (blk gi : Nat) : State := modGang s blk gi (fun g => { g with active := false, since := s.tick })

def execActiveSetSwap (core : Nat) (s : State) : Out :=
  let act := activeGangs s core
  let enter := fun (s : State) => match nextPending s core with
    | some (b, g) => enterActive s core b g
    | none => s
  .next (if act.length < 8 then enter s
    else
      let ready := (nextPending s core).isSome
      match act.find? (fun x => (ready || wholeParked x.2.2) && mayLeave s core x.1 x.2.1 x.2.2) with
      | none => s
      | some (b, g, _) =>
        let ctx := ((getBlk s b).map (fun b => b.ctx)).getD 0
        enter (countCtr (leaveActive s b g) ctx 2 1))

end Sys2Proof.Machine
end

