-- ==== Sys2Proof/Machine/Sched.lean ====
section
/-! DEFINITION. Machine/Sched.lean: placing blocks on cores (12 R325, R326, R328, R331), the die dispatchers (12 R332,
R333), the restore of images (13 R363, 09 R252, R253), the weir (12 R339 to R342) and the record-queue launchers
(12 R336 to R338). -/

namespace Sys2Proof.Machine

open Sys2Proof

/-! ### What blocks take of a core (R326) -/

/-- Amounts of what a core shares out. -/
structure Res where
  gangs : Nat := 0
  chunks : Nat := 0
  scratch : Nat := 0
  bars : Nat := 0
  mboxes : Nat := 0
  feeders : Nat := 0
  deriving DecidableEq, Repr

def Res.plus (a b : Res) : Res :=
  { gangs := a.gangs + b.gangs, chunks := a.chunks + b.chunks, scratch := a.scratch + b.scratch, bars := a.bars + b.bars,
    mboxes := a.mboxes + b.mboxes, feeders := a.feeders + b.feeders }

/-- What a resident block holds; its scratchpad allocation is its .scratch size (R182). -/
def blockRes (b : Block) : Res :=
  { gangs := b.kd.gangs, chunks := b.chunks, scratch := b.kd.scratch, bars := b.kd.nbar,
    mboxes := b.kd.nmbox, feeders := if b.feeder.isSome then 1 else 0 }

/-- A queued next phase that is not portable keeps its scratchpad and barriers on its core (R326). -/
def Block.keeps (b : Block) : Bool := b.stat == .queued && b.image == .phaseRecord && !b.portable
/-- Blocks that stand on a core, with those that keep something there. -/
def Block.holdsOn (b : Block) (core : Nat) : Bool := b.core == core && (b.onCore || b.keeps)

/-- What blocks hold on a core. -/
def usage (s : State) (core : Nat) (p : Block → Bool) : Res :=
  (s.blocks.filter (fun b => b.holdsOn core && p b)).foldl (fun r b =>
    r.plus (if b.keeps then { scratch := (blockRes b).scratch, bars := b.kd.nbar } else blockRes b)) {}

/-- What a block still needs to stand on its core. -/
def needRes (b : Block) : Res :=
  let r := blockRes (if b.image = .first then b.atStart else b)
  if b.keeps then { r with scratch := 0, bars := 0 } else r

/-- The lowest place of a core's scratchpad, a multiple of 1,024, that is free for some bytes (R182, R326; which of the free places
is taken is the model's choice, log 32). -/
def spPlace (s : State) (core n : Nat) : Option Nat :=
  let held := (s.blocks.filter (fun b => b.holdsOn core && b.kd.scratch != 0)).map (fun b => (b.spBase, ceilTo 1024 b.kd.scratch))
  ((List.range 1024).map (fun i => 1024 * i)).find? (fun a =>
    decide (a + n ≤ 1048576) && held.all (fun x => decide (x.1 + x.2 ≤ a) || decide (a + n ≤ x.1)))

/-- A request of the pool's queue that waits for chunks, or that is to be granted next: no block is admitted before it (R179). -/
def poolWaits (s : State) (core : Nat) : Bool := growNext s core != .idle

/-- Bytes of the longest return-stack section and of the sections of one gang, each at a multiple of 64, with their table entries
(R364, R365): 0x01, 0x05, 0x0E with its three layouts, and 0x02, 0x0F, 0x03, 0x04, 0x0A, 0x0C. -/
def stackRoom (k : KDesc) : Nat := 64 + 512 * (4 + k.sd)
def gangRoom (k : KDesc) : Nat :=
  ceilTo 64 (8 + 2048 * k.rmax) + stackRoom k + (64 + ceilTo 64 (40 + 256 * k.carryv.length + 8 * k.carryk.length) + 640 + stackRoom k)
    + (4736 + 576 + 640 + 576 + 576 + 704) + 16 * 9
/-- The longest record that a block of a kernel can need (R364 to R366, R383); the saved faults are not bounded, and 16 are
counted. -/
def recordRoom (k : KDesc) : Nat :=
  128 + 64 + 16 * 6 + k.gangs * gangRoom k + ceilTo 64 k.scratch + ceilTo 64 (32 * k.nbar) + ceilTo 64 (72 * k.nmbox)
    + (if k.feeder = 0 then 64 else ceilTo 64 (16 + 96 * 64) + 1152) + 128 * 16

/-- Bytes of the regions that a context's forks have in its device-reserved memory (R105, R383): one RCB each, in the lowest pool (the
die is the model's choice, log 59). -/
def forkRegionBytes (s : State) (c : Ctx) (die : Nat) : Nat :=
  if ((c.pools.find? (fun p => p.2.2 != 0)).map (·.1)) = some die then 128 * (s.forks.filter (fun f => f.ctx == c.id)).length else 0

/-- Bytes of a context's pool on a die that nothing holds (R383). -/
def poolRoom (s : State) (ctx die : Nat) : Nat :=
  match getCtx s ctx with
  | none => 0
  | some c =>
    let p := (sfind c.pools die).getD (0, 0)
    let cut := ((c.carved.filter (fun x => decide (p.1 ≤ x.1) && decide (x.1 < p.1 + p.2))).map (·.2)).foldl (· + ·) 0
    let recs := ((s.blocks.filter (fun b => b.ctx == ctx && b.lDie == die)).map (fun b =>
      if b.onCore then recordRoom b.kd else b.recordBytes.length)).foldl (· + ·) 0
    p.2 - cut - recs - forkRegionBytes s c die

/-- Whether a core has what a block needs, under its context's limits, the budgets of its regions on the core, and the
pool's room for its record. -/
def fitsCore (s : State) (b : Block) (core : Nat) : Bool :=
  match getCtx s b.ctx with
  | none => false
  | some c =>
    let n := needRes b
    let u := (usage s core (fun _ => true)).plus n
    let v := (usage s core (fun x => x.ctx == b.ctx)).plus n
    decide (u.gangs ≤ 32 ∧ u.chunks ≤ 384 ∧ u.bars ≤ 128 ∧ u.mboxes ≤ 32 ∧ u.feeders ≤ 16)
      && (b.keeps || (spPlace s core n.scratch).isSome)
      && decide (v.gangs ≤ c.gangPlaces ∧ v.chunks ≤ c.chunks ∧ v.scratch ≤ c.scratch ∧ v.bars ≤ c.barriers ∧ v.mboxes ≤ c.mailboxes)
      && decide ((s.blocks.filter (fun x => x.core == core && x.onCore)).length < 32)
      && !b.notAgain.contains core && !poolWaits s core
      && decide (recordRoom b.kd ≤ poolRoom s b.ctx b.lDie + b.recordBytes.length)

/-! ### Budgets (R325) -/

/-- Bytes of the open queues of a region's subtree. -/
def rqBytes (s : State) (c : Ctx) (a : W64) : Nat :=
  ((s.rqs.filter (fun q => q.ctx == c.id && !q.done && inSubtree c a q.rcb)).map (fun q => q.size)).foldl (· + ·) 0

/-- Cores that hold blocks of a region's subtree. -/
def regionCores (s : State) (c : Ctx) (a : W64) : List Nat :=
  ((s.blocks.filter (fun b => b.ctx == c.id && b.onCore && inSubtree c a b.region)).map (fun b => b.core)).eraseDups

/-- Whether every region on a chain stays within its cores and queue memory with blocks on some cores. -/
def coresBudget (s : State) (ctx : Nat) (region : W64) (cores : List Nat) : Bool :=
  match getCtx s ctx with
  | none => false
  | some c => ((chainOf c region).map (fun (r : Region) => r.addr) ++ [0]).all (fun (a : W64) =>
      let r := effRegion c a
      decide ((regionCores s c a ++ cores).eraseDups.length ≤ r.cores) && decide (rqBytes s c a ≤ r.rqmem))

/-! ### Phases that wait in a die's queues (R331) -/

/-- Where a phase stands before its dispatch: as a queued block, as the next element of a grid, as the next child of a
fork. -/
inductive PhaseSrc where
  | stands
  | element (grid : Nat)
  | child (fork idx : Nat)
  deriving DecidableEq, Repr

/-- A phase, or the blocks of a clique. -/
structure Phase where
  src : PhaseSrc
  blks : List Block
  order : Nat
  deriving DecidableEq, Repr

/-- Coordinates, index and place of the blocks of the element of full rank T of a grid (R14, R327, R328). -/
def elementBlocks (s : State) (g : Grid) (T : Nat) : List Block :=
  let p := elementAt g.kd g.lp T
  let cols := g.kd.shape.2
  let n := g.kd.shape.1 * cols
  let c := coreOf g.lp T p.1 p.2.1 p.2.2
  let view : View := match g.fork, g.child with
    | some f, some i => (f, i) :: ((getFork s f).map (fun f => f.parentView)).getD []
    | _, _ => []
  (List.range n).map (fun i =>
    let x := p.1 + i % cols
    let y := p.2.1 + i / cols
    let idx := x + g.lp.x * (y + g.lp.y * p.2.2)
    { id := s.nextId + i, ctx := g.ctx, grid := g.id, idx := idx, bx := x, byy := y, bz := p.2.2, kd := g.kd,
      source := g.source, launchKey := g.seed, k0 := g.arg, k1 := g.source, wave := idx, level := g.level, region := g.rcb,
      lDie := dieOf g.lp T, lClu := c / 16, lCore := c % 16, queue := g.queue,
      views := view, clique := if g.kd.clique.isSome then s.nextId + n else 0, cliqueIdx := i })

/-- The grid of one child of a fork: one block, or at chip scope gx × gy × gz blocks (R104). -/
def childGrid (s : State) (f : Fork) (i : Nat) : Grid :=
  let chip := f.scope == .chip
  let lp : LParams := if chip then { x := f.gx, y := f.gy, z := f.gz } else { x := f.count }
  { id := s.nextId, ctx := f.ctx, road := 2, parent := f.openerGrid, fork := some f.id, child := some i, queue := f.queue,
    level := f.level, seed := if chip then f.seed + BitVec.ofNat 64 i else f.seed, arg := f.arg, rcb := f.region,
    source := f.desc, kd := f.kd, lp := lp, nblocks := if chip then f.gx * f.gy * f.gz else 1, order := f.order, read := f.read }

/-- The block of a child outside chip scope: its index is the child's, its logical place follows its parent's (R104). -/
def childBlock (s : State) (f : Fork) (i : Nat) (par : Block) : Block :=
  let b := ((elementBlocks { s with nextId := s.nextId + 1 } (childGrid s f i) i).head?).getD { id := s.nextId + 1, ctx := f.ctx, grid := s.nextId, idx := i }
  match f.scope with
  | .block => { b with lDie := par.lDie, lClu := par.lClu, lCore := par.lCore }
  | .cluster => { b with lDie := par.lDie, lClu := par.lClu, lCore := i % 16 }
  | _ => { b with lDie := par.lDie, lClu := i % 64 / 16, lCore := i % 16 }

/-- The child of a fork that may start next (R104, R122): the lowest that has not started; while a child is Blocked
only the head. -/
def nextChild (s : State) (f : Fork) : Option Nat :=
  if f.ended then none
  else match f.children.find? (fun c => c.st == .unstarted && runsHere s f c.idx) with
    | none => none
    | some c =>
      if f.children.any (fun x => x.st == .blocked) && (headOf s f).map (fun h => h.idx) != some c.idx then none else some c.idx

/-- The order in which the element of a rank came to its dispatch queue. -/
def elementOrder (g : Grid) (T : Nat) : Nat := ((g.batches.find? (fun p => decide (T < p.1))).map (·.2)).getD g.order

/-- The next element of a grid on a die, if the weir has admitted it. -/
def nextElement (s : State) (die : Nat) (g : Grid) : Option Phase :=
  let T := rankOnDie g.lp die (sget 0 g.started die)
  if g.killed || g.rq.isSome || (g.road == 2 && !g.fork.any (fun f => (getFork s f).any (fun f => f.scope == .chip)))
      || g.elements ≤ T || (decide (g.road < 2) && g.admitted ≤ T) then none
  else some { src := .element g.id, blks := elementBlocks s g T, order := elementOrder g T }

/-- The first phase of a fork's next child on a die. -/
def childPhase (s : State) (die : Nat) (f : Fork) : Option Phase :=
  match nextChild s f with
  | none => none
  | some i =>
    if f.scope = .chip then
      let g := childGrid s f i
      let T := rankOnDie g.lp die 0
      if g.elements ≤ T then none
      else some { src := .child f.id i, blks := elementBlocks { s with nextId := s.nextId + 1 } g T, order := f.order }
    else match f.opener.bind (getBlk s) with
      | none => none
      | some par => if par.lDie = die then some { src := .child f.id i, blks := [childBlock s f i par], order := f.order } else none

/-- Queued blocks of a die; the images of a clique together, once all of its saved blocks are in. -/
def standing (s : State) (die : Nat) : List Phase :=
  (s.blocks.filter (fun b => b.stat == .queued && b.lDie == die)).filterMap (fun b =>
    if b.clique = 0 ∨ b.image = .phaseRecord then some { src := .stands, blks := [b], order := b.order }
    else
      let all := s.blocks.filter (fun x => x.clique == b.clique)
      let mine := all.filter (fun x => x.stat == .queued && x.image != .phaseRecord)
      if (mine.head?.map (fun x => x.id)) = some b.id ∧ all.all (fun x => x.stat != .stopping && x.stat != .stopped)
      then some { src := .stands, blks := mine, order := b.order } else none)

/-- Whether a stop of PREEMPT is about a block (R386). -/
def stopHits (c : Ctx) (b : Block) (t : StopTarget) : Bool :=
  match t.kind with
  | 0 => true
  | 1 => inSubtree c t.target b.region
  | _ => t.target.toNat == b.queue

/-- Whether phases of a block are dispatched at all: its context runs and no stop is about it. -/
def mayDispatch (s : State) (b : Block) : Bool :=
  match getCtx s b.ctx with
  | none => false
  | some c => c.goesOn && !c.stops.any (stopHits c b)

/-- All phases that wait on a die. -/
def phases (s : State) (die : Nat) : List Phase :=
  (standing s die ++ s.grids.filterMap (nextElement s die) ++ s.forks.filterMap (childPhase s die)).filter (fun p =>
    p.blks.all (mayDispatch s))

def Phase.key (p : Phase) : Nat × Nat := ((p.blks.head?).map (fun b => (b.ctx, b.queue))).getD (0, 0)

/-- The heads of a die's dispatch queues, one for each context and work queue. -/
def heads (s : State) (die : Nat) : List Phase :=
  let ps := phases s die
  (ps.map (fun p => p.key)).eraseDups.filterMap (fun k => leastBy (fun (p : Phase) => p.order) (ps.filter (fun p => p.key == k)))

/-! ### Where a phase can go (R328, R331) -/

def clusterCores (die clu : Nat) : List Nat := (List.range 16).map (fun i => 64 * die + 16 * clu + i)
def dieCores (die : Nat) : List Nat := (List.range 64).map (fun i => 64 * die + i)

/-- Cores that a single block may go to, its logical core first. -/
def blockCores (s : State) (b : Block) : List Nat :=
  if b.keeps then [b.core]
  else
    let scope := match (b.views.head?).bind (fun x => getFork s x.1) with
      | none => dieCores b.lDie
      | some f =>
        let at_ := ((f.opener.bind (getBlk s)).map (fun (x : Block) => x.core)).getD 0
        match f.scope with
        | .block => [at_]
        | .cluster => clusterCores (at_ / 64) (at_ / 16 % 4)
        | _ => dieCores b.lDie
    let own := 64 * b.lDie + 16 * b.lClu + b.lCore
    scope.filter (fun c => c == own) ++ scope.filter (fun c => c != own)

/-- Clusters that a clique may go to: that of its blocks which stand already, else its logical one first. -/
def cliqueClusters (s : State) (b : Block) (mine : List Block) : List (List Nat) :=
  let other : Option Block := s.blocks.find? (fun x => x.clique == b.clique && x.stat != .ended && !mine.any (fun y => y.id == x.id))
  match other with
  | some x => [(clusterCores (x.core / 64) (x.core / 16 % 4)).filter (fun c => !s.blocks.any (fun y => y.clique == b.clique && y.holdsOn c))]
  | none => (b.lClu :: (List.range 4).filter (fun i => i != b.lClu)).map (clusterCores b.lDie)

/-- Cores in the order in which the regions of a chain hold them already: those that most of them hold come first. -/
def heldFirst (s : State) (ctx : Nat) (region : W64) (cores : List Nat) : List Nat :=
  match getCtx s ctx with
  | none => cores
  | some c =>
    let held := ((chainOf c region).map (fun (r : Region) => r.addr) ++ [0]).map (regionCores s c)
    let lacks : Nat → Nat := fun x => (held.filter (fun (l : List Nat) => !l.contains x)).length
    sortBy (fun (x y : Nat) => decide (lacks x ≤ lacks y)) cores

/-- Whether each of some cores can take a block of its own. -/
def coresTake (ok : Block → Nat → Bool) : List Nat → List Block → Bool
  | [], _ => true
  | c :: t, bs => bs.any (fun b => ok b c && coresTake ok t (bs.filter (fun x => x.id != b.id)))

/-- The cores among those given that can take all blocks together and, for every region of a chain at once, add the fewest to
what it holds (R325): taken in the order of heldFirst, each that leaves the others a place. -/
def fewestCores (ok : Block → Nat → Bool) (cores : List Nat) (bs : List Block) : List Nat :=
  cores.foldl (fun l c => if l.length < bs.length && coresTake ok (c :: l) bs then c :: l else l) []

/-- One core for each block, no core twice. -/
def assignCores (ok : Block → Nat → Bool) (cores : List Nat) : List Block → Option (List Nat)
  | [] => some []
  | b :: t =>
    let pref := cores.filter (fun c => c % 16 == b.lCore) ++ cores.filter (fun c => c % 16 != b.lCore)
    pref.findSome? (fun c => if ok b c then (assignCores ok (cores.filter (fun x => x != c)) t).map (fun l => c :: l) else none)

/-- The first place of a phase at which every block and every budget allows it. -/
def placeOf (s : State) (p : Phase) (ok : Block → Nat → Bool) : Option (List Nat) :=
  match p.blks with
  | [] => none
  | b :: t =>
    let good := fun (b : Block) (c : Nat) => ok b c && regBudget s c b (needRes b).chunks
    let fits := fun (l : List Nat) => coresBudget s b.ctx b.region l
    if b.clique = 0 ∨ b.keeps then ((blockCores s b).find? (fun c => good b c && fits [c])).map (fun c => [c])
    else (cliqueClusters s b (b :: t)).findSome? (fun cs => ((assignCores good cs (b :: t)).filter fits).orElse (fun _ =>
      (assignCores good (fewestCores good (heldFirst s b.ctx b.region cs) (b :: t)) (b :: t)).filter fits))

/-- Limits of the context that a block exceeds by itself, in cause order (R363). -/
def imageOver (s : State) (b : Block) : Option Nat :=
  match getCtx s b.ctx with
  | none => none
  | some c =>
    let r := blockRes b
    let first := [decide (c.gangPlaces < r.gangs), decide (c.chunks < r.chunks), decide (c.scratch < r.scratch),
                  decide (c.barriers < r.bars) || decide (c.mailboxes < r.mboxes), decide (c.spillPlaces < b.kd.sd)]
    ((List.range 5).find? (fun i => first.getD i false)).map (· + 1)

/-- Images that a phase would restore, and what keeps one of them from it. -/
def isImage (b : Block) : Bool := b.image == .preempted || b.image == .evicted
def phaseOver (s : State) (p : Phase) : Option (Block × Nat) :=
  p.blks.findSome? (fun b => if isImage b then (imageOver s b).map (fun c => (b, c)) else none)

def withinBudget (s : State) (p : Phase) : Bool := (phaseOver s p).isSome || (placeOf s p (fun _ _ => true)).isSome
/-- Where a phase goes now: its cores; no core at all where its image exceeds a limit. -/
def placeable (s : State) (closed : List Nat) (p : Phase) : Option (List Nat) :=
  if (phaseOver s p).isSome then some [] else placeOf s p (fun b c => fitsCore s b c && !closed.contains c)

/-- The core, cluster or die that a head needs (R332). -/
def neededCores (s : State) (p : Phase) : List Nat :=
  match p.blks with
  | [] => []
  | b :: t => if b.clique = 0 ∨ b.keeps then blockCores s b else ((cliqueClusters s b (b :: t)).head?).getD []

/-! ### The choice (R332) -/

def ageOf (d : Die) (k : Nat × Nat) : Nat := ((d.dqs.find? (fun q => q.ctx == k.1 && q.queue == k.2)).map (fun q => q.age)).getD 0
def bandOf (s : State) (p : Phase) : Nat := ((p.blks.head?).map (fun b => (regionOf s b.ctx b.region).band)).getD 0

/-- The highest band with a placeable head; in it the next queue in rotation. -/
def chooseBand (s : State) (d : Die) (closed : List Nat) (hs : List Phase) : Option (Phase × List Nat) :=
  let can := hs.filterMap (fun p => (placeable s closed p).map (fun c => (p, c)))
  let top := can.foldl (fun m x => max m (bandOf s x.1)) 0
  leastBy (fun (x : Phase × List Nat) => (x.1.key.2 + 65536 - sget 0 d.rot top) % 65536) (can.filter (fun x => bandOf s x.1 == top))

/-- The aged queues, the greatest age first: the first that is placeable, beside what the ones before it need; or what all of them
need (R332, R333). -/
def chooseAged (s : State) : List Nat → List Phase → Except (List Nat) (Phase × List Nat)
  | closed, [] => .error closed
  | closed, p :: t => match placeable s closed p with
    | some c => .ok (p, c)
    | none => chooseAged s (closed ++ neededCores s p) t

/-- The phase that the next dispatch of a die places, and where. -/
def choosePhase (s : State) (die : Nat) : Option (Phase × List Nat) :=
  let d := getDie s die
  let hs := (heads s die).filter (withinBudget s)
  let rank := fun (p : Phase) => (2 ^ 64 - ageOf d p.key) * 65536 + p.key.2
  let aged := sortBy (fun (x y : Phase) => decide (rank x ≤ rank y)) (hs.filter (fun p => decide (s.dev.aging < ageOf d p.key)))
  match chooseAged s [] aged with
  | .ok x => some x
  | .error closed => chooseBand s d closed (hs.filter (fun q => !aged.any (fun p => q.key == p.key)))

/-- Ages and rotation after a dispatch that served queue `k`. -/
def afterDispatch (s : State) (die : Nat) (k : Nat × Nat) (band : Nat) : State :=
  let wait := ((heads s die).filter (withinBudget s)).map (fun p => p.key)
  modDie s die (fun d =>
    let keys := (d.dqs.map (fun q => (q.ctx, q.queue)) ++ wait).eraseDups
    { d with
      dqs := (keys.filter (fun x => x != k)).map (fun x =>
        { ctx := x.1, queue := x.2, age := ageOf d x + (if wait.contains x then 1 else 0) }),
      rot := sset 0 d.rot band (k.2 + 1) })

/-! ### Restore (R363, R253) -/

/-- A watch that was armed is armed again, not triggered, with the restored mark (R311). -/
def restoreWatch (w : Watch) : Watch := if w.armed then { w with triggered := false, restored := true } else w

/-- A gang that stopped inside an open restart region stands at its label in the state of R253. Out of handler mode: R253's table does
not name the handler record (DESIGN CHOICE, log 61). -/
def restartGang (g : Gang) (r : Restart) : Gang :=
  let keep := carryWords (r.carry.vs.map (·.1)) (r.carry.ks.map (·.1))
  { live := g.live, pc := (lanesOf g.live).foldl (fun s l => sset 0 s l r.label) [],
    v := r.carry.vs.foldl (fun s p => ssetMany 0 s (p.2.map (fun x => (reg p.1 x.1, x.2)))) [],
    k := ssetMany 0 [] r.carry.ks, alloc := r.alloc, fstat := g.fstat, draw := r.draw, rangeCount := g.rangeCount,
    rstack := r.rstack, spill := r.spill, spillBad := r.spillBad, regions := r.regions, watch := restoreWatch g.watch,
    ev := g.ev, inlet := g.inlet, wait := .restartGate, restart := some r, lastExit := g.lastExit, checksum := g.checksum,
    badRegs := r.badRegs.filter (fun x => keep.contains (x / 64)), since := g.since }

/-- A thread's stack as a restore reloads it: its newest four entries on chip, the rest in places 0 onward (R299). -/
def reloadStack (g : Gang) (l : Nat) : Gang :=
  let r := sget ({} : RStack) g.rstack l
  let all := r.chip ++ ((List.range r.spilled).map (fun i => sget 0 g.spill (place l i))).reverse
  let s := all.length - 4
  { g with rstack := sset {} g.rstack l { chip := all.take 4, spilled := s },
           spill := ssetMany 0 g.spill ((List.range s).map (fun i => (place l i, all.getD (all.length - 1 - i) 0))) }

/-- The length of the instruction at which a gang waits, read again; none where it cannot be fetched. A stop before RGLEAVE leaves no
instruction behind it (R374). -/
def waitLength (s : State) (b : Block) (g : Gang) : Option Nat :=
  match fetchAt s b.ctx b.core b.views (sget 0 g.pc (lowestLane (if g.parked = 0 then g.live else g.parked))) with
  | .instr i len _ => match g.wait, i with
    | .debugStop, .rgleave .. => some 0
    | _, _ => some len
  | _ => none

/-- A gang waits again as its image says (R165, R171, R173, R207, R264, R307, R313, R347, R133); the place of a gauge is translated
anew. Where the instruction or the place cannot be reached, it issues again and takes its fault (log 33). -/
def rewait (s0 : State) (b : Block) (gi : Nat) : State :=
  let again := fun (s : State) => modGang s b.id gi (fun g => { g with wait := .none, waitLen := 0 })
  let len := ((getGang s0 b.id gi).bind (waitLength s0 b)).getD 0
  let s := modGang s0 b.id gi (fun g => { g with waitLen := len, waitSince := s0.tick })
  match getGang s b.id gi with
  | none => s
  | some g =>
    let me := (b.id, gi)
    if len = 0 ∧ g.wait ≠ .restartGate ∧ g.wait ≠ .debugStop then again s
    else match g.wait with
    | .grow _ => modCore s b.core (fun c => { c with growQ := c.growQ ++ [me] })
    | .mgate | .restartGate => modCore s b.core (fun c => { c with gateQ := c.gateQ ++ [me] })
    | .rqalloc _ h => match s.rqs.find? (fun q => q.ctx == b.ctx && q.handle == h) with
      | some q => modRq s q.id (fun q => { q with rqwait := q.rqwait ++ [me] })
      | none => again s
    | .gaugewait l t => match gaugePlace s b .watch .all l.va with
      | .ok l => modGang s b.id gi (fun g => { g with wait := .gaugewait l t })
      | .error _ => again s
    | .waitany _ => again s
    | .mwait kd =>
      if g.watch.restored then
        resumeParty (setK (modGang s b.id gi (fun g => { g with watch := { g.watch with restored := false } })) b.id (.gang gi) kd 1) b.id (.gang gi)
      else s
    | _ => s

/-- The slots of a restored party: the place of a gauge is translated anew, and a queue is looked up by its handle; a slot whose
source the context cannot reach is unbound (DESIGN CHOICE, log 33). -/
def rebind (s : State) (b : Block) (e : Events) : Events :=
  { e with slots := e.slots.filterMap (fun (p : Nat × EvSlot) => match p.2.kind with
    | 2 => match gaugePlace s b .watch .page p.2.loc.va with
      | .ok l => some (p.1, { p.2 with loc := l })
      | .error _ => none
    | 5 => (s.rqs.find? (fun q => q.ctx == b.ctx && q.handle == p.2.loc.va)).map (fun q => (p.1, { p.2 with idx := q.id }))
    | _ => some p) }
/-- A restored watch is armed at the same address, translated anew; one that cannot be reached is not armed. -/
def rewatch (s : State) (b : Block) (w : Watch) : Watch :=
  if !w.armed then w
  else match gaugePlace s b .watch .page w.va with
    | .ok l => { w with loc := l }
    | .error _ => { w with armed := false }
/-- The places that a restored block has bound: its slots, its watches, its MCOOP gauge. -/
def boundAnew (s : State) (b : Block) : Block :=
  { b with gangs := b.gangs.map (fun (p : Nat × Gang) => (p.1, { p.2 with ev := rebind s b p.2.ev, watch := rewatch s b p.2.watch })),
           feeder := b.feeder.map (fun f => { f with ev := rebind s b f.ev }),
           coop := b.coop.bind (fun l => (gaugePlace s b .rw .page l.va).toOption) }

/-- Reloads an image: gangs pending, counters zero, every level source of a bound slot evaluated again (R305, R307). -/
def reload (s : State) (b : Block) : State :=
  let back := fun (g : Gang) => match g.restart with
    | some r => (lanesOf g.live).foldl reloadStack (restartGang g r)
    | none => (lanesOf g.live).foldl reloadStack { g with ops := [], watch := restoreWatch g.watch, fetchWait := 0 }
  let feed := fun (f : Feeder) => { f with wait := .none, fetchWait := false }
  let s1 := modBlk s b.id (fun b => { b with
    gangs := b.gangs.map (fun (p : Nat × Gang) => if p.2.exited then p else (p.1, back p.2)),
    feeder := b.feeder.map feed })
  let s1 := modBlk s1 b.id (boundAnew s1)
  let s2 := b.gangs.foldl (fun s (p : Nat × Gang) => if p.2.exited then s else evalLevels (rewait s b p.1) b.id (.gang p.1)) s1
  if b.feeder.isSome then evalLevels s2 b.id .feeder else s2

/-! ### Dispatch -/

/-- The lowest block slot of a core that is free. -/
def freeSlot (s : State) (core : Nat) : Nat :=
  ((List.range 32).find? (fun i => !s.blocks.any (fun b => b.core == core && b.onCore && b.slot == i))).getD 0

/-- A block becomes resident on a core: the pool grants its chunks (R177, R180). -/
def settle (s : State) (b : Block) (core : Nat) : State :=
  let t := freshTick s
  let slot := freeSlot s core
  let fresh := fun (g : Gang) => { g with active := false, since := s.tick }
  let base := if b.keeps then b.spBase else (spPlace s core b.kd.scratch).getD 0
  let s1 := modBlk t.2 b.id (fun x =>
    let x1 := if b.image = .first then x.atStart else x
    { x1 with stat := .resident, core := core, slot := slot, spBase := base, admitted := t.1, evict := false,
              gangs := x1.gangs.map (fun (p : Nat × Gang) => (p.1, fresh p.2)) })
  let s2 := modCtx (modCore s1 core (fun c => { c with sinceGrant := 0 })) b.ctx (fun c => { c with switched := false })
  if isImage b then reload s2 { b with core := core } else s2

/-- Adds the blocks of a phase where they do not stand yet. -/
def bringIn (s : State) (die : Nat) (p : Phase) : State :=
  let add := fun (s : State) =>
    { s with blocks := s.blocks ++ p.blks, nextId := s.nextId + p.blks.length + 1 }
  match p.src with
  | .stands => s
  | .element g => modGrid (add s) g (fun g => { g with started := sset 0 g.started die (sget 0 g.started die + 1) })
  | .child f i => match getFork s f with
    | none => s
    | some fk =>
      let s1 := { s with grids := s.grids ++ [{ childGrid s fk i with started := [(die, 1)] }], nextId := s.nextId + 1 }
      modChild (add s1) f i (fun c => { c with st := .running, need := 0, ending := .no })

/-- The restore capacity fault: the image leaves its queue and waits for the host. -/
def restoreFault (s : State) (b : Block) (cause : Nat) : State :=
  let hit := fun (x : Block) => x.id == b.id || (b.clique != 0 && x.clique == b.clique && x.stat == .queued)
  let s1 := { s with blocks := s.blocks.map (fun x => if hit x then { x with stat := .waitHost, capWait := true } else x) }
  raiseBlock s1 b.id 6 0 { cls := 24, cause := cause }

def dispatchPhase (s : State) (die : Nat) (p : Phase) (cores : List Nat) : State :=
  let band := bandOf s p
  let s1 := afterDispatch s die p.key band
  match phaseOver s p with
  | some (b, c) => restoreFault s1 b c
  | none => countCtr ((p.blks.zip cores).foldl (fun s x => settle s x.1 x.2) (bringIn s1 die p)) p.key.1 10 1

/-- Phases are dispatched in every power state but idle and off (R397). -/
def execDispatch (die : Nat) (s : State) : Out :=
  .next (if s.dev.power < 2 || s.dev.target == some 1 || 8 ≤ die then s
    else match choosePhase s die with
      | none => s
      | some (p, cores) => dispatchPhase s die p cores)

/-- A restore is the dispatch of an image: it comes about when the die's choice falls on it. -/
def execRestore (blk : Nat) (s : State) : Out :=
  .next (match getBlk s blk with
    | none => s
    | some b =>
      if !isImage b || b.stat != .queued || s.dev.power < 2 || s.dev.target == some 1 then s
      else match choosePhase s b.lDie with
        | none => s
        | some (p, cores) => if p.blks.any (fun x => x.id == blk) then dispatchPhase s b.lDie p cores else s)

/-! ### The weir (R339 to R341) -/

/-- Activity of a die in its interval, in 1/1024 load steps (R339). -/
def dieActivity (s : State) (die : Nat) : Nat :=
  ((dieCores die).map (fun c => 4 * min 1024 (getCore s c).busy + min 1024 (getCore s c).issue2)).foldl (· + ·) 0

/-- Contexts with a block on some cores. -/
def ctxsOn (s : State) (cores : List Nat) : List Nat :=
  ((s.blocks.filter (fun b => b.onCore && cores.contains b.core)).map (fun b => b.ctx)).eraseDups

/-- Counts n for each of some contexts. -/
def countAll (s : State) (ctxs : List Nat) (i n : Nat) : State := ctxs.foldl (fun s c => countCtr s c i n) s

/-- Contexts with blocks that wait for the weir: one entry for each waiting grid, and for each record queue whose next node block
waits (R340). -/
def staggered (s : State) : List Nat :=
  (s.grids.filter (fun g => decide (g.road < 2) && !g.killed && decide (g.admitted < g.elements))).map (fun g => g.ctx)
    ++ (s.rqs.filter (fun q => groupReady q && (match getGrid s q.grid, getCtx s q.ctx with
      | some g, some c => !g.killed && c.goesOn && !rampFits s c q.rcb g.lp.est
      | _, _ => false))).map (fun q => q.ctx)

/-- A number's share of a whole that is parted in proportion, rounded up. -/
def shareOf (whole part all : Nat) : Nat := if all = 0 then 0 else (whole * part + all - 1) / all

/-- What the package weir makes of a die's interval, from the package activity P of the interval before and of this one (R341):
the activity that stands, the ballast and the delay in proportion to the die's own fall or rise. -/
def dieShare (old new falls rises : Nat) (d : Die) : Nat × Nat × Nat :=
  let ballast := shareOf (old - (new + 1024 * d.fall)) (d.last - d.act) falls
  let delay := shareOf (new - (old + 1024 * d.rise)) (d.act - d.last) rises
  (d.act + ballast - delay, ballast, delay)

/-- One die's part of it, with the cycles that Skelbor counts, four steps to a cycle. Which idle cycles of which core take the ballast
is open (free values). -/
def settleDie (old new falls rises : Nat) (s : State) (die : Nat) : State :=
  let x := dieShare old new falls rises (getDie s die)
  let ctxs := ctxsOn s (dieCores die)
  let s1 := modDie s die (fun d => { d with last := x.1 })
  let s2 := if x.2.1 = 0 then s1 else { s1 with cores := (s1.cores.map (fun (p : Nat × Core) =>
    if p.1 / 64 = die then (p.1, { p.2 with ballast := p.2.ballast + Config.ballastCycles s.tick p.1 }) else p)).filter (fun p => p.2 != {}) }
  countAll (countAll s2 ctxs 7 ((x.2.1 + 3) / 4)) ctxs 8 ((x.2.2 + 3) / 4)

/-- The package activity P: the sum of the eight dies (R339). -/
def packageSum (s : State) (f : Die → Nat) : Nat := ((List.range 8).map (fun i => f (getDie s i))).foldl (· + ·) 0

/-- The package weir's interval ends: a fall of P beyond Fl is filled with ballast, a rise beyond Ru is delayed. -/
def settlePackage (s : State) : State :=
  (List.range 8).foldl (settleDie (packageSum s (fun d => d.last)) (packageSum s (fun d => d.act))
    (packageSum s (fun d => d.last - d.act)) (packageSum s (fun d => d.act - d.last))) s

/-- A die's interval ends: its activity is measured, and the limits that the host has set come into force (R387). With die 0 an interval
of the package weir ends (log 57), and blocks are admitted again. -/
def execWeirInterval (die : Nat) (s : State) : Out :=
  .next (if 8 ≤ die then s
    else
      let act := dieActivity s die
      let next := fun (p : Nat × Core) => if p.1 / 64 = die then (p.1, { p.2 with busy := 0, issue2 := 0 }) else p
      let s1 := { s with cores := (s.cores.map next).filter (fun (p : Nat × Core) => p.2 != {}) }
      let measured := fun (s : State) => modDie s die (fun d => { d with act := act })
      let limits := fun (s : State) => modDie s die (fun d => { d with rise := s.dev.rise, fall := s.dev.fall })
      if die = 0 then
        let s2 := settlePackage (measured s1)
        weirAdmit { limits (countAll s2 (staggered s2) 9 1) with weir := {} }
      else limits (measured s1))

/-! ### Record queues (R336 to R338) -/

/-- Chains the records of a group by their next fields (R335). -/
def chainRecs (s : State) (q : RecQueue) : List Rec → State
  | [] => s
  | [_] => s
  | r :: t :: rest =>
    let s1 := match structWrite s q.ctx none [] (BitVec.ofNat 64 (r.addr + 8)) (le 8 t.addr) with
      | .ok s => s
      | .error e => devWriteFailed s 8 q.ctx e
    chainRecs s1 q (t :: rest)

/-- A node block of a group (R321, R335, R338). -/
def nodeBlock (s : State) (q : RecQueue) (g : Grid) (l : List Rec) : Block :=
  let i := q.nextBlk
  let c := coreOf { g.lp with hash := false } i 0 0 0
  { id := s.nextId, ctx := q.ctx, grid := g.id, idx := i, bx := i, kd := { g.kd with clique := none }, source := q.handle,
    launchKey := q.seed, k0 := q.arg, k1 := BitVec.ofNat 64 (((l.head?).map (fun r => r.addr)).getD 0), k2 := q.handle,
    nrec := l.length, wave := i, depth := l.foldl (fun m r => max m r.depth) 0, level := q.level, region := q.rcb,
    lDie := dieOf g.lp i, lClu := c / 16, lCore := c % 16, queue := q.queue, order := s.pktOrder,
    nodeRecs := l.map (fun r => r.addr), nodeRq := some q.id }

/-- Starts one group, when the weir admits its block. -/
def launchGroup (s : State) (q : RecQueue) : State :=
  match getGrid s q.grid, getCtx s q.ctx with
  | some g, some c =>
    let l := (recOrder s q).take q.group
    if l.isEmpty || !c.goesOn || g.killed || !rampFits s c q.rcb g.lp.est then s
    else
      let b := nodeBlock s q g l
      let s1 := chainRecs { s with weir := rampAdd s.weir c.id (rampChain c q.rcb) g.lp.est } q l
      modRq { s1 with blocks := s1.blocks ++ [b], nextId := s1.nextId + 1, pktOrder := s1.pktOrder + 1 } q.id (fun q => { q with
        committed := q.committed.filter (fun r => !l.any (fun x => x.addr == r.addr)), taken := q.taken ++ l.map (fun r => r.addr),
        nextBlk := q.nextBlk + 1, liveBlks := q.liveBlks + 1 })
  | _, _ => s

def execRecordQueueLaunch (rq : Nat) (s : State) : Out :=
  .next (match getRq s rq with
    | none => s
    | some q => if groupReady q then launchGroup s q else s)

/-- The oldest record has waited T cycles (level 0). -/
def execRecordQueueTimer (rq : Nat) (s : State) : Out :=
  .next (match getRq s rq with
    | none => s
    | some q => if q.level = 0 && q.timer != 0 then launchGroup s q else s)

/-- The RQALLOC that has waited longest takes a record that is free. -/
def execRqallocResume (blk gang : Nat) (s : State) : Out :=
  .next (withWait s blk (.gang gang) (fun b w => match w with
    | .rqalloc kd h => match s.rqs.find? (fun q => q.ctx == b.ctx && q.handle == h) with
      | none => s
      | some q => match freeRecord q with
        | none => s
        | some a =>
          if q.rqwait.head? ≠ some (blk, gang) then s
          else
            let s1 := modRq s q.id (fun q => { q with rqwait := q.rqwait.filter (fun x => x != (blk, gang)) })
            match takeRecord s1 b q a with
            | .error e => raiseWaiting (setWait s1 blk (.gang gang) .none 0) blk (.gang gang) e
            | .ok s2 => resumeParty (setK s2 blk (.gang gang) kd (BitVec.ofNat 64 a)) blk (.gang gang)
    | _ => s))

end Sys2Proof.Machine
end

