-- ==== Sys2Proof/Machine/Preempt.lean ====
section
/-! DEFINITION. Machine/Preempt.lean: pre-emption (13 R360 to R362, R407, 09 R251, R252), asynchronous faults (13 R354),
halt and dump (13 R367 to R369, R414), Skelbor samples (13 R372, R373). -/

namespace Sys2Proof.Machine

open Sys2Proof

/-! ### Pre-emption -/

/-- The blocks that one pre-emption is about: a block, or the blocks of its clique (R360). -/
def together (b x : Block) : Bool := x.id == b.id || (b.clique != 0 && x.clique == b.clique)

/-- Step 1 of R360 for every block that satisfies `p`, its clique included. -/
def requestStop (s : State) (p : Block → Bool) : State :=
  let hit := s.blocks.filter (fun b => b.stat == .resident && p b)
  { s with blocks := s.blocks.map (fun x =>
      if x.stat == .resident && hit.any (fun b => together b x) then { x with stat := .stopping } else x) }

/-- Whether a gang stands at a PHASE that it has issued: at level 2 it folds its checksum there first (R23). -/
def standsAtPhase (g : Gang) : Bool :=
  g.wait == .phase || (g.wait == .checksum && g.ckAt == some phaseBar) || g.checksum.any (fun x => x.1 == phaseBar)
/-- Whether the PHASE of a block has issued: every gang that has not exited stands at it (R407). -/
def phaseIssued (b : Block) : Bool :=
  !b.liveGangs.isEmpty && feederDone b && b.gangs.all (fun (p : Nat × Gang) => p.2.exited || standsAtPhase p.2)

/-- Whether no gang of the stopping blocks is matrix-bound (R251). -/
def unbound (s : State) (bs : List Block) : Bool :=
  bs.all (fun b => b.gangs.all (fun (p : Nat × Gang) => !matrixBound s b p.1))

/-- Step 3: the block stops. -/
def execPreemptStop (blk : Nat) (s : State) : Out :=
  .next (match getBlk s blk with
    | none => s
    | some b =>
      let bs := s.blocks.filter (fun x => together b x && x.stat == .stopping)
      if b.stat != .stopping || bs.any phaseIssued || !unbound s bs then s
      else { s with blocks := s.blocks.map (fun x => if together b x && x.stat == .stopping then { x with stat := .stopped } else x) })

/-- Step 5, R252: a gang that stopped inside an open restart region gives up its banks and the gate. -/
def discardRestart (s : State) (b : Block) : State :=
  b.gangs.foldl (fun s (p : Nat × Gang) =>
    if p.2.restart.isNone then s
    else
      let s1 := [false, true].foldl (fun s x => if (getBank (getCore s b.core) x).claim = some (b.id, p.1) then freeBank s b.core x else s) s
      if holdsGate s1 b p.1 then releaseGate s1 b.core else s1) s

/-- The waiting state that an image holds (R361, R374); what waits for anything else stands at its instruction. -/
def savedWait (w : Wait) : Wait :=
  match w with
  | .grow _ | .mgate | .popq _ _ | .barwait _ _ | .gaugewait _ _ | .mbrecv _ _ | .mwait _ | .waitany _ | .rqalloc _ _ | .join _ | .debugStop => w
  | _ => .none

/-- What an image keeps of a gang (R361): no mark of poison, and nothing of the core that it stood on. The first accesses that are
swap points are those of the program (R46), the checksums that a phase awaits are its log's (R375), and a stop at RGLEAVE that the host
has released is over (R374): these stand. -/
def savedGang (g : Gang) : Gang :=
  { g with active := false, fetchWait := 0, ops := [], issued := none, issuedLanes := 0, issuedOp := 0, atSwap := 0, arrived := [],
           place := 0, badRegs := [], spillBad := [], lastExit := 0, ckAt := none, wait := savedWait g.wait, waitLen := 0, waitSince := 0,
           restart := g.restart.map (fun r => { r with badRegs := [], spillBad := [] }) }
/-- The same of a feeder: section 0x0B has no waiting state but its park in WAITANY (R365). -/
def savedFeeder (f : Feeder) : Feeder :=
  { f with badRegs := [], fetchWait := false, waitLen := 0, wait := match f.wait with
    | .waitany c => .waitany c
    | _ => .none }

/-- Steps 7 and 8: the image is written, what the block held is freed, and the image enters its dispatch queue. -/
def saveImage (s : State) (b : Block) : State :=
  let s1 := releaseHeld s b
  modBlk { s1 with pktOrder := s1.pktOrder + 1 } b.id (fun b =>
    let gs := b.gangs.map (fun (p : Nat × Gang) => (p.1, savedGang p.2))
    let b1 := { b with gangs := gs, feeder := b.feeder.map savedFeeder, scratchBad := [], stat := .queued, image := if b.evict then .evicted else .preempted, order := s1.pktOrder }
    { b1 with recordBytes := encodeRecord b1 (rcbAddr b1.region) (if b.evict then 2 else 1) b1.childIdx (imageSections b1) })

/-- Whether what a block or a block of its clique has started can still land in it (R159, R194). -/
def landing (s : State) (b : Block) : Bool :=
  s.blocks.any (fun x => together b x && x.onCore && (!opsDone x || !x.started.isEmpty))

/-- Steps 4 to 8, once the block has drained. -/
def execPreemptSave (blk : Nat) (s : State) : Out :=
  .next (match getBlk s blk with
    | none => s
    | some b =>
      if b.stat != .stopped || landing s b || ctxHalted s b.ctx then s
      else
        let s1 := discardRestart s b
        if endReady s1 b then endChecked s1 b else saveImage s1 b)

/-- Whether the stops of a context cover all of it: one of the whole context, or stops that are about every block that it has, one of
which is saved (R386). -/
def wholeStop (s : State) (c : Ctx) : Bool :=
  let mine := s.blocks.filter (fun b => b.ctx == c.id && b.stat != .ended)
  c.stops.any (fun t => t.kind == 0) || (mine.any isImage && mine.all (fun b => c.stops.any (stopHits c b)))

/-- A context whose stop is whole and of which no block stands on a core is switched out (R386, R370). -/
def switchOut (s : State) (ctx : Nat) : State :=
  match getCtx s ctx with
  | none => s
  | some c =>
    if !c.switched && wholeStop s c && !s.blocks.any (fun b => b.ctx == ctx && b.onCore) then
      modCtx s ctx (fun c => { c with switched := true, capture := c.capture.map (fun x => { x with switchOuts := x.switchOuts + 1 }) })
    else s

/-! ### Asynchronous faults (R354) -/

/-- The party that takes an asynchronous fault: the gang that the report names while it lives (R376), else the lowest
gang that has not exited, else the feeder. -/
def asyncTaker (b : Block) (r : Report) : Option Nat :=
  if b.liveGangs.contains r.gang then some r.gang else b.liveGangs.head?

/-- The report as it is delivered at an instruction boundary of a gang, or of the feeder. -/
def asyncReport (b : Block) (r : Report) : Report :=
  match asyncTaker b r with
  | some gi => match sfind b.gangs gi with
    | some g => { r with gang := gi, addr := sget 0 g.pc (lowestLane g.live), regions := topFour g.regions,
                         flags := r.flags + (if g.handler.isSome then 1 else 0) }
    | none => r
  | none => match b.feeder with
    | some f => { r with gang := 0xFFFF, addr := f.pc, flags := r.flags + (if f.exited then 0 else 4) }
    | none => { r with gang := 0xFFFF }

/-- Whether a block can take a fault now: its taker is not in handler mode, and no debug stop holds it. -/
def canTake (b : Block) (r : Report) : Bool :=
  match (asyncTaker b r).bind (fun i => sfind b.gangs i) with
  | some g => g.handler.isNone && g.wait != .debugStop
  | none => true

def execAsyncFaultTaken (blk : Nat) (s : State) : Out :=
  .next (match getBlk s blk with
    | none => s
    | some b => match b.async with
      | [] => s
      | r :: rest =>
        if !b.runs || !canTake b r || ctxHalted s b.ctx then s
        else
          let rep := asyncReport b r
          deliver (modBlk s blk (fun b => { b with async := rest }))
            { ctx := b.ctx, region := b.region, unit := b.core / 64, queue := b.queue, blk := some blk, gang := asyncTaker b r,
              faulting := 0, len := 0, async := true } rep)

/-! ### Halt and dump (R367 to R369, R414) -/

/-- Blocks of a context on a core, in ascending slot. -/
def dumpBlocks (s : State) (ctx core : Nat) : List Block :=
  sortBy (fun (x y : Block) => decide (x.slot ≤ y.slot)) (s.blocks.filter (fun b => b.ctx == ctx && b.core == core && b.onCore))

/-- Writes bytes page by page until a page refuses them. -/
def dumpBytes (s : State) (ctx : Nat) (va : W64) (bs : List Byte) : State × Option LErr :=
  let r := (byPage va (bs.length / 65536 + 2) bs.length).foldl (fun (acc : State × Option LErr × List Byte) p =>
    match acc.2.1 with
    | some _ => acc
    | none => match structWrite acc.1 ctx none [] p.1 (acc.2.2.take p.2) with
      | .ok s1 => (s1, none, acc.2.2.drop p.2)
      | .error e => (acc.1, some e, [])) (s, none, bs)
  (r.1, r.2.1)

/-- A planned section: block, type, gang, offset and bytes. -/
structure Planned where
  blk : Block
  ty : Nat
  gang : Nat
  off : Nat
  bytes : List Byte
  deriving DecidableEq, Repr

/-- All planned sections with their offsets. -/
def planDump (bs : List Block) : List Planned :=
  let all := bs.flatMap (fun b => (dumpSections b (rcbAddr b.region)).map (fun x => (b, x)))
  let start := ceilTo 64 (0x100 + 16 * all.length)
  (all.foldl (fun (acc : List Planned × Nat) p =>
    (acc.1 ++ [{ blk := p.1, ty := p.2.1, gang := p.2.2.1, off := acc.2, bytes := p.2.2.2 }], acc.2 + ceilTo 64 p.2.2.2.length))
    ([], start)).1

/-- What the section writes come to: the completed sections, a nested fault with the block of its section, and whether a
section passed the slot's end. -/
structure DumpRun where
  st : State
  done : List Planned := []
  nested : Option (Block × LErr) := none
  small : Bool := false

def dumpSectionsRun (s : State) (ctx : Nat) (base : W64) (slot : Nat) (ps : List Planned) : DumpRun :=
  ps.foldl (fun (r : DumpRun) p =>
    if r.nested.isSome then r
    else if slot < p.off + p.bytes.length then { r with small := true }
    else match dumpBytes r.st ctx (base + BitVec.ofNat 64 p.off) p.bytes with
      | (s1, none) => { r with st := s1, done := r.done ++ [p] }
      | (s1, some e) => { r with st := s1, nested := some (p.blk, e) }) { st := s }

/-- The report of a nested fault (R414). -/
def nestedReport (s : State) (ctx : Nat) (b : Option Block) (e : LErr) : Report :=
  match b with
  | some b => mkReport s b none false 2 0 0 { cls := e.2.1, cause := e.2.2.1, access := 8, va := e.1, tlevel := e.2.2.2 }
  | none => { cls := e.2.1, cause := e.2.2.1, kind := 2, ctx := ctx, access := 8, va := e.1, tlevel := e.2.2.2 }

/-- The dump header (R368). -/
def dumpHeader (s : State) (c : Ctx) (core : Nat) (bs : List Block) (r : DumpRun) : List Byte :=
  let here := c.haltBlk.bind (fun i => bs.find? (fun b => b.id == i))
  let fb := c.haltBlk.bind (getBlk s)
  let nest := r.nested.map (fun x => nestedReport s c.id (some x.1) x.2)
  let flags := (if r.nested.isSome || r.small then 1 else 0) + (if here.isSome then 2 else 0) + (if r.nested.isSome then 4 else 0)
    + (if r.small then 16 else 0)
  let written := ((r.done.getLast?).map (fun p => p.off + p.bytes.length)).getD 0
  le 4 0x504D5544 ++ le 2 1 ++ le 2 flags ++ le 4 c.id ++ le 2 core ++ le 2 bs.length ++ le 4 r.done.length ++ le 4 written
    ++ le64 (((c.haltCyc.find? (fun p => p.1 == core)).map (·.2)).getD 0) ++ encodeReport c.haltReport
    ++ (((nest.map encodeReport).getD []) ++ zeros 64).take 64
    ++ (match fb with | some b => le 8 b.idx | none => List.replicate 8 0xFF)
    ++ le 1 ((here.map (fun b => b.slot)).getD 0xFF) ++ zeros 23

/-- The table of a dump: the completed sections, then zeros up to the planned count. -/
def dumpTable (planned : Nat) (done : List Planned) : List Byte :=
  let t := done.flatMap (fun p => le 2 p.ty ++ le 1 p.gang ++ le 1 p.blk.slot ++ le 4 p.bytes.length ++ le 8 p.off)
  t ++ zeros (16 * planned - t.length)

/-- One core's dump: sections, table, header. -/
def writeDump (s : State) (c : Ctx) (core : Nat) (bs : List Block) : State :=
  if c.dumpVa = 0 then s
  else
    let slot := c.dumpSlot * 65536
    let base := c.dumpVa + BitVec.ofNat 64 (core * slot)
    let ps := planDump bs
    let r := dumpSectionsRun s c.id base slot ps
    let absent := fun (s : State) (e : LErr) => (logReport s (core / 64) c.id (nestedReport s c.id bs.head? e)).1
    match dumpBytes r.st c.id (base + 0x100) (dumpTable ps.length r.done) with
    | (s1, some e) => absent s1 e
    | (s1, none) => match dumpBytes s1 c.id base (dumpHeader s1 c core bs r) with
      | (s2, some e) => absent s2 e
      | (s2, none) => s2

def execDumpWrite (ctx core : Nat) (s : State) : Out :=
  .next (match getCtx s ctx with
    | none => s
    | some c =>
      let bs := dumpBlocks s ctx core
      if c.halt != .halting || c.dumped.contains core || bs.isEmpty || !bs.all (fun b => opsDone b && b.started.isEmpty) then s
      else
        let s1 := bs.foldl releaseHeld s
        modCtx (writeDump s1 c core bs) ctx (fun c => { c with dumped := c.dumped ++ [core] }))

/-- Step 4 and 5 of R367: once every core has written its dump the blocks end without completion, their saved images stay,
and the notification gauge of the fault's domain is added. -/
def finishHalt (s : State) (ctx : Nat) : State :=
  match getCtx s ctx with
  | none => s
  | some c =>
    if c.halt != .halting || c.dying.isSome || s.blocks.any (fun b => b.ctx == ctx && b.onCore && !c.dumped.contains b.core) then s
    else
      let dom := effRegion c c.haltRegion
      let s1 := { s with blocks := s.blocks.filter (fun b => b.ctx != ctx || isImage b && (b.stat == .queued || b.stat == .waitHost)) }
      gaugeAddLogged (modCtx s1 ctx (fun c => { c with halt := .halted })) 8 ctx [] dom.ngauge 1

/-! ### Samples (R372, R373) -/

/-- Gangs of a context on a core, by block slot and index. -/
def sampleGangs (s : State) (ctx core : Nat) : List (Block × Nat × Gang) :=
  (dumpBlocks s ctx core).flatMap (fun b => b.gangs.map (fun p => (b, p.1, p.2)))

/-- The sample of one gang. -/
def sampleGang (s : State) (cap : Capture) (b : Block) (gi : Nat) (g : Gang) : State :=
  let low := leastBy (fun (l : Nat) => (sget 0 g.pc l).toNat) (lanesOf g.live)
  let at_ : W64 × Nat := match g.issued, low with
    | some a, _ => (a, 0)
    | none, some l => (sget 0 g.pc l, if g.fetchWait.getLsbD l then 1 else 0)
    | none, none => (g.lastExit, 2)
  let s1 := skelRecord s b gi 1 at_.2 at_.1 g.regions (le 8 g.issuedLanes.toNat)
  if cap.opts / 2 % 2 = 1 ∧ g.issuedOp ≠ 0 then
    let hit := fun (o : Op) => o.id == g.issuedOp && !o.done && opGlobal o
    modGang s1 b.id gi (fun x => { x with ops := updFirst hit (fun o => { o with sampled := some (g.issuedLanes.toNat, opSectors s1 b.id gi o) }) x.ops })
  else s1

/-- Each core takes one gang of the context, in rotation. -/
def execSamplePeriod (ctx : Nat) (s : State) : Out :=
  .next (match (getCtx s ctx).bind (fun c => c.capture) with
    | none => s
    | some cap =>
      if cap.period = 0 then s
      else
        let cores := ((s.blocks.filter (fun b => b.ctx == ctx && b.onCore)).map (fun b => b.core)).eraseDups
        cores.foldl (fun s core =>
          let gs := sampleGangs s ctx core
          match gs[(getCore s core).rotSample % (max 1 gs.length)]? with
          | none => s
          | some (b, gi, g) => sampleGang (modCore s core (fun c => { c with rotSample := (c.rotSample + 1) % (max 1 gs.length) })) cap b gi g) s)

end Sys2Proof.Machine
end

