-- ==== Sys2Proof/Machine/Errors.lean ====
section
/-! DEFINITION. Machine/Errors.lean: soft errors, scrubs and poison (03 R75, R76), the host port (03 R74) and accesses
that peers make (14 R403). -/

namespace Sys2Proof.Machine

open Sys2Proof

/-! ### Soft errors (R75) -/

/-- Kinds of device error log entries (R387). -/
def errCorrected : Nat := 1
def errUncorrectable : Nat := 2
def errScrub : Nat := 3
def errLink : Nat := 4
def errThermal : Nat := 5

/-- Sectors of local HBM (R56). -/
def hbmSectors : Nat := 2 ^ 35

/-- Stack of a sector: two a die, each behind sixteen slices (R56). -/
def stackOf (sector : Nat) : Nat := 2 * homeDie (32 * sector) + homeStack (32 * sector)

/-- A scrub of a stack marks what it finds there and logs it. -/
def execScrubPeriod (stack : Nat) (bad : List Nat) (s : State) : Out :=
  .next ((bad.filter (fun x => decide (x < hbmSectors) && stackOf x == stack)).foldl (fun s x =>
    devError (setBad s x true) errScrub (homeDie (32 * x)) (32 * x) 1) s)

/-- A key slot is emptied (R73): lines of its key leave L2, written back under it, and no read-only buffer keeps its plaintext. -/
def emptySlot (s : State) (i : Nat) : State :=
  dropRobuf { s with l2 := s.l2.filter (fun p => p.2.map (fun r => r.key) != some i), keys := sdel s.keys i }

/-- Adds a name to a list of marks. -/
def markIn (l : List Nat) (x : Nat) : List Nat := if l.contains x then l else l ++ [x]

/-- Die of a block's core, the unit of its errors. -/
def unitOf (s : State) (blk : Nat) : Nat := ((getBlk s blk).map (fun b => b.core / 64)).getD 0

/-- An error in the entry of a version: the fork fails at its child with outcome 4, and the fork's domain receives the poison
fault at the join (R75, R116, R118; DEDUCED, log 58). At chip scope the child's failure is final, and its homes end the fork. -/
def versionError (s : State) (fid c gran : Nat) : State :=
  match getFork s fid with
  | none => s
  | some f => match (stepGrans f c).find? (fun g => g.1 == gran) with
    | none => s
    | some g =>
      let rep := forkPoison f c 2 (granVa g 0)
      let s1 := modFork s fid (fun f => { f with vers := updFirst (fun v => v.gran == gran && v.child == c) (fun v => { v with poisoned := true }) f.vers })
      if f.ended || ctxHalted s f.ctx then s1
      else
        let s2 := if f.scope = .chip then s1 else failAtChild s1 fid c 4 rep
        if childLive s2 fid c then failChild s2 fid c rep true else s2

/-- An error in the entry of a twin: the fork fails at its head with outcome 4; at chip scope the slice that the granule is homed
in here does, at the child whose turn it is. -/
def twinError (s : State) (fid gran : Nat) : State :=
  match getFork s fid with
  | none => s
  | some f => match twinOf f gran, forkSeg f (32 * gran) with
    | some t, some g =>
      let s1 := modFork s fid (fun f => { f with twins := updFirst (fun t => t.gran == gran) (fun t => { t with poisoned := true }) f.twins })
      let va := granVa (gran, t.bytes, g) 0
      if f.ended || ctxHalted s f.ctx then s1
      else if f.scope = .chip then
        match f.slices.find? (fun x => homedHere s f x.win x.slice && !x.written && x.outcome == 0
          && ((f.wins[x.win]?).map (fun w => decide (w.base ≤ va) && decide (va < w.base + w.len) && (va - w.base) / f.sliceSize == x.slice)).getD false) with
        | some x => finishSlice s1 fid x.win x.slice 4
            (some (failOf { win := x.win, slice := x.slice, child := x.next, backup := false, device := 0, final := false, data := [] }
              (forkPoison f x.next 7 va)))
        | none => s1
      else match headOf s f with
        | some h => failAtChild s1 fid h.idx 4 (forkPoison f h.idx 7 va)
        | none => s1
    | _, _ => s

/-- The mark of an uncorrectable error. -/
def markError (s : State) (l : ErrLoc) : State :=
  let regBad := fun (blk gang key : Nat) => modGang s blk gang (fun g => { g with badRegs := markIn g.badRegs key })
  match l with
  | .hbm x => if x < hbmSectors then setBad s x true else s
  | .l2 x => if x < hbmSectors then setBad s x true else s
  | .forkState f c g => versionError s f c g
  | .twin f g => twinError s f g
  | .scratch blk w => modBlk s blk (fun b => if 8 * w < b.kd.scratch then { b with scratchBad := markIn b.scratchBad w } else b)
  | .mainReg blk gang lane r => regBad blk gang (badKey r lane)
  | .opReg blk gang lane r => regBad blk gang (badKey (oBase + r) lane)
  | .latch blk gang lane i hi => if 4 ≤ i then s else regBad blk gang (badKey ((if hi then latHigh else latBase) + i) lane)
  | .uniReg blk p i hi =>
    let key := badKey ((if hi then kHigh else kBase) + i) 0
    if 64 ≤ i then s else match p with
    | .gang gi => regBad blk gi key
    | .feeder => modFeeder s blk (fun f => { f with badRegs := markIn f.badRegs key })
  | .acc core bank row col =>
    if row < 128 ∧ col < 192 then modBank s core (bank != 0) (fun k => { k with bad := markIn k.bad (192 * row + col) }) else s
  | .keySlot i => emptySlot s i
  | .spill blk gang lane p => modGang s blk gang (fun g => { g with spillBad := markIn g.spillBad (place lane p) })

/-- Unit and physical address of an error's log entry. -/
def errUnit (s : State) : ErrLoc → Nat × Nat
  | .hbm x => (homeDie (32 * x), 32 * x)
  | .l2 x => (homeDie (32 * x), 32 * x)
  | .forkState _ _ g => (homeDie (32 * g), 32 * g)
  | .twin _ g => (homeDie (32 * g), 32 * g)
  | .scratch blk _ => (unitOf s blk, 0)
  | .mainReg blk _ _ _ => (unitOf s blk, 0)
  | .opReg blk _ _ _ => (unitOf s blk, 0)
  | .latch blk _ _ _ _ => (unitOf s blk, 0)
  | .uniReg blk _ _ _ => (unitOf s blk, 0)
  | .acc core _ _ _ => (core / 64, 0)
  | .keySlot _ => (8, 0)
  | .spill blk _ _ _ => (unitOf s blk, 0)

def execUncorrectableError (l : ErrLoc) (s : State) : Out :=
  let u := errUnit s l
  .next (devError (markError s l) errUncorrectable u.1 u.2 1)

/-- A corrected error changes no value; it is counted and logged. -/
def execCorrectedError (unit addr : Nat) (s : State) : Out :=
  let n := s.dev.corrected + 1
  .next (devError { s with dev := { s.dev with corrected := n } } errCorrected unit addr n)

/-! ### The host port (R74) -/

/-- Bytes of HBM as they stand in storage: ciphertext. -/
def cipherBytes (s : State) (pa n : Nat) : List Byte :=
  (List.range n).map (fun i => (sectorCipher s ((pa + i) / 32)).extractLsb' (8 * ((pa + i) % 32)) 8)

/-- A host read returns ciphertext; a poisoned sector makes a poisoned completion (R76). -/
def execHostRead (pa len : Nat) (s : State) : Out :=
  .next (if 2 ^ 40 < pa + len then s
    else
      let bad := (sectorsOf pa len).any (sectorBad s)
      { s with hostBad := bad, hostData := if bad then [] else cipherBytes s pa len })

/-- Replaces the ciphertext of one sector and invalidates its line. -/
def putCipher (s : State) (sec off : Nat) (bs : List Byte) : State :=
  dropLine (putSector s sec 1 (patch (sectorCipher s sec) off bs)) (sec / 4)

/-- Whether bytes lie in a frame of an open fork's window (R109). -/
def inOpenWindow (s : State) (pa n : Nat) : Bool :=
  (sectorsOf pa n).any (fun x => s.forks.any (fun f => openAt f (32 * x)))

/-- Host writes store their bytes unchanged and trigger watches (R74, R311); into an open window they complete with an
error and change nothing (R109). -/
def execHostWrite (pa : Nat) (data : List Byte) (s : State) : Out :=
  .next (if 2 ^ 40 < pa + data.length then s
    else if inOpenWindow s pa data.length then { s with hostBad := true }
    else (bySector { addr := pa } (data.length / 32 + 2) data).foldl (fun s p =>
      notifyWrite (putCipher s (p.1.addr / 32) (p.1.addr % 32) p.2) [] p.1) { s with hostBad := false })

/-! ### Peers (R403) -/

/-- The entry of a context that admits a peer's access. -/
def admitPeer (c : Ctx) (serial : W64) (peerCtx pa n : Nat) : Option Peer :=
  (c.peers.find? (fun x => x.2.valid && !x.2.self && x.2.serial == serial && x.2.ctx == peerCtx
    && decide (x.2.base ≤ pa) && decide (pa + n ≤ x.2.base + x.2.size))).map (·.2)

/-- What goes back to the requester: 0 done, 1 aperture cause, 2 poisoned, 3 key fault, 4 refused by a fork or a gauge. -/
def answer (s : State) (status : Nat) (bytes : List Byte) : State := { s with linkStatus := status, linkReply := bytes }

def remoteBytes : RemoteOp → Nat
  | .load n => n
  | .store d => d.length
  | .atomic _ w _ => if w then 8 else 4
  | .gaugeAdd _ => 8

/-- Performs a peer's access at the home slice. An atomic is answered with what each lane receives, in lane order, and the flags that
its steps raised (R196, R198). -/
def remotePerform (s : State) (l : Loc) (op : RemoteOp) : State :=
  let bad := (sectorsOf l.addr (remoteBytes op)).any (fun x => locPoison s [] { l with addr := 32 * x })
  match op with
  | .load n => if bad then answer s 2 [] else answer (touchLine s l) 0 (locReadRun s [] l n)
  | .store d => match locWriteRun true s [] l d with
    | .ok s1 => answer s1 0 []
    | _ => answer s 4 []
  | .atomic k w lanes =>
    if bad then answer s 2 []
    else
      let n := if w then 8 else 4
      let x := atomRun k (8 * n) (lanes.zipIdx.map (fun p => { blk := 0, gang := 0, op := 0, lane := p.2, opnd := p.1.1, cmp := p.1.2 })) (locNat s [] l n)
      match locWrite s [] l (le n x.1) with
      | .ok s1 => answer s1 0 (x.2.flatMap (fun p => le n p.2.1) ++ le 1 (x.2.foldl (fun f p => f ||| p.2.2) (0 : Flags)).toNat)
      | _ => answer s 4 []
  | .gaugeAdd v => if bad then answer s 2 [] else match gaugeAddLoc s [] l v with
    | .ok (.ok s1) => answer s1 0 []
    | _ => answer s 4 []

/-- Whether an access is aligned as its kind asks: atomics and adds to their own size. -/
def remoteAligned (pa : Nat) : RemoteOp → Bool
  | .atomic _ w _ => pa % (if w then 8 else 4) == 0
  | .gaugeAdd _ => pa % 8 == 0
  | _ => true

def execRemoteAccess (ctx : Nat) (serial : W64) (peerCtx pa : Nat) (op : RemoteOp) (s : State) : Out :=
  .next (match getCtx s ctx with
    | none => answer s 1 []
    | some c => match admitPeer c serial peerCtx pa (remoteBytes op) with
      | none => answer s 1 []
      | some p =>
        let l : Loc := { ap := 0, addr := pa, key := p.key }
        if poolFrame s pa (remoteBytes op) then answer s 1 []
        else if (keyFault s ctx l).isSome then answer s 3 []
        else if !remoteAligned pa op then answer s 4 []
        else remotePerform s l op)

end Sys2Proof.Machine
end

