-- ==== Sys2Proof/Machine/Packets.lean ====
section
/-! DEFINITION. Machine/Packets.lean: work queues (14 R388, R389) and the packets that the queue processor reads (12 R317
to R322, R324, R418, R342; 13 R370, R371; 14 R390, R391, R397). -/

namespace Sys2Proof.Machine

open Sys2Proof

/-! ### Queues -/

def getQueue (s : State) (q : Nat) : Queue := sget {} s.queues q
def modQueue (s : State) (q : Nat) (f : Queue → Queue) : State := { s with queues := sset {} s.queues q (f (getQueue s q)) }

/-- Packets that a queue has to read. -/
def Queue.unread (q : Queue) : Nat := (q.tail - q.head).toNat

/-- A queue stops with an error; head names the packet that was not performed (R389). -/
def stopQueue (s : State) (q err : Nat) : State := modQueue s q (fun q => { q with err := err, stopped := true, pkt := none })

/-- Takes one packet off the runs of read order: each run has a count and the place of its first packet. -/
def takeRead : List (Nat × Nat) → List (Nat × Nat)
  | [] => []
  | (n, o) :: t => if n ≤ 1 then t else (n - 1, o + 1) :: t

/-- The packet at head has been read. -/
def passPacket (s : State) (q : Nat) : State := modQueue s q (fun q => { q with head := q.head + 1, reads := takeRead q.reads, pkt := none })


def packetVa (q : Queue) : W64 := q.ring + BitVec.ofNat 64 (64 * (q.head.toNat % (max 1 q.entries)))

/-- The packet at head, or the fault of its read; a packet that is held is not read again. -/
def headPacket (s : State) (q : Queue) : Except LErr (List Byte) := match q.pkt with
  | some l => .ok l
  | none => structRead s q.ctx none [] (packetVa q) 64

/-- What reading it leaves in L2. -/
def packetRead (s : State) (q : Queue) : State := if q.pkt.isSome then s else runSeen s q.ctx none .rd (packetVa q) 64

/-- Power state in which a packet type waits (R397): LAUNCH, FORKCHIP and GWAIT in idle. -/
def waitsInIdle (ty : Nat) : Bool := ty == 1 || ty == 2 || ty == 5

/-- Whether forks that a queue's packets opened are still open on this device. -/
def queueForks (s : State) (q : Nat) : Bool := s.forks.any (fun f => f.packetQueue == some q && !f.ended)

/-- The gauge of a GWAIT or GADD: its place, or class and cause of the fault. -/
def packetGauge (s : State) (ctx : Nat) (need : Need) (va : W64) : Except LErr Loc :=
  if va.toNat % 8 ≠ 0 then .error (va, 5, 0, 0)
  else match translate s ctx false need va with
    | .error (c, lv) => .error (va, 6, c, lv)
    | .ok t => match keyFault s ctx t.loc with
      | some c => .error (va, 7, c, 0)
      | none => if t.pagePoison then .error (va, 8, 1, 0) else if locPoison s [] t.loc then .error (va, 8, poisonCause t.loc, 0) else .ok t.loc

/-- Whether the packet at head holds its queue (R322, R391). -/
def heldPacket (s : State) (qi : Nat) (q : Queue) (l : List Byte) : Bool :=
  let ty := natAt l 0 1
  (s.dev.power < 2 && waitsInIdle ty)
    || (match ty with
      | 2 => natAt l 1 1 % 2 == 0 && !q.launched.isEmpty
      | 4 => !q.launched.isEmpty
      | 5 => match packetGauge s q.ctx .watch (w64At l 8) with
        | .ok g => decide (locNat s [] g 8 < natAt l 0x10 8)
        | .error _ => false
      | 6 => !q.launched.isEmpty || queueForks s qi
      | _ => false)

/-- Whether another queue of the context has an earlier packet that nothing holds (R318). -/
def earlierRead (s : State) (qi : Nat) (q : Queue) : Bool :=
  s.queues.any (fun x => x.1 != qi && x.2.bound && !x.2.stopped && x.2.ctx == q.ctx && x.2.unread != 0 && decide (x.2.order < q.order)
    && (match headPacket s x.2 with
      | .ok l => !heldPacket s x.1 x.2 l
      | .error _ => true))

/-- Whether a LEVEL packet holds the next packet of a queue (R322). -/
def levelHolds (c : Ctx) (q : Queue) : Bool := c.pendingLevels.any (fun p => decide (p.2 < q.order))

/-- Packet types of R317. -/
def knownType (ty : Nat) : Bool := decide (1 ≤ ty) && decide (ty ≤ 9)
/-- Flag bits that a type assigns. -/
def flagLimit (ty : Nat) : Nat := if ty = 1 ∨ ty = 2 ∨ ty = 7 ∨ ty = 8 then 2 else 1
/-- Offset and length of the body bytes that are must-be-zero, by type and flags. -/
def bodyZeros (l : List Byte) : List (Nat × Nat) :=
  let fl := natAt l 1 1
  match natAt l 0 1 with
  | 1 => [(0x38, 8)]
  | 2 => if fl = 0 then [(0x18, 40)] else [(8, 16), (0x1A, 38)]
  | 3 => [(9, 55)]
  | 4 => [(8, 56)]
  | 5 => [(0x18, 40)]
  | 6 => [(0x18, 40)]
  | 7 => if fl = 0 then [(0x2A, 22)] else [(0x10, 48)]
  | 8 => [(0x10, 48)]
  | _ => [(9, 55)]
/-- A packet of a known type without a nonzero must-be-zero byte (R317). -/
def packetOk (l : List Byte) : Bool :=
  let ty := natAt l 0 1
  knownType ty && decide (natAt l 1 1 < flagLimit ty) && allZero l 2 6 && (bodyZeros l).all (fun p => allZero l p.1 p.2)
    && !(ty == 3 && decide (2 < natAt l 8 1))

/-- The level at which the packets of a context are read. -/
def levelOf (s : State) (ctx : Nat) : Nat := ((getCtx s ctx).map (fun c => c.level)).getD 1

/-- Error 2 and error 5: the queue stops, and a report of kind 3 goes to the root region's domain (R389). -/
def packetStop (s : State) (qi err : Nat) (e : LErr) (access : Nat) : State :=
  let q := getQueue s qi
  raisePacket (stopQueue s qi err) q.ctx 0 qi (levelOf s q.ctx) (packetVa q) (lerrFlt access e)

/-- Reads the packet at a queue's head, when it may be read, and runs the body on it if it is of the kind at hand. -/
def withPacket (s : State) (qi ty flags : Nat) (body : State → Queue → List Byte → State) : State :=
  let q := getQueue s qi
  match getCtx s q.ctx with
  | none => s
  | some c =>
    if !q.bound || q.stopped || c.dying.isSome || q.unread == 0 || levelHolds c q || earlierRead s qi q then s
    else if c.halt != .running then stopQueue s qi 6
    else match headPacket s q with
      | .error e => packetStop s qi 2 e 1
      | .ok l =>
        let t := packetRead s q
        if !packetOk l then stopQueue t qi 1
        else if natAt l 0 1 ≠ ty ∨ natAt l 1 1 / 2 * 2 + (if ty = 1 then 0 else natAt l 1 1 % 2) ≠ flags then s
        else if heldPacket t qi q l then modQueue t qi (fun q => { q with pkt := some l })
        else body t q l

/-! ### LAUNCH (R319, R320) -/

/-- A packet that starts nothing: the fault goes to the domain of its region, or of the nearest valid ancestor of one that
cannot be used (R324), and the queue reads on. -/
def rejectPacket (s : State) (qi : Nat) (region : W64) (f : Flt) : State :=
  let q := getQueue s qi
  let r := scanRcb q.ctx none [] false regionFuel [] s region
  raisePacket (passPacket r.1 qi) q.ctx ((r.2.map (fun x => x.2)).getD region) qi (levelOf s q.ctx) (packetVa q) f

def execLaunchPacket (qi : Nat) (s : State) : Out :=
  .next (withPacket s qi 1 0 (fun s q l => match parseLaunch l with
    | none => rejectPacket s qi (w64At l 0x30) { cls := 3, cause := 7 }
    | some b => match checkLaunch s q.ctx none [] b none with
      | .error e => rejectPacket s qi b.rcb (lerrFlt (if e.2.1 = 3 ∨ e.2.1 = 25 then 0 else 1) e)
      | .ok (s1, kd, lp) =>
        let r := addGrid s1 q.ctx 0 none qi (levelOf s q.ctx) b kd lp
        weirAdmit (modQueue (passPacket r.2 qi) qi (fun q => { q with launched := q.launched ++ [r.1] }))))

/-! ### FORKCHIP (R391, R130) -/

def execForkchipOpen (qi : Nat) (s : State) : Out :=
  .next (withPacket s qi 2 0 (fun s q l =>
    let rcb := w64At l 0x10
    match nameRegion s q.ctx none [] rcb with
    | .error x => rejectPacket s qi rcb { cls := 3, cause := 8, va := x.1 }
    | .ok s1 =>
      let o : Opener := { ctx := q.ctx, queue := qi, packet := true, level := levelOf s q.ctx, region := rcb }
      match openFork s1 o .chip (w64At l 8) with
      | .error f => rejectPacket s1 qi rcb f
      | .ok (s2, f) => if ((getFork s2 f).map (winPending s2)).getD false then s else passPacket s2 qi))

/-- Ends one bucket with outcome 5. -/
def cancelBucket (s : State) (ctx t : Nat) : State :=
  match s.forks.find? (fun f => f.ctx == ctx && f.scope == .chip && !f.ended && f.held.contains t) with
  | none => s
  | some f =>
    if f.bucketEnded t then s
    else
      let cut := fun (x : SliceSt) => if x.win + f.tag ≠ t then x
        else { x with written := true, outcome := 5, merged := if x.written then x.merged else x.next, got := [], fail := none }
      endBucket (modFork s f.id (fun f => { f with slices := f.slices.map cut })) f.id t

def execForkchipCancel (qi : Nat) (s : State) : Out :=
  .next (withPacket s qi 2 1 (fun s q l =>
    (List.range (min 4 (natAt l 0x19 1))).foldl (fun s i => cancelBucket s q.ctx (natAt l 0x18 1 + i)) (passPacket s qi)))

/-! ### LEVEL and FENCE (R322) -/

def execLevelPacket (qi : Nat) (s : State) : Out :=
  .next (withPacket s qi 3 0 (fun s q l =>
    modCtx (passPacket s qi) q.ctx (fun c => { c with pendingLevels := c.pendingLevels ++ [(natAt l 8 1, q.order)] })))

/-- Whether a queue still has a packet that comes before a place in read order. -/
def unreadBefore (s : State) (ctx o : Nat) : Bool :=
  s.queues.any (fun x => x.2.bound && !x.2.stopped && x.2.ctx == ctx && x.2.unread != 0 && decide (x.2.order < o))

/-- The waiting LEVEL that comes first in read order, when every grid of the context before it has retired and every packet before it
is read. -/
def levelReady (s : State) (ctx : Nat) : Option (Nat × Nat) :=
  (((getCtx s ctx).map (fun c => c.pendingLevels)).bind (leastBy (fun p => p.2))).filter (fun p =>
    !s.grids.any (fun g => g.ctx == ctx && decide (g.read < p.2)) && !unreadBefore s ctx p.2)

/-- The change. -/
def execLevelChange (ctx : Nat) (s : State) : Out :=
  .next (match levelReady s ctx with
    | none => s
    | some p => modCtx s ctx (fun c => { c with level := p.1, pendingLevels := c.pendingLevels.erase p }))

def execFencePacket (qi : Nat) (s : State) : Out := .next (withPacket s qi 4 0 (fun s _ _ => passPacket s qi))

/-! ### GWAIT and GADD (R391) -/

def execGwait (qi : Nat) (s : State) : Out :=
  .next (withPacket s qi 5 0 (fun s q l => match packetGauge s q.ctx .watch (w64At l 8) with
    | .error e => packetStop s qi 5 e 9
    | .ok g => passPacket (touchLine s g) qi))

def execGadd (qi : Nat) (s : State) : Out :=
  .next (withPacket s qi 6 0 (fun s q l => match packetGauge s q.ctx .rw (w64At l 8) with
    | .error e => packetStop s qi 5 e 9
    | .ok g => match gaugeAddLoc s [] g (w64At l 0x10) with
      | .error e => packetStop s qi 5 (w64At l 8, e.1, e.2, 0) 9
      | .ok (.ok s1) => passPacket s1 qi
      | .ok _ => packetStop s qi 5 (w64At l 8, 17, 1, 0) 9))

/-! ### CAPTURE (R370, R371) -/

def execCaptureStart (qi : Nat) (s : State) : Out :=
  .next (withPacket s qi 7 0 (fun s q l =>
    let cap : Capture := { buf := w64At l 8, size := natAt l 0x10 8, cmask := natAt l 0x18 8, period := natAt l 0x20 4,
                           opts := natAt l 0x24 4, filter := natAt l 0x28 2 }
    if 8 ≤ cap.opts then stopQueue s qi 1
    else if cap.buf.toNat % 128 ≠ 0 then rejectPacket s qi 0 { cls := 5, va := cap.buf, access := 2 }
    else modCtx (passPacket s qi) q.ctx (fun c => { c with
      capture := some cap,
      counters := (List.range 16).foldl (fun m i => if cap.cmask / 2 ^ i % 2 = 1 then sset 0 m i 0 else m) c.counters })))

/-- The stop record. -/
def stopRecord (c : Ctx) : List Byte :=
  match c.capture with
  | none => zeros 256
  | some cap =>
    le 4 (if cap.switchOuts = 0 then 0 else 1) ++ le 4 cap.switchOuts ++ le 8 cap.written ++ le 8 cap.dropped ++ zeros 8
      ++ (List.range 16).flatMap (fun i => le 8 (sget 0 c.counters i)) ++ zeros 96

def execCaptureStop (qi : Nat) (s : State) : Out :=
  .next (withPacket s qi 7 1 (fun s q l =>
    let va := w64At l 8
    match getCtx s q.ctx with
    | none => s
    | some c =>
      if va.toNat % 128 ≠ 0 then rejectPacket s qi 0 { cls := 5, va := va, access := 2 }
      else match structWrite s q.ctx none [] va (stopRecord c) with
        | .error e => rejectPacket s qi 0 (lerrFlt 2 e)
        | .ok s1 => modCtx (passPacket s1 qi) q.ctx (fun c => { c with capture := none })))

/-! ### REGION (R324, R418) -/

/-- The RCB and its parents are read again: the values that obey the rules take the place of the earlier ones; one that does not is
reported to its nearest valid ancestor. -/
def execRegionPacket (qi : Nat) (s : State) : Out :=
  .next (withPacket s qi 8 0 (fun s q l =>
    let r := scanRcb q.ctx none [] true regionFuel [] s (w64At l 8)
    match r.2 with
    | some x => raisePacket (passPacket r.1 qi) q.ctx x.2 qi (levelOf s q.ctx) (packetVa q) { cls := 3, cause := 8, va := x.1 }
    | none => passPacket r.1 qi))

def execRegionRoot (qi : Nat) (s : State) : Out :=
  .next (withPacket s qi 8 1 (fun s q l =>
    let a := w64At l 8
    let bad := fun (s : State) (rgn : W64) =>
      raisePacket (passPacket s qi) q.ctx rgn qi (levelOf s q.ctx) (packetVa q) { cls := 3, cause := 8, va := a }
    match structLoad s q.ctx none [] a 128 with
    | .error _ => bad s ((((getCtx s q.ctx).bind (fun c => findRcb c a)).map (fun r => r.parent)).getD 0)
    | .ok (s1, b) =>
      let up := w64At b 0
      let p := scanRcb q.ctx none [] true regionFuel [a] s1 up
      let rgn := match p.2 with
        | none => up
        | some x => x.2
      match parseRcb a b with
      | none => bad p.1 rgn
      | some r =>
        if r.parent ≠ 0 ∨ r.imask ≠ 1023 then bad p.1 rgn
        else modCtx (passPacket p.1 qi) q.ctx (fun c => { c with rootRegion := { r with addr := 0, imask := 0 } })))

/-! ### POWER (R397, R398) -/

/-- A requested change of power state: it replaces one in progress; on the way to idle every resident block is
pre-empted. -/
def requestPower (s : State) (p : Nat) : State :=
  let s1 := { s with dev := { s.dev with target := if p = s.dev.power then none else some p, changed := [] } }
  if p = 1 then requestStop s1 (fun _ => true) else s1

def execPowerPacket (qi : Nat) (s : State) : Out :=
  .next (withPacket s qi 9 0 (fun s q l =>
    let p := natAt l 8 1
    let vf := ((getCtx s q.ctx).map (fun c => c.owner != .pf)).getD false
    if vf || decide (p < 1) || decide (4 < p) then stopQueue s qi 4 else requestPower (passPacket s qi) p))

/-! ### Queue registers (R388, R380) -/

/-- Whether a function's commands and tail writes are accepted (R380). -/
def fnRuns (s : State) : Fn → Bool
  | .pf => true
  | .vf n => s.dev.vfRun.contains n

/-- Whether a function owns the context of a bound queue. -/
def ownsQueue (s : State) (fn : Fn) (q : Queue) : Bool :=
  q.bound && fnRuns s fn && ((getCtx s q.ctx).map (fun c => c.owner == fn)).getD false

/-- The queue whose register block has number `i` in a function's BAR0: every queue for the PF; the queues bound to its contexts,
renumbered from 0 in the order of their numbers, for a VF (R378; the order is DEDUCED, log 41). -/
def queueAt (s : State) (fn : Fn) (i : Nat) : Nat :=
  match fn with
  | .pf => i
  | .vf _ => (((s.queues.filter (fun p => p.2.bound && ((getCtx s p.2.ctx).map (fun c => c.owner == fn)).getD false))[i]?).map (·.1)).getD 16384

def execQueueTailWrite (fn : Fn) (i : Nat) (tail : BitVec 32) (s : State) : Out :=
  let qi := queueAt s fn i
  let q := getQueue s qi
  .next (if !ownsQueue s fn q || !s.dev.ready then s
    else
      let n := (tail - q.tail).toNat
      let s1 := modQueue { s with pktOrder := s.pktOrder + n } qi (fun q => { q with
        tail := tail, reads := if n = 0 then q.reads else q.reads ++ [(n, s.pktOrder)] })
      if q.entries < (tail - q.head).toNat then stopQueue s1 qi 3 else s1)

/-- Reading resumes at head; the count is checked again. -/
def restartQueue (s : State) (qi : Nat) : State :=
  let s1 := modQueue s qi (fun q => { q with err := 0, stopped := false })
  if (getQueue s1 qi).entries < (getQueue s1 qi).unread then stopQueue s1 qi 3 else s1

def execQueueRestart (fn : Fn) (i : Nat) (s : State) : Out :=
  let qi := queueAt s fn i
  .next (if !ownsQueue s fn (getQueue s qi) || !s.dev.ready then s else restartQueue s qi)

/-- Restart with skip: the failed packet is passed over first. -/
def execQueueSkip (fn : Fn) (i : Nat) (s : State) : Out :=
  let qi := queueAt s fn i
  .next (if !ownsQueue s fn (getQueue s qi) || !s.dev.ready then s else restartQueue (passPacket s qi) qi)

end Sys2Proof.Machine
end

