-- ==== Sys2Proof/Machine/Sha.lean ====
section
/-! DEFINITION. Machine/Sha.lean: SHA-384, with which the Reeve measures firmware (14 R393, R395); FIPS 180-4 defines it. -/

namespace Sys2Proof.Machine

open Sys2Proof

/-- The primes below a bound, in rising order. -/
def primesBelow (n : Nat) : List Nat :=
  (List.range n).filter (fun p => decide (2 ≤ p) && (List.range p).all (fun d => decide (d < 2) || p % d != 0))

/-- The largest number below 2 to the count given whose power of that degree stays within a bound, found bit by bit from the top. -/
def rootBits (deg bound : Nat) : Nat → Nat → Nat
  | 0, r => r
  | n + 1, r => rootBits deg bound n (if (r + 2 ^ n) ^ deg ≤ bound then r + 2 ^ n else r)

/-- The first 64 bits of the fraction of a root: the standard takes its constants so, from roots of primes. -/
def rootFrac (deg p : Nat) : W64 := BitVec.ofNat 64 (rootBits deg (p * 2 ^ (64 * deg)) 70 0)

/-- The round constants: cube roots of the first 80 primes. -/
def shaK : List W64 := (primesBelow 410).map (rootFrac 3)

/-- The first chaining value of SHA-384: square roots of the ninth to the sixteenth prime. -/
def shaInit : List W64 := ((primesBelow 54).drop 8).map (rootFrac 2)

/-- Sigma functions: two rotations and a third, or a shift. -/
def shaBig (a b c : Nat) (x : W64) : W64 := x.rotateRight a ^^^ x.rotateRight b ^^^ x.rotateRight c
def shaSmall (a b c : Nat) (x : W64) : W64 := x.rotateRight a ^^^ x.rotateRight b ^^^ x >>> c

/-- The message schedule, newest word first: sixteen words of the block, then sixty-four more. -/
def shaExtend : Nat → List W64 → List W64
  | 0, w => w
  | n + 1, w => shaExtend n ((shaSmall 19 61 6 (w.getD 1 0) + w.getD 6 0 + shaSmall 1 8 7 (w.getD 14 0) + w.getD 15 0) :: w)

/-- One round on the eight working words, with its constant and its schedule word. -/
def shaRound (v : List W64) (k w : W64) : List W64 :=
  match v with
  | [a, b, c, d, e, f, g, h] =>
    let t1 := h + shaBig 14 18 41 e + ((e &&& f) ^^^ (~~~e &&& g)) + k + w
    let t2 := shaBig 28 34 39 a + ((a &&& b) ^^^ (a &&& c) ^^^ (b &&& c))
    [t1 + t2, a, b, c, d + t1, e, f, g]
  | _ => v

/-- The compression of one block of 128 bytes. -/
def shaBlock (v : List W64) (block : List Byte) : List W64 :=
  let word := fun (i : Nat) => ((block.drop (8 * i)).take 8).foldl (fun (x : W64) b => x <<< 8 ||| b.setWidth 64) 0
  let ws := (shaExtend 64 (((List.range 16).map word).reverse)).reverse
  (v.zip ((shaK.zip ws).foldl (fun v p => shaRound v p.1 p.2) v)).map (fun p => p.1 + p.2)

/-- The bytes with their padding: a one bit, zeros, the length in bits as 128 bits. -/
def shaPad (m : List Byte) : List Byte :=
  m ++ [0x80#8] ++ List.replicate ((111 + 128 - m.length % 128) % 128) 0 ++ (List.range 16).map (fun i => BitVec.ofNat 8 (8 * m.length / 256 ^ (15 - i)))

def shaBlocks : Nat → List W64 → List Byte → List W64
  | 0, v, _ => v
  | n + 1, v, m => shaBlocks n (shaBlock v (m.take 128)) (m.drop 128)

/-- SHA-384 of some bytes, its first byte in the high bits. -/
def sha384 (m : List Byte) : BitVec 384 :=
  let p := shaPad m
  ((shaBlocks (p.length / 128) shaInit p).take 6).foldl (fun (x : BitVec 384) w => x <<< 64 ||| w.setWidth 384) 0

end Sys2Proof.Machine
end

