-- ==== Sys2Proof/Machine/Manage.lean ====
section
/-! DEFINITION. Machine/Manage.lean: the management commands of a function's mailbox (14 R380 to R388, R402; 13 R374; 03
R59, R60). -/

namespace Sys2Proof.Machine

open Sys2Proof

/-! ### The mailbox (R381) -/

/-- The bytes of a request. -/
def reqBytes (r : Request) : List Byte := bytesOf 256 r.toNat

def getMbox (s : State) (fn : Fn) : Mailbox := ((s.mailboxes.find? (fun p => p.1 == fn)).map (·.2)).getD {}

/-- Writes a response: the status in byte 0, results from byte 8 on. -/
def respond (s : State) (fn : Fn) (req : Request) (status : Nat) (res : List Byte) : State :=
  let r : Request := BitVec.ofNat 2048 (natOf (le 8 status ++ res))
  { s with mailboxes := s.mailboxes.filter (fun p => p.1 != fn) ++ [(fn, { request := req, response := r, doorbell := false })] }

/-- What a command comes to: a status with the state unchanged, or done with results. -/
inductive Cmdo where
  | fail (status : Nat)
  | done (s : State) (res : List Byte)

/-- Whether a function may run a command of a code now, whose request fields end at `used` (bytes 1 to 7 and those from `used` on are
zero): the request, or the status that refuses it; none where the request is another command or the doorbell still reads 1. -/
def admitted (s : State) (fn : Fn) (req : Request) (code used : Nat) (pfOnly : Bool) : Option (Except Nat (List Byte)) :=
  let l := reqBytes req
  if natAt l 0 1 ≠ code || (getMbox s fn).doorbell then none
  else if !s.dev.ready || s.dev.tripped then some (.error 5)
  else if !fnRuns s fn || (pfOnly && fn != .pf) then some (.error 6)
  else if !allZero l 1 7 || !allZero l used (256 - used) then some (.error 2)
  else some (.ok l)

/-- Runs a command that completes at once. -/
def command (s : State) (fn : Fn) (req : Request) (code used : Nat) (pfOnly : Bool) (body : List Byte → Cmdo) : State :=
  match admitted s fn req code used pfOnly with
  | none => s
  | some (.error e) => respond s fn req e []
  | some (.ok l) => match body l with
    | .fail e => respond s fn req e []
    | .done t res => respond t fn req 0 res

/-- Runs a body on a context that the requester owns. -/
def owned (s : State) (fn : Fn) (id : Nat) (f : Ctx → Cmdo) : Cmdo :=
  match getCtx s id with
  | some c => if c.owner = fn then f c else .fail 3
  | none => .fail 3

/-! ### Pools (R383) -/

/-- Physical range of a die (R56). -/
def dieBase (d : Nat) : Nat := d * 2 ^ 37
/-- Makes a range of device memory read as zero under key 0. -/
def zeroRange (s : State) (pa n : Nat) : State :=
  let out := fun (lo hi x : Nat) => decide (x < lo) || decide (hi ≤ x)
  { s with mem := s.mem.filter (fun c => out pa (pa + n) c.1),
           sectorKey := s.sectorKey.filter (fun p => out (pa / 32) ((pa + n + 31) / 32) p.1),
           bad := s.bad.filter (fun x => out (pa / 32) ((pa + n + 31) / 32) x) }

/-- The lowest free place of a size, aligned to it, in a pool. -/
def poolPlace (c : Ctx) (die size : Nat) : Option Nat :=
  match sfind c.pools die with
  | none => none
  | some (base, len) =>
    let ends := base :: c.carved.map (fun x => x.1 + x.2)
    let can := (ends.map (ceilTo size)).filter (fun a => decide (base ≤ a) && decide (a + size ≤ base + len)
      && c.carved.all (fun x => decide (a + size ≤ x.1) || decide (x.1 + x.2 ≤ a)))
    leastBy (fun a => a) can

/-- Takes a zeroed table of a size from the first pool that has room beside what else it holds. -/
def carve (s : State) (ctx size : Nat) : Option (State × Nat) :=
  match getCtx s ctx with
  | none => none
  | some c => ((List.range 8).findSome? (fun d => if size ≤ poolRoom s ctx d then poolPlace c d size else none)).map (fun a =>
      (modCtx (zeroRange s a size) ctx (fun c => { c with carved := c.carved ++ [(a, size)] }), a))

/-! ### CTX_CREATE (R383) -/

/-- The fields of a new context within their limits. -/
def parseCtx (fn : Fn) (id : Nat) (l : List Byte) : Option Ctx :=
  let n := fun o k => natAt l o k
  let pools := (List.range 8).map (fun d => (d, n (0x80 + 16 * d) 8, n (0x88 + 16 * d) 8))
  let c : Ctx :=
    { id := id, owner := fn, tags := n 8 4, gangPlaces := n 0x0C 1, barriers := n 0x0D 1, mailboxes := n 0x0E 1,
      spillPlaces := n 0x0F 1, chunks := n 0x10 2, scratch := n 0x14 4, hwBase := n 0x18 8, hwSize := n 0x20 8,
      logVa := w64At l 0x28, logEntries := n 0x30 4, logVector := n 0x34 2, ckVa := w64At l 0x38, ckEntries := n 0x40 4,
      refVa := w64At l 0x48, refEntries := n 0x50 4, dumpVa := w64At l 0x58, dumpSlot := n 0x60 4, pools := pools }
  let poolOk := fun (p : Nat × Nat × Nat) => p.2.1 % 2097152 == 0 && p.2.2 % 2097152 == 0
    && (p.2.2 == 0 || decide (dieBase p.1 ≤ p.2.1) && decide (p.2.1 + p.2.2 ≤ dieBase (p.1 + 1)))
  if 1 ≤ c.tags ∧ c.tags ≤ 256 ∧ 1 ≤ c.gangPlaces ∧ c.gangPlaces ≤ 32 ∧ c.barriers ≤ 128 ∧ c.mailboxes ≤ 32 ∧ c.spillPlaces ≤ 252
      ∧ 1 ≤ c.chunks ∧ c.chunks ≤ 384 ∧ c.scratch % 1024 = 0 ∧ c.scratch ≤ 1048576 ∧ c.hwBase % 65536 = 0 ∧ c.hwSize % 65536 = 0
      ∧ c.logVa.toNat % 128 = 0 ∧ isPow2 c.logEntries ∧ 16 ≤ c.logEntries ∧ c.logEntries ≤ 65536 ∧ c.logVector < 2048
      ∧ c.ckVa.toNat % 128 = 0 ∧ (c.ckVa = 0 ∨ isPow2 c.ckEntries ∧ 16 ≤ c.ckEntries ∧ c.ckEntries ≤ 2 ^ 24)
      ∧ c.dumpVa.toNat % 65536 = 0 ∧ (c.dumpVa = 0 ∨ 1 ≤ c.dumpSlot ∧ c.dumpSlot ≤ 65536)
      ∧ allZero l 0x12 2 ∧ allZero l 0x36 2 ∧ allZero l 0x44 4 ∧ allZero l 0x54 4 ∧ allZero l 0x64 28 ∧ pools.all poolOk
  then some c else none

/-- Whether two pools share a frame. -/
def poolsMeet (a b : Ctx) : Bool :=
  a.pools.any (fun p => b.pools.any (fun q => decide (p.2.1 < q.2.1 + q.2.2) && decide (q.2.1 < p.2.1 + p.2.2)
    && p.2.2 != 0 && q.2.2 != 0))

/-- Spillways of a die: 64 cores of 2,048 threads with 8-byte places, at the start of its pool. -/
def spillBytes (c : Ctx) : Nat := 64 * 2048 * 8 * c.spillPlaces
def spillCut (c : Ctx) : List (Nat × Nat) := if c.spillPlaces = 0 then [] else c.pools.map (fun p => (p.2.1, spillBytes c))

def execCtxCreate (fn : Fn) (req : Request) (s : State) : Out :=
  .next (command s fn req 0x01 0x100 false (fun l =>
    match (List.range 1024).find? (fun i => (getCtx s i).isNone) with
    | none => .fail 4
    | some id => match parseCtx fn id l with
      | none => .fail 2
      | some c =>
        if s.ctxs.any (poolsMeet c) then .fail 2
        else if 256 < (s.ctxs.map (fun c => c.tags)).foldl (· + ·) c.tags then .fail 4
        else if c.pools.any (fun p => decide (p.2.2 < spillBytes c)) then .fail 4
        else
          let c1 := { c with carved := spillCut c }
          match carve { s with ctxs := s.ctxs ++ [c1] } id 131072 with
          | none => .fail 4
          | some (s1, root) => .done (modCtx s1 id (fun c => { c with root := root })) (le 4 id)))

/-! ### CTX_DESTROY and CTX_RESET (R384, R382) -/

/-- Ends the open forks of a context with outcome 5. -/
def endForks (s : State) (ctx : Nat) : State :=
  (s.forks.filter (fun f => f.ctx == ctx && !f.ended)).foldl (fun s f => match getFork s f.id with
    | none => s
    | some f =>
      if f.scope = .chip then
        f.held.foldl (fun s t => cancelBucket s ctx t) s
      else endFork s f.id 5 (((headOf s f).map (fun h => h.idx)).getD f.count)) s

/-- Discards blocks, grids, forks, record queues and atomic requests of a context: nothing of it runs any more. -/
def dropWork (s : State) (ctx : Nat) : State :=
  let mine := s.blocks.filter (fun b => b.ctx == ctx)
  let s1 := (mine.filter (fun b => b.onCore)).foldl releaseHeld s
  let s2 := { s1 with blocks := s1.blocks.filter (fun b => b.ctx != ctx), grids := s1.grids.filter (fun g => g.ctx != ctx),
                      rqs := s1.rqs.filter (fun q => q.ctx != ctx),
                      atoms := s1.atoms.filter (fun r => !r.lanes.any (fun a => mine.any (fun b => b.id == a.blk))) }
  let s3 := (s2.forks.filter (fun f => f.ctx == ctx)).foldl releaseFork s2
  { s3 with forks := s3.forks.filter (fun f => f.ctx != ctx), accepted := s3.accepted.filter (fun x => x.ctx != ctx) }

/-- Removes the translation buffer entries of a context that overlap a range, and empties the read-only buffers (R60). -/
def invalidate (s : State) (ctx lo n : Nat) : State :=
  let keep := fun (t : List Tlb) => t.filter (fun e => e.ctx != ctx || decide (e.va + e.size ≤ lo) || decide (lo + n ≤ e.va))
  let core := fun (p : Nat × Core) => (p.1, { p.2 with tlb := keep p.2.tlb })
  let die := fun (p : Nat × Die) =>
    (p.1, { p.2 with tlb := keep p.2.tlb, cluTlb := (p.2.cluTlb.map (fun (q : Nat × List Tlb) => (q.1, keep q.2))).filter (fun q => !q.2.isEmpty) })
  dropRobuf { s with cores := (s.cores.map core).filter (fun (p : Nat × Core) => p.2 != ({} : Core)),
                     dies := (s.dies.map die).filter (fun (p : Nat × Die) => p.2 != ({} : Die)) }

/-- Empties the key slots that were granted to a context alone, and takes its other grants away. -/
def dropKeys (s : State) (ctx : Nat) : State :=
  let only := s.keys.filter (fun p => p.2.grants == [ctx])
  let s1 := only.foldl (fun s p => emptySlot s p.1) s
  { s1 with keys := s1.keys.map (fun p => (p.1, { p.2 with grants := p.2.grants.filter (fun c => c != ctx) })) }

/-- Step 1 of R384 begins: every grid of the context is killed, without a domain's action, and so are the children of its forks; the
counted operations and started commands of its blocks still complete. -/
def killCtx (s : State) (ctx : Nat) : State :=
  let s1 := killWhere s (fun b => b.ctx == ctx && b.onCore)
  let s2 := { s1 with grids := s1.grids.map (fun (g : Grid) => if g.ctx = ctx then { g with killed := true } else g) }
  (s2.forks.filter (fun f => f.ctx == ctx && !f.ended)).foldl (fun (s : State) (f : Fork) =>
    (f.children.filter (fun c => childLive s f.id c.idx)).foldl (fun s c =>
      modChild (modFork (stopChild s f.id c.idx) f.id (fun f => dropVersions f c.idx)) f.id c.idx
        (fun c => { c with st := .failed, granted := 0, need := 0, noRerun := true })) s) s2

/-- Whether everything that blocks of a context have begun is complete. -/
def drained (s : State) (ctx : Nat) : Bool :=
  s.blocks.all (fun b => b.ctx != ctx || !b.onCore || opsDone b && b.started.isEmpty)

/-- The rest of R384, in its order: the grids complete and add their gauges, forks end with outcome 5, images are discarded, queues
unbound, mappings removed, tags, pools and keys released. -/
def destroyCtx (s : State) (ctx : Nat) : State :=
  let s1 := (s.grids.filter (fun g => g.ctx == ctx && g.fork.isNone && !g.completed)).foldl (fun s g => gaugeAddLogged s 8 ctx [] g.gauge g.gadd) s
  let s2 := dropWork (endForks s1 ctx) ctx
  let s3 := { s2 with queues := s2.queues.filter (fun p => !(p.2.bound && p.2.ctx == ctx)) }
  let s4 := invalidate s3 ctx 0 (2 ^ 57)
  let gone := fun (d : Die) => { d with walks := d.walks.filter (fun w => w.ctx != ctx), dqs := d.dqs.filter (fun q => q.ctx != ctx) }
  let s5 := { s4 with dies := (s4.dies.map (fun (p : Nat × Die) => (p.1, gone p.2))).filter (fun (p : Nat × Die) => p.2 != ({} : Die)) }
  dropKeys { s5 with ctxs := s5.ctxs.filter (fun c => c.id != ctx) } ctx

/-- A context that is being destroyed goes once its blocks have drained; the command's response is then complete. -/
def finishDestroy (s : State) (ctx : Nat) : State :=
  match (getCtx s ctx).bind (fun c => c.dying) with
  | none => s
  | some who =>
    if !drained s ctx then s
    else match who with
      | none => destroyCtx s ctx
      | some fn => respond (destroyCtx s ctx) fn (getMbox s fn).request 0 []

/-- CTX_DESTROY begins, for a command of a function or without one. -/
def startDestroy (s : State) (ctx : Nat) (who : Option Fn) : State :=
  finishDestroy (killCtx (modCtx s ctx (fun c => { c with dying := some who })) ctx) ctx

/-- The doorbell reads 1 until the response is complete. -/
def execCtxDestroy (fn : Fn) (req : Request) (s : State) : Out :=
  .next (match admitted s fn req 0x02 0x0C false with
    | none => s
    | some (.error e) => respond s fn req e []
    | some (.ok l) => match getCtx s (natAt l 8 4) with
      | none => respond s fn req 3 []
      | some c =>
        if c.owner ≠ fn then respond s fn req 3 []
        else
          let box : Mailbox := { getMbox s fn with request := req, doorbell := true }
          startDestroy { s with mailboxes := s.mailboxes.filter (fun p => p.1 != fn) ++ [(fn, box)] } c.id (some fn))

/-- A reset context is halted no more; its queues stop with head at tail. -/
def resetCtx (s : State) (c : Ctx) : State :=
  let s1 := dropWork (endForks s c.id) c.id
  let stop := fun (q : Queue) => if q.bound && q.ctx == c.id then { q with head := q.tail, reads := [], pkt := none, launched := [], stopped := true } else q
  let s2 := { s1 with queues := s1.queues.map (fun p => (p.1, stop p.2)) }
  modCtx s2 c.id (fun c => { c with halt := .running, haltBlk := none, haltReport := {}, haltCyc := [], haltRegion := 0, dumped := [],
                                    pendingLevels := [], diverged := [] })

def execCtxReset (fn : Fn) (req : Request) (s : State) : Out :=
  .next (command s fn req 0x03 0x0C false (fun l => owned s fn (natAt l 8 4) (fun c =>
    if c.halt != .halted then .fail 5 else .done (resetCtx s c) [])))

/-! ### MAP and UNMAP (R385) -/

/-- Log2 of a page size, and the level of its leaves. -/
def mapSize : Nat → Option (Nat × Nat)
  | 0 => some (16, 3)
  | 1 => some (21, 2)
  | 2 => some (30, 1)
  | _ => none

/-- Address of the entry of a level on the way to an address, when the tables above it exist. -/
def entryAt (s : State) (va target : Nat) : Nat → Nat → Nat → Option Nat
  | 0, _, _ => none
  | fuel + 1, tab, lv =>
    let t := tableLevel lv
    let a := tab + 8 * fld va t.1 t.2.1
    if lv = target then some a
    else
      let e := devNat s a 8
      if fld e 3 2 = 1 then entryAt s va target fuel (fld e 8 32 * 256) (lv + 1) else none

/-- The leaf that maps an address, and its level. -/
def leafAt (s : State) (root va : Nat) : Option (Nat × Nat) :=
  match walk s true root va with
  | .leaf e lv => some (e, lv)
  | .fault _ _ => none

/-- Leaves that a range of addresses meets: first address, size and level of each page, and the leaf. -/
def leavesIn (s : State) (root hi : Nat) : Nat → Nat → List (Nat × Nat × Nat × Nat)
  | 0, _ => []
  | n + 1, va =>
    if hi ≤ va then []
    else match leafAt s root va with
      | none => leavesIn s root hi n (va / 65536 * 65536 + 65536)
      | some (e, lv) =>
        let size := 2 ^ pageLog lv
        (va / size * size, size, lv, e) :: leavesIn s root hi n (va / size * size + size)

/-- The leaves of a range, as far as addresses go. -/
def rangeLeaves (s : State) (root va len : Nat) : List (Nat × Nat × Nat × Nat) :=
  leavesIn s root (min (va + len) (2 ^ 57)) ((min (va + len) (2 ^ 57) - va) / 65536 + 2) va

/-- Whether a range meets a tracked page inside the window of an open fork of a context (R60). -/
def windowRange (s : State) (ctx root va len : Nat) : Bool :=
  let ws := (s.forks.filter (fun f => f.ctx == ctx)).flatMap (fun f => (f.wins.zipIdx.filter (fun p => f.winOpen p.2)).map (·.1))
  !ws.isEmpty && (rangeLeaves s root va len).any (fun p => fld p.2.2.2 62 1 == 1
    && ws.any (fun w => decide (w.base < p.1 + p.2.1) && decide (p.1 < w.base + w.len)))

/-- The leaf of one page. -/
def leafWord (template frame : Nat) : Nat :=
  fld template 40 24 * 2 ^ 40 + fld template 5 11 * 32 + frame / 65536 % 2 ^ 24 * 65536 + 16

/-- Whether a page keeps the rules of R385. -/
def pageOk (s : State) (c : Ctx) (lv size va frame e : Nat) : Bool :=
  leafOk lv e && !(fld e 40 2 == 1 && decide (c.hwSize < frame + size)) && !(fld e 40 2 == 0 && poolFrame s frame size) && decide (frame + size ≤ 2 ^ 40)
    && (match entryAt s va lv 4 c.root 0 with
      | some a => fld (devNat s a 8) 3 2 != 1
      | none => true)
    && (match leafAt s c.root va with
      | some (_, l) => decide (lv ≤ l)
      | none => true)

/-- Makes the tables down to a level: the state and the entry's address. -/
def makeTables (ctx va target : Nat) : Nat → State → Nat → Nat → Option (State × Nat)
  | 0, _, _, _ => none
  | fuel + 1, s, tab, lv =>
    let t := tableLevel lv
    let a := tab + 8 * fld va t.1 t.2.1
    if lv = target then some (s, a)
    else
      let e := devNat s a 8
      if fld e 3 2 = 1 then makeTables ctx va target fuel s (fld e 8 32 * 256) (lv + 1)
      else match carve s ctx (2 ^ (tableLevel (lv + 1)).2.2) with
        | none => none
        | some (s1, new) => makeTables ctx va target fuel (devWrite s1 a (le 8 (new + 8))) new (lv + 1)

/-- Writes the leaves of a range page by page. -/
def mapRun (c : Ctx) (lv log template : Nat) : Nat → State → Nat → Nat → Option State
  | 0, s, _, _ => some s
  | n + 1, s, va, frame =>
    match makeTables c.id va lv 4 s c.root 0 with
    | none => none
    | some (s1, a) => mapRun c lv log template n (devWrite s1 a (le 8 (leafWord template frame))) (va + 2 ^ log) (frame + 2 ^ log)

def execMapPages (fn : Fn) (req : Request) (s : State) : Out :=
  .next (command s fn req 0x04 0x31 false (fun l => owned s fn (natAt l 8 4) (fun c =>
    let va := natAt l 0x10 8
    let len := natAt l 0x18 8
    let tmpl := natAt l 0x20 8
    let frame := natAt l 0x28 8
    match mapSize (natAt l 0x30 1) with
    | none => .fail 2
    | some (log, lv) =>
      let size := 2 ^ log
      if windowRange s c.id c.root va len then .fail 1
      else if !allZero l 0x0C 4 || va % size != 0 || len % size != 0 || frame % size != 0 || decide (2 ^ 57 < va + len) then .fail 2
      else
        let n := len / size
        let pages := (List.range n).map (fun i => (va + i * size, frame + i * size))
        if pages.any (fun p => !pageOk s c lv size p.1 p.2 (leafWord tmpl p.2)) then .fail 2
        else match mapRun c lv log tmpl n s va frame with
          | none => .fail 4
          | some s1 => .done (invalidate s1 c.id va len) [])))

/-- Whether a table has no valid entry. -/
def tableEmpty (s : State) (tab lv : Nat) : Bool :=
  (List.range (2 ^ (tableLevel lv).2.1)).all (fun i => fld (devNat s (tab + 8 * i) 8) 3 2 == 0)

/-- Frees the tables on the way to an address that have no valid entry left. -/
def freeTables (ctx va : Nat) : Nat → State → Nat → Nat → State
  | 0, s, _, _ => s
  | fuel + 1, s, tab, lv =>
    let t := tableLevel lv
    let a := tab + 8 * fld va t.1 t.2.1
    let e := devNat s a 8
    if fld e 3 2 ≠ 1 then s
    else
      let sub := fld e 8 32 * 256
      let s1 := freeTables ctx va fuel s sub (lv + 1)
      if tableEmpty s1 sub (lv + 1) then
        modCtx (devWrite s1 a (zeros 8)) ctx (fun c => { c with carved := c.carved.filter (fun x => x.1 != sub) })
      else s1

def execUnmapPages (fn : Fn) (req : Request) (s : State) : Out :=
  .next (command s fn req 0x05 0x20 false (fun l => owned s fn (natAt l 8 4) (fun c =>
    let va := natAt l 0x10 8
    let len := natAt l 0x18 8
    if windowRange s c.id c.root va len then .fail 1
    else if !allZero l 0x0C 4 || va % 65536 != 0 || len % 65536 != 0 || decide (2 ^ 57 < va + len) then .fail 2
    else
      let ps := rangeLeaves s c.root va len
      if ps.any (fun p => decide (p.1 < va) || decide (va + len < p.1 + p.2.1)) then .fail 2
      else
        let s1 := ps.foldl (fun s p => match entryAt s p.1 p.2.2.1 4 c.root 0 with
          | some a => freeTables c.id p.1 4 (devWrite s a (zeros 8)) c.root 0
          | none => s) s
        .done (invalidate s1 c.id va len) [])))

/-! ### QUEUE_BIND (R388) -/

def execQueueBind (fn : Fn) (req : Request) (s : State) : Out :=
  .next (command s fn req 0x06 0x1C false (fun l =>
    let qi := natAt l 8 4
    let id := natAt l 0x0C 4
    let ring := w64At l 0x10
    let n := natAt l 0x18 4
    let q := getQueue s qi
    if 16384 ≤ qi then .fail 2
    else if id = 0xFFFFFFFF then
      if !q.bound then .fail 5
      else owned s fn q.ctx (fun _ => if q.unread ≠ 0 then .fail 5 else .done { s with queues := sdel s.queues qi } [])
    else owned s fn id (fun c =>
      if q.bound then .fail 5
      else if !isPow2 n || decide (n < 64) || decide (2 ^ 20 < n) || ring.toNat % (64 * n) != 0 then .fail 2
      else .done (modQueue s qi (fun _ => { bound := true, ctx := c.id, ring := ring, entries := n })) [])))

/-! ### PREEMPT, RESUME, IMPORT, QUERY (R386) -/

/-- The target of a pre-emption command. -/
def stopTarget (l : List Byte) : Option StopTarget :=
  let k := natAt l 0x0C 4
  if k ≤ 2 then some { kind := k, target := if k = 0 then 0 else w64At l 0x10 } else none

def execPreempt (fn : Fn) (req : Request) (s : State) : Out :=
  .next (command s fn req 0x07 0x18 false (fun l => owned s fn (natAt l 8 4) (fun c =>
    match stopTarget l with
    | none => .fail 2
    | some t =>
      let s1 := modCtx s c.id (fun c => { c with stops := c.stops.filter (fun x => x != t) ++ [t] })
      .done (switchOut (requestStop s1 (fun b => b.ctx == c.id && stopHits c b t)) c.id) [])))

/-- What RESUME does: the stop is lifted, images that wait for the host return, and a pre-emption that has not stopped
its block is withdrawn. -/
def resumeTarget (s : State) (c : Ctx) (t : StopTarget) : State :=
  let stops := c.stops.filter (fun x => x != t)
  let hit := fun (b : Block) => b.ctx == c.id && stopHits c b t
  let held := fun (b : Block) => stops.any (stopHits c b)
  let back := fun (b : Block) =>
    if hit b && b.stat == .waitHost then { b with stat := .queued, capWait := false, order := s.pktOrder }
    else if hit b && b.stat == .stopping && !b.evict && !held b && s.dev.target != some 1 then { b with stat := .resident }
    else b
  modCtx { s with blocks := s.blocks.map back, pktOrder := s.pktOrder + 1 } c.id (fun c => { c with
    stops := stops, switched := c.switched && wholeStop s { c with stops := stops } })

def execResume (fn : Fn) (req : Request) (s : State) : Out :=
  .next (command s fn req 0x08 0x18 false (fun l => owned s fn (natAt l 8 4) (fun c =>
    match stopTarget l with
    | none => .fail 2
    | some t => .done (resumeTarget s c t) [])))

/-- An image that waits: for the host, or behind a stop of its context. -/
def waitingImage (c : Ctx) (b : Block) : Bool :=
  b.ctx == c.id && isImage b && (b.stat == .waitHost || (b.stat == .queued && c.stops.any (stopHits c b)))

def execImportImages (fn : Fn) (req : Request) (s : State) : Out :=
  .next (command s fn req 0x09 0x11 false (fun l => owned s fn (natAt l 8 4) (fun c =>
    let peer := natAt l 0x10 1
    let ws := s.blocks.filter (waitingImage c)
    if peer = 0xFF then owned s fn (natAt l 0x0C 4) (fun t =>
      if ws.isEmpty then .fail 5
      else
        let move := fun (b : Block) => if waitingImage c b then { b with ctx := t.id, stat := .waitHost, capWait := false } else b
        .done { s with blocks := s.blocks.map move } [])
    else match sfind c.peers peer with
      | none => .fail 2
      | some p =>
        if !p.valid || p.self then .fail 2
        else if ws.isEmpty || !peerUp s p then .fail 5
        else .done { s with blocks := s.blocks.filter (fun b => !waitingImage c b),
                            grids := s.grids.map (fun g => if ws.any (fun b => b.grid == g.id) then { g with away := true } else g) } [])))

/-- A peer's image as it waits here: new names, nothing of the core that it stood on. Its grid, and the fork of a fork child's, stay with
the peer. -/
def carriedImage (ctx base : Nat) (b : Block) : Block :=
  { b with id := base + b.id, grid := base + b.grid, clique := if b.clique = 0 then 0 else base + b.clique, ctx := ctx, stat := .waitHost, capWait := false,
           views := b.views.map (fun v => (base + v.1, v.2)), notAgain := [], scratchBad := [], started := [], gangs := b.gangs.map (fun (p : Nat × Gang) => (p.1, savedGang p.2)),
           feeder := b.feeder.map savedFeeder }

/-- Images that the Reeve of a peer carries into a context here, from the context that its peer table admits (R386, R403); they wait
for RESUME. -/
def takeImages (s : State) (ctx : Nat) (serial : W64) (peerCtx : Nat) (bs : List Block) : State :=
  let mine := bs.filter isImage
  let room := (mine.map (fun b => b.id + b.grid + b.clique + (b.views.map (·.1)).foldl max 0 + 1)).foldl max 0
  match getCtx s ctx with
  | none => s
  | some c =>
    if s.dev.ready && c.peers.any (fun p => p.2.valid && !p.2.self && p.2.serial == serial && p.2.ctx == peerCtx && peerUp s p.2)
    then { s with blocks := s.blocks ++ mine.map (carriedImage ctx s.nextId), nextId := s.nextId + room }
    else s

def execQuery (fn : Fn) (req : Request) (s : State) : Out :=
  .next (command s fn req 0x0A 0x0C false (fun l => owned s fn (natAt l 8 4) (fun c =>
    let mine := s.blocks.filter (fun b => b.ctx == c.id)
    let n := fun (p : Block → Bool) => (mine.filter p).length
    let bits := (if c.halt = .halted then 1 else 0) + (if c.switched then 2 else 0)
      + (if mine.any (fun b => b.stat == .stopping || b.stat == .stopped) then 4 else 0)
    .done s (le 4 bits ++ le 4 (n Block.onCore) ++ le 4 (n (fun b => b.stat == .waitHost && b.capWait))))))

/-! ### DEBUG (R374) -/

/-- Releases a debug-stopped gang: its parked threads go on as its stop says. -/
def releaseStop (s : State) (ctx idx gi : Nat) : State :=
  match s.blocks.find? (fun b => b.ctx == ctx && b.idx == idx && (sfind b.gangs gi).any (fun g => g.wait == .debugStop)) with
  | none => s
  | some b => modGang s b.id gi (fun g =>
      let past := fun (r : Store W64) (l : Nat) => sset 0 r l (sget 0 g.pc l + BitVec.ofNat 64 g.waitLen)
      { g with pc := (lanesOf g.parked).foldl past g.pc, wait := .none, waitLen := 0, parked := 0,
               arrived := (lanesOf g.parked).foldl (fun r l => sset 0 r l s.tick) g.arrived })

def execDebugMode (fn : Fn) (req : Request) (s : State) : Out :=
  .next (command s fn req 0x0B 0x22 false (fun l => owned s fn (natAt l 8 4) (fun c =>
    let mode := natAt l 0x0C 4
    if 1 < mode then .fail 2
    else
      let ids := ((List.range 4).map (fun i => BitVec.ofNat 16 (natAt l (0x10 + 2 * i) 2))).filter (fun x => x != 0)
      let s1 := modCtx s c.id (fun c => { c with debug := mode == 1, stopIds := ids })
      .done (releaseStop s1 c.id (natAt l 0x18 8) (natAt l 0x20 2)) [])))

/-! ### PEER (R402) -/

def parsePeer (l : List Byte) (o : Nat) : Option Peer :=
  let fl := natAt l (o + 0x0A) 1
  let p : Peer :=
    { serial := w64At l o, ports := BitVec.ofNat 16 (natAt l (o + 8) 2), valid := fl % 2 == 1, self := fl / 2 % 2 == 1,
      ctx := natAt l (o + 0x0C) 4, base := natAt l (o + 0x10) 8, size := 65536 * natAt l (o + 0x18) 4, key := natAt l (o + 0x1C) 2 }
  if fl < 4 ∧ allZero l (o + 0x0B) 1 ∧ allZero l (o + 0x1E) 2 ∧ p.base % 65536 = 0 ∧ p.key < 4096 then some p else none

def execPeerEntry (fn : Fn) (req : Request) (s : State) : Out :=
  .next (command s fn req 0x0C 0x30 false (fun l => owned s fn (natAt l 8 4) (fun c =>
    let i := natAt l 0x0C 4
    match parsePeer l 0x10 with
    | none => .fail 2
    | some p => if 16 ≤ i then .fail 2 else .done (modCtx s c.id (fun c => { c with peers := sput c.peers i p })) [])))

/-! ### SET_PARAM (R387) -/

/-- Sets a parameter whose value lies within its limits; another parameter's request is left alone, and an
unknown number fails. -/
def setParam (s : State) (fn : Fn) (req : Request) (p : Nat) (ok : Nat → Bool) (set : Nat → Cmdo) : State :=
  let n := natAt (reqBytes req) 8 8
  if n ≠ p ∧ 1 ≤ n ∧ n ≤ 8 then s
  else command s fn req 0x0D 0x18 true (fun l => let v := natAt l 0x10 8; if n = p && ok v then set v else .fail 2)

def setDev (s : State) (f : Device → Device) : Cmdo := .done { s with dev := f s.dev } []
def within (lo hi v : Nat) : Bool := decide (lo ≤ v) && decide (v ≤ hi)

def execSetReservoir (fn : Fn) (req : Request) (s : State) : Out :=
  .next (setParam s fn req 1 (within 1 16) (fun v => if s.ctxs.isEmpty then setDev s (fun d => { d with reservoir := v }) else .fail 5))
def execSetScrubPeriod (fn : Fn) (req : Request) (s : State) : Out :=
  .next (setParam s fn req 2 (within 1 168) (fun v => setDev s (fun d => { d with scrub := v })))
def execSetRiseLimit (fn : Fn) (req : Request) (s : State) : Out :=
  .next (setParam s fn req 3 (within 1 4096) (fun v => setDev s (fun d => { d with rise := v })))
def execSetFallLimit (fn : Fn) (req : Request) (s : State) : Out :=
  .next (setParam s fn req 4 (within 1 4096) (fun v => setDev s (fun d => { d with fall := v })))
def execSetAgingThreshold (fn : Fn) (req : Request) (s : State) : Out :=
  .next (setParam s fn req 5 (within 1 65535) (fun v => setDev s (fun d => { d with aging := v })))
def execSetPowerState (fn : Fn) (req : Request) (s : State) : Out :=
  .next (setParam s fn req 6 (within 1 4) (fun v => .done (requestPower s v) []))
def execSetErrorLogRing (fn : Fn) (req : Request) (s : State) : Out :=
  .next (setParam s fn req 7 (fun v => v % 64 == 0) (fun v => setDev s (fun d => { d with errRing := BitVec.ofNat 64 v })))
def execSetErrorLogEntries (fn : Fn) (req : Request) (s : State) : Out :=
  .next (setParam s fn req 8 (fun v => isPow2 v && within 64 (2 ^ 20) v) (fun v => setDev s (fun d => { d with errEntries := v })))

/-! ### FW_STAGE (R393) -/

/-- The Reeve verifies an image: its key is the one whose digest is fused, its signature holds, and its version is not below the fused
counter; a higher one raises the counter. None when it is rejected. -/
def verifyImage (trust : BitVec 384) (fused : BitVec 6) (img : FwImage) : Option (BitVec 6) :=
  if !img.sigOk || img.key != trust || decide (img.version < fused) then none else some (if fused < img.version then img.version else fused)

/-- The image that lies at a host bus address: its digest is that of its bytes. -/
def stagedImage (s : State) (addr len : Nat) (img : FwImage) : FwImage :=
  { img with digest := sha384 ((List.range len).map (fun i => sget 0 s.hostMem (addr + i))) }

/-- The image is kept for the next reset; in recovery this is the one command accepted. A failure sets recovery. -/
def execFwStage (fn : Fn) (req : Request) (img : FwImage) (s : State) : Out :=
  let l := reqBytes req
  .next (if natAt l 0 1 ≠ 0x0E || (getMbox s fn).doorbell then s
    else if (!s.dev.ready && !s.dev.recovery) || s.dev.tripped then respond s fn req 5 []
    else if fn ≠ .pf then respond s fn req 6 []
    else if !allZero l 1 7 || !allZero l 0x18 (256 - 0x18) then respond s fn req 2 []
    else
      let x := stagedImage s (natAt l 8 8) (natAt l 0x10 8) img
      match verifyImage s.dev.trust s.dev.fused x with
      | none => respond { s with dev := { s.dev with recovery := true, ready := false } } fn req 2 []
      | some v => respond { s with dev := { s.dev with staged := some x, fused := v } } fn req 0 [])

end Sys2Proof.Machine
end

