-- ==== Sys2Proof/Machine/Attest.lean ====
section
/-! DEFINITION. Machine/Attest.lean: the device's identity (14 R392, R394), attestation over SPDM (14 R395) and the key requests
of the Reeve (14 R396; 03 R73). What a response tells is computed here; its bytes are free values of that: the spec names the standard
and does not lay the messages out. -/

namespace Sys2Proof.Machine

open Sys2Proof

/-! ### Identity (R394) -/

/-- The part number, TG9-1024. -/
def partNumber : List Nat := [0x54, 0x47, 0x39, 0x2D, 0x31, 0x30, 0x32, 0x34]

/-- The alias key of a boot: from the identity key and the digests of the firmware. -/
def deriveAlias (d : Device) : BitVec 384 := Config.aliasKey d.identity (d.firmware.map (fun i => i.digest))

/-- The certificate chain: root and product certificates, the identity key's with part number and serial, the alias key's signed with
the identity key. -/
def certificateChain (d : Device) : List Nat :=
  Config.osnasChain ++ Config.certificate none (partNumber ++ [d.serial.toNat]) (Config.publicKey d.identity)
    ++ (match d.aliasKey with
      | some k => Config.certificate (some d.identity) ((d.firmware.map (fun i => i.digest.toNat))) (Config.publicKey k)
      | none => [])

/-! ### Measurements (R395) -/

/-- What a measurement says of a context: its id, debug mode and per-core limits. -/
def contextFacts (c : Ctx) : List Nat :=
  [c.id, if c.debug then 1 else 0, c.gangPlaces, c.chunks, c.scratch, c.barriers, c.mailboxes, c.spillPlaces]

/-- The content of a measurement index, for the requesting function; none where the index names no measurement. -/
def measurement (s : State) (fn : Fn) (index : Nat) : Option (List Nat) :=
  let digest := fun (i : Nat) => ((s.dev.firmware[i]?).map (fun x => x.digest.toNat)).getD 0
  match index with
  | 1 => some [digest 0, ((s.dev.firmware[0]?).map (fun x => x.version.toNat)).getD 0]
  | 2 => some [digest 1]
  | 3 => some [digest 2]
  | 4 => some [s.dev.reservoir, s.dev.scrub, s.dev.rise, s.dev.fall, s.dev.aging]
  | 5 => some ((s.ctxs.filter (fun c => c.owner == fn)).flatMap contextFacts)
  | 6 => some ((List.range 16).flatMap (fun i => let p := sget {} s.ports i; [if p.up then 1 else 0, p.serial.toNat]))
  | _ => none

/-! ### Sessions (R395) -/

def getSession (s : State) (fn : Fn) : Session := ((s.sessions.find? (fun p => p.1 == fn)).map (·.2)).getD {}

def setSession (s : State) (fn : Fn) (x : Session) : State :=
  { s with sessions := s.sessions.filter (fun p => p.1 != fn) ++ (if x = {} then [] else [(fn, x)]) }

/-- Whether the Reeve answers at all: the device is up. -/
def reeveUp (s : State) : Bool := s.dev.ready && !s.dev.tripped && !s.dev.recovery

/-- A request is answered; where it comes in its order, the session moves on. `code` is the request's place in the list of R395, and the
answer tells `content`, signed with the alias key where the request asks for that; out of order it tells nothing. -/
def spdm (s : State) (fn : Fn) (ok : Session → Bool) (f : Session → Session) (code : Nat) (content : List Nat := []) (signed : Bool := false) : State :=
  if !reeveUp s then s
  else
    let x := getSession s fn
    if ok x then setSession s fn { f x with response := Config.spdmBytes s.tick code content (if signed then s.dev.aliasKey else none) }
    else setSession s fn { x with response := Config.spdmBytes s.tick 0 [] none }

/-- A message as numbers. -/
def said (msg : List Byte) : List Nat := msg.map (fun b => b.toNat)

/-- A session is in one phase, or in a phase at least as far. -/
def atPhase (n : Nat) (x : Session) : Bool := x.phase == n
def fromPhase (n : Nat) (x : Session) : Bool := decide (n ≤ x.phase)
def toPhase (n : Nat) (x : Session) : Session := { x with phase := n }

/-- GET_VERSION begins anew; the versions are 1.2 and 1.3. -/
def execGetVersion (fn : Fn) (_msg : List Byte) (s : State) : Out :=
  .next (spdm s fn (fun _ => true) (fun _ => { phase := 1 }) 1 [0x12, 0x13])
def execGetCapabilities (fn : Fn) (msg : List Byte) (s : State) : Out := .next (spdm s fn (atPhase 1) (toPhase 2) 2 (said msg))
def execNegotiateAlgorithms (fn : Fn) (msg : List Byte) (s : State) : Out := .next (spdm s fn (atPhase 2) (toPhase 3) 3 (said msg))
def execGetDigests (fn : Fn) (_msg : List Byte) (s : State) : Out := .next (spdm s fn (fromPhase 3) id 4 (certificateChain s.dev))
def execGetCertificate (fn : Fn) (msg : List Byte) (s : State) : Out := .next (spdm s fn (fromPhase 3) id 5 (said msg ++ certificateChain s.dev))
/-- The response is signed with the alias key (R394). -/
def execChallenge (fn : Fn) (msg : List Byte) (s : State) : Out :=
  .next (spdm s fn (fromPhase 3) id 6 (said msg ++ certificateChain s.dev) true)
/-- A measurement is told, signed with the alias key; an index that names none is answered without content. -/
def execGetMeasurements (fn : Fn) (index : Nat) (s : State) : Out :=
  .next (spdm s fn (fun x => fromPhase 3 x && (measurement s fn index).isSome) id 7 (index :: (measurement s fn index).getD []) true)
def execKeyExchange (fn : Fn) (msg : List Byte) (s : State) : Out := .next (spdm s fn (atPhase 3) (toPhase 4) 8 (said msg) true)
/-- FINISH opens the session when the requester's MAC verifies. -/
def execFinish (fn : Fn) (macOk : Bool) (msg : List Byte) (s : State) : Out :=
  .next (spdm s fn (atPhase 4) (toPhase (if macOk then 5 else 3)) 9 (said msg))
def execKeyUpdate (fn : Fn) (msg : List Byte) (s : State) : Out :=
  .next (spdm s fn (atPhase 5) (fun x => { x with updates := x.updates + 1 }) 10 (said msg))
def execHeartbeat (fn : Fn) (msg : List Byte) (s : State) : Out := .next (spdm s fn (atPhase 5) id 11 (said msg))
/-- The keys that a session loaded stay in place (R396). -/
def execEndSession (fn : Fn) (msg : List Byte) (s : State) : Out :=
  .next (spdm s fn (atPhase 5) (fun _ => { phase := 3 }) 12 (said msg))

/-! ### Key requests (R396) -/

/-- A key request with an open session for a context of the same function; any other changes nothing. -/
def keyRequest (s : State) (fn : Fn) (ctx : Nat) (f : Ctx → State) : State :=
  if !reeveUp s || (getSession s fn).phase != 5 then s
  else match getCtx s ctx with
    | some c => if c.owner = fn then f c else s
    | none => s

/-- The lowest empty slot from 1 to 4,095. -/
def emptyKeySlot (s : State) : Option Nat := ((List.range 4095).map (· + 1)).find? (fun i => (sfind s.keys i).isNone)

def execKeyLoad (fn : Fn) (ctx : Nat) (key : Option (BitVec 512)) (s : State) : Out :=
  .next (keyRequest s fn ctx (fun c => match emptyKeySlot s with
    | none => s
    | some i =>
      let k : KeySlot := { present := true, key := key.getD (Config.genKey s.tick), grants := [c.id] }
      setSession { s with keys := sput s.keys i k } fn { getSession s fn with response := le 2 i }))

/-- Whether a key id is granted to some context of a function. -/
def grantedTo (s : State) (fn : Fn) (k : KeySlot) : Bool :=
  k.grants.any (fun c => ((getCtx s c).map (fun (c : Ctx) => c.owner == fn)).getD false)

def execKeyGrant (fn : Fn) (keyId ctx : Nat) (s : State) : Out :=
  .next (keyRequest s fn ctx (fun c => match sfind s.keys keyId with
    | none => s
    | some k =>
      if keyId = 0 || !grantedTo s fn k || k.grants.contains c.id then s
      else { s with keys := sput s.keys keyId { k with grants := k.grants ++ [c.id] } }))

def execKeyRemove (fn : Fn) (keyId ctx : Nat) (s : State) : Out :=
  .next (keyRequest s fn ctx (fun c => match sfind s.keys keyId with
    | none => s
    | some k =>
      if keyId = 0 || !k.grants.contains c.id then s
      else
        let left := k.grants.filter (fun x => x != c.id)
        if left.isEmpty then emptySlot s keyId else { s with keys := sput s.keys keyId { k with grants := left } }))

end Sys2Proof.Machine
end

