-- ==== Sys2Proof/Machine/DeviceEv.lean ====
section
/-! DEFINITION. Machine/DeviceEv.lean: bring-up (14 R405, R393), power and the thermal trip (14 R397 to R399), functions
that enter or leave RUN (14 R380), and the ports of the Plolux Link (14 R400, R403, R404). -/

namespace Sys2Proof.Machine

open Sys2Proof

/-! ### Bring-up (R405) -/

/-- Verifies images one after the other (R393): the fused counter, which each verified image may raise, and whether all verified; the
first failure ends it. -/
def verifyAll (trust : BitVec 384) : List FwImage → BitVec 6 → BitVec 6 × Bool
  | [], v => (v, true)
  | i :: t, v => match verifyImage trust v i with
    | some w => verifyAll trust t w
    | none => (v, false)

/-- What a reset leaves: what was fused and made at manufacture (R393, R394), the fused counter, what lies outside the device, and the
agenda of the outside world. -/
def blank (s : State) : State :=
  { State.reset with
    dev := { fused := s.dev.fused, trust := s.dev.trust, serial := s.dev.serial, identity := s.dev.identity, vectors := s.dev.vectors,
             linkFlit := s.dev.linkFlit, linkLanes := s.dev.linkLanes },
    partners := s.partners, hostMem := s.hostMem, peerMem := s.peerMem, peerBad := s.peerBad, peerShut := s.peerShut, agenda := s.agenda, tick := s.tick, nextId := s.nextId }

/-- Whether the PCIe link comes up: with a partner in flit mode, over 16 lanes (R377). -/
def linkUp (d : Device) : Bool := d.linkFlit && d.linkLanes == 16

/-- A port whose peer has authenticated: both Reeves have opened a session, which sets a key for each direction (R404). -/
def openPort (tick port : Nat) (serial : W64) : Port :=
  { up := true, serial := serial, outKey := Config.linkKey tick port true, inKey := Config.linkKey tick port false }
/-- The ports train, authenticate their peers and set their keys (R405 step 4). -/
def trainPorts (s : State) : Store Port := s.partners.map (fun (p : Nat × W64) => (p.1, openPort s.tick p.1 p.2))

/-- The images in place are those of the three processors and one that FW_STAGE kept. -/
def execDeviceReset (reeve queueProc dispatcher : FwImage) (s : State) : Out :=
  let b := blank s
  let v := verifyAll s.dev.trust ([reeve, queueProc, dispatcher] ++ s.dev.staged.toList) s.dev.fused
  let up : Device := { b.dev with fused := v.1, hbminit := true, ready := linkUp s.dev, firmware := [reeve, queueProc, dispatcher] }
  .next (if v.2 then { b with dev := { up with aliasKey := some (deriveAlias up) }, ports := trainPorts s, keys := [(0, { present := true, key := Config.genKey s.tick })] }
    else { b with dev := { b.dev with fused := v.1, recovery := true } })

/-- The PCIe link trains with a partner (R377): bring-up waits for it with `ready`. -/
def trainLink (s : State) (flit : Bool) (lanes : Nat) : State :=
  let d : Device := { s.dev with linkFlit := flit, linkLanes := lanes }
  { s with dev := { d with ready := d.ready || d.hbminit && linkUp d && d.power != 0 && !d.tripped && !d.recovery } }

/-! ### Power (R397 to R399) -/

/-- All work of the device is gone. -/
def loseAll (s : State) : State :=
  { s with ctxs := [], queues := [], grids := [], forks := [], accepted := [], rqs := [], blocks := [], atoms := [], cores := [], dies := [],
           weir := {}, cur := [], active := none }

/-- A die (8: the I/O die) reaches the trip threshold; each die that does is recorded. -/
def execThermalTrip (die : Nat) (s : State) : Out :=
  .next (if 9 ≤ die || s.dev.tripdie.getLsbD die then s
    else
      let s1 := loseAll s
      let s2 := { s1 with dev := { s1.dev with tripped := true, ready := false, target := none, changed := [],
                                               tripdie := s1.dev.tripdie ||| BitVec.ofNat 9 (2 ^ die) } }
      if s2.dev.errRing = 0 ∨ s2.dev.errEntries = 0
      then { s2 with dev := { s2.dev with vectors := s2.dev.vectors ++ [(Fn.pf, 0)] } }
      else devError s2 errThermal die 0 1)

/-- A requested change takes effect at a die: idle once no block is resident, the other states when every die has come
to its boundary. -/
def execPowerStateChange (die : Nat) (s : State) : Out :=
  .next (match s.dev.target with
    | none => s
    | some p =>
      let done := { s with dev := { s.dev with power := p, target := none, changed := [] } }
      if 8 ≤ die then s
      else if p = 1 then (if s.blocks.any Block.onCore then s else done)
      else
        let now := (s.dev.changed ++ [die]).eraseDups
        if now.length = 8 then done else { s with dev := { s.dev with changed := now } })

/-- Power is removed only when no context exists. -/
def execPowerRemoval (s : State) : Out :=
  .next (if s.ctxs.isEmpty then { blank s with dev := { (blank s).dev with power := 0 } } else s)

/-! ### Functions (R380) -/

def execVfLeavesRun (vf : Nat) (s : State) : Out :=
  .next (if !s.dev.vfRun.contains vf then s
    else
      let s1 := (s.ctxs.filter (fun c => c.owner == .vf vf && c.dying.isNone)).foldl (fun s c => startDestroy s c.id none) s
      { s1 with dev := { s1.dev with vfRun := s1.dev.vfRun.filter (fun x => x != vf) } })

/-- There are 1,023 virtual functions, named from 0 here (R377). -/
def execVfEntersRun (vf : Nat) (s : State) : Out :=
  .next (if s.dev.vfRun.contains vf || decide (1023 ≤ vf) then s
    else { s with dev := { s.dev with vfRun := s.dev.vfRun ++ [vf] } })

/-! ### Ports (R400, R403, R404) -/

def modPort (s : State) (i : Nat) (f : Port → Port) : State := { s with ports := sset {} s.ports i (f (sget {} s.ports i)) }

/-- A flit with a wrong tag is replayed after retraining: no value changes, the step of the failure is kept. -/
def execLinkTagFail (port : Nat) (s : State) : Out :=
  .next (if 16 ≤ port then s
    else modPort s port (fun p => { p with fails := (p.fails ++ [s.tick]).drop (p.fails.length + 1 - 16) }))

/-- Whether a port that is up has had sixteen failures within one second. -/
def failsTooOften (p : Port) : Bool :=
  p.up && match p.fails with
    | [] => false
    | t :: _ => decide (16 ≤ p.fails.length) && Config.withinSecond t (p.fails.getLastD 0)

/-- The lanes of a load that wait for a peer none of whose ports is up. -/
def cutLanes (s : State) (b : Block) (o : Op) : List LaneAcc :=
  match o.body with
  | .load _ _ _ acc _ _ => if o.done then [] else acc.filter (fun a => a.sp.isNone && a.loc.ap == 2 && !entryUp s b.ctx a.loc)
  | _ => []

/-- Every remote load that no port can answer any more is answered as poisoned. -/
def poisonLoads (s : State) : State :=
  s.blocks.foldl (fun s b => b.gangs.foldl (fun s (p : Nat × Gang) =>
    p.2.ops.foldl (fun s o => loadPoisoned s b p.1 o (cutLanes s b o)) s) s) s

/-- The device at the other end of a port is now the one of a serial, none of 0: the port goes up with it, once bring-up is past its
step 4, or down. -/
def meetPeer (s : State) (port : Nat) (serial : W64) : State :=
  if 16 ≤ port then s
  else
    let s1 := { s with partners := sset 0 s.partners port serial }
    if s.dev.power = 0 ∨ !s.dev.hbminit ∨ s.dev.recovery then s1
    else poisonLoads { s1 with ports := sset {} s1.ports port (if serial = 0 then {} else openPort s.tick port serial) }

/-- Sixteen failures within a second take the port down. -/
def execLinkPortDown (port : Nat) (s : State) : Out :=
  .next (if 16 ≤ port || !failsTooOften (sget {} s.ports port) then s
    else devError (poisonLoads (modPort s port (fun p => { p with up := false }))) errLink 8 port 1)

/-- One direction of a port is rekeyed, and no flit is lost. -/
def execLinkRekey (dir : LinkDir) (s : State) : Out :=
  .next (if 16 ≤ dir.port || !(sget {} s.ports dir.port).up then s
    else
      let k := Config.linkKey s.tick dir.port dir.out
      modPort s dir.port (fun p => if dir.out then { p with outKey := k } else { p with inKey := k }))

/-- A port that was down comes up again with the peer that stands there. -/
def execLinkPortReturn (port : Nat) (s : State) : Out :=
  .next (if 16 ≤ port || (sget {} s.ports port).serial = 0 || (sget {} s.ports port).up then s
    else modPort s port (fun p => openPort s.tick port p.serial))

/-- A replay by the link layer changes no value. -/
def execLinkCheckReplay (_port : Nat) (s : State) : Out := .next s

end Sys2Proof.Machine
end

