-- ==== Sys2Proof/Machine/Dispatch.lean ====
section
/-! DEFINITION. Machine/Dispatch.lean: one arm for each row of spec/opcode_table.json. -/

namespace Sys2Proof.Machine

open Sys2Proof

def exec (i : Instr) (s : State) : Host.Outcome State Fault Refusal :=
  match i with
  | .nop g f => Sys2Proof.Machine.execNop g f s
  | .bra g disp => Sys2Proof.Machine.execBra g disp s
  | .brx g a => Sys2Proof.Machine.execBrx g a s
  | .brxu g a => Sys2Proof.Machine.execBrxu g a s
  | .call g disp => Sys2Proof.Machine.execCall g disp s
  | .callx g a => Sys2Proof.Machine.execCallx g a s
  | .callxu g a => Sys2Proof.Machine.execCallxu g a s
  | .ret g => Sys2Proof.Machine.execRet g s
  | .exit g => Sys2Proof.Machine.execExit g s
  | .yield g => Sys2Proof.Machine.execYield g s
  | .trap g n => Sys2Proof.Machine.execTrap g n s
  | .bkpt g => Sys2Proof.Machine.execBkpt g s
  | .rte => Sys2Proof.Machine.execRte s
  | .rteSkip => Sys2Proof.Machine.execRteSkip s
  | .rteRd kd w => Sys2Proof.Machine.execRteRd kd w s
  | .waitany g c => Sys2Proof.Machine.execWaitany g c s
  | .waitanyPoll g c => Sys2Proof.Machine.execWaitanyPoll g c s
  | .evbind g slot e => Sys2Proof.Machine.execEvbind g slot e s
  | .evctlMask g m => Sys2Proof.Machine.execEvctlMask g m s
  | .evctlUnmask g m => Sys2Proof.Machine.execEvctlUnmask g m s
  | .evctlClr g m => Sys2Proof.Machine.execEvctlClr g m s
  | .evctlRaise g m => Sys2Proof.Machine.execEvctlRaise g m s
  | .evctlRead g kd => Sys2Proof.Machine.execEvctlRead g kd s
  | .plop g q d a b c lut => Sys2Proof.Machine.execPlop g q d a b c lut s
  | .sread g sr d => Sys2Proof.Machine.execSread g sr d s
  | .sreadK g sr kd => Sys2Proof.Machine.execSreadK g sr kd s
  | .swrite g sr a => Sys2Proof.Machine.execSwrite g sr a s
  | .fence g f sc => Sys2Proof.Machine.execFence g f sc s
  | .clk g d => Sys2Proof.Machine.execClk g d s
  | .rng g f d => Sys2Proof.Machine.execRng g f d s
  | .rngx g f d a => Sys2Proof.Machine.execRngx g f d a s
  | .rgenter g id => Sys2Proof.Machine.execRgenter g id s
  | .rgleave g id => Sys2Proof.Machine.execRgleave g id s
  | .monitor g ka off => Sys2Proof.Machine.execMonitor g ka off s
  | .monitorClr g => Sys2Proof.Machine.execMonitorClr g s
  | .mwait g kd => Sys2Proof.Machine.execMwait g kd s
  | .waitc g c n => Sys2Proof.Machine.execWaitc g c n s
  | .grow g n => Sys2Proof.Machine.execGrow g n s
  | .shrink g n => Sys2Proof.Machine.execShrink g n s
  | .phase g => Sys2Proof.Machine.execPhase g s
  | .iadd g t sat d a b => Sys2Proof.Machine.execIadd g t sat d a b s
  | .isub g t sat d a b => Sys2Proof.Machine.execIsub g t sat d a b s
  | .iadd3 g t sat d a b c => Sys2Proof.Machine.execIadd3 g t sat d a b c s
  | .imul g t d a b => Sys2Proof.Machine.execImul g t d a b s
  | .imulh g t d a b => Sys2Proof.Machine.execImulh g t d a b s
  | .imad g t sat d a b c => Sys2Proof.Machine.execImad g t sat d a b c s
  | .idiv g t d a b => Sys2Proof.Machine.execIdiv g t d a b s
  | .irem g t d a b => Sys2Proof.Machine.execIrem g t d a b s
  | .imin g t d a b => Sys2Proof.Machine.execImin g t d a b s
  | .imax g t d a b => Sys2Proof.Machine.execImax g t d a b s
  | .iabs g t sat d a => Sys2Proof.Machine.execIabs g t sat d a s
  | .ineg g t sat d a => Sys2Proof.Machine.execIneg g t sat d a s
  | .and g t d a b => Sys2Proof.Machine.execAnd g t d a b s
  | .or g t d a b => Sys2Proof.Machine.execOr g t d a b s
  | .xor g t d a b => Sys2Proof.Machine.execXor g t d a b s
  | .andn g t d a b => Sys2Proof.Machine.execAndn g t d a b s
  | .not g t d a => Sys2Proof.Machine.execNot g t d a s
  | .shl g t d a b => Sys2Proof.Machine.execShl g t d a b s
  | .shr g t d a b => Sys2Proof.Machine.execShr g t d a b s
  | .sar g t d a b => Sys2Proof.Machine.execSar g t d a b s
  | .rot g t d a b => Sys2Proof.Machine.execRot g t d a b s
  | .fshl g t d a b c => Sys2Proof.Machine.execFshl g t d a b c s
  | .popc g t d a => Sys2Proof.Machine.execPopc g t d a s
  | .clz g t d a => Sys2Proof.Machine.execClz g t d a s
  | .ctz g t d a => Sys2Proof.Machine.execCtz g t d a s
  | .brev g t d a => Sys2Proof.Machine.execBrev g t d a s
  | .bfe g t d a b => Sys2Proof.Machine.execBfe g t d a b s
  | .bfi g t d a b c => Sys2Proof.Machine.execBfi g t d a b c s
  | .prmb g d a b c => Sys2Proof.Machine.execPrmb g d a b c s
  | .bmask g r t d a b c => Sys2Proof.Machine.execBmask g r t d a b c s
  | .clmul g d a b => Sys2Proof.Machine.execClmul g d a b s
  | .clmulh g d a b => Sys2Proof.Machine.execClmulh g d a b s
  | .icmp g c t pd a b => Sys2Proof.Machine.execIcmp g c t pd a b s
  | .sel g t d a b ps => Sys2Proof.Machine.execSel g t d a b ps s
  | .lea g t d a b sh => Sys2Proof.Machine.execLea g t d a b sh s
  | .mov g t d a => Sys2Proof.Machine.execMov g t d a s
  | .movi g t d a b => Sys2Proof.Machine.execMovi g t d a b s
  | .fadd g t r d a b => Sys2Proof.Machine.execFadd g t r d a b s
  | .fsub g t r d a b => Sys2Proof.Machine.execFsub g t r d a b s
  | .fmul g t r d a b => Sys2Proof.Machine.execFmul g t r d a b s
  | .ffma g t r d a b c => Sys2Proof.Machine.execFfma g t r d a b c s
  | .fmin g t d a b => Sys2Proof.Machine.execFmin g t d a b s
  | .fmax g t d a b => Sys2Proof.Machine.execFmax g t d a b s
  | .fcmp g c t pd a b => Sys2Proof.Machine.execFcmp g c t pd a b s
  | .fclass g t d a => Sys2Proof.Machine.execFclass g t d a s
  | .frcp g r d a => Sys2Proof.Machine.execFrcp g r d a s
  | .frsq g r d a => Sys2Proof.Machine.execFrsq g r d a s
  | .fsqrt g r d a => Sys2Proof.Machine.execFsqrt g r d a s
  | .fdiv g r d a b => Sys2Proof.Machine.execFdiv g r d a b s
  | .fexp2 g d a => Sys2Proof.Machine.execFexp2 g d a s
  | .flog2 g d a => Sys2Proof.Machine.execFlog2 g d a s
  | .fsin g d a => Sys2Proof.Machine.execFsin g d a s
  | .fcos g d a => Sys2Proof.Machine.execFcos g d a s
  | .ftanh g d a => Sys2Proof.Machine.execFtanh g d a s
  | .fsigm g d a => Sys2Proof.Machine.execFsigm g d a s
  | .fscale g t r d a b => Sys2Proof.Machine.execFscale g t r d a b s
  | .frnd g t r d a => Sys2Proof.Machine.execFrnd g t r d a s
  | .fcopys g t d a b => Sys2Proof.Machine.execFcopys g t d a b s
  | .cvt g res op r nan sat d a b => Sys2Proof.Machine.execCvt g res op r nan sat d a b s
  | .qgrp g e op r d a => Sys2Proof.Machine.execQgrp g e op r d a s
  | .dqgrp g res e d a => Sys2Proof.Machine.execDqgrp g res e d a s
  | .pkparcel g e d q grp => Sys2Proof.Machine.execPkparcel g e d q grp s
  | .unparcel g e d img grp => Sys2Proof.Machine.execUnparcel g e d img grp s
  | .planes g d a p => Sys2Proof.Machine.execPlanes g d a p s
  | .shfl g m t d a b => Sys2Proof.Machine.execShfl g m t d a b s
  | .vote g m ps => Sys2Proof.Machine.execVote g m ps s
  | .matchv g m t a => Sys2Proof.Machine.execMatchv g m t a s
  | .scan g op t excl d a => Sys2Proof.Machine.execScan g op t excl d a s
  | .red g op t d a => Sys2Proof.Machine.execRed g op t d a s
  | .topk g d a b k => Sys2Proof.Machine.execTopk g d a b k s
  | .ld g t kd sc d base off => Sys2Proof.Machine.execLd g t kd sc d base off s
  | .lds g t kd sc d base off => Sys2Proof.Machine.execLds g t kd sc d base off s
  | .ldc g t kd sc d base c off => Sys2Proof.Machine.execLdc g t kd sc d base c off s
  | .ldk g t ln d ka off => Sys2Proof.Machine.execLdk g t ln d ka off s
  | .st g t kd sc base off data => Sys2Proof.Machine.execSt g t kd sc base off data s
  | .sts g t kd sc base off data => Sys2Proof.Machine.execSts g t kd sc base off data s
  | .stc g t kd sc base c data off => Sys2Proof.Machine.execStc g t kd sc base c data off s
  | .stk g t kd sc ka off data => Sys2Proof.Machine.execStk g t kd sc ka off data s
  | .ldq g t d base off ter dm1 grp => Sys2Proof.Machine.execLdq g t d base off ter dm1 grp s
  | .pfetch g base off => Sys2Proof.Machine.execPfetch g base off s
  | .atom g op w64 ord sc d base off v => Sys2Proof.Machine.execAtom g op w64 ord sc d base off v s
  | .atoms g op w64 ord d base off v => Sys2Proof.Machine.execAtoms g op w64 ord d base off v s
  | .atomcas g w64 ord sc d base cmp new off => Sys2Proof.Machine.execAtomcas g w64 ord sc d base cmp new off s
  | .atomscas g w64 ord d base cmp new off => Sys2Proof.Machine.execAtomscas g w64 ord d base cmp new off s
  | .atomf g op ord sc d base off v => Sys2Proof.Machine.execAtomf g op ord sc d base off v s
  | .wsig g w64 sc base data gaddr off => Sys2Proof.Machine.execWsig g w64 sc base data gaddr off s
  | .mldw g m => Sys2Proof.Machine.execMldw g m s
  | .mswap g => Sys2Proof.Machine.execMswap g s
  | .mstr g par f bank va gm1 => Sys2Proof.Machine.execMstr g par f bank va gm1 s
  | .mzero g s32 bank => Sys2Proof.Machine.execMzero g s32 bank s
  | .mdrain g rel coop f bank ka pitch nrm1 => Sys2Proof.Machine.execMdrain g rel coop f bank ka pitch nrm1 s
  | .mgateTake g => Sys2Proof.Machine.execMgateTake g s
  | .mgateTry g qd => Sys2Proof.Machine.execMgateTry g qd s
  | .mgateGive g => Sys2Proof.Machine.execMgateGive g s
  | .mcoop g kd shape kg => Sys2Proof.Machine.execMcoop g kd shape kg s
  | .mcoopClr g => Sys2Proof.Machine.execMcoopClr g s
  | .mrestart g disp => Sys2Proof.Machine.execMrestart g disp s
  | .mend g => Sys2Proof.Machine.execMend g s
  | .mstatSt g kd => Sys2Proof.Machine.execMstatSt g kd s
  | .mstatAcc g bank kd pos => Sys2Proof.Machine.execMstatAcc g bank kd pos s
  | .mstatBal g kd => Sys2Proof.Machine.execMstatBal g kd s
  | .scopy g nm1 toMem ch tag ka kb kn => Sys2Proof.Machine.execScopy g nm1 toMem ch tag ka kb kn s
  | .sgather g f ls ch tag ka kb kn => Sys2Proof.Machine.execSgather g f ls ch tag ka kb kn s
  | .sscatter g x64 ls ch tag ka kb kn => Sys2Proof.Machine.execSscatter g x64 ls ch tag ka kb kn s
  | .sfill g nm1 fdst ch tag kb kn => Sys2Proof.Machine.execSfill g nm1 fdst ch tag kb kn s
  | .pushq g q gang ks => Sys2Proof.Machine.execPushq g q gang ks s
  | .popq g kd q => Sys2Proof.Machine.execPopq g kd q s
  | .setgs g slot m => Sys2Proof.Machine.execSetgs g slot m s
  | .setgsClr g slot => Sys2Proof.Machine.execSetgsClr g slot s
  | .loopk g kc disp => Sys2Proof.Machine.execLoopk g kc disp s
  | .barinit g b m => Sys2Proof.Machine.execBarinit g b m s
  | .bararr g qd b n => Sys2Proof.Machine.execBararr g qd b n s
  | .barexp g b bytes => Sys2Proof.Machine.execBarexp g b bytes s
  | .barwait g b qs => Sys2Proof.Machine.execBarwait g b qs s
  | .gaugeadd g sc ka amount => Sys2Proof.Machine.execGaugeadd g sc ka amount s
  | .gaugewait g sc ka target => Sys2Proof.Machine.execGaugewait g sc ka target s
  | .mbsend g target ks => Sys2Proof.Machine.execMbsend g target ks s
  | .mbsendTry g qd target ks => Sys2Proof.Machine.execMbsendTry g qd target ks s
  | .mbrecv g kd m => Sys2Proof.Machine.execMbrecv g kd m s
  | .kmov g t kd a => Sys2Proof.Machine.execKmov g t kd a s
  | .kmovi g t hi kd a => Sys2Proof.Machine.execKmovi g t hi kd a s
  | .kadd g t sat kd a b => Sys2Proof.Machine.execKadd g t sat kd a b s
  | .ksub g t sat kd a b => Sys2Proof.Machine.execKsub g t sat kd a b s
  | .kmul g t kd a b => Sys2Proof.Machine.execKmul g t kd a b s
  | .kmad g t sat kd a b c => Sys2Proof.Machine.execKmad g t sat kd a b c s
  | .kand g t kd a b => Sys2Proof.Machine.execKand g t kd a b s
  | .kor g t kd a b => Sys2Proof.Machine.execKor g t kd a b s
  | .kxor g t kd a b => Sys2Proof.Machine.execKxor g t kd a b s
  | .kshl g t kd a b => Sys2Proof.Machine.execKshl g t kd a b s
  | .kshr g t kd a b => Sys2Proof.Machine.execKshr g t kd a b s
  | .ksar g t kd a b => Sys2Proof.Machine.execKsar g t kd a b s
  | .kmin g t kd a b => Sys2Proof.Machine.execKmin g t kd a b s
  | .kmax g t kd a b => Sys2Proof.Machine.execKmax g t kd a b s
  | .kcmp g c t qd a b => Sys2Proof.Machine.execKcmp g c t qd a b s
  | .ksel g t kd a b qs => Sys2Proof.Machine.execKsel g t kd a b qs s
  | .kld g t kd ka off => Sys2Proof.Machine.execKld g t kd ka off s
  | .kst g t ka off ks => Sys2Proof.Machine.execKst g t ka off ks s
  | .kreadlane g t kd a n => Sys2Proof.Machine.execKreadlane g t kd a n s
  | .kbcast g t d a => Sys2Proof.Machine.execKbcast g t d a s
  | .pair lane uni => Sys2Proof.Machine.execPair lane uni s
  | .fork g sc ka => Sys2Proof.Machine.execFork g sc ka s
  | .join g kd tag => Sys2Proof.Machine.execJoin g kd tag s
  | .abandon g => Sys2Proof.Machine.execAbandon g s
  | .viewInfo g kd => Sys2Proof.Machine.execViewInfo g kd s
  | .viewAddr g kd ka off => Sys2Proof.Machine.execViewAddr g kd ka off s
  | .range g kd => Sys2Proof.Machine.execRange g kd s
  | .launch g ka => Sys2Proof.Machine.execLaunch g ka s
  | .rqalloc g kd kq => Sys2Proof.Machine.execRqalloc g kd kq s
  | .rqallocTry g kd kq => Sys2Proof.Machine.execRqallocTry g kd kq s
  | .rqcommit g kq ka key => Sys2Proof.Machine.execRqcommit g kq ka key s
  | .rqclose g kq => Sys2Proof.Machine.execRqclose g kq s
  | .issueCycle core => Sys2Proof.Machine.execIssueCycle core s
  | .entryStarved core addr => Sys2Proof.Machine.execEntryStarved core addr s
  | .feederIssue core => Sys2Proof.Machine.execFeederIssue core s
  | .activeSetSwap core => Sys2Proof.Machine.execActiveSetSwap core s
  | .loadComplete blk gang op => Sys2Proof.Machine.execLoadComplete blk gang op s
  | .storePerformed blk gang op => Sys2Proof.Machine.execStorePerformed blk gang op s
  | .atomicPerformed req => Sys2Proof.Machine.execAtomicPerformed req s
  | .wsigSignal blk gang op => Sys2Proof.Machine.execWsigSignal blk gang op s
  | .mwaitWake blk gang => Sys2Proof.Machine.execMwaitWake blk gang s
  | .walkComplete die walk => Sys2Proof.Machine.execWalkComplete die walk s
  | .commandStart blk ch => Sys2Proof.Machine.execCommandStart blk ch s
  | .pieceDelivered blk cmd piece => Sys2Proof.Machine.execPieceDelivered blk cmd piece s
  | .commandComplete blk cmd => Sys2Proof.Machine.execCommandComplete blk cmd s
  | .commandDiscarded blk ch => Sys2Proof.Machine.execCommandDiscarded blk ch s
  | .barwaitResume blk p => Sys2Proof.Machine.execBarwaitResume blk p s
  | .gaugewaitResume blk p => Sys2Proof.Machine.execGaugewaitResume blk p s
  | .mbrecvResume blk gang => Sys2Proof.Machine.execMbrecvResume blk gang s
  | .mbsendAppend blk p => Sys2Proof.Machine.execMbsendAppend blk p s
  | .popqResume blk gang => Sys2Proof.Machine.execPopqResume blk gang s
  | .pushqAppend blk => Sys2Proof.Machine.execPushqAppend blk s
  | .eventDispatch blk p => Sys2Proof.Machine.execEventDispatch blk p s
  | .gateGrant core => Sys2Proof.Machine.execGateGrant core s
  | .growGrant core => Sys2Proof.Machine.execGrowGrant core s
  | .poolStandstillEvict core => Sys2Proof.Machine.execPoolStandstillEvict core s
  | .mdrainComplete blk gang op => Sys2Proof.Machine.execMdrainComplete blk gang op s
  | .blockEnd blk => Sys2Proof.Machine.execBlockEnd blk s
  | .prefixStep fork => Sys2Proof.Machine.execPrefixStep fork s
  | .slotGrant fork => Sys2Proof.Machine.execSlotGrant fork s
  | .forkRollback fork => Sys2Proof.Machine.execForkRollback fork s
  | .contributionArrival fork c => Sys2Proof.Machine.execContributionArrival fork c s
  | .sliceBroadcast fork b => Sys2Proof.Machine.execSliceBroadcast fork b s
  | .dispatch die => Sys2Proof.Machine.execDispatch die s
  | .weirInterval die => Sys2Proof.Machine.execWeirInterval die s
  | .recordQueueLaunch rq => Sys2Proof.Machine.execRecordQueueLaunch rq s
  | .recordQueueTimer rq => Sys2Proof.Machine.execRecordQueueTimer rq s
  | .rqallocResume blk gang => Sys2Proof.Machine.execRqallocResume blk gang s
  | .gridRetire grid => Sys2Proof.Machine.execGridRetire grid s
  | .asyncFaultTaken blk => Sys2Proof.Machine.execAsyncFaultTaken blk s
  | .dumpWrite ctx core => Sys2Proof.Machine.execDumpWrite ctx core s
  | .preemptStop blk => Sys2Proof.Machine.execPreemptStop blk s
  | .preemptSave blk => Sys2Proof.Machine.execPreemptSave blk s
  | .restore blk => Sys2Proof.Machine.execRestore blk s
  | .checksumArrival blk gang => Sys2Proof.Machine.execChecksumArrival blk gang s
  | .samplePeriod ctx => Sys2Proof.Machine.execSamplePeriod ctx s
  | .scrubPeriod stack bad => Sys2Proof.Machine.execScrubPeriod stack bad s
  | .uncorrectableError loc => Sys2Proof.Machine.execUncorrectableError loc s
  | .hostRead pa len => Sys2Proof.Machine.execHostRead pa len s
  | .hostWrite pa data => Sys2Proof.Machine.execHostWrite pa data s
  | .remoteAccess ctx serial peerCtx pa op => Sys2Proof.Machine.execRemoteAccess ctx serial peerCtx pa op s
  | .launchPacket q => Sys2Proof.Machine.execLaunchPacket q s
  | .forkchipOpen q => Sys2Proof.Machine.execForkchipOpen q s
  | .forkchipCancel q => Sys2Proof.Machine.execForkchipCancel q s
  | .levelPacket q => Sys2Proof.Machine.execLevelPacket q s
  | .levelChange ctx => Sys2Proof.Machine.execLevelChange ctx s
  | .fencePacket q => Sys2Proof.Machine.execFencePacket q s
  | .gwait q => Sys2Proof.Machine.execGwait q s
  | .gadd q => Sys2Proof.Machine.execGadd q s
  | .captureStart q => Sys2Proof.Machine.execCaptureStart q s
  | .captureStop q => Sys2Proof.Machine.execCaptureStop q s
  | .regionPacket q => Sys2Proof.Machine.execRegionPacket q s
  | .regionRoot q => Sys2Proof.Machine.execRegionRoot q s
  | .powerPacket q => Sys2Proof.Machine.execPowerPacket q s
  | .queueTailWrite fn q tail => Sys2Proof.Machine.execQueueTailWrite fn q tail s
  | .queueRestart fn q => Sys2Proof.Machine.execQueueRestart fn q s
  | .queueSkip fn q => Sys2Proof.Machine.execQueueSkip fn q s
  | .ctxCreate fn req => Sys2Proof.Machine.execCtxCreate fn req s
  | .ctxDestroy fn req => Sys2Proof.Machine.execCtxDestroy fn req s
  | .ctxReset fn req => Sys2Proof.Machine.execCtxReset fn req s
  | .mapPages fn req => Sys2Proof.Machine.execMapPages fn req s
  | .unmapPages fn req => Sys2Proof.Machine.execUnmapPages fn req s
  | .queueBind fn req => Sys2Proof.Machine.execQueueBind fn req s
  | .preempt fn req => Sys2Proof.Machine.execPreempt fn req s
  | .resume fn req => Sys2Proof.Machine.execResume fn req s
  | .importImages fn req => Sys2Proof.Machine.execImportImages fn req s
  | .query fn req => Sys2Proof.Machine.execQuery fn req s
  | .debugMode fn req => Sys2Proof.Machine.execDebugMode fn req s
  | .peerEntry fn req => Sys2Proof.Machine.execPeerEntry fn req s
  | .setReservoir fn req => Sys2Proof.Machine.execSetReservoir fn req s
  | .setScrubPeriod fn req => Sys2Proof.Machine.execSetScrubPeriod fn req s
  | .setRiseLimit fn req => Sys2Proof.Machine.execSetRiseLimit fn req s
  | .setFallLimit fn req => Sys2Proof.Machine.execSetFallLimit fn req s
  | .setAgingThreshold fn req => Sys2Proof.Machine.execSetAgingThreshold fn req s
  | .setPowerState fn req => Sys2Proof.Machine.execSetPowerState fn req s
  | .setErrorLogRing fn req => Sys2Proof.Machine.execSetErrorLogRing fn req s
  | .setErrorLogEntries fn req => Sys2Proof.Machine.execSetErrorLogEntries fn req s
  | .fwStage fn req img => Sys2Proof.Machine.execFwStage fn req img s
  | .getVersion fn msg => Sys2Proof.Machine.execGetVersion fn msg s
  | .getCapabilities fn msg => Sys2Proof.Machine.execGetCapabilities fn msg s
  | .negotiateAlgorithms fn msg => Sys2Proof.Machine.execNegotiateAlgorithms fn msg s
  | .getDigests fn msg => Sys2Proof.Machine.execGetDigests fn msg s
  | .getCertificate fn msg => Sys2Proof.Machine.execGetCertificate fn msg s
  | .challenge fn msg => Sys2Proof.Machine.execChallenge fn msg s
  | .getMeasurements fn index => Sys2Proof.Machine.execGetMeasurements fn index s
  | .keyExchange fn msg => Sys2Proof.Machine.execKeyExchange fn msg s
  | .finish fn macOk msg => Sys2Proof.Machine.execFinish fn macOk msg s
  | .keyUpdate fn msg => Sys2Proof.Machine.execKeyUpdate fn msg s
  | .heartbeat fn msg => Sys2Proof.Machine.execHeartbeat fn msg s
  | .endSession fn msg => Sys2Proof.Machine.execEndSession fn msg s
  | .keyLoad fn ctx key => Sys2Proof.Machine.execKeyLoad fn ctx key s
  | .keyGrant fn keyId ctx => Sys2Proof.Machine.execKeyGrant fn keyId ctx s
  | .keyRemove fn keyId ctx => Sys2Proof.Machine.execKeyRemove fn keyId ctx s
  | .deviceReset reeve queueProc dispatcher => Sys2Proof.Machine.execDeviceReset reeve queueProc dispatcher s
  | .thermalTrip die => Sys2Proof.Machine.execThermalTrip die s
  | .powerStateChange die => Sys2Proof.Machine.execPowerStateChange die s
  | .vfLeavesRun vf => Sys2Proof.Machine.execVfLeavesRun vf s
  | .linkTagFail port => Sys2Proof.Machine.execLinkTagFail port s
  | .linkPortDown port => Sys2Proof.Machine.execLinkPortDown port s
  | .linkRekey dir => Sys2Proof.Machine.execLinkRekey dir s
  | .correctedError unit addr => Sys2Proof.Machine.execCorrectedError unit addr s
  | .linkPortReturn port => Sys2Proof.Machine.execLinkPortReturn port s
  | .linkCheckReplay port => Sys2Proof.Machine.execLinkCheckReplay port s
  | .powerRemoval => Sys2Proof.Machine.execPowerRemoval s
  | .instructionFetchComplete core addr => Sys2Proof.Machine.execInstructionFetchComplete core addr s
  | .vfEntersRun vf => Sys2Proof.Machine.execVfEntersRun vf s

end Sys2Proof.Machine
end

