-- ==== Sys2Proof/Machine/Cycle.lean ====
section
/-! DEFINITION. Machine/Cycle.lean: what the next step of the machine is. An issue that has been chosen is carried out;
else the agenda of the outside world says what comes next; else the first event of a fixed order that can come about
does (log 1, 2). The spec fixes no order between most of them. -/

namespace Sys2Proof.Machine

open Sys2Proof

/-! ### Events that can come about -/

/-- The meaning of one event, its arguments given. (Lean does not compile the making of a constructor of Instr with a number
above 244.) -/
abbrev Event := State → Out

/-- The completions of one gang's operations. -/
def opEvents (b : Block) (gi : Nat) (g : Gang) : List Event :=
  (g.ops.filter (fun o => !o.done)).map (fun o => match o.body with
    | .load .. => execLoadComplete b.id gi o.id
    | .store .. => execStorePerformed b.id gi o.id
    | .wsig _ _ false => execStorePerformed b.id gi o.id
    | .wsig _ _ true => execWsigSignal b.id gi o.id
    | .drain .. => execMdrainComplete b.id gi o.id
    | .gaugeAdd .. => execAtomicPerformed o.id
    | .atomic .. => execAtomicPerformed 0)

/-- Addresses at which threads of a block wait for their fetch. -/
def fetchEvents (b : Block) : List Event :=
  let gs := b.gangs.flatMap (fun (p : Nat × Gang) => (lanesOf p.2.fetchWait).map (fun l => sget 0 p.2.pc l))
  let fs := match b.feeder with
    | some f => if f.fetchWait then [f.pc] else []
    | none => []
  (gs ++ fs).eraseDups.map (fun a => execInstructionFetchComplete b.core a)

/-- What the streamer does next for a block. -/
def streamEvents (b : Block) : List Event :=
  let piece := fun (c : Cmd) => (List.range (c.pieceRange b)).find? (fun p => !c.delivered.contains p && (c.piece b p).isSome)
  b.started.map (fun c => match piece c with
      | some p => execPieceDelivered b.id c.id p
      | none => execCommandComplete b.id c.id)
    ++ (List.range 4).flatMap (fun ch => [execCommandDiscarded b.id ch, execCommandStart b.id ch])

/-- What lets a waiting party go on. -/
def waitEvents (b : Block) : List Event :=
  let one := fun (p : Party) (w : Wait) => match p, w with
    | .gang gi, .mwait _ => [execMwaitWake b.id gi]
    | .gang gi, .mbrecv _ _ => [execMbrecvResume b.id gi]
    | .gang gi, .popq _ _ => [execPopqResume b.id gi]
    | .gang gi, .checksum => [execChecksumArrival b.id gi]
    | .gang gi, .rqalloc _ _ => [execRqallocResume b.id gi]
    | .feeder, .pushq _ _ _ => [execPushqAppend b.id]
    | p, .barwait _ _ => [execBarwaitResume b.id p]
    | p, .gaugewait _ _ => [execGaugewaitResume b.id p]
    | p, .mbsend _ _ _ => [execMbsendAppend b.id p]
    | p, .waitany _ => [execEventDispatch b.id p]
    | _, _ => []
  b.gangs.flatMap (fun (p : Nat × Gang) => one (.gang p.1) p.2.wait)
    ++ (match b.feeder with | some f => one .feeder f.wait | none => [])

/-- Events of one block that is not only queued. -/
def blockEvents (b : Block) : List Event :=
  b.gangs.flatMap (fun (p : Nat × Gang) => opEvents b p.1 p.2) ++ fetchEvents b ++ streamEvents b ++ waitEvents b
    ++ [execAsyncFaultTaken b.id, execPreemptStop b.id, execPreemptSave b.id, execDumpWrite b.ctx b.core, execBlockEnd b.id]

/-- Cores on which blocks stand. -/
def busyCores (s : State) : List Nat := ((s.blocks.filter Block.onCore).map (fun b => b.core)).eraseDups

/-- Events of a work queue: at most one of them concerns the packet at its head. -/
def queueEvents (q : Nat) : List Event :=
  [execLaunchPacket q, execForkchipOpen q, execForkchipCancel q, execLevelPacket q, execFencePacket q, execGwait q, execGadd q, execCaptureStart q,
   execCaptureStop q, execRegionPacket q, execRegionRoot q, execPowerPacket q]

/-- Starved entries of a core's PC table. -/
def starveEvents (s : State) (core : Nat) : List Event :=
  ((getCore s core).pct.filter (fun e => decide (64 ≤ e.wait) && !e.starved)).map (fun e => execEntryStarved core e.addr)

/-- All events but the issue of instructions and those that only time brings, in the default order. -/
def dueEvents (s : State) : List Event :=
  (s.blocks.filter (fun b => b.stat != .queued && b.stat != .waitHost)).flatMap blockEvents
    ++ s.atoms.map (fun r => execAtomicPerformed r.id)
    ++ s.dies.flatMap (fun (p : Nat × Die) => p.2.walks.map (fun w => execWalkComplete p.1 w.id))
    ++ (busyCores s).flatMap (fun c => [execGateGrant c, execGrowGrant c, execPoolStandstillEvict c])
    ++ s.forks.flatMap (fun f => [execPrefixStep f.id, execSlotGrant f.id, execForkRollback f.id])
    ++ s.grids.map (fun g => execGridRetire g.id) ++ s.rqs.map (fun q => execRecordQueueLaunch q.id)
    ++ s.ctxs.map (fun c => execLevelChange c.id)
    ++ (s.queues.filter (fun (p : Nat × Queue) => p.2.bound && !p.2.stopped && p.2.unread != 0)).flatMap (fun p => queueEvents p.1)
    ++ s.ports.map (fun (p : Nat × Port) => execLinkPortDown p.1) ++ (List.range 8).map (fun d => execDispatch d)
    ++ (busyCores s).flatMap (fun c => execActiveSetSwap c :: starveEvents s c)

/-- The state that an event gives, if it changes anything. -/
def effect (s : State) (e : Event) : Option State :=
  match e s with
  | .next t => if t = s then none else some t
  | _ => none

/-- The nth event that time brings: the boundary of an interval on one die after another, a change of power with it, the
timers of record queues, the samples of captures. -/
def timeEvent (s : State) (n : Nat) : Event :=
  let es := s.rqs.map (fun q => execRecordQueueTimer q.id)
    ++ (s.ctxs.filter (fun c => c.capture.isSome)).map (fun c => execSamplePeriod c.id)
  let k := es.length + 2
  match n % k with
  | 0 => execWeirInterval (n / k % 8)
  | 1 => execPowerStateChange (n / k % 8)
  | i + 2 => es.getD i (fun s => .next s)

/-- Issue on one core after another: its feeders and its gangs in turn. -/
def issueEvents (s : State) : List Event :=
  let cs := busyCores s
  match cs[s.tick / 2 % (max 1 cs.length)]? with
  | none => []
  | some c => if s.tick % 2 = 0 then [execFeederIssue c, execIssueCycle c] else [execIssueCycle c]

/-- A step in which the machine goes by its default order. -/
def autoStep (s : State) : State :=
  match (dueEvents s).findSome? (effect s) with
  | some t => t
  | none =>
    if (busyCores s).isEmpty then (effect s (timeEvent s s.tick)).getD s
    else if s.tick % 1024 = 0 then (effect s (timeEvent s (s.tick / 1024))).getD s
    else ((issueEvents s).findSome? (effect s)).getD s

/-! ### Issues and inputs -/

/-- The part of an issue that still stands: threads that have not left its address since it was chosen. -/
def stillThere (s : State) (x : Issuer) : Option Issuer :=
  match x with
  | .group core addr frags =>
    let fs := frags.filterMap (fun f => match getBlk s f.blk, getGang s f.blk f.gang with
      | some b, some g =>
        let m := if b.runs && !g.exited && !ctxHalted s b.ctx then maskOf (fun l => f.mask.getLsbD l && g.live.getLsbD l && !g.parked.getLsbD l && sget 0 g.pc l == addr) else 0
        if m = 0 then none else some { f with mask := m }
      | _, _ => none)
    if fs.isEmpty then none else some (.group core addr fs)
  | .feeder blk addr => match getBlk s blk with
    | some b => if b.runs && !ctxHalted s b.ctx && (b.feeder.map (fun f => !f.exited && f.pc == addr)).getD false then some (.feeder blk addr) else none
    | none => none

/-- Adds to an instruction's outcome what its issue leaves at its core (R289, R370). -/
def afterIssue (x : Issuer) (o : Out) : Out :=
  match o with
  | .next s => .next (settleIssue s x)
  | .fault f => .fault f
  | .refused r => .refused r

/-- Carries out one chosen issue: the fetch, then the instruction or the fault (R44). -/
def runIssue (s : State) (x : Issuer) : Out :=
  match stillThere s x with
  | none => .next s
  | some y => match fetchFor s y with
    | none => .next s
    | some (.bad f) => .next (fetchFault s y 1 0 0 f)
    | some (.illegal c len bytes) => .next (fetchFault s y 0 len bytes { cls := 1, cause := c })
    | some (.instr i len bytes) => afterIssue y (exec i (startIssue s y len bytes))

/-- Whether an event comes over the PCIe link: a host access, a tail or doorbell write, a message to a DOE mailbox (R377, R378). -/
def overLink (i : Instr) : Bool :=
  match i with
  | .hostRead .. | .hostWrite .. | .queueTailWrite .. | .queueRestart .. | .queueSkip .. => true
  | .ctxCreate .. | .ctxDestroy .. | .ctxReset .. | .mapPages .. | .unmapPages .. | .queueBind .. | .preempt .. | .resume .. => true
  | .importImages .. | .query .. | .debugMode .. | .peerEntry .. | .fwStage .. => true
  | .setReservoir .. | .setScrubPeriod .. | .setRiseLimit .. | .setFallLimit .. => true
  | .setAgingThreshold .. | .setPowerState .. | .setErrorLogRing .. | .setErrorLogEntries .. => true
  | .getVersion .. | .getCapabilities .. | .negotiateAlgorithms .. | .getDigests .. | .getCertificate .. | .challenge .. => true
  | .getMeasurements .. | .keyExchange .. | .finish .. | .keyUpdate .. | .heartbeat .. | .endSession .. => true
  | .keyLoad .. | .keyGrant .. | .keyRemove .. => true
  | _ => false

/-- Whether the device takes an event now: without power none but a reset; after a trip a reset, and another die's trip is still
recorded; in recovery a reset, FW_STAGE or a trip (R393, R397, R399). What comes over a link that is down does not come (R377). -/
def takesEvent (s : State) (i : Instr) : Bool :=
  (!overLink i || linkUp s.dev) && (match i with
    | .deviceReset .. => true
    | .thermalTrip _ => s.dev.power != 0
    | .fwStage .. => s.dev.power != 0 && !s.dev.tripped
    | _ => s.dev.power != 0 && !s.dev.tripped && !s.dev.recovery)

/-- One input of the outside world. -/
def runInput (s : State) (x : Input) : Out :=
  match x with
  | .op i => if takesEvent s i then exec i s else .next s
  | .hostMem addr data => .next { s with hostMem := ssetMany 0 s.hostMem (cells addr data) }
  | .peerMem peer addr data =>
    let s1 := { s with peerMem := ssetMany 0 s.peerMem (cells (peer * 2 ^ 40 + addr) data) }
    .next ((sectorsOf addr data.length).foldl (fun s x => notifyWrite s [] { ap := 2, peer := peer, addr := 32 * x }) s1)
  | .peerCert port serial => .next (meetPeer s port serial)
  | .peerPoison peer sector bad =>
    let x := peer * 2 ^ 35 + sector
    .next { s with peerBad := if bad then (if s.peerBad.contains x then s.peerBad else s.peerBad ++ [x]) else s.peerBad.filter (fun y => y != x) }
  | .peerExport peer ctx page shut =>
    let x := (ctx, peer * 2 ^ 24 + page)
    .next { s with peerShut := if shut then (if s.peerShut.contains x then s.peerShut else s.peerShut ++ [x]) else s.peerShut.filter (fun y => y != x) }
  | .images ctx serial peerCtx blocks => .next (takeImages s ctx serial peerCtx blocks)
  | .pcieLink flit lanes => .next (trainLink s flit lanes)
  | .auto => .next (if s.dev.power != 0 && s.dev.ready && !s.dev.tripped && !s.dev.recovery then autoStep s else s)

/-! ### The step -/

/-- What follows from every step: level slots follow their conditions (R305), halts end (R367), contexts go (R384), stops take effect (R386),
a core that evicted takes blocks again once its pool queue is empty (R180). -/
def afterStep (s : State) : State :=
  let s1 := followLevels s
  let s2 := s1.ctxs.foldl (fun s c =>
    if c.dying.isSome then finishDestroy s c.id else if c.halt = .halting then finishHalt s c.id else s) s1
  let s3 := s2.ctxs.foldl (fun s c => if c.stops.isEmpty then s else switchOut s c.id) s2
  let free := fun (b : Block) => { b with notAgain := b.notAgain.filter (fun c => !(getCore s3 c).growQ.isEmpty) }
  { s3 with blocks := s3.blocks.map (fun b => if b.notAgain.isEmpty then b else free b), active := none, tick := s3.tick + 1 }

/-- The images that bring-up finds when no reset was asked for. -/
def goodImage (s : State) : FwImage := { sigOk := true, version := s.dev.fused, key := s.dev.trust }

/-- What the machine does in its next step, before what follows from it. -/
def stepBody (s : State) : Out :=
  if s.dev.power = 0 then
    match s.agenda with
    | .op (.deviceReset a b c) :: rest => execDeviceReset a b c { s with agenda := rest }
    | _ => .fault .noPower
  else match s.cur, s.agenda with
    | x :: rest, _ => runIssue { s with cur := rest } x
    | [], e :: rest => runInput { s with agenda := rest } e
    | [], [] =>
      if s.dev.tripped || s.dev.recovery then .next s
      else if !s.dev.hbminit then execDeviceReset (goodImage s) (goodImage s) (goodImage s) s
      else if !s.dev.ready then .next s
      else .next (autoStep s)

/-- Adds to an outcome what follows from every step. -/
def thenAfter (o : Out) : Out :=
  match o with
  | .next s => .next (afterStep s)
  | .fault f => .fault f
  | .refused r => .refused r

/-! ### Placing an instruction -/

/-- Little-endian bytes of an instruction of `nbits` bits, zeros above, 16 in all. -/
def wordBytes (nbits w : Nat) : List Byte := bytesOf 16 (w % 2 ^ nbits)

/-- Whether an instruction is one that only a feeder issues (R139). -/
def feederInstr (i : Instr) : Bool :=
  match i with
  | .scopy .. | .sgather .. | .sscatter .. | .sfill .. | .pushq .. | .setgs .. => true
  | _ => false

/-- Names that the placed instruction's own context, block and key slot have. -/
def placeId : Nat := 2 ^ 20
def placeCtx : Nat := 1023
def placeKey : Nat := 4095
/-- Physical addresses of its four tables and of its page, virtual address of the page. -/
def placeTab (lv : Nat) : Nat := lv * 2 ^ 17
def placePa : Nat := 2 ^ 21
def placeVa : Nat := 65536

/-- Its page tables, one entry each, and its bytes under its key. -/
def placeMemory (s : State) (nbits w : Nat) : State :=
  let ptr := fun (s : State) (lv : Nat) =>
    let t := tableLevel lv
    devWrite s (placeTab lv + 8 * fld placeVa t.1 t.2.1) (le 8 (placeTab (lv + 1) + 8))
  let s1 := ptr (ptr (ptr s 0) 1) 2
  let t := tableLevel 3
  let s2 := devWrite s1 (placeTab 3 + 8 * fld placeVa t.1 t.2.1) (le 8 (placeKey * 2 ^ 44 + placePa + 2 ^ 7 + 2 ^ 6 + 2 ^ 5 + 2 ^ 4))
  let s3 := { s2 with keys := sput s2.keys placeKey { present := true, key := 0, grants := [placeCtx] } }
  hbmWrite { s3 with mem := s3.mem.filter (fun c => decide (c.1 < placePa) || decide (placePa + 32 ≤ c.1)),
                     bad := s3.bad.filter (fun x => x != placePa / 32),
                     sectorKey := sset 0 s3.sectorKey (placePa / 32) (keyMat s3 placeKey),
                     l2 := sset none s3.l2 (placePa / 128) none }
    (keyMat s3 placeKey) placePa (wordBytes nbits w)

/-- A block with one gang of one thread, and a feeder, at the page. -/
def placeBlock : Block :=
  let va := BitVec.ofNat 64 placeVa
  let kd : KDesc := { entry := va, feeder := va, rmax := 32, rmin := 32, scratch := 1024, nbar := 1, nmbox := 1 }
  let b : Block := { id := placeId, ctx := placeCtx, grid := placeId, idx := 0, kd := kd, stat := .resident }
  let b1 := { b.atStart with stat := .resident }
  { b1 with gangs := b1.gangs.map (fun (p : Nat × Gang) => (p.1, { p.2 with active := true })) }

/-- Places an instruction for the very next step: a context, a resident block, page tables and code, with the issue of its
first gang, or of its feeder where only a feeder issues the instruction, chosen already. -/
def placeWord (s : State) (nbits w : Nat) : State :=
  let s1 := placeMemory s nbits w
  let va := BitVec.ofNat 64 placeVa
  let feeds := match decodeTableWord nbits w with
    | some i => feederInstr i
    | none => false
  let who : Issuer := if feeds then .feeder placeId va else .group 0 va [{ blk := placeId, gang := 0, mask := 1 }]
  let ctx : Ctx := { id := placeCtx, root := placeTab 0, pools := [(0, 0, 2 ^ 21)], carved := [(0, 2 ^ 20)] }
  { s1 with
    dev := { s1.dev with ready := true, hbminit := true, power := 4, target := none, tripped := false, recovery := false },
    ctxs := ctx :: (s1.ctxs.filter (fun c => c.id != placeCtx)).map (fun c => { c with pools := c.pools.filter (fun p => decide (placePa + 65536 ≤ p.2.1)) }),
    blocks := placeBlock :: s1.blocks.filter (fun b => b.id != placeId),
    nextId := max s1.nextId (placeId + 1), cur := [who] }

end Sys2Proof.Machine
end

