-- ==== Sys2Proof/Machine/Step.lean ====
section
/-! DEFINITION. Machine/Step.lean: the step of the machine, and placing an instruction where the next step fetches. -/

namespace Sys2Proof.Machine

open Sys2Proof

/-- One step: an issue that stands, an input of the agenda, or the next event of the default order. -/
def step (s : State) : Host.Outcome State Fault Refusal := thenAfter (stepBody s)

/-- The state with one instruction placed for the very next step (log 2). -/
def State.withFetchWord (s : State) (nbits w : Nat) : State := placeWord s nbits w

end Sys2Proof.Machine
end

