-- ==== Sys2Proof/Safety.lean ====
section
/-! DEFINITION. Safety.lean: what counts as a safe state and a safe run, and the words in which the statements of
Certificates/Slice0/Obligations.lean speak of one instruction: whose turn it is, when it is ready, what is done after it. -/

namespace Sys2Proof.Machine

open Sys2Proof

/-! ### Safe states and runs -/

/-- The memory's canonical form: addresses strictly rising, no listed byte equal to what an unlisted one reads as. -/
abbrev Memory.wf (m : List Host.Cell) : Prop := swf (0 : Byte) m = true

/-- The invariant that every step keeps: every sparse store of memory stands in its canonical form. -/
structure State.Inv (s : State) : Prop where
  mem : Memory.wf s.mem
  hostMem : swf (0 : Byte) s.hostMem = true
  peerMem : swf (0 : Byte) s.peerMem = true
  sectorKey : swf 0 s.sectorKey = true
  l2 : swf none s.l2 = true

/-- A run is safe when every step of it answers a next state with the invariant. -/
def SafeFor : Nat → State → Prop
  | 0, s => s.Inv
  | n + 1, s => s.Inv ∧ ∃ t, step s = .next t ∧ SafeFor n t

/-! ### Whose turn it is -/

/-- The one gang whose threads are the whole issue group that is being carried out. -/
structure Turn where
  blk : Nat
  gang : Nat
  mask : Mask
  addr : W64
  len : Nat
  insn : W128
  b : Block
  g : Gang

def turnOf (s : State) : Option Turn :=
  match s.active with
  | some ⟨.group _ a [f], len, insn⟩ => match getBlk s f.blk with
    | some b => (sfind b.gangs f.gang).map (fun g =>
        { blk := f.blk, gang := f.gang, mask := f.mask, addr := a, len := len, insn := insn, b := b, g := g })
    | none => none
  | _ => none

/-- The feeder whose instruction is being carried out. -/
structure FTurn where
  blk : Nat
  addr : W64
  len : Nat
  insn : W128
  b : Block
  f : Feeder

def fturnOf (s : State) : Option FTurn :=
  match s.active with
  | some ⟨.feeder blk a, len, insn⟩ => match getBlk s blk with
    | some b => b.feeder.map (fun f => { blk := blk, addr := a, len := len, insn := insn, b := b, f := f })
    | none => none
  | _ => none

/-- The address after the instruction. -/
def Turn.next (x : Turn) : W64 := x.addr + BitVec.ofNat 64 x.len
def FTurn.next (x : FTurn) : W64 := x.addr + BitVec.ofNat 64 x.len
def Turn.iss (x : Turn) : Iss := { blk := x.blk, party := .gang x.gang, addr := x.addr, len := x.len, insn := x.insn }
def FTurn.iss (x : FTurn) : Iss := { blk := x.blk, party := .feeder, addr := x.addr, len := x.len, insn := x.insn }
def Turn.frag (x : Turn) : Frag := { blk := x.blk, gang := x.gang, mask := x.mask }

/-- The gang with the marks of the first accesses that an instruction makes taken off, and its latches' valid bits where
such an access, or the instruction itself in the lanes `more`, is a swap point (R46). -/
def unmarked (g : Gang) (names : List Nat) (m more : Mask) : Gang :=
  clearLatches (clearFirst g names (firstLanes g names m)) (firstLanes g names m ||| more)

/-! ### Lane instructions -/

/-- The guard-true threads of a turn. -/
def Turn.on (x : Turn) (gd : Guard) : Mask := guardMask x.g gd x.mask

/-- The turn's gang when a lane instruction reads its sources. -/
def Turn.ready (x : Turn) (d : LaneDesc) : Gang := unmarked x.g d.names x.mask 0

/-- Nothing holds the instruction up and none of its checks fails (R44 items 6 to 10, R46, R47, R75, R178, R210, R280). -/
def laneReady (x : Turn) (d : LaneDesc) : Bool :=
  x.mask != 0 && stalledLanes x.g d.names d.latches x.mask == 0 && (!d.wide || x.mask == x.g.live)
    && !overAlloc x.g d.names && lostLanes (x.ready d) d.latches (x.on d.guard) == 0
    && poisonLanes (x.ready d) (d.srcs.flatMap (fun p => srcBad p.2 p.1)) (x.on d.guard) == 0
    && (d.bad (x.ready d) (x.on d.guard)).isNone
    && !d.hold x.g && !(d.wide && spPending x.g) && (d.priv x.g x.mask).isNone

/-- Lane l of a gang has received `v` (R33, R45): its destination register and L0, or its predicate; p7 takes nothing. -/
def received (g : Gang) (l : Nat) (d : LDst) (v : Nat) : Prop :=
  match d with
  | .lane d n =>
    (match d with | .none => True | d => dstOld g l n d = v % 2 ^ (32 * n))
      ∧ sget 0 g.lat (reg 0 l) = BitVec.ofNat 64 v ∧ (sget 0 g.latValid 0).getLsbD l = true
  | .pred p => p = 7 ∨ predBit g p.toNat l = (v != 0)
  | .none => True

/-- The instruction runs: in every guard-true lane its destination receives `val`, and its threads stand at the next
address. -/
def LaneGives (i : Instr) (d : LaneDesc) (val : Turn → Nat → Nat) : Prop :=
  i.wf = true → ∀ (s : State) (x : Turn), turnOf s = some x → laneReady x d = true →
    ∃ t g, exec i s = .next t ∧ getGang t x.blk x.gang = some g
      ∧ (∀ l, l < 64 → (x.on d.guard).getLsbD l = true → received g l d.dst (val x l))
      ∧ (∀ l, l < 64 → x.mask.getLsbD l = true → sget 0 g.pc l = x.next)

/-! ### Gang-issued instructions -/

/-- The turn's gang when the instruction reads its sources (R46). -/
def Turn.gangAt (x : Turn) (d : GangDesc) : Gang := unmarked x.g d.names x.g.live (if d.swap then x.g.live else 0)

/-- The gang has converged, the guard is true, nothing holds it up and no check of its entry fails (R293, R44, R46, R47,
R75, R178, R274, R280). -/
def gangReady (s : State) (x : Turn) (d : GangDesc) : Bool :=
  x.mask != 0 && x.mask == x.g.live && stalledLanes x.g d.names [] x.g.live == 0 && !d.feederOnly
    && !overAlloc x.g d.laneNames && guardUni x.g.q d.guard
    && poisonLanes (x.gangAt d) d.badNames x.g.live == 0
    && !(d.mem && acqPending (x.gangAt d) != 0) && !(d.rel && pendingFor (x.gangAt d) (x.gangAt d).live)
    && !(d.wide && spPending x.g) && (d.early s x.iss).isNone

/-- The state in which the instruction takes effect: the gang reads as `gangAt` and does not wait. -/
def gangSees (s : State) (x : Turn) (d : GangDesc) : State :=
  modGang s x.blk x.gang (fun _ => { x.gangAt d with wait := .none, waitLen := 0 })

/-- What every issued instruction leaves of itself in its gang (R292, R373). -/
def noted (s : State) (x : Turn) (t : State) : State := marked s x.frag x.addr x.mask 0 (some t)

/-- The live threads of the gang stand at the next address. -/
def stepped (x : Turn) (t : State) : State := modGang t x.blk x.gang (fun g => advance g g.live x.addr x.len)

/-- The gang's instruction takes effect as `e` says, on the state, the block and the gang that it sees, and the gang goes on. -/
def GangGives (i : Instr) (d : GangDesc) (cond : State → Turn → Block → Gang → Prop) (e : State → Turn → Block → Gang → State) : Prop :=
  ∀ (s : State) (x : Turn) (b : Block) (y : Gang), turnOf s = some x → gangReady s x d = true →
    getBlk (gangSees s x d) x.blk = some b → sfind b.gangs x.gang = some y → cond (gangSees s x d) x b y →
    exec i s = .next (noted s x (stepped x (e (gangSees s x d) x b y)))

/-- The same for an instruction that places its gang itself. -/
def GangPlaces (i : Instr) (d : GangDesc) (cond : State → Turn → Block → Gang → Prop) (e : State → Turn → Block → Gang → State) : Prop :=
  ∀ (s : State) (x : Turn) (b : Block) (y : Gang), turnOf s = some x → gangReady s x d = true →
    getBlk (gangSees s x d) x.blk = some b → sfind b.gangs x.gang = some y → cond (gangSees s x d) x b y →
    exec i s = .next (noted s x (e (gangSees s x d) x b y))

/-- The same for an instruction at which its gang waits. -/
def GangWaits (i : Instr) (d : GangDesc) (cond : State → Turn → Block → Gang → Prop) (e : State → Turn → Block → Gang → State)
    (w : State → Turn → Block → Gang → Wait) : Prop :=
  ∀ (s : State) (x : Turn) (b : Block) (y : Gang), turnOf s = some x → gangReady s x d = true →
    getBlk (gangSees s x d) x.blk = some b → sfind b.gangs x.gang = some y → cond (gangSees s x d) x b y →
    exec i s = .next (noted s x (setWait (e (gangSees s x d) x b y) x.blk (.gang x.gang) (w (gangSees s x d) x b y) x.len))

/-- A precise fault of the instruction: no effect, and the fault is taken (R354, R355). -/
def GangFaults (i : Instr) (d : GangDesc) (cond : State → Turn → Block → Gang → Prop) (f : State → Turn → Block → Gang → Flt) : Prop :=
  ∀ (s : State) (x : Turn) (b : Block) (y : Gang), turnOf s = some x → gangReady s x d = true →
    getBlk (gangSees s x d) x.blk = some b → sfind b.gangs x.gang = some y → cond (gangSees s x d) x b y →
    let e := f (gangSees s x d) x b y
    exec i s = .next (noted s x (raiseGang s x.blk x.gang 0 x.addr x.len x.insn (if e.lanes = 0 then x.g.live else e.lanes) e))

/-- Uniform register i as the gang of a turn holds it. -/
def Turn.k (x : Turn) (i : BitVec 6) : W64 := sget 0 x.g.k i.toNat
/-- A uniform source of a turn's gang. -/
def Turn.uni (x : Turn) (a : Src) : W64 := readUni x.g.k a

/-! ### Feeder instructions -/

/-- The guard of a feeder's instruction is true, no source of it is poisoned, and it raises nothing whatever its guard (R44, R75, R137). -/
def feederCan (s : State) (x : FTurn) (d : GangDesc) : Bool :=
  d.feederOk && (d.early s x.iss).isNone && guardUni x.f.q d.guard && !d.badNames.any (fun n => x.f.badRegs.contains (badKey n 0))

def feederSees (s : State) (x : FTurn) : State := setWait s x.blk .feeder .none 0
def fstepped (x : FTurn) (t : State) : State := modFeeder t x.blk (fun f => { f with pc := x.next })

def FeederGives (i : Instr) (d : GangDesc) (cond : State → FTurn → Block → Prop) (e : State → FTurn → Block → State) : Prop :=
  ∀ (s : State) (x : FTurn) (b : Block), fturnOf s = some x → feederCan s x d = true → getBlk (feederSees s x) x.blk = some b →
    cond (feederSees s x) x b → exec i s = .next (fstepped x (e (feederSees s x) x b))
def FeederPlaces (i : Instr) (d : GangDesc) (cond : State → FTurn → Block → Prop) (e : State → FTurn → Block → State) : Prop :=
  ∀ (s : State) (x : FTurn) (b : Block), fturnOf s = some x → feederCan s x d = true → getBlk (feederSees s x) x.blk = some b →
    cond (feederSees s x) x b → exec i s = .next (e (feederSees s x) x b)
def FeederWaits (i : Instr) (d : GangDesc) (cond : State → FTurn → Block → Prop) (e : State → FTurn → Block → State)
    (w : State → FTurn → Block → Wait) : Prop :=
  ∀ (s : State) (x : FTurn) (b : Block), fturnOf s = some x → feederCan s x d = true → getBlk (feederSees s x) x.blk = some b →
    cond (feederSees s x) x b →
    exec i s = .next (setWait (e (feederSees s x) x b) x.blk .feeder (w (feederSees s x) x b) x.len)
def FeederFaults (i : Instr) (d : GangDesc) (cond : State → FTurn → Block → Prop) (f : State → FTurn → Block → Flt) : Prop :=
  ∀ (s : State) (x : FTurn) (b : Block), fturnOf s = some x → feederCan s x d = true → getBlk (feederSees s x) x.blk = some b →
    cond (feederSees s x) x b → exec i s = .next (raiseFeeder s x.blk 0 x.addr x.insn (f (feederSees s x) x b))

def FTurn.k (x : FTurn) (i : BitVec 6) : W64 := sget 0 x.f.k i.toNat
def FTurn.uni (x : FTurn) (a : Src) : W64 := readUni x.f.k a

/-! ### Per-thread instructions with effects outside their gang -/

/-- The turn's gang when the instruction reads its sources, the pushes of guard-false lanes done (R45, R46). -/
def Turn.memAt (x : Turn) (d : MemDesc) : Gang :=
  unmarked x.g d.names x.mask (if d.swap then x.on d.guard else 0)
def Turn.memSees (x : Turn) (d : MemDesc) : Gang := pushFalses (x.memAt d) (x.mask &&& ~~~(x.on d.guard)) d.dst

/-- Some guard is true, nothing holds the instruction up and no check of its entry fails (R44, R46, R47, R75, R178, R192,
R210, R274, R280). -/
def memReady (s : State) (x : Turn) (d : MemDesc) : Bool :=
  x.on d.guard != 0 && (stalledLanes x.g d.names d.latches x.mask ||| (if d.mem then acqPending x.g &&& x.mask else 0)) == 0
    && (!d.wide || x.mask == x.g.live) && !d.full x.g
    && !overAlloc x.g d.names && lostLanes (x.memAt d) d.latches (x.on d.guard) == 0
    && poisonLanes (x.memAt d) (d.srcs.flatMap (fun p => srcBad p.2 p.1)) (x.on d.guard) == 0
    && !(d.waits && pendingFor x.g (x.on d.guard))
    && !(d.wide && spPending x.g) && (d.early s x.iss x.mask).isNone

def memState (s : State) (x : Turn) (d : MemDesc) : State := modGang s x.blk x.gang (fun _ => x.memSees d)

/-- The threads of the turn stand at the next address. -/
def went (x : Turn) (m : Mask) (t : State) : State := modGang t x.blk x.gang (fun g => advance g m x.addr x.len)

/-- The instruction takes effect as `e` says and all of its threads go on. -/
def MemGives (i : Instr) (d : MemDesc) (cond : State → Turn → Prop) (e : State → Turn → State) : Prop :=
  ∀ (s : State) (x : Turn), turnOf s = some x → memReady s x d = true → cond (memState s x d) x →
    exec i s = .next (noted s x (went x x.mask (e (memState s x d) x)))

/-- What an access of the scratchpad does after its gang's part: `step l` for each of its lanes in ascending order, and the replays
of the accesses `banks` (context, core, address) are counted (R184, R189, R196). -/
def shared (x : Turn) (gd : Guard) (step : Nat → State → State) (banks : List (Nat × Nat × Nat)) (t : State) : State :=
  countReplays ((lanesOf (x.on gd)).foldl (fun s l => step l s) t) banks

/-- The instruction takes effect as `e` says, all of its threads go on, and then its lanes take their steps. -/
def MemShares (i : Instr) (d : MemDesc) (cond : State → Turn → Prop) (e : State → Turn → State)
    (step : State → Turn → Nat → State → State) (banks : State → Turn → List (Nat × Nat × Nat)) : Prop :=
  ∀ (s : State) (x : Turn), turnOf s = some x → memReady s x d = true → cond (memState s x d) x →
    exec i s = .next (shared x d.guard (step (memState s x d) x) (banks (memState s x d) x)
      (noted s x (went x x.mask (e (memState s x d) x))))

/-- The instruction places its guard-true threads itself. -/
def MemPlaces (i : Instr) (d : MemDesc) (cond : State → Turn → Prop) (e : State → Turn → State) : Prop :=
  ∀ (s : State) (x : Turn), turnOf s = some x → memReady s x d = true → cond (memState s x d) x →
    exec i s = .next (noted s x (went x (x.mask &&& ~~~(x.on d.guard)) (e (memState s x d) x)))

/-- A precise fault: no effect, and the fault is taken. -/
def MemFaults (i : Instr) (d : MemDesc) (cond : State → Turn → Prop) (f : State → Turn → Flt) : Prop :=
  ∀ (s : State) (x : Turn), turnOf s = some x → memReady s x d = true → cond (memState s x d) x →
    let e := f (memState s x d) x
    exec i s = .next (noted s x (raiseGang s x.blk x.gang 0 x.addr x.len x.insn (if e.lanes = 0 then x.mask else e.lanes) e))

/-- A range or clique fault of a scratchpad access, found before the access is made in the threads and places of `lanes` (R44
item 7, R183, R185). -/
def MemRanges (i : Instr) (d : MemDesc) (access n : Nat) (lanes : State → Turn → List (Nat × Option Block × Nat)) : Prop :=
  ∀ (s : State) (x : Turn) (f : Flt), turnOf s = some x → memReady s x { d with early := fun _ _ _ => none } = true →
    spRange access n (lanes s x) = some f →
    exec i s = .next (noted s x (raiseGang s x.blk x.gang 0 x.addr x.len x.insn f.lanes f))

/-! ### What the lane statements are written in -/

/-- What lane l of a turn reads from a source (R34 to R36). -/
def Turn.rd (x : Turn) (l : Nat) (r : ReadAs) (a : Src) : Nat := readSrc x.g l r a

/-- The shape of a lane instruction: its guard, destination, and sources with their words. -/
def shape (g : Guard) (dst : LDst) (srcs : List (Src × Nat)) (wide : Bool := false) : LaneDesc :=
  { guard := g, srcs := srcs, dst := dst, wide := wide, eval := fun _ _ _ _ _ => {} }

/-- Instructions of one, two and three sources whose result is a function of what they read. -/
def Gives1 (i : Instr) (g : Guard) (dst : LDst) (ra : ReadAs) (a : Src) (f : Nat → Nat) : Prop :=
  LaneGives i (shape g dst [(a, wordsOf ra.bits)]) (fun x l => f (x.rd l ra a))
def Gives2 (i : Instr) (g : Guard) (dst : LDst) (ra rb : ReadAs) (a b : Src) (f : Nat → Nat → Nat) : Prop :=
  LaneGives i (shape g dst [(a, wordsOf ra.bits), (b, wordsOf rb.bits)]) (fun x l => f (x.rd l ra a) (x.rd l rb b))
def Gives3 (i : Instr) (g : Guard) (dst : LDst) (ra rb rc : ReadAs) (a b c : Src) (f : Nat → Nat → Nat → Nat) : Prop :=
  LaneGives i (shape g dst [(a, wordsOf ra.bits), (b, wordsOf rb.bits), (c, wordsOf rc.bits)])
    (fun x l => f (x.rd l ra a) (x.rd l rb b) (x.rd l rc c))

/-- An operand of an integer type as an integer, by the type's signedness. -/
def asInt (t : LaneTy) (x : Nat) : Int := if ltSigned t then (BitVec.ofNat (ltBits t) x).toInt else (x : Int)
/-- An integer modulo 2^W. -/
def low (t : LaneTy) (z : Int) : Nat := (z % ((2 ^ ltBits t : Nat) : Int)).toNat
/-- The range of an integer type. -/
def least (t : LaneTy) : Int := if ltSigned t then -((2 ^ (ltBits t - 1) : Nat) : Int) else 0
def most (t : LaneTy) : Int := ((2 ^ (ltBits t - (if ltSigned t then 1 else 0)) : Nat) : Int) - 1
/-- An exact result: clamped under .sat, then modulo 2^W (R211). -/
def narrow (t : LaneTy) (sat : Bool) (z : Int) : Nat := low t (if sat then max (least t) (min (most t) z) else z)
/-- The flags of it: a clamp sets IS. -/
def narrowFlags (t : LaneTy) (sat : Bool) (z : Int) : Flags := if sat && (decide (z < least t) || decide (most t < z)) then flIS else 0

/-- The instruction runs, and its gang's sr.fstat takes the flags that its guard-true threads raise (R87, R88). -/
def LaneFlags (i : Instr) (d : LaneDesc) (fl : Turn → Nat → Flags) : Prop :=
  i.wf = true → ∀ (s : State) (x : Turn), turnOf s = some x → laneReady x d = true →
    ∃ t g, exec i s = .next t ∧ getGang t x.blk x.gang = some g
      ∧ g.fstat = (lanesOf (x.on d.guard)).foldl (fun a l => a ||| fl x l) x.g.fstat

/-- The instruction runs with the value and the flags that `out` gives (R87, R88). -/
def LaneRounds (i : Instr) (d : LaneDesc) (out : Turn → Nat → Nat × Flags) : Prop :=
  LaneGives i d (fun x l => (out x l).1) ∧ LaneFlags i d (fun x l => (out x l).2)

/-- The number below 2^n whose bit j is `f j`. -/
def byBits (n : Nat) (f : Nat → Bool) : Nat := (List.range n).foldl (fun a j => a + if f j then 2 ^ j else 0) 0
/-- An operand as a word of its type. -/
def bits (t : LaneTy) (x : Nat) : BitVec (ltBits t) := BitVec.ofNat (ltBits t) x
/-- A comparison by a condition of R42. -/
def holdsI (c : ICond) (x y : Int) : Bool :=
  match c with
  | .eq => decide (x = y)
  | .ne => decide (x ≠ y)
  | .lt => decide (x < y)
  | .le => decide (x ≤ y)
  | .gt => decide (y < x)
  | .ge => decide (y ≤ x)

/-- A finite value exactly, and a magnitude (R83). -/
def exactQ : FVal → Rat
  | .fin s m e => (if s then -1 else 1) * (m : Rat) * (2 : Rat) ^ e
  | _ => 0
def magQ (z : Rat) : Rat := if z < 0 then -z else z

/-- Half `part` of an operand of a packed type; a scalar operand is its own half 0. -/
def halfOf (t : LaneTy) (part c : Nat) : Nat := if ltPacked t then c / 65536 ^ part % 65536 else c
/-- A float result in lane l: each half computed exactly from the operands' values and rounded once, with its own random
word (R218). -/
def fltOut (t : LaneTy) (r : Rnd) (x : Turn) (l : Nat) (f : (Src → FVal) → FVal × Flags) : Nat × Flags :=
  let one := fun part => finishF (ltFmt t) r (rndWord r x.b x.g x.gang l part)
    (f (fun a => unpackF (ltFmt t) (halfOf t part (x.rd l (ltRead t) a))))
  if ltPacked t then ((one 0).1 + 65536 * (one 1).1, (one 0).2 ||| (one 1).2) else one 0
/-- A result made of the codes of each half, without rounding. -/
def codeOut (t : LaneTy) (x : Turn) (l : Nat) (f : (Src → Nat) → Nat) : Nat :=
  let one := fun part => f (fun a => halfOf t part (x.rd l (ltRead t) a))
  if ltPacked t then one 0 + 65536 * one 1 else one 0
/-- Lanes that take part in a gang-wide instruction, in ascending order. -/
def Turn.parts (x : Turn) (g : Guard) : List Nat := lanesOf (x.on g)

/-- The description of a lane instruction: what its guard-true threads compute in the state. -/
def laneOf (s : State) : Instr → Option LaneDesc
  | .sread g sr d => some (descSread s g sr d)
  | .clk g d => some (descClk s g d)
  | .rng g f d => some (descRng g f d)
  | .rngx g f d a => some (descRngx g f d a)
  | .iadd g t sat d a b => some (descIadd g t sat d a b)
  | .isub g t sat d a b => some (descIsub g t sat d a b)
  | .iadd3 g t sat d a b c => some (descIadd3 g t sat d a b c)
  | .imul g t d a b => some (descImul g t d a b)
  | .imulh g t d a b => some (descImulh g t d a b)
  | .imad g t sat d a b c => some (descImad g t sat d a b c)
  | .idiv g t d a b => some (descIdiv g t d a b)
  | .irem g t d a b => some (descIrem g t d a b)
  | .imin g t d a b => some (descImin g t d a b)
  | .imax g t d a b => some (descImax g t d a b)
  | .iabs g t sat d a => some (descIabs g t sat d a)
  | .ineg g t sat d a => some (descIneg g t sat d a)
  | .and g t d a b => some (descAnd g t d a b)
  | .or g t d a b => some (descOr g t d a b)
  | .xor g t d a b => some (descXor g t d a b)
  | .andn g t d a b => some (descAndn g t d a b)
  | .not g t d a => some (descNot g t d a)
  | .shl g t d a b => some (descShl g t d a b)
  | .shr g t d a b => some (descShr g t d a b)
  | .sar g t d a b => some (descSar g t d a b)
  | .rot g t d a b => some (descRot g t d a b)
  | .fshl g t d a b c => some (descFshl g t d a b c)
  | .popc g t d a => some (descPopc g t d a)
  | .clz g t d a => some (descClz g t d a)
  | .ctz g t d a => some (descCtz g t d a)
  | .brev g t d a => some (descBrev g t d a)
  | .bfe g t d a b => some (descBfe g t d a b)
  | .bfi g t d a b c => some (descBfi g t d a b c)
  | .prmb g d a b c => some (descPrmb g d a b c)
  | .bmask g r t d a b c => some (descBmask g r t d a b c)
  | .clmul g d a b => some (descClmul g d a b)
  | .clmulh g d a b => some (descClmulh g d a b)
  | .icmp g c t pd a b => some (descIcmp g c t pd a b)
  | .sel g t d a b ps => some (descSel g t d a b ps)
  | .lea g t d a b sh => some (descLea g t d a b sh)
  | .mov g t d a => some (descMov g t d a)
  | .movi g t d a b => some (descMovi g t d a b)
  | .fadd g t r d a b => some (descFadd g t r d a b)
  | .fsub g t r d a b => some (descFsub g t r d a b)
  | .fmul g t r d a b => some (descFmul g t r d a b)
  | .ffma g t r d a b c => some (descFfma g t r d a b c)
  | .fmin g t d a b => some (descFmin g t d a b)
  | .fmax g t d a b => some (descFmax g t d a b)
  | .fcmp g c t pd a b => some (descFcmp g c t pd a b)
  | .fclass g t d a => some (descFclass g t d a)
  | .frcp g r d a => some (descFrcp g r d a)
  | .frsq g r d a => some (descFrsq g r d a)
  | .fsqrt g r d a => some (descFsqrt g r d a)
  | .fdiv g r d a b => some (descFdiv g r d a b)
  | .fexp2 g d a => some (descFexp2 g d a)
  | .flog2 g d a => some (descFlog2 g d a)
  | .fsin g d a => some (descFsin g d a)
  | .fcos g d a => some (descFcos g d a)
  | .ftanh g d a => some (descFtanh g d a)
  | .fsigm g d a => some (descFsigm g d a)
  | .fscale g t r d a b => some (descFscale g t r d a b)
  | .frnd g t r d a => some (descFrnd g t r d a)
  | .fcopys g t d a b => some (descFcopys g t d a b)
  | .cvt g res op r nan sat d a b => some (descCvt g res op r nan sat d a b)
  | .qgrp g e op r d a => some (descQgrp g e op r d a)
  | .dqgrp g res e d a => some (descDqgrp g res e d a)
  | .pkparcel g e d q grp => some (descPkparcel g e d q grp)
  | .unparcel g e d img grp => some (descUnparcel g e d img grp)
  | .planes g d a p => some (descPlanes g d a p)
  | .shfl g m t d a b => some (descShfl g m t d a b)
  | .vote g m ps => some (descVote g m ps)
  | .matchv g m t a => some (descMatchv g m t a)
  | .scan g op t excl d a => some (descScan g op t excl d a)
  | .red g op t d a => some (descRed g op t d a)
  | .topk g d a b k => some (descTopk g d a b k)
  | .plop g false d a b c lut => some (descPlop g d a b c lut)
  | _ => none

/-! ### What the uniform statements are written in -/

/-- The shape of a uniform operation: its sources with the words that it reads of each. -/
def uniShape (g : Guard) (srcs : List (Src × Nat)) (kdst : List (BitVec 6)) : GangDesc :=
  { guard := g, srcs := srcs.map (·.1), words := srcs.map (·.2), kdst := kdst, feederOk := true }

/-- The registers, predicates and latches of the lanes, their draw counts and return stacks are as before. -/
def keepsLanes (g y : Gang) : Prop :=
  y.v = g.v ∧ y.o = g.o ∧ y.p = g.p ∧ y.lat = g.lat ∧ y.live = g.live ∧ y.draw = g.draw ∧ y.rstack = g.rstack

/-- A uniform operation runs, in a gang and in a feeder: kd takes `val` of the uniform registers and predicates, no other
uniform register or predicate changes, the gang's flags take `fl`, and the party stands at the next address (R231). -/
def UniGives (i : Instr) (g : Guard) (srcs : List (Src × Nat)) (kd : BitVec 6) (val : Store W64 → BitVec 7 → Nat)
    (fl : Store W64 → Flags) : Prop :=
  i.wf = true →
  (∀ (s : State) (x : Turn), turnOf s = some x → gangReady s x (uniShape g srcs [kd]) = true →
    ∃ t y, exec i s = .next t ∧ getGang t x.blk x.gang = some y
      ∧ sget 0 y.k kd.toNat = BitVec.ofNat 64 (val x.g.k x.g.q)
      ∧ (∀ n, n ≠ kd.toNat → sget 0 y.k n = sget 0 x.g.k n) ∧ y.q = x.g.q ∧ y.fstat = x.g.fstat ||| fl x.g.k
      ∧ t = modGang s x.blk x.gang (fun _ => y) ∧ keepsLanes x.g y
      ∧ (∀ l, l < 64 → x.g.live.getLsbD l = true → sget 0 y.pc l = x.next))
  ∧ (∀ (s : State) (x : FTurn), fturnOf s = some x → feederCan s x (uniShape g srcs [kd]) = true →
    ∃ t b y, exec i s = .next t ∧ getBlk t x.blk = some b ∧ b.feeder = some y
      ∧ sget 0 y.k kd.toNat = BitVec.ofNat 64 (val x.f.k x.f.q)
      ∧ (∀ n, n ≠ kd.toNat → sget 0 y.k n = sget 0 x.f.k n) ∧ y.q = x.f.q ∧ y.pc = x.next
      ∧ t = modFeeder s x.blk (fun _ => y))

/-- The same for a uniform predicate; q7 takes nothing. -/
def UniTests (i : Instr) (g : Guard) (srcs : List (Src × Nat)) (qd : BitVec 3) (val : Store W64 → BitVec 7 → Bool) : Prop :=
  i.wf = true →
  (∀ (s : State) (x : Turn), turnOf s = some x → gangReady s x (uniShape g srcs []) = true →
    ∃ t y, exec i s = .next t ∧ getGang t x.blk x.gang = some y
      ∧ (∀ n, n < 7 → uniBit y.q n = if n = qd.toNat then val x.g.k x.g.q else uniBit x.g.q n)
      ∧ y.k = x.g.k ∧ (∀ l, l < 64 → x.g.live.getLsbD l = true → sget 0 y.pc l = x.next)
      ∧ t = modGang s x.blk x.gang (fun _ => y) ∧ keepsLanes x.g y)
  ∧ (∀ (s : State) (x : FTurn), fturnOf s = some x → feederCan s x (uniShape g srcs []) = true →
    ∃ t b y, exec i s = .next t ∧ getBlk t x.blk = some b ∧ b.feeder = some y
      ∧ (∀ n, n < 7 → uniBit y.q n = if n = qd.toNat then val x.f.k x.f.q else uniBit x.f.q n)
      ∧ y.k = x.f.k ∧ y.pc = x.next ∧ t = modFeeder s x.blk (fun _ => y))

/-- An operand of a uniform operation as its type reads it. -/
def uval (t : LaneTy) (k : Store W64) (a : Src) : Nat := readK k (ltRead t) a

/-! ### What the statements about control flow are written in -/

/-- The return stack of a thread, the newest entry first: the entries on chip, then the spilled ones (R299). -/
def retList (g : Gang) (l : Nat) : List W64 :=
  let r := sget ({} : RStack) g.rstack l
  r.chip ++ ((List.range r.spilled).map (fun i => sget 0 g.spill (place l i))).reverse

/-- The return stacks as every run holds them: at most 252 spilled entries, none while nothing is on chip (R299). -/
def stacksOk (g : Gang) : Prop :=
  ∀ l, l < 64 → let r := sget ({} : RStack) g.rstack l
    r.spilled ≤ 252 ∧ r.chip.length ≤ 4 ∧ (r.chip = [] → r.spilled = 0)

/-- A branch, call or return runs: the guard-true threads go to `target` with the return stack `stack`, the others of the turn
to the next address; nothing else of the gang's registers changes. -/
def Branches (i : Instr) (d : MemDesc) (cond : State → Turn → Prop) (target : Turn → Nat → W64) (stack : Turn → Nat → List W64) : Prop :=
  ∀ (s : State) (x : Turn), turnOf s = some x → memReady s x d = true → stacksOk x.g → cond s x →
    ∃ t y, exec i s = .next t ∧ getGang t x.blk x.gang = some y
      ∧ (∀ l, l < 64 → (x.on d.guard).getLsbD l = true → sget 0 y.pc l = target x l ∧ retList y l = stack x l)
      ∧ (∀ l, l < 64 → x.mask.getLsbD l = true → (x.on d.guard).getLsbD l = false → sget 0 y.pc l = x.next)
      ∧ (∀ l, l < 64 → x.mask.getLsbD l = false → sget 0 y.pc l = sget 0 x.g.pc l)
      ∧ (∀ l, l < 64 → (x.on d.guard).getLsbD l = false → retList y l = retList x.g l)
      ∧ y.v = x.g.v ∧ y.o = x.g.o ∧ y.p = x.g.p ∧ y.k = x.g.k ∧ y.q = x.g.q ∧ y.lat = x.g.lat ∧ y.live = x.g.live
      ∧ t = modGang s x.blk x.gang (fun _ => y)

/-! ### Instructions of a gang or a feeder alike: what they do to the state, from the party, its block and its uniform
registers -/

def PartyGives (i : Instr) (d : GangDesc) (cond : State → Iss → Block → Store W64 → Prop)
    (e : State → Iss → Block → Store W64 → State) : Prop :=
  GangGives i d (fun s x b _ => cond s x.iss b x.g.k) (fun s x b _ => e s x.iss b x.g.k)
  ∧ FeederGives i d (fun s x b => cond s x.iss b x.f.k) (fun s x b => e s x.iss b x.f.k)
def PartyPlaces (i : Instr) (d : GangDesc) (cond : State → Iss → Block → Store W64 → Prop)
    (e : State → Iss → Block → Store W64 → State) : Prop :=
  GangPlaces i d (fun s x b _ => cond s x.iss b x.g.k) (fun s x b _ => e s x.iss b x.g.k)
  ∧ FeederPlaces i d (fun s x b => cond s x.iss b x.f.k) (fun s x b => e s x.iss b x.f.k)
def PartyWaits (i : Instr) (d : GangDesc) (cond : State → Iss → Block → Store W64 → Prop)
    (e : State → Iss → Block → Store W64 → State) (w : State → Iss → Block → Store W64 → Wait) : Prop :=
  GangWaits i d (fun s x b _ => cond s x.iss b x.g.k) (fun s x b _ => e s x.iss b x.g.k) (fun s x b _ => w s x.iss b x.g.k)
  ∧ FeederWaits i d (fun s x b => cond s x.iss b x.f.k) (fun s x b => e s x.iss b x.f.k) (fun s x b => w s x.iss b x.f.k)
def PartyFaults (i : Instr) (d : GangDesc) (cond : State → Iss → Block → Store W64 → Prop)
    (f : State → Iss → Block → Store W64 → Flt) : Prop :=
  GangFaults i d (fun s x b _ => cond s x.iss b x.g.k) (fun s x b _ => f s x.iss b x.g.k)
  ∧ FeederFaults i d (fun s x b => cond s x.iss b x.f.k) (fun s x b => f s x.iss b x.f.k)

/-- The translations that `t` holds in the core's buffer were held in `s`: carrying an instruction out has taken no new one (R68, R69). -/
def warmed (s : State) (b : Block) (t : State) : Prop := ∀ e ∈ (getCore t b.core).tlb, tlbHolds s e.ctx b.core e.va = true
/-- The first translation of `t`'s buffer that `s` had not is at `va`, and `r` is the state in which the party waits for its walk. -/
def Colds (s : State) (b : Block) (p : Party) (t r : State) : Prop :=
  ∃ e, (getCore t b.core).tlb.find? (fun e => !tlbHolds s e.ctx b.core e.va) = some e
    ∧ missAt s b.ctx b.core (partyRef b.id p) (BitVec.ofNat 64 e.va) = some r

/-! ### Addresses of per-thread accesses (R187) -/

/-- The effective address of lane l. -/
def Turn.ea (x : Turn) (base off : Src) (l : Nat) : W64 := BitVec.ofNat 64 (x.rd l (.int 64) base + x.rd l (.int 64) off)
/-- The scratchpad address of lane l. -/
def Turn.spa (x : Turn) (base off : Src) (l : Nat) : Nat := (x.rd l n32 base + x.rd l n32 off) % 2 ^ 32
/-- The guard-true lanes in ascending order, each with a value. -/
def Turn.each {α : Type} (x : Turn) (g : Guard) (f : Nat → α) : List (Nat × α) := (x.parts g).map (fun l => (l, f l))
/-- The bytes of a store in lane l (R188). -/
def Turn.stored (x : Turn) (t : LaneTy) (data : Src) (l : Nat) : List Byte := le (ltBytes t) (x.rd l (.int (ltBits t)) data)

/-! ### Events of the machine -/

/-- In a state with `cond`, the event takes place, and `e` is what it does. -/
def Acts (i : Instr) (cond : State → Prop) (e : State → State) : Prop := ∀ s, cond s → exec i s = .next (e s)

/-- Operation `op` of a gang is not done, and nothing holds its completion back (R192, R274, R276). -/
def OpTurn (s : State) (blk gang op : Nat) (rel : Bool) (b : Block) (y : Gang) (o : Op) : Prop :=
  getBlk s blk = some b ∧ sfind b.gangs gang = some y ∧ y.ops.find? (fun o => o.id == op && !o.done) = some o
    ∧ opReady s blk gang y o rel = true ∧ childHeld s b.views = false

/-- A party of a running block waits as `w` says. -/
def Waits (s : State) (blk : Nat) (p : Party) (b : Block) (w : Wait) : Prop :=
  getBlk s blk = some b ∧ b.runs = true ∧ ctxHalted s b.ctx = false ∧ partyWait s blk p = w

/-- The packet at the head of a queue may be read and performed: nothing stops or holds the queue, and the packet has the
type `ty` and, where the type gives its flags a meaning of their own, the flags `fl` (R317, R318). -/
def PacketTurn (s : State) (qi ty fl : Nat) (c : Ctx) (q : Queue) (l : List Byte) : Prop :=
  getQueue s qi = q ∧ getCtx s q.ctx = some c ∧ q.bound = true ∧ q.stopped = false ∧ q.unread ≠ 0 ∧ levelHolds c q = false
    ∧ earlierRead s qi q = false ∧ c.goesOn = true ∧ headPacket s q = .ok l ∧ packetOk l = true ∧ natAt l 0 1 = ty
    ∧ (ty = 1 ∨ natAt l 1 1 = fl) ∧ heldPacket (packetRead s q) qi q l = false

/-- A packet that is performed: its line has been read, the queue reads on, and `e` is the rest of what it does. -/
def Packets (i : Nat → Instr) (ty fl : Nat) (cond : State → Nat → Queue → List Byte → Prop)
    (e : State → Nat → Queue → List Byte → State) : Prop :=
  ∀ (s : State) (qi : Nat) (c : Ctx) (q : Queue) (l : List Byte), PacketTurn s qi ty fl c q l → cond (packetRead s q) qi q l →
    exec (i qi) s = .next (e (packetRead s q) qi q l)

/-- A command of a mailbox that is accepted, with its request's bytes (R380 to R382). -/
def CommandTurn (s : State) (fn : Fn) (req : Request) (code used : Nat) (pfOnly : Bool) : Prop :=
  let l := reqBytes req
  natAt l 0 1 = code ∧ (getMbox s fn).doorbell = false ∧ s.dev.ready = true ∧ s.dev.tripped = false ∧ fnRuns s fn = true ∧ (pfOnly = true → fn = .pf)
    ∧ allZero l 1 7 = true ∧ allZero l used (256 - used) = true

/-- A command that is done: the response has status 0 and results, beside its effect. -/
def Commands (i : Fn → Request → Instr) (code used : Nat) (pfOnly : Bool) (cond : State → Fn → List Byte → Prop)
    (e : State → List Byte → State) (res : State → List Byte → List Byte) : Prop :=
  ∀ (s : State) (fn : Fn) (req : Request), CommandTurn s fn req code used pfOnly → cond s fn (reqBytes req) →
    exec (i fn req) s = .next (respond (e s (reqBytes req)) fn req 0 (res s (reqBytes req)))

/-- A command that fails: the response has the status, and nothing else changes. -/
def CommandFails (i : Fn → Request → Instr) (code used : Nat) (pfOnly : Bool) (cond : State → Fn → List Byte → Prop)
    (status : Nat) : Prop :=
  ∀ (s : State) (fn : Fn) (req : Request), CommandTurn s fn req code used pfOnly → cond s fn (reqBytes req) →
    exec (i fn req) s = .next (respond s fn req status [])

end Sys2Proof.Machine
end

