-- ==== Sys2Proof/Certificates/Slice0/Obligations.lean ====
section
/-! DEFINITION. Certificates/Slice0/Obligations.lean: the statements for the provers. -/

open Sys2Proof Sys2Proof.Machine

/-! ### The integer group -/

/-- 08 R211: sums, differences, products, minima, maxima, absolute values and negations of exact integers, narrowed to the
type.
08 R209, R211 to R216 and 04 R87: the integer group, with its logic, counts, shifts, bit fields, byte masks, carry-less products,
comparisons, selections and moves, raises IS where a .sat form clamps, and no other flag. -/
def Obligations.IntegerArithmeticAndFlags : Prop :=
  (∀ (g : Guard) (t : LaneTy) (d : Dst) (a b c : Src),
     (∀ sat, Gives2 (.iadd g t sat d a b) g (.lane d t.regs) (ltRead t) (ltRead t) a b
         (fun x y => narrow t sat (asInt t x + asInt t y)))
     ∧ (∀ sat, Gives2 (.isub g t sat d a b) g (.lane d t.regs) (ltRead t) (ltRead t) a b
         (fun x y => narrow t sat (asInt t x - asInt t y)))
     ∧ (∀ sat, Gives3 (.iadd3 g t sat d a b c) g (.lane d t.regs) (ltRead t) (ltRead t) (ltRead t) a b c
         (fun x y z => narrow t sat (asInt t x + asInt t y + asInt t z)))
     ∧ Gives2 (.imul g t d a b) g (.lane d t.regs) (ltRead t) (ltRead t) a b (fun x y => low t (asInt t x * asInt t y))
     ∧ Gives2 (.imulh g t d a b) g (.lane d t.regs) (ltRead t) (ltRead t) a b
         (fun x y => low t (asInt t x * asInt t y / ((2 ^ ltBits t : Nat) : Int)))
     ∧ (∀ sat, Gives3 (.imad g t sat d a b c) g (.lane d t.regs) (ltRead t) (ltRead t) (ltRead t) a b c
         (fun x y z => narrow t sat (asInt t x * asInt t y + asInt t z)))
     ∧ Gives2 (.imin g t d a b) g (.lane d t.regs) (ltRead t) (ltRead t) a b (fun x y => low t (min (asInt t x) (asInt t y)))
     ∧ Gives2 (.imax g t d a b) g (.lane d t.regs) (ltRead t) (ltRead t) a b (fun x y => low t (max (asInt t x) (asInt t y)))
     ∧ (∀ sat, Gives1 (.iabs g t sat d a) g (.lane d t.regs) (ltRead t) a
         (fun x => narrow t sat (if asInt t x < 0 then -asInt t x else asInt t x)))
     ∧ (∀ sat, Gives1 (.ineg g t sat d a) g (.lane d t.regs) (ltRead t) a (fun x => narrow t sat (-asInt t x))))
  ∧ (∀ (g : Guard) (t : LaneTy) (sat : Bool) (d : Dst) (a b c : Src),
      let op1 := shape g (.lane d t.regs) [(a, t.regs)]
      let op2 := shape g (.lane d t.regs) [(a, t.regs), (b, t.regs)]
      let op3 := shape g (.lane d t.regs) [(a, t.regs), (b, t.regs), (c, t.regs)]
      let v := fun (x : Turn) (l : Nat) (y : Src) => asInt t (x.rd l (ltRead t) y)
      LaneFlags (.iadd g t sat d a b) op2 (fun x l => narrowFlags t sat (v x l a + v x l b))
      ∧ LaneFlags (.isub g t sat d a b) op2 (fun x l => narrowFlags t sat (v x l a - v x l b))
      ∧ LaneFlags (.iadd3 g t sat d a b c) op3 (fun x l => narrowFlags t sat (v x l a + v x l b + v x l c))
      ∧ LaneFlags (.imad g t sat d a b c) op3 (fun x l => narrowFlags t sat (v x l a * v x l b + v x l c))
      ∧ LaneFlags (.iabs g t sat d a) op1 (fun x l => narrowFlags t sat (if v x l a < 0 then -v x l a else v x l a))
      ∧ LaneFlags (.ineg g t sat d a) op1 (fun x l => narrowFlags t sat (-v x l a))
      ∧ LaneFlags (.imul g t d a b) op2 (fun _ _ => 0)
      ∧ LaneFlags (.imulh g t d a b) op2 (fun _ _ => 0)
      ∧ LaneFlags (.idiv g t d a b) op2 (fun _ _ => 0)
      ∧ LaneFlags (.irem g t d a b) op2 (fun _ _ => 0)
      ∧ LaneFlags (.imin g t d a b) op2 (fun _ _ => 0)
      ∧ LaneFlags (.imax g t d a b) op2 (fun _ _ => 0))
  ∧ (∀ (g : Guard) (t : LaneTy) (d : Dst) (a b c : Src) (r : MaskRule) (cond : ICond) (pd : BitVec 3) (ps : PSel) (sh : BitVec 5),
      let quiet := fun (i : Instr) (dst : LDst) (srcs : List (Src × Nat)) => LaneFlags i (shape g dst srcs) (fun _ _ => 0)
      let wide := LDst.lane d t.regs
      let one := LDst.lane d 1
      quiet (.and g t d a b) wide [(a, t.regs), (b, t.regs)] ∧ quiet (.or g t d a b) wide [(a, t.regs), (b, t.regs)]
      ∧ quiet (.xor g t d a b) wide [(a, t.regs), (b, t.regs)] ∧ quiet (.andn g t d a b) wide [(a, t.regs), (b, t.regs)]
      ∧ quiet (.not g t d a) wide [(a, t.regs)]
      ∧ quiet (.popc g t d a) one [(a, t.regs)] ∧ quiet (.clz g t d a) one [(a, t.regs)] ∧ quiet (.ctz g t d a) one [(a, t.regs)]
      ∧ quiet (.brev g t d a) wide [(a, t.regs)]
      ∧ quiet (.shl g t d a b) wide [(a, t.regs), (b, 1)] ∧ quiet (.shr g t d a b) wide [(a, t.regs), (b, 1)]
      ∧ quiet (.sar g t d a b) wide [(a, t.regs), (b, 1)] ∧ quiet (.rot g t d a b) wide [(a, t.regs), (b, 1)]
      ∧ quiet (.fshl g t d a b c) wide [(a, t.regs), (b, t.regs), (c, 1)]
      ∧ quiet (.bfe g t d a b) wide [(a, t.regs), (b, 1)] ∧ quiet (.bfi g t d a b c) wide [(a, t.regs), (b, t.regs), (c, 1)]
      ∧ quiet (.prmb g d a b c) one [(a, 1), (b, 1), (c, 1)] ∧ quiet (.bmask g r t d a b c) one [(a, t.regs), (b, 1), (c, 1)]
      ∧ quiet (.clmul g d a b) one [(a, 1), (b, 1)] ∧ quiet (.clmulh g d a b) one [(a, 1), (b, 1)]
      ∧ quiet (.icmp g cond t pd a b) (.pred pd) [(a, t.regs), (b, t.regs)]
      ∧ quiet (.sel g t d a b ps) wide [(a, t.regs), (b, t.regs)]
      ∧ quiet (.lea g t d a b sh) (.lane d 2) [(a, 2), (b, 1)]
      ∧ quiet (.mov g t d a) wide [(a, t.regs)] ∧ quiet (.movi g t d a b) wide [(a, t.regs), (b, t.regs)])
/-- 08 R212: quotient and remainder, with their edge cases. -/
def Obligations.Division : Prop :=
  ∀ (g : Guard) (t : LaneTy) (d : Dst) (a b : Src),
    let edge := fun (x y : Nat) => ltSigned t = true ∧ asInt t x = least t ∧ asInt t y = -1
    Gives2 (.idiv g t d a b) g (.lane d t.regs) (ltRead t) (ltRead t) a b (fun x y =>
        if asInt t y = 0 then 2 ^ ltBits t - 1
        else if edge x y then low t (least t)
        else low t ((asInt t x).tdiv (asInt t y)))
    ∧ Gives2 (.irem g t d a b) g (.lane d t.regs) (ltRead t) (ltRead t) a b (fun x y =>
        if asInt t y = 0 then x
        else if edge x y then 0
        else low t (asInt t x - asInt t y * (asInt t x).tdiv (asInt t y)))

/-- 08 R211, major 0x2C and 0x2E: bitwise logic and bit counts.
08 R215: the byte mask, bit by bit. -/
def Obligations.BitwiseCountsAndMasks : Prop :=
  (∀ (g : Guard) (t : LaneTy) (d : Dst) (a b : Src),
     Gives2 (.and g t d a b) g (.lane d t.regs) (ltRead t) (ltRead t) a b (fun x y => (bits t x &&& bits t y).toNat)
     ∧ Gives2 (.or g t d a b) g (.lane d t.regs) (ltRead t) (ltRead t) a b (fun x y => (bits t x ||| bits t y).toNat)
     ∧ Gives2 (.xor g t d a b) g (.lane d t.regs) (ltRead t) (ltRead t) a b (fun x y => (bits t x ^^^ bits t y).toNat)
     ∧ Gives2 (.andn g t d a b) g (.lane d t.regs) (ltRead t) (ltRead t) a b (fun x y => (bits t x &&& ~~~(bits t y)).toNat)
     ∧ Gives1 (.not g t d a) g (.lane d t.regs) (ltRead t) a (fun x => (~~~(bits t x)).toNat)
     ∧ Gives1 (.popc g t d a) g (.lane d 1) (ltRead t) a (fun x => ((List.range (ltBits t)).filter (fun i => x.testBit i)).length)
     ∧ Gives1 (.clz g t d a) g (.lane d 1) (ltRead t) a
         (fun x => ((List.range (ltBits t)).find? (fun i => x.testBit (ltBits t - 1 - i))).getD (ltBits t))
     ∧ Gives1 (.ctz g t d a) g (.lane d 1) (ltRead t) a
         (fun x => ((List.range (ltBits t)).find? (fun i => x.testBit i)).getD (ltBits t))
     ∧ Gives1 (.brev g t d a) g (.lane d t.regs) (ltRead t) a (fun x => byBits (ltBits t) (fun i => x.testBit (ltBits t - 1 - i))))
  ∧ (∀ (g : Guard) (r : MaskRule) (t : LaneTy) (d : Dst) (a b c : Src),
      Gives3 (.bmask g r t d a b c) g (.lane d 1) (ltRead t) n32 n32 a b c (fun x y z =>
        let byteOf := fun (w i : Nat) => w / 256 ^ i % 256
        let m := fun i => match r with
          | .eq => decide (byteOf x i = byteOf y 0)
          | .rng => decide (byteOf y 0 ≤ byteOf x i ∧ byteOf x i ≤ byteOf y 1)
          | .set => (List.range 4).any (fun j => byteOf y j != 0 && byteOf x i == byteOf y j)
        byBits 32 (fun j => if j < ltBits t / 8 then m j else z.testBit (j - ltBits t / 8))))
/-- 08 R213: shifts. -/
def Obligations.Shifts : Prop :=
  ∀ (g : Guard) (t : LaneTy) (d : Dst) (a b c : Src),
    Gives2 (.shl g t d a b) g (.lane d t.regs) (ltRead t) n32 a b
        (fun x s => if ltBits t ≤ s then 0 else (bits t x <<< s).toNat)
    ∧ Gives2 (.shr g t d a b) g (.lane d t.regs) (ltRead t) n32 a b
        (fun x s => if ltBits t ≤ s then 0 else (bits t x >>> s).toNat)
    ∧ Gives2 (.sar g t d a b) g (.lane d t.regs) (ltRead t) n32 a b
        (fun x s => if ltBits t ≤ s then (if (bits t x).msb then 2 ^ ltBits t - 1 else 0) else ((bits t x).sshiftRight s).toNat)
    ∧ Gives2 (.rot g t d a b) g (.lane d t.regs) (ltRead t) n32 a b
        (fun x s => ((bits t x).rotateLeft (s % ltBits t)).toNat)
    ∧ Gives3 (.fshl g t d a b c) g (.lane d t.regs) (ltRead t) (ltRead t) n32 a b c
        (fun x y s => (((bits t x ++ bits t y) <<< min s (ltBits t)).extractLsb' (ltBits t) (ltBits t)).toNat)
    ∧ Gives3 (.fshl g t d a b (.inl 0)) g (.lane d t.regs) (ltRead t) (ltRead t) n32 a b (.inl 0) (fun x _ _ => x)

/-- 08 R214: BFE, BFI and PRMB bit by bit.
08 R216: the carry-less product, and the prefix XOR that it gives for an operand of all ones. -/
def Obligations.BitFieldsAndCarrylessProducts : Prop :=
  (∀ (g : Guard) (t : LaneTy) (d : Dst) (a b c : Src),
     Gives2 (.bfe g t d a b) g (.lane d t.regs) (ltRead t) n32 a b (fun x spec =>
         let start := spec % 256
         let len := spec / 256 % 256
         let at_ := fun j => if j < ltBits t then x.testBit j else ltSigned t && x.testBit (ltBits t - 1)
         if len = 0 ∨ ltBits t ≤ start then 0
         else byBits (ltBits t) (fun i => if i < len then at_ (start + i) else ltSigned t && at_ (start + len - 1)))
     ∧ Gives3 (.bfi g t d a b c) g (.lane d t.regs) (ltRead t) (ltRead t) n32 a b c (fun x ins spec =>
         let start := spec % 256
         let len := spec / 256 % 256
         byBits (ltBits t) (fun j => if start ≤ j ∧ j < start + len then ins.testBit (j - start) else x.testBit j))
     ∧ Gives3 (.prmb g d a b c) g (.lane d 1) n32 n32 n32 a b c (fun x y sel =>
         byBits 32 (fun j =>
           let n := sel / 16 ^ (j / 8) % 16
           let picked := (x + 2 ^ 32 * y) / 256 ^ (n % 8) % 256
           picked.testBit (if n.testBit 3 then 7 else j % 8))))
  ∧ (∀ (g : Guard) (d : Dst) (a b : Src),
      let bit := fun (x y t : Nat) => ((List.range (t + 1)).filter (fun j => x.testBit j && y.testBit (t - j))).length % 2 == 1
      Gives2 (.clmul g d a b) g (.lane d 1) n32 n32 a b (fun x y => byBits 32 (bit x y))
      ∧ Gives2 (.clmulh g d a b) g (.lane d 1) n32 n32 a b (fun x y => byBits 32 (fun t => bit x y (t + 32)))
      ∧ Gives2 (.clmul g d a (.inl (-1))) g (.lane d 1) n32 n32 a (.inl (-1))
          (fun x _ => byBits 32 (fun i => ((List.range (i + 1)).filter (fun j => x.testBit j)).length % 2 == 1)))
/-- 08 R211, majors 0x35 to 0x39: comparison, selection, address arithmetic and moves. -/
def Obligations.CompareSelectMove : Prop :=
  ∀ (g : Guard) (t : LaneTy) (d : Dst) (a b : Src),
    (∀ c pd, Gives2 (.icmp g c t pd a b) g (.pred pd) (ltRead t) (ltRead t) a b
        (fun x y => if holdsI c (asInt t x) (asInt t y) then 1 else 0))
    ∧ (∀ ps, LaneGives (.sel g t d a b ps) (shape g (.lane d t.regs) [(a, t.regs), (b, t.regs)])
        (fun x l => if pselLane x.g ps l then x.rd l (ltRead t) a else x.rd l (ltRead t) b))
    ∧ (∀ sh : BitVec 5, Gives2 (.lea g t d a b sh) g (.lane d 2) (.int 64) n32 a b
        (fun x y => (x + 2 ^ sh.toNat * (if t = .s64 then ((BitVec.ofNat 32 y).signExtend 64).toNat else y)) % 2 ^ 64))
    ∧ Gives1 (.mov g t d a) g (.lane d t.regs) (ltRead t) a (fun x => x)
    ∧ LaneGives (.movi g t d a b) (shape g (.lane d t.regs) [(a, t.regs), (b, t.regs)])
        (fun x l => (x.rd l (ltRead t) b + l * x.rd l (ltRead t) a) % 2 ^ ltBits t)

/-! ### The float group -/

/-- 08 R217, R218, 04 R83 to R88: arithmetic rounds the exact result once and raises its flags; a packed operation computes
each half on its own. The sign of an exact zero sum is the model's reading (log 18). -/
def Obligations.FloatArithmetic : Prop :=
  ∀ (g : Guard) (t : LaneTy) (r : Rnd) (d : Dst) (a b c : Src),
    let op1 := shape g (.lane d 1) [(a, 1)]
    let op2 := shape g (.lane d 1) [(a, 1), (b, 1)]
    let op3 := shape g (.lane d 1) [(a, 1), (b, 1), (c, 1)]
    LaneRounds (.fadd g t r d a b) op2 (fun x l => fltOut t r x l (fun v => addV r (v a) (v b)))
    ∧ LaneRounds (.fsub g t r d a b) op2 (fun x l => fltOut t r x l (fun v => addV r (v a) (v b).neg))
    ∧ LaneRounds (.fmul g t r d a b) op2 (fun x l => fltOut t r x l (fun v => mulV (v a) (v b)))
    ∧ LaneRounds (.ffma g t r d a b c) op3 (fun x l => fltOut t r x l (fun v => fmaV r (v a) (v b) (v c)))
    ∧ LaneRounds (.frcp g r d a) op1 (fun x l => fltOut .f32 r x l (fun v => divV (.fin false 1 0) (v a)))
    ∧ LaneRounds (.frsq g r d a) op1 (fun x l => fltOut .f32 r x l (fun v => rsqV (v a)))
    ∧ LaneRounds (.fsqrt g r d a) op1 (fun x l => fltOut .f32 r x l (fun v => sqrtV (v a)))
    ∧ LaneRounds (.fdiv g r d a b) op2 (fun x l => fltOut .f32 r x l (fun v => divV (v a) (v b)))
    ∧ LaneRounds (.fscale g t r d a b) op2
        (fun x l => fltOut t r x l (fun v => (scaleV (v a) (BitVec.ofNat 32 (x.rd l n32 b)).toInt, 0)))

/-- 08 R218: each transcendental instruction delivers the model's function of its name (`transF`) of its f32 operand, with its
flags; the interval that narrows to the rounded value is the model's (log 18). Each completes on every operand: its threads stand at
the next address, each guard-true one with its destination written. The special results of the rule's table, with their flags, are
what they receive for NaN, the infinities, zeros and the other operands that the table names. -/
def Obligations.Transcendentals : Prop :=
  (∀ (g : Guard) (d : Dst) (a : Src),
     let op := shape g (.lane d 1) [(a, 1)]
     let out := fun (f : TFun) (x : Turn) (l : Nat) => transF f (unpackF .f32 (x.rd l (.flt .f32) a))
     LaneRounds (.fexp2 g d a) op (out .exp2)
     ∧ LaneRounds (.flog2 g d a) op (out .log2)
     ∧ LaneRounds (.fsin g d a) op (out .sin)
     ∧ LaneRounds (.fcos g d a) op (out .cos)
     ∧ LaneRounds (.ftanh g d a) op (out .tanh)
     ∧ LaneRounds (.fsigm g d a) op (out .sigm))
  ∧ (∀ (g : Guard) (d : Dst) (a : Src) (s : State) (x : Turn),
     turnOf s = some x → laneReady x (shape g (.lane d 1) [(a, 1)]) = true →
     let operand := fun (l : Nat) => x.rd l (.flt .f32) a
     let completes := fun (i : Instr) => i.wf = true → ∃ t y, exec i s = .next t ∧ getGang t x.blk x.gang = some y
       ∧ (∀ l, l < 64 → (x.on g).getLsbD l = true → ∃ v, received y l (.lane d 1) v)
       ∧ (∀ l, l < 64 → x.mask.getLsbD l = true → sget 0 y.pc l = x.next) ∧ t.mem = s.mem
     let special := fun (i : Instr) (c : Nat → Prop) (v : Nat) (fl : Flags) => i.wf = true → x.on g ≠ 0 →
       (∀ l, l < 64 → (x.on g).getLsbD l = true → c (operand l)) →
       ∃ t y, exec i s = .next t ∧ getGang t x.blk x.gang = some y
         ∧ (∀ l, l < 64 → (x.on g).getLsbD l = true → received y l (.lane d 1) v) ∧ y.fstat = x.g.fstat ||| fl
     let is := fun (n c : Nat) => c = n
     let nan := fun (c : Nat) => c < 2 ^ 32 ∧ 0x7F800000 < c % 2 ^ 31
     let negative := fun (c : Nat) => 0x80000000 < c ∧ c ≤ 0xFF800000
     completes (.fexp2 g d a) ∧ completes (.flog2 g d a) ∧ completes (.fsin g d a) ∧ completes (.fcos g d a)
       ∧ completes (.ftanh g d a) ∧ completes (.fsigm g d a)
       ∧ (∀ i ∈ [Instr.fexp2 g d a, .flog2 g d a, .fsin g d a, .fcos g d a, .ftanh g d a, .fsigm g d a], special i nan 0x7FC00000 0)
       ∧ special (.fexp2 g d a) (is 0x7F800000) 0x7F800000 0 ∧ special (.fexp2 g d a) (is 0xFF800000) 0 0
       ∧ special (.fexp2 g d a) (is 0) 0x3F800000 0 ∧ special (.fexp2 g d a) (is 0x80000000) 0x3F800000 0
       ∧ special (.flog2 g d a) (is 0x7F800000) 0x7F800000 0 ∧ special (.flog2 g d a) negative 0x7FC00000 flNV
       ∧ special (.flog2 g d a) (is 0) 0xFF800000 flDZ ∧ special (.flog2 g d a) (is 0x80000000) 0xFF800000 flDZ
       ∧ special (.flog2 g d a) (is 0x3F800000) 0 0
       ∧ special (.fsin g d a) (fun c => c = 0x7F800000 ∨ c = 0xFF800000) 0x7FC00000 flNV
       ∧ special (.fcos g d a) (fun c => c = 0x7F800000 ∨ c = 0xFF800000) 0x7FC00000 flNV
       ∧ special (.ftanh g d a) (is 0x7F800000) 0x3F800000 0 ∧ special (.ftanh g d a) (is 0xFF800000) 0xBF800000 0
       ∧ special (.fsigm g d a) (is 0x7F800000) 0x3F800000 0 ∧ special (.fsigm g d a) (is 0xFF800000) 0 0)

/-- 08 R219: the float instructions that do not round, none of which raises a flag. -/
def Obligations.FloatSelection : Prop :=
  ∀ (g : Guard) (t : LaneTy) (d : Dst) (a b : Src),
    let f := ltFmt t
    let w := (fshape f).width
    let op1 := shape g (.lane d 1) [(a, 1)]
    let op2 := shape g (.lane d 1) [(a, 1), (b, 1)]
    let val := fun (c : Nat) => unpackF f c
    let un := fun (x y : Nat) => (val x).isNan || (val y).isNan
    let below := fun (x y : Nat) => decide (cmpV (val x) (val y) < 0)
      || (cmpV (val x) (val y) == 0 && (val x).sign && !(val y).sign)
    let quiet := fun (_ : Turn) (_ : Nat) => (0 : Flags)
    (LaneGives (.fmin g t d a b) op2 (fun x l => codeOut t x l (fun c =>
        if un (c a) (c b) then nanCode f else if below (c b) (c a) then c b else c a)) ∧ LaneFlags (.fmin g t d a b) op2 quiet)
    ∧ (LaneGives (.fmax g t d a b) op2 (fun x l => codeOut t x l (fun c =>
        if un (c a) (c b) then nanCode f else if below (c a) (c b) then c b else c a)) ∧ LaneFlags (.fmax g t d a b) op2 quiet)
    ∧ (∀ c pd, let op := shape g (.pred pd) [(a, 1), (b, 1)]
        LaneGives (.fcmp g c t pd a b) op (fun x l =>
          let u := x.rd l (ltRead t) a
          let v := x.rd l (ltRead t) b
          let z := cmpV (val u) (val v)
          if (match c with
            | .ne => un u v || z != 0
            | .uno => un u v
            | .ord => !un u v
            | .eq => !un u v && z == 0
            | .lt => !un u v && decide (z < 0)
            | .le => !un u v && decide (z ≤ 0)
            | .gt => !un u v && decide (0 < z)
            | .ge => !un u v && decide (0 ≤ z)) then 1 else 0) ∧ LaneFlags (.fcmp g c t pd a b) op quiet)
    ∧ (LaneGives (.fclass g t d a) op1 (fun x l =>
        let c := x.rd l (ltRead t) a
        match val c with
        | .nan => 2 ^ 8
        | .inf s => if s then 2 ^ 0 else 2 ^ 7
        | .fin s m _ =>
          if m = 0 then (if s then 2 ^ 3 else 2 ^ 4)
          else if c / 2 ^ ((fshape f).p - 1) % 2 ^ (fshape f).ebits = 0 then (if s then 2 ^ 2 else 2 ^ 5)
          else (if s then 2 ^ 1 else 2 ^ 6)) ∧ LaneFlags (.fclass g t d a) op1 quiet)
    ∧ (LaneGives (.fcopys g t d a b) op2 (fun x l => codeOut t x l (fun c =>
        if (val (c a)).isNan then nanCode f
        else byBits w (fun j => if j = w - 1 then (c b).testBit j else (c a).testBit j))) ∧ LaneFlags (.fcopys g t d a b) op2 quiet)
    ∧ (∀ r, LaneGives (.frnd g t r d a) op1 (fun x l =>
        let c := x.rd l (ltRead t) a
        match val c with
        | .nan => nanCode f
        | .inf _ => c
        | .fin s m e =>
          let n := (roundInt r 0 s m e).1
          if 0 ≤ e ∨ m % 2 ^ (-e).toNat = 0 then c else packF f (.fin s n.natAbs 0)) ∧ LaneFlags (.frnd g t r d a) op1 quiet)

/-- 04 R83, R85: rounding keeps every value that the format can hold, without a flag (RoundingToFormats says what it gives of the others).
08 R218: the special values of sums, products, quotients and roots. The sign of an exact zero sum is the model's reading (log
18). -/
def Obligations.FloatSpecialValuesAndRounding : Prop :=
  (∀ (f : Fmt) (r : Rnd) (u : Nat) (o : ROpt) (c : Nat), c < 2 ^ (fshape f).width →
     ∀ s m e, unpackF f c = .fin s m e → roundF f r u o (.fin s m e) = (c, 0))
  ∧ (∀ (r : Rnd) (s t : Bool) (m n : Nat) (e g : Int) (v : FVal),
      mulV (.fin s 0 e) (.inf t) = (.nan, flNV)
      ∧ addV r (.inf s) (.inf (!s)) = (.nan, flNV)
      ∧ fmaV r (.fin s 0 e) (.inf t) (.fin s m g) = (.nan, flNV)
      ∧ divV (.fin s (m + 1) e) (.fin t 0 g) = (.inf (s != t), flDZ)
      ∧ divV (.fin s 0 e) (.fin t 0 g) = (.nan, flNV)
      ∧ divV (.inf s) (.inf t) = (.nan, flNV)
      ∧ sqrtV (.fin true (m + 1) e) = (.nan, flNV)
      ∧ rsqV (.fin s 0 e) = (.inf s, flDZ)
      ∧ addV r .nan v = (.nan, 0) ∧ mulV v .nan = (.nan, 0) ∧ fmaV r v .nan (.fin s n g) = (.nan, 0))
/-! ### Conversions and parcels -/

/-- 08 R220 to R223: conversions, and the quantisation of a scale group.
04 R86, 08 R221: what one conversion gives. A conversion to the same format is the model's reading (log 18), and that a saturating
conversion of a float to an integer raises NV alone is its choice (log 51). -/
def Obligations.ConversionsAndParcelGroups : Prop :=
  (∀ (g : Guard) (res op : Fmt) (r : Rnd) (nan sat : Bool) (d : Dst) (a b : Src),
     LaneRounds (.cvt g res op r nan sat d a none) (shape g (.lane d res.regs) [(a, op.regs)])
       (fun x l => convert res op r nan sat (rndWord r x.b x.g x.gang l 0) (x.rd l (fmtRead op) a))
     ∧ LaneRounds (.cvt g res op r nan sat d a (some b)) (shape g (.lane d 1) [(a, 1), (b, 1)])
       (fun x l =>
         let half := fun (i : Nat) (y : Src) =>
           convert (halfFmt res) op r nan sat (rndWord r x.b x.g x.gang l i) (x.rd l (fmtRead op) y)
         ((half 0 a).1 + 65536 * (half 1 b).1, (half 0 a).2 ||| (half 1 b).2))
     ∧ LaneRounds (.qgrp g res op r d a) (shape g (.lane d 1) [(a, 1)] true)
       (fun x l =>
         let e := groupScale res ((List.range 24).map (fun j =>
           if j ∈ x.parts g then unpackF op (x.rd j (fmtRead op) a) else FVal.zero))
         let q := quantAt res r (rndWord r x.b x.g x.gang l 0) e (unpackF op (x.rd l (fmtRead op) a))
         if l < 24 then (e * 256 + q.1, q.2) else (e * 256, 0))
     ∧ LaneRounds (.dqgrp g res op d a) (shape g (.lane d 1) [(a, 1)])
       (fun x l =>
         let w := x.rd l (match a with | .inl _ | .imm _ | .imm62 _ => fmtRead op | _ => n32) a
         roundF res .rne 0 {} (scaled (elemVal op (w % 2 ^ op.width)) (w / 256 % 256))))
  ∧ (∀ (res op : Fmt) (r : Rnd) (nan sat : Bool) (u c : Nat),
      let low := fun (z : Int) => (z % ((2 ^ res.width : Nat) : Int)).toNat
      let clamp := fun (z : Int) => max (intMin (fmtSigned res) res.width) (min (intMax (fmtSigned res) res.width) z)
      (op.isIntF = true → res.isIntF = true →
        let x := intVal (fmtSigned op) op.width c
        let narrows := res.width < op.width ∨ (res.width = op.width ∧ fmtSigned res ≠ fmtSigned op)
        convert res op r nan sat u c =
          if narrows ∧ sat = true then (low (clamp x), if clamp x = x then 0 else flIS) else (low x, 0))
      ∧ (op.isIntF = true → res.isIntF = false →
        convert res op r nan sat u c = roundF res r u { sat := sat, nan := nan } (ofSInt false (intVal (fmtSigned op) op.width c) 0))
      ∧ (op.isIntF = false → res.isIntF = true → ∀ s m e, unpackF op c = .fin s m e →
        let x := (roundInt r u s m e).1
        convert res op r nan sat u c =
          (low (clamp x), if clamp x ≠ x then flNV else if (roundInt r u s m e).2 then flNX else 0))
      ∧ (op.isIntF = false → res.isIntF = true → unpackF op c = .nan → convert res op r nan sat u c = (0, flNV))
      ∧ (op.isIntF = false → res.isIntF = true → ∀ s, unpackF op c = .inf s → convert res op r nan sat u c =
          (low (if s then intMin (fmtSigned res) res.width else intMax (fmtSigned res) res.width), flNV))
      ∧ (op.isIntF = false → (unpackF op c).isNan = false → c < 2 ^ (fshape op).width →
        convert op op r nan sat u c = (c, 0)))
/-- 08 R224, R225 and 04 R90 to R93: parcels and planes, byte by byte. -/
def Obligations.ParcelsAndPlanes : Prop :=
  ∀ (g : Guard) (e : Fmt) (d : Dst) (a : Src) (grp : BitVec 8) (p : BitVec 3),
    let here := fun (x : Turn) (w : Nat) => x.g.live.getLsbD w
    let byteOf := fun (rd : Nat → Nat) (k : Nat) => rd (k / 4) / 256 ^ (k % 4) % 256
    (d ≠ .none → LaneGives (.pkparcel g e d a grp)
      { shape g (.lane d 1) [(a, 1)] true with bad := (descPkparcel g e d a grp).bad } (fun x l =>
      let old := fun w => if here x w then dstOld x.g w 1 d else 0
      let q := fun w => if here x w then x.rd w n32 a else 0
      let off := groupOff e.width grp.toNat
      let new := fun k =>
        if k = 0 then parcelCode e
        else if k = 1 then max (byteOf old 1) (grp.toNat + 1)
        else if k = off then q 0 / 256 % 256
        else if off < k ∧ k ≤ off + 3 * e.width then
          byBits 8 (fun j => let n := 8 * (k - off - 1) + j; (q (n / e.width)).testBit (n % e.width))
        else byteOf old k
      if l < 32 then new (4 * l) + 2 ^ 8 * new (4 * l + 1) + 2 ^ 16 * new (4 * l + 2) + 2 ^ 24 * new (4 * l + 3)
      else dstOld x.g l 1 d))
    ∧ LaneGives (.unparcel g e d a grp)
      { shape g (.lane d 1) [(a, 1)] true with bad := (descUnparcel g e d a grp).bad } (fun x l =>
      let im := byteOf (fun w => if here x w then x.rd w n32 a else 0)
      let off := groupOff e.width grp.toNat
      if im 0 = 0 ∨ im 1 ≤ grp.toNat then 0x7F00
      else im off * 256 + (if l < 24 then byBits e.width (fun j =>
        let n := e.width * l + j; (im (off + 1 + n / 8)).testBit (n % 8)) else 0))
    ∧ LaneGives (.planes g d a p) (shape g (.lane d 2) [(a, 1)] true) (fun x _ =>
      byBits 64 (fun i => decide (i ∈ x.parts g) && (x.rd i n32 a).testBit (7 - p.toNat)))

/-! ### Across the lanes -/

/-- 08 R227: SHFL.
08 R228: VOTE and MATCH. -/
def Obligations.ShuffleVoteAndMatch : Prop :=
  (∀ (g : Guard) (m : ShflMode) (t : LaneTy) (d : Dst) (a b : Src),
     LaneGives (.shfl g m t d a b) (shape g (.lane d t.regs) [(a, t.regs), (b, 1)] true) (fun x l =>
       let n : Nat := x.rd l n32 b
       let src : Int := match m with
         | .idx => n
         | .up => (l : Int) - n
         | .dn => l + n
         | .xor => ((l ^^^ n : Nat) : Int)
       if 0 ≤ src ∧ src ≤ 63 ∧ src.toNat ∈ x.parts g then x.rd src.toNat (ltRead t) a else x.rd l (ltRead t) a))
  ∧ (∀ (g : Guard) (ps : PSel) (t : LaneTy) (d : Dst) (pd : BitVec 3) (a : Src),
      let set := fun (f : Nat → Bool) => byBits 64 f
      LaneGives (.vote g (.any pd) ps) (shape g (.pred pd) [] true)
          (fun x _ => if ∃ i ∈ x.parts g, pselLane x.g ps i = true then 1 else 0)
      ∧ LaneGives (.vote g (.all pd) ps) (shape g (.pred pd) [] true)
          (fun x _ => if ∀ i ∈ x.parts g, pselLane x.g ps i = true then 1 else 0)
      ∧ LaneGives (.vote g (.ballot d) ps) (shape g (.lane d 2) [] true)
          (fun x _ => set (fun i => decide (i ∈ x.parts g) && pselLane x.g ps i))
      ∧ LaneGives (.matchv g (.any d) t a) (shape g (.lane d 2) [(a, t.regs)] true)
          (fun x l => set (fun i => decide (i ∈ x.parts g) && x.rd i (ltRead t) a == x.rd l (ltRead t) a))
      ∧ LaneGives (.matchv g (.all pd) t a) (shape g (.pred pd) [(a, t.regs)] true)
          (fun x _ => if ∀ i ∈ x.parts g, ∀ j ∈ x.parts g, x.rd i (ltRead t) a = x.rd j (ltRead t) a then 1 else 0))
/-- 08 R229: SCAN and RED fold the participants' values in ascending lane order.
08 R226, R229: the f32 folds, each step rounded to nearest (log 16: a fold that starts from a NaN starts from the
canonical NaN).
08 R230: TOPK writes the ordered candidates into the live lanes below k, whatever their guards. -/
def Obligations.ScanReduceAndTopK : Prop :=
  (∀ (g : Guard) (op : FoldOp) (t : LaneTy) (excl : Bool) (d : Dst) (a : Src), t ≠ .f32 →
     let step := fun (x y : Nat) => match op with
       | .add => low t ((x : Int) + y)
       | .xor => (bits t x ^^^ bits t y).toNat
       | .min => low t (min (asInt t x) (asInt t y))
       | .max => low t (max (asInt t x) (asInt t y))
       | .and => (bits t x &&& bits t y).toNat
       | .or => (bits t x ||| bits t y).toNat
     let empty := match op with
       | .min => low t (most t)
       | .max => low t (least t)
       | .and => 2 ^ ltBits t - 1
       | _ => 0
     let fold := fun (vs : List Nat) => match vs with
       | [] => empty
       | v :: rest => rest.foldl step v
     let op1 := shape g (.lane d t.regs) [(a, t.regs)] true
     LaneGives (.scan g op t excl d a) op1 (fun x l =>
       fold (((x.parts g).filter (fun i => if excl then i < l else i ≤ l)).map (fun i => x.rd i (ltRead t) a)))
     ∧ LaneGives (.red g op t d a) op1 (fun x _ => fold ((x.parts g).map (fun i => x.rd i (ltRead t) a))))
  ∧ (∀ (g : Guard) (op : FoldOp) (excl : Bool) (d : Dst) (a : Src),
      let fold := fun (x : Turn) (ls : List Nat) => foldLanes op .f32 x.g a ls
      let op1 := shape g (.lane d 1) [(a, 1)] true
      LaneGives (.scan g op .f32 excl d a) op1 (fun x l =>
        ((fold x ((x.parts g).filter (fun i => if excl then i < l else i ≤ l))).getD (foldIdent op .f32, 0)).1)
      ∧ LaneRounds (.red g op .f32 d a) op1 (fun x _ => (fold x (x.parts g)).getD (0, 0)))
  ∧ (∀ (g : Guard) (d : Dst) (a b k : Src), (Instr.topk g d a b k).wf = true →
      ∀ (s : State) (x : Turn), turnOf s = some x → laneReady x (descTopk g d a b k) = true →
        ∃ t gg, exec (.topk g d a b k) s = .next t ∧ getGang t x.blk x.gang = some gg
          ∧ ∀ l, l < 64 → dstOld gg l 2 d =
              if l < topK x.g k ∧ x.g.live.getLsbD l = true
              then topEntry (topCands x.g (x.on g) d (f32In a) b (topK x.g k)) l
              else dstOld x.g l 2 d)
/-! ### Lane instructions that read the machine -/

/-- 11 R295, 08 R234 to R236: PLOP, RNG, RNGX and CLK in a lane.
08 R235: a guard-true thread's draw count rises by one with RNG; RNGX leaves it. -/
def Obligations.PredicatesDrawsAndClock : Prop :=
  (∀ (g : Guard) (p a b c : BitVec 3) (lut : BitVec 8) (f : RngForm) (d : Dst) (e : Src),
     let form := fun (ws : List Nat) => match f with
       | .b32 => ws.getD 0 0
       | .b64 => ws.getD 0 0 + 2 ^ 32 * ws.getD 1 0
       | .b128 => ws.getD 0 0 + 2 ^ 32 * ws.getD 1 0 + 2 ^ 64 * ws.getD 2 0 + 2 ^ 96 * ws.getD 3 0
       | .f32 => packF .f32 (.fin false (ws.getD 0 0 / 256) (-24))
     let n := fun (v : Bool) => if v then 1 else 0
     LaneGives (.plop g false p a b c lut) (shape g (.pred p) []) (fun x l =>
       n (lut.getLsbD (4 * n (predBit x.g a.toNat l) + 2 * n (predBit x.g b.toNat l) + n (predBit x.g c.toNat l))))
     ∧ LaneGives (.rng g f d) (shape g (.lane d f.regs) []) (fun x l =>
       let draw := sget 0 x.g.draw l
       form (philox x.b.launchKey (draw % 2 ^ 32, (64 * x.gang + l) % 2 ^ 11 + 2 ^ 11 * (draw / 2 ^ 32 % 2 ^ 21), x.b.idx % 2 ^ 32, x.b.idx / 2 ^ 32 % 2 ^ 31)))
     ∧ LaneGives (.rngx g f d e) (shape g (.lane d f.regs) [(e, 4)]) (fun x l =>
       let w := fun i => x.rd l (.int 128) e / 2 ^ (32 * i) % 2 ^ 32
       form (philox x.b.launchKey (w 0, w 1, w 2, w 3)))
     ∧ (∀ (s : State) (x : Turn), (Instr.clk g d).wf = true → turnOf s = some x → laneReady x (shape g (.lane d 2) []) = true →
       ∃ t gg, exec (.clk g d) s = .next t ∧ getGang t x.blk x.gang = some gg
         ∧ ∀ l, l < 64 → (x.on g).getLsbD l = true →
           received gg l (.lane d 2) (if x.b.level = 0 then (getCore s x.b.core).cyc.toNat else x.b.period)))
  ∧ (∀ (g : Guard) (f : RngForm) (d : Dst) (e : Src) (s : State) (x : Turn), turnOf s = some x →
      (laneReady x (shape g (.lane d f.regs) []) = true →
        ∃ t gg, exec (.rng g f d) s = .next t ∧ getGang t x.blk x.gang = some gg
          ∧ ∀ l, l < 64 → sget 0 gg.draw l =
              if (x.on g).getLsbD l then (sget 0 x.g.draw l + 1) % 2 ^ 53 else sget 0 x.g.draw l)
      ∧ (laneReady x (shape g (.lane d f.regs) [(e, 4)]) = true →
        ∃ t gg, exec (.rngx g f d e) s = .next t ∧ getGang t x.blk x.gang = some gg ∧ gg.draw = x.g.draw))
/-- 11 R296, R297: what SREAD gives each guard-true thread. -/
def Obligations.SpecialRegisterReads : Prop :=
  ∀ (g : Guard) (sr : BitVec 8) (d : Dst) (s : State) (x : Turn), (Instr.sread g sr d).wf = true →
    turnOf s = some x → laneReady x (descSread s g sr d) = true →
    ∃ t gg, exec (.sread g sr d) s = .next t ∧ getGang t x.blk x.gang = some gg
      ∧ ∀ l, l < 64 → (x.on g).getLsbD l = true →
        let tid := 64 * x.gang + l
        let val : Nat := match sr.toNat with
          | 0x00 => tid
          | 0x01 => l
          | 0x02 => tid % x.b.kd.bx
          | 0x03 => tid / x.b.kd.bx % x.b.kd.byy
          | 0x04 => tid / x.b.kd.bx / x.b.kd.byy
          | 0x05 => x.gang
          | 0x06 => (sget ({} : RStack) x.g.rstack l).depth
          | 0x08 => x.b.idx
          | 0x09 => x.b.bx
          | 0x0A => x.b.byy
          | 0x0B => x.b.bz
          | 0x0C => x.b.gangs.length
          | 0x0D => x.b.nrec
          | 0x0E => x.b.cliqueIdx
          | 0x10 => x.g.ev.srEv.toNat
          | 0x11 => x.g.ev.srEvpay.toNat
          | 0x12 => x.g.ev.srEvret.toNat
          | 0x14 => viewInfo s x.b % 2 ^ 20
          | 0x15 => x.b.childIdx.getD 0
          | 0x18 => x.b.level
          | 0x19 => x.b.period
          | 0x1A => x.g.fstat.toNat
          | 0x1C => if x.b.level = 0 then x.b.core % 16 else x.b.lCore
          | 0x1D => if x.b.level = 0 then x.b.core / 16 % 4 else x.b.lClu
          | 0x1E => if x.b.level = 0 then x.b.core / 64 else x.b.lDie
          | 0x20 => x.g.regions.length
          | 0x21 => ((x.g.regions.head?).getD 0).toNat
          | _ => x.g.alloc
        received gg l (.lane d (if sr.toNat ∈ [0x08, 0x11, 0x12, 0x19] then 2 else 1)) val

/-- 02 R33, R45, 08 R209, R230: a lane instruction that runs changes nothing outside its gang. In its gang a register keeps its
value but for the destination in guard-true threads (under TOPK in the live lanes below k), a predicate but for the destination, a
draw count but for guard-true threads, a latch but in the turn's threads (under TOPK in those lanes), and nothing else changes but
the flags, the marks of R46 and R75, the threads' addresses and the gang's own record of its last issue. Every byte of memory and of
scratchpad reads as before. -/
def Obligations.LaneFrame : Prop :=
  (∀ (i : Instr) (s t : State) (x : Turn) (d : LaneDesc), laneOf s i = some d → d.custom = none → turnOf s = some x →
     laneReady x d = true → exec i s = .next t →
     ∃ g, t = modGang s x.blk x.gang (fun _ => g)
       ∧ g = { x.g with v := g.v, o := g.o, p := g.p, lat := g.lat, latValid := g.latValid, latOp := g.latOp, fstat := g.fstat,
                        draw := g.draw, badRegs := g.badRegs, firstAcc := g.firstAcc, pc := g.pc, issued := g.issued,
                        issuedLanes := g.issuedLanes, arrived := g.arrived, atSwap := g.atSwap, issuedOp := g.issuedOp }
       ∧ (∀ n l, l < 64 → (x.on d.guard).getLsbD l = false ∨ n ∉ d.dst.names → sget 0 g.v (reg n l) = sget 0 x.g.v (reg n l))
       ∧ (∀ n l, l < 64 → (x.on d.guard).getLsbD l = false ∨ oBase + n ∉ d.dst.names →
           sget 0 g.o (reg n l) = sget 0 x.g.o (reg n l))
       ∧ (∀ n l, l < 64 → (x.on d.guard).getLsbD l = false ∨ d.dst ≠ .pred (BitVec.ofNat 3 n) → n < 8 →
           predBit g n l = predBit x.g n l)
       ∧ (∀ l, l < 64 → (x.on d.guard).getLsbD l = false → sget 0 g.draw l = sget 0 x.g.draw l)
       ∧ (∀ n l, l < 64 → n < 4 → x.mask.getLsbD l = false → sget 0 g.lat (reg n l) = sget 0 x.g.lat (reg n l))
       ∧ (∀ l, x.mask.getLsbD l = false → sget 0 g.pc l = sget 0 x.g.pc l)
       ∧ (∀ v l n, locReadRun t v l n = locReadRun s v l n)
       ∧ (∀ c, (getBlk t c).map (fun b => b.scratch) = (getBlk s c).map (fun b => b.scratch)))
  ∧ (∀ (g0 : Guard) (d : Dst) (a b k : Src) (s t : State) (x : Turn), turnOf s = some x →
      laneReady x (descTopk g0 d a b k) = true → exec (.topk g0 d a b k) s = .next t →
      let kept := fun (l : Nat) => topK x.g k ≤ l ∨ x.g.live.getLsbD l = false
      ∃ g, t = modGang s x.blk x.gang (fun _ => g)
        ∧ g = { x.g with v := g.v, o := g.o, lat := g.lat, latValid := g.latValid, latOp := g.latOp, badRegs := g.badRegs,
                         firstAcc := g.firstAcc, pc := g.pc, issued := g.issued, issuedLanes := g.issuedLanes, arrived := g.arrived,
                         atSwap := g.atSwap, issuedOp := g.issuedOp }
        ∧ (∀ n l, l < 64 → kept l ∨ n ∉ dstNames 2 d → sget 0 g.v (reg n l) = sget 0 x.g.v (reg n l))
        ∧ (∀ n l, l < 64 → kept l ∨ oBase + n ∉ dstNames 2 d → sget 0 g.o (reg n l) = sget 0 x.g.o (reg n l))
        ∧ (∀ n l, l < 64 → n < 4 → kept l → sget 0 g.lat (reg n l) = sget 0 x.g.lat (reg n l))
        ∧ (∀ l, x.mask.getLsbD l = false → sget 0 g.pc l = sget 0 x.g.pc l)
        ∧ (∀ v l n, locReadRun t v l n = locReadRun s v l n)
        ∧ (∀ c, (getBlk t c).map (fun b => b.scratch) = (getBlk s c).map (fun b => b.scratch)))

/-! ### The uniform group -/

/-- 08 R231: uniform arithmetic, in a gang and in a feeder.
08 R231, 11 R295: KCMP and PLOP.q write a uniform predicate.
08 R233: KREADLANE gives the value of lane n mod 64, 0 where no thread lives, and KBCAST writes every live lane. -/
def Obligations.UniformInstructions : Prop :=
  (∀ (g : Guard) (t : LaneTy) (sat : Bool) (kd : BitVec 6) (a b c : Src),
     let n := fun (z : Store W64 → Int) (k : Store W64) (_ : BitVec 7) => narrow t sat (z k)
     let fl := fun (z : Store W64 → Int) (k : Store W64) => narrowFlags t sat (z k)
     let quiet := fun (_ : Store W64) => (0 : Flags)
     let v := fun (k : Store W64) (y : Src) => asInt t (uval t k y)
     let w := fun (k : Store W64) (y : Src) => bits t (uval t k y)
     let amt := fun (k : Store W64) => (readUni k b).toNat
     let all := fun (l : List Src) => l.map (fun y => (y, t.regs))
     UniGives (.kadd g t sat kd a b) g (all [a, b]) kd (n (fun k => v k a + v k b)) (fl (fun k => v k a + v k b))
     ∧ UniGives (.ksub g t sat kd a b) g (all [a, b]) kd (n (fun k => v k a - v k b)) (fl (fun k => v k a - v k b))
     ∧ UniGives (.kmul g t kd a b) g (all [a, b]) kd (fun k _ => low t (v k a * v k b)) quiet
     ∧ UniGives (.kmad g t sat kd a b c) g (all [a, b, c]) kd (n (fun k => v k a * v k b + v k c)) (fl (fun k => v k a * v k b + v k c))
     ∧ UniGives (.kand g t kd a b) g (all [a, b]) kd (fun k _ => (w k a &&& w k b).toNat) quiet
     ∧ UniGives (.kor g t kd a b) g (all [a, b]) kd (fun k _ => (w k a ||| w k b).toNat) quiet
     ∧ UniGives (.kxor g t kd a b) g (all [a, b]) kd (fun k _ => (w k a ^^^ w k b).toNat) quiet
     ∧ UniGives (.kshl g t kd a b) g [(a, t.regs), (b, 2)] kd (fun k _ => if ltBits t ≤ amt k then 0 else (w k a <<< amt k).toNat) quiet
     ∧ UniGives (.kshr g t kd a b) g [(a, t.regs), (b, 2)] kd (fun k _ => if ltBits t ≤ amt k then 0 else (w k a >>> amt k).toNat) quiet
     ∧ UniGives (.ksar g t kd a b) g [(a, t.regs), (b, 2)] kd (fun k _ => ((w k a).sshiftRight (min (amt k) (ltBits t))).toNat) quiet
     ∧ UniGives (.kmin g t kd a b) g (all [a, b]) kd (fun k _ => low t (min (v k a) (v k b))) quiet
     ∧ UniGives (.kmax g t kd a b) g (all [a, b]) kd (fun k _ => low t (max (v k a) (v k b))) quiet
     ∧ (∀ qs, UniGives (.ksel g t kd a b qs) g (all [a, b]) kd (fun k q => if pselUni q qs then uval t k a else uval t k b) quiet)
     ∧ UniGives (.kmov g t kd a) g (all [a]) kd (fun k _ => uval t k a) quiet
     ∧ UniGives (.kmovi g t false kd a) g (all [a]) kd (fun k _ => uval t k a) quiet
     ∧ UniGives (.kmovi g t true kd a) g [(a, 1)] kd
         (fun k _ => (readK k n32 a) * 2 ^ 32 + (sget 0 k kd.toNat).toNat % 2 ^ 32) quiet)
  ∧ (∀ (g : Guard) (t : LaneTy) (qd a b c : BitVec 3) (lut : BitVec 8) (x y : Src),
      let n := fun (v : Bool) => if v then 1 else 0
      (∀ cond, UniTests (.kcmp g cond t qd x y) g [(x, t.regs), (y, t.regs)] qd (fun k _ => holdsI cond (asInt t (uval t k x)) (asInt t (uval t k y))))
      ∧ UniTests (.plop g true qd a b c lut) g [] qd
          (fun _ q => lut.getLsbD (4 * n (uniBit q a.toNat) + 2 * n (uniBit q b.toNat) + n (uniBit q c.toNat))))
  ∧ (∀ (g : Guard) (t : LaneTy) (kd : BitVec 6) (d : Dst) (a n : Src),
      (∀ (s : State) (x : Turn), turnOf s = some x → (Instr.kreadlane g t kd a n).wf = true →
        gangReady s x { guard := g, srcs := [n], kdst := [kd], lsrcs := [(a, t.regs)] } = true →
        let l := (x.uni n).toNat % 64
        poisonLanes x.g (srcBad t.regs a) (laneBit l &&& x.g.live) = 0 →
        ∃ u y, exec (.kreadlane g t kd a n) s = .next u ∧ getGang u x.blk x.gang = some y
          ∧ sget 0 y.k kd.toNat =
              (if x.g.live.getLsbD l = false then 0
               else if t = .s32 then (BitVec.ofNat 32 (x.rd l (ltRead t) a)).signExtend 64
               else BitVec.ofNat 64 (x.rd l (ltRead t) a))
          ∧ (∀ m, m ≠ kd.toNat → sget 0 y.k m = sget 0 x.g.k m) ∧ y.v = x.g.v ∧ y.o = x.g.o ∧ y.q = x.g.q
          ∧ u = modGang s x.blk x.gang (fun _ => y) ∧ (∀ j, j < 64 → x.g.live.getLsbD j = true → sget 0 y.pc j = x.next))
      ∧ (∀ (s : State) (x : Turn), turnOf s = some x → (Instr.kbcast g t d a).wf = true →
        gangReady s x { guard := g, srcs := [a], words := [t.regs], ldst := some (d, t.regs) } = true →
        ∃ u y, exec (.kbcast g t d a) s = .next u ∧ getGang u x.blk x.gang = some y
          ∧ (∀ l, l < 64 → x.g.live.getLsbD l = true → received y l (.lane d t.regs) (readK x.g.k (ltRead t) a))
          ∧ (∀ m l, l < 64 → x.g.live.getLsbD l = false ∨ m ∉ dstNames t.regs d → sget 0 y.v (reg m l) = sget 0 x.g.v (reg m l))
          ∧ y.k = x.g.k ∧ y.q = x.g.q ∧ u = modGang s x.blk x.gang (fun _ => y)
          ∧ (∀ j, j < 64 → x.g.live.getLsbD j = true → sget 0 y.pc j = x.next)))
/-! ### Encodings -/

/-- 02 R29 to R43: every well-formed instruction decodes from its own words, with every operand. -/
def Obligations.EncodingRoundTrip : Prop :=
  ∀ (i : Instr) (x : Enc), i.wf = true → encode i = some x → decodeBits (joinBits x) = .ok i x.ext.bytes

/-- 02 R43: what decodes is a well-formed instruction of 8, 12 or 16 bytes. -/
def Obligations.DecodedIsWellFormed : Prop :=
  ∀ (w : BitVec 128) (i : Instr) (n : Nat), decodeBits w = .ok i n → i.wf = true ∧ (n = 8 ∨ n = 12 ∨ n = 16)

/-- 02 R31 to R37: no bit of a decoded word is dropped; NOP alone ignores its immediate (11 R301). -/
def Obligations.DecodedWordIsTheEncoding : Prop :=
  ∀ (w : BitVec 128) (i : Instr) (n : Nat), decodeBits w = .ok i n → (∀ g f, i ≠ .nop g f) →
    ∃ x, encode i = some x ∧ x.ext.bytes = n ∧ (joinBits x).toNat = w.toNat % 2 ^ (8 * n)

/-- 02 R29, R32, R38, R43: length code 11, a reserved major opcode and guard code 1111 are no instructions. Where two causes
fit, the model's reading decides (log 17). -/
def Obligations.IllegalWords : Prop :=
  ∀ (w : BitVec 128),
    let code := (w.extractLsb' 0 2).toNat
    let major := (w.extractLsb' 2 8).toNat
    let size := if code = 0 then 8 else if code = 1 then 12 else 16
    let reserved := major = 0x1F ∨ (0x3A ≤ major ∧ major ≤ 0x3F) ∨ (0x55 ≤ major ∧ major ≤ 0x5F)
      ∨ (0x66 ≤ major ∧ major ≤ 0x6F) ∨ (0x76 ≤ major ∧ major ≤ 0x7F) ∨ (0x8A ≤ major ∧ major ≤ 0x8F)
      ∨ (0x96 ≤ major ∧ major ≤ 0x9F) ∨ (0xAA ≤ major ∧ major ≤ 0xAF) ∨ (0xD4 ≤ major ∧ major ≤ 0xDF)
      ∨ (0xE9 ≤ major ∧ major ≤ 0xEF) ∨ 0xF0 ≤ major
    (code = 3 → decodeBits w = .illegal 1 8)
    ∧ (code ≠ 3 → reserved → decodeBits w = .illegal 2 size)
    ∧ (code ≠ 3 → w.extractLsb' 10 4 = 15 → ∃ c, decodeBits w = .illegal c size ∧ 2 ≤ c ∧ c ≤ 9)

/-- The words that the spec writes out decode to the instructions that it writes them for. -/
def Obligations.SampleWords : Prop :=
  decodeBits 0x083024240A408D0C = .ok (.ffma ⟨false, 3⟩ .f32 .rne (.o 2) (.v 10) (.l 1) (.inl 2)) 8
  ∧ decodeBits 0x000003E80100000004011C81 = .ok (.iadd .always .s32 false (.v 4) (.v 4) (.imm 1000)) 12
  ∧ decodeBits 0x02000D020501430B0000081408020482 =
      .ok (.pair (.iadd ⟨false, 1⟩ .n32 false (.v 8) (.v 8) (.k 5)) (.kadd ⟨false, 1⟩ .n64 false 5 (.k 5) (.inl 64))) 16
  ∧ decodeBits 0x00000FFC0200DCCC = .ok (.clmul .always (.v 3) (.v 2) (.inl (-1))) 8
  ∧ decodeBits 0x0430401404029DD4 = .ok (.topk .always (.v 10) (.v 4) (.v 5) (.inl 4)) 8
  ∧ decodeBits 0xFFFFFFE00000000000000405 = .ok (.bra ⟨false, 1⟩ 0xFFFFFFE0) 12
  ∧ decodeBits 0x0000000014001C14 = .ok (.callx .always (.v 20)) 8
  ∧ decodeBits 0x0000000305001C28 = .ok (.trap .always (.inl 5)) 8
  ∧ decodeBits 0x0000000000001C30 = .ok .rte 8

/-! ### Reset, the step and its invariant -/

/-- 14 R379, R387, R396 to R405 and 12 R333: what the spec says of the machine right after reset: not ready, no memory
initialised, no recovery and no trip, power state 1, the global parameters, and no context, queue, grid or work. The empty
lists of issues and of memory are the model's (log 2, 3). -/
def Obligations.ResetState : Prop :=
  let s := State.reset
  s.dev.ready = false ∧ s.dev.hbminit = false ∧ s.dev.recovery = false ∧ s.dev.tripped = false ∧ s.dev.power = 1
    ∧ s.dev.tripdie = 0 ∧ s.dev.reservoir = 4 ∧ s.dev.scrub = 24 ∧ s.dev.rise = 128 ∧ s.dev.fall = 128 ∧ s.dev.aging = 64
    ∧ s.dev.errRing = 0 ∧ s.dev.errEntries = 0 ∧ s.ctxs = [] ∧ s.queues = [] ∧ s.grids = [] ∧ s.blocks = [] ∧ s.forks = [] ∧ s.rqs = [] ∧ s.cur = [] ∧ s.mem = []

/-- The invariant holds after reset. The canonical form is the model's own. -/
def Obligations.ResetInv : Prop := State.reset.Inv

/-- Every step keeps the canonical form of every sparse store of memory. The canonical form is the model's own. -/
def Obligations.StepKeepsInv : Prop := ∀ (s t : State), s.Inv → step s = .next t → t.Inv

/-- 02 R29, R44: when an issue stands, its threads have not moved and the bytes at its address decode to an instruction, the
step is that instruction's meaning, with what follows from every step after it. That an issue stands in `State.cur` is the
model's way to say which instruction comes next (log 2). -/
def Obligations.StepRunsDecoded : Prop :=
  ∀ (s : State) (y z : Issuer) (rest : List Issuer) (i : Instr) (len : Nat) (bytes : W128),
    s.dev.power ≠ 0 → s.cur = y :: rest →
    let s0 := { s with cur := rest }
    stillThere s0 y = some z → fetchFor s0 z = some (.instr i len bytes) →
    (∃ w, decodeBits w = .ok i len ∧ w = bytes)
    ∧ step s = thenAfter (afterIssue z (exec i (startIssue s0 z len bytes)))

/-- 02 R29, R30, R44: what a fetch finds where the bytes of code can be read. The cause of an illegal word follows log 17. -/
def Obligations.FetchFindsBytes : Prop :=
  ∀ (s : State) (ctx core : Nat) (v : View) (a : W64) (base rest : List Byte) (len : Nat),
    a.toNat % 4 = 0 → fetchBytes s ctx core v a 8 = .ok base → lenBytes (base.headD 0) = len → len ≠ 0 →
    fetchBytes s ctx core v (a + 8) (len - 8) = .ok rest →
    let w := BitVec.ofNat 128 (natOf (base ++ rest))
    (a.toNat / 32 = (a.toNat + len - 1) / 32 → ∀ i n, decodeBits w = .ok i n → fetchAt s ctx core v a = .instr i n w)
    ∧ (a.toNat / 32 = (a.toNat + len - 1) / 32 → ∀ c n, decodeBits w = .illegal c n → fetchAt s ctx core v a = .illegal c n w)
    ∧ (a.toNat / 32 ≠ (a.toNat + len - 1) / 32 → fetchAt s ctx core v a = .bad { cls := 2, access := 4, va := a })

/-- Every instruction, event, packet, command and message of the table has a next state in every state: where the spec
raises a fault its delivery is that state. That no meaning stops is a property of the model. -/
def Obligations.EveryMeaningAnswersNext : Prop := ∀ (i : Instr) (s : State), ∃ t, exec i s = .next t

/-- 14 R397: a step stops only without power and without a reset at hand, and it never refuses. The stop is the model's (log
15). -/
def Obligations.StepStopsOnlyWithoutPower : Prop :=
  ∀ (s : State),
    (∀ r, step s ≠ .refused r)
    ∧ (∀ f, step s = .fault f ↔ (f = .noPower ∧ s.dev.power = 0 ∧ ∀ a b c rest, s.agenda ≠ .op (.deviceReset a b c) :: rest))

/-! ### Control flow and exceptions -/

/-- 11 R299, R300: branches, calls and returns where no guard-true thread has a fault.
11 R300: the faults of branches: a misaligned target, a full or an empty return stack, targets that differ. -/
def Obligations.BranchesCallsAndReturns : Prop :=
  (∀ (g : Guard) (disp : BitVec 32) (a : Src),
     let label := fun (x : Turn) (_ : Nat) => x.addr + disp.signExtend 64
     let operand := fun (x : Turn) (l : Nat) => BitVec.ofNat 64 (x.rd l (.int 64) a)
     let on := fun (x : Turn) (l : Nat) => l < 64 ∧ (x.on g).getLsbD l = true
     let aligned := fun (f : Turn → Nat → W64) (_ : State) (x : Turn) => ∀ l, on x l → (f x l).toNat % 4 = 0
     let one := fun (f : Turn → Nat → W64) (_ : State) (x : Turn) => ∀ l m, on x l → on x m → f x l = f x m
     let room := fun (_ : State) (x : Turn) => ∀ l, on x l → (retList x.g l).length < 4 + x.b.kd.sd
     let keep := fun (x : Turn) (l : Nat) => retList x.g l
     let push := fun (n : W64) (x : Turn) (l : Nat) => (x.addr + n) :: retList x.g l
     let none_ : MemDesc := { guard := g, srcs := [] }
     let one_ : MemDesc := { guard := g, srcs := [(a, 2)] }
     Branches (.bra g disp) none_ (aligned label) label keep
     ∧ FeederPlaces (.bra g disp) { guard := g, srcs := [], feederOk := true } (fun _ _ _ => True)
         (fun s x _ => modFeeder s x.blk (fun f => { f with pc := x.addr + disp.signExtend 64 }))
     ∧ Branches (.brx g a) one_ (aligned operand) operand keep
     ∧ Branches (.brxu g a) one_ (fun s x => aligned operand s x ∧ one operand s x) operand keep
     ∧ Branches (.call g disp) none_ (fun s x => aligned label s x ∧ room s x) label (push 12)
     ∧ Branches (.callx g a) one_ (fun s x => aligned operand s x ∧ room s x) operand (push 8)
     ∧ Branches (.callxu g a) one_ (fun s x => aligned operand s x ∧ room s x ∧ one operand s x) operand (push 8)
     ∧ Branches (.ret g) none_
         (fun _ x => ∀ l, on x l → retList x.g l ≠ [] ∧ ((retList x.g l).headD 0).toNat % 4 = 0 ∧ refillBad x.g l = false)
         (fun x l => (retList x.g l).headD 0) (fun x l => (retList x.g l).tail))
  ∧ (∀ (g : Guard) (a : Src) (s : State) (x : Turn), turnOf s = some x →
      let taken := fun (i : Instr) (cls cause : Nat) =>
        ∃ f : Flt, f.cls = cls ∧ f.cause = cause
          ∧ exec i s = .next (noted s x (raiseGang s x.blk x.gang 0 x.addr x.len x.insn f.lanes f))
      let d1 : MemDesc := { guard := g, srcs := [(a, 2)] }
      let d0 : MemDesc := { guard := g, srcs := [] }
      let first := lowestLane (x.on g)
      let depth := (sget ({} : RStack) x.g.rstack first).depth
      (memReady s x d1 = true → x.rd first (.int 64) a % 4 ≠ 0 → taken (.brx g a) 5 0)
      ∧ (memReady s x d1 = true → x.rd first (.int 64) a % 4 = 0 → depth = 4 + x.b.kd.sd → taken (.callx g a) 23 1)
      ∧ (memReady s x d0 = true → (topRet x.g first).toNat % 4 = 0 → depth = 0 → taken (.ret g) 23 2)
      ∧ (memReady s x d1 = true → (∃ l, l < 64 ∧ (x.on g).getLsbD l = true ∧ x.rd l (.int 64) a ≠ x.rd first (.int 64) a) →
          taken (.brxu g a) 22 1))
/-- 11 R301 to R303: NOP changes nothing but the place of its threads; EXIT ends its guard-true threads; YIELD gives up the
gang's place when another gang can take it.
13 R358: TRAP and BKPT take the trap and the breakpoint exception, precise at the instruction. -/
def Obligations.NopExitYieldTrapBreakpoint : Prop :=
  (∀ (g : Guard) (f : LenForm),
     let gives := fun (s : State) (x : Turn) =>
       (x.on g ||| x.g.parked ||| x.g.atSwap) &&& x.g.live == x.g.live && (getCore s x.b.core).pendReady
     MemGives (.nop g f) { guard := g, srcs := [] } (fun _ _ => True) (fun s _ => s)
     ∧ FeederGives (.nop g f) { guard := g, srcs := [], feederOk := true } (fun _ _ _ => True) (fun s _ _ => s)
     ∧ MemPlaces (.exit g) { guard := g, srcs := [] } (fun _ _ => True)
         (fun s x => endThreads s x.b.id x.gang (x.on g) x.addr)
     ∧ FeederPlaces (.exit g) { guard := g, srcs := [], feederOk := true } (fun _ _ _ => True) (fun s x _ => endFeeder s x.blk)
     ∧ MemGives (.yield g) { guard := g, srcs := [], swap := true }
         (fun s x => gives s x = true)
         (fun s x => modGang s x.b.id x.gang (fun y => { y with active := false, since := s.tick }))
     ∧ MemGives (.yield g) { guard := g, srcs := [], swap := true }
         (fun s x => gives s x = false) (fun s _ => s))
  ∧ (∀ (g : Guard) (n : Src),
      MemFaults (.trap g n) { guard := g, srcs := [(n, 1)] } (fun _ _ => True)
        (fun _ x => { cls := 29, cause := x.rd (lowestLane (x.on g)) (.int 16) n, lanes := x.on g })
      ∧ MemFaults (.bkpt g) { guard := g, srcs := [] } (fun s x => debugOn s x.b.ctx = false)
        (fun _ x => { cls := 30, lanes := x.on g }))
/-- 13 R355 to R357: a precise fault whose domain's action is HANDLER: the handler record is kept, the latches lose their
validity, every live thread continues at the handler address, and the registers stay. When a fault of an operand value is
raised follows log 36. -/
def Obligations.FaultEntersHandler : Prop :=
  ∀ (s : State) (b : Block) (g : Gang) (blk gi kind len : Nat) (addr : W64) (insn : W128) (lanes : Mask) (f : Flt),
    getBlk s blk = some b → sfind b.gangs gi = some g → g.exited = false → g.handler = none →
    let dom := regionOf s b.ctx b.region
    dom.action = 0 → dom.handler ≠ 0 → kind = 0 ∨ kind = 1 →
    ∃ y h, getGang (raiseGang s blk gi kind addr len insn lanes f) blk gi = some y ∧ y.handler = some h
      ∧ h.faulting = lanes ∧ h.len = len ∧ h.async = false
      ∧ h.report.cls = f.cls ∧ h.report.cause = f.cause ∧ h.report.kind = kind ∧ h.report.addr = addr ∧ h.report.mask = f.lanes
      ∧ h.report.insn = insn ∧ h.report.va = f.va ∧ h.report.ctx = b.ctx ∧ h.report.gang = gi
      ∧ (∀ l, l < 64 → g.live.getLsbD l = true → sget 0 h.resume l = sget 0 g.pc l ∧ sget 0 y.pc l = dom.handler)
      ∧ (∀ n, sget 0 y.latValid n = 0) ∧ y.wait = .none
      ∧ y.v = g.v ∧ y.o = g.o ∧ y.p = g.p ∧ y.k = g.k ∧ y.q = g.q ∧ y.live = g.live ∧ y.fstat = g.fstat ∧ y.draw = g.draw
      ∧ y.rstack = g.rstack ∧ y.regions = g.regions ∧ y.lat = g.lat

/-- 13 R359: RTE returns every live thread to its resume address and ends handler mode; .skip passes the faulting instruction
in the faulting threads; .rd reads the report and stays; outside handler mode each is a privilege fault of cause 11. -/
def Obligations.ReturnFromHandler : Prop :=
  ∀ (kd : BitVec 6) (w : BitVec 4) (s : State) (x : Turn), turnOf s = some x →
    let d : GangDesc := { guard := .always, srcs := [] }
    let dk : GangDesc := { guard := .always, srcs := [], kdst := [kd] }
    let back := fun (i : Instr) (to_ : HandlerRec → Nat → W64) => ∀ h, x.g.handler = some h →
      ∃ t y, exec i s = .next t ∧ getGang t x.blk x.gang = some y ∧ y.handler = none ∧ (∀ n, sget 0 y.latValid n = 0)
        ∧ (∀ l, l < 64 → x.g.live.getLsbD l = true → sget 0 y.pc l = to_ h l)
        ∧ y.v = x.g.v ∧ y.o = x.g.o ∧ y.p = x.g.p ∧ y.k = x.g.k ∧ y.q = x.g.q ∧ y.live = x.g.live ∧ y.fstat = x.g.fstat
    (gangReady s x d = true → back .rte (fun h l => sget 0 h.resume l))
    ∧ (gangReady s x d = true → back .rteSkip (fun h l =>
        if h.async = false ∧ h.faulting.getLsbD l = true then sget 0 h.resume l + BitVec.ofNat 64 h.len else sget 0 h.resume l))
    ∧ (gangReady s x dk = true → ∀ h, x.g.handler = some h → ∃ t y, exec (.rteRd kd w) s = .next t ∧ getGang t x.blk x.gang = some y
        ∧ sget 0 y.k kd.toNat = w64At (encodeReport h.report) (8 * w.toNat) ∧ y.handler = some h
        ∧ (∀ n, n ≠ kd.toNat → sget 0 y.k n = sget 0 x.g.k n)
        ∧ (∀ l, l < 64 → x.g.live.getLsbD l = true → sget 0 y.pc l = x.next))
    ∧ (x.g.handler = none →
        let turned := fun (i : Instr) => exec i s =
          .next (noted s x (raiseGang s x.blk x.gang 0 x.addr x.len x.insn x.g.live { cls := 3, cause := 11 }))
        (gangReady s x d = true → turned .rte ∧ turned .rteSkip) ∧ (gangReady s x dk = true → turned (.rteRd kd w)))

/-- 11 R304 to R309: EVBIND installs a binding, EVCTL changes PEND and EMASK and reads them with the bound slots.
11 R306, R310: WAITANY evaluates the level sources, then dispatches the lowest candidate or parks (.poll: goes on); with
nothing to wait for it is a privilege fault; a dispatch sets the three event registers and places the party at the handler. A
raise on a level slot follows log 23; that a gauge is read after the party's own accesses to it, and a translation that no
buffer holds awaited, follows log 21 and 10. -/
def Obligations.EventsAndWaits : Prop :=
  (∀ (g : Guard) (slot : BitVec 4) (a t m : Src) (ka kd : BitVec 6) (disp : BitVec 32),
     let bind := fun (e : EvSpec) => ({ guard := g, srcs := evSrcs e, feederOk := true, mem := true } : GangDesc)
     let label := fun (i : Iss) => i.addr + disp.signExtend 64
     let one : GangDesc := { guard := g, srcs := [m], feederOk := true }
     let mask := fun (k : Store W64) => ((readUni k m).setWidth 16 : BitVec 16)
     let any := fun (_ : State) (_ : Iss) (_ : Block) (_ : Store W64) => True
     PartyGives (.evbind g slot .none) (bind .none) any
       (fun s i _ _ => modEv s i.blk i.party (fun e =>
         { e with slots := sdel e.slots slot.toNat, pend := e.pend &&& ~~~(1#16 <<< slot.toNat) }))
     ∧ PartyGives (.evbind g slot (.bar a disp)) (bind (.bar a disp)) (fun _ _ b k => (readUni k a).toNat < b.kd.nbar)
       (fun s i _ k => bindSlot s i slot.toNat { kind := 1, idx := (readUni k a).toNat, handler := label i })
     ∧ PartyFaults (.evbind g slot (.bar a disp)) (bind (.bar a disp)) (fun _ _ b k => b.kd.nbar ≤ (readUni k a).toNat)
       (fun _ _ _ k => resourceFault 0 (readUni k a))
     ∧ PartyFaults (.evbind g slot (.mbox a disp)) (bind (.mbox a disp)) (fun _ _ b k => b.kd.nmbox ≤ (readUni k a).toNat)
       (fun _ _ _ k => resourceFault 1 (readUni k a))
     ∧ (∀ l, PartyGives (.evbind g slot (.gauge ka t disp)) (bind (.gauge ka t disp))
       (fun s i b k => gaugePlace s b .watch .page (sget 0 k ka.toNat) = .ok l ∧ gaugeOwed s b i.party l = false
         ∧ tlbHolds s b.ctx b.core (sget 0 k ka.toNat).toNat = true)
       (fun s i _ k => bindSlot s i slot.toNat { kind := 2, loc := l, target := readUni k t, handler := label i }))
     ∧ (∀ l r, PartyWaits (.evbind g slot (.gauge ka t disp)) (bind (.gauge ka t disp))
       (fun s i b k => gaugePlace s b .watch .page (sget 0 k ka.toNat) = .ok l ∧ gaugeOwed s b i.party l = false
         ∧ missAt s b.ctx b.core (partyRef b.id i.party) (sget 0 k ka.toNat) = some r)
       (fun _ _ _ _ => r) (fun _ _ _ _ => .blocked))
     ∧ PartyGives (.evbind g slot (.mbox a disp)) (bind (.mbox a disp)) (fun _ _ b k => (readUni k a).toNat < b.kd.nmbox)
       (fun s i _ k => bindSlot s i slot.toNat { kind := 3, idx := (readUni k a).toNat, handler := label i })
     ∧ PartyGives (.evbind g slot (.gate disp)) (bind (.gate disp)) any
       (fun s i _ _ => bindSlot s i slot.toNat { kind := 4, handler := label i })
     ∧ (∀ q r, PartyGives (.evbind g slot (.rq ka disp)) (bind (.rq ka disp))
       (fun s i b k => accessOwed b i.party = false ∧ openRq s b (sget 0 k ka.toNat) = .ok (q, r) ∧ warmed s b r)
       (fun _ i _ _ => bindSlot r i slot.toNat { kind := 5, idx := q.id, loc := { va := q.handle }, handler := label i }))
     ∧ (∀ q r w, PartyWaits (.evbind g slot (.rq ka disp)) (bind (.rq ka disp))
       (fun s i b k => accessOwed b i.party = false ∧ openRq s b (sget 0 k ka.toNat) = .ok (q, r) ∧ Colds s b i.party r w)
       (fun _ _ _ _ => w) (fun _ _ _ _ => .blocked))
     ∧ PartyGives (.evctlMask g m) one any (fun s i _ k => modEv s i.blk i.party (fun e => { e with emask := e.emask ||| mask k }))
     ∧ PartyGives (.evctlUnmask g m) one any (fun s i _ k => modEv s i.blk i.party (fun e => { e with emask := e.emask &&& ~~~(mask k) }))
     ∧ PartyGives (.evctlClr g m) one (fun s i _ k => maskOwed s i (mask k) = false) (fun s i _ k => clearPend s i (mask k))
     ∧ PartyGives (.evctlRaise g m) one any (fun s i _ k => modEv s i.blk i.party (fun e => raisePend e (mask k)))
     ∧ PartyGives (.evctlRead g kd) { guard := g, srcs := [], kdst := [kd], feederOk := true } any
       (fun s i _ _ => let e := partyEv s i.blk i.party
         setK s i.blk i.party kd (e.pend.setWidth 64 ||| (e.emask.setWidth 64 <<< 16) ||| ((boundMask e).setWidth 64 <<< 32))))
  ∧ (∀ (g : Guard) (c : Src),
      let d : GangDesc := { guard := g, srcs := [c], swap := true, feederOk := true }
      let dp : GangDesc := { guard := g, srcs := [c], feederOk := true }
      let mask := fun (k : Store W64) => ((readUni k c).setWidth 16 : BitVec 16)
      let usable := fun (s : State) (i : Iss) (k : Store W64) => let e := partyEv s i.blk i.party
        mask k &&& boundMask e &&& ~~~e.emask ≠ 0
      let seen := fun (s : State) (i : Iss) => evalLevels s i.blk i.party
      let found := fun (s : State) (i : Iss) (k : Store W64) => candidate (partyEv (seen s i) i.blk i.party) (mask k)
      let quiet := fun (s : State) (i : Iss) => maskOwed s i (BitVec.allOnes 16) = false
      (∀ n, PartyPlaces (.waitany g c) d (fun s i _ k => usable s i k ∧ quiet s i ∧ found s i k = some n)
          (fun s i _ _ => dispatchSlot (seen s i) i.blk i.party n (i.addr + BitVec.ofNat 64 i.len)))
      ∧ PartyWaits (.waitany g c) d (fun s i _ k => usable s i k ∧ quiet s i ∧ found s i k = none) (fun s i _ _ => seen s i)
          (fun _ _ _ k => .waitany (mask k))
      ∧ PartyFaults (.waitany g c) d (fun s i _ k => ¬usable s i k) (fun _ _ _ _ => { cls := 3, cause := 6 })
      ∧ (∀ n, PartyPlaces (.waitanyPoll g c) dp (fun s i _ k => quiet s i ∧ found s i k = some n)
          (fun s i _ _ => dispatchSlot (seen s i) i.blk i.party n (i.addr + BitVec.ofNat 64 i.len)))
      ∧ PartyGives (.waitanyPoll g c) dp (fun s i _ k => quiet s i ∧ found s i k = none) (fun s i _ _ => seen s i)
      ∧ (∀ (s : State) (b : Block) (y : Gang) (blk gi n : Nat) (ret : W64), getBlk s blk = some b → sfind b.gangs gi = some y → n < 16 →
          let x := sget ({} : EvSlot) y.ev.slots n
          ∃ z, getGang (dispatchSlot s blk (.gang gi) n ret) blk gi = some z
            ∧ z.ev.pend = y.ev.pend &&& ~~~(1#16 <<< n) ∧ z.ev.emask = y.ev.emask
            ∧ z.ev.srEv = BitVec.ofNat 32 (n + 16 * x.kind) ∧ z.ev.srEvpay = BitVec.ofNat 64 (slotPayload s b x) ∧ z.ev.srEvret = ret
            ∧ (∀ l, l < 64 → y.live.getLsbD l = true → sget 0 z.pc l = x.handler)
            ∧ z.v = y.v ∧ z.o = y.o ∧ z.p = y.p ∧ z.k = y.k ∧ z.q = y.q ∧ z.lat = y.lat ∧ z.live = y.live))
/-- 11 R296 to R298, 10 R286: SREAD.k and SWRITE move special registers; FENCE lets its threads go on when their earlier
accesses are performed (an acquire fence: their loads and atomics), and holds them until then.
11 R311 to R315, 13 R374: the region stack, its overflow and mismatch faults and its debug stops, the watch of MONITOR, and
MWAIT's answers. That a fence which waits issues again is the model's reading (log 22), that MWAIT takes the triggered mark
off with the watch log 23, and that a capture's stop at a mismatch comes before the fault log 52. -/
def Obligations.SpecialRegistersFencesRegionsWatches : Prop :=
  (∀ (g : Guard) (sr : BitVec 8) (kd : BitVec 6) (a : Src) (f : FenceKind) (sc : Scope),
     let d0 : MemDesc := { guard := g, srcs := [] }
     MemGives (.sreadK g sr kd) { guard := g, srcs := [], wide := true, kdst := [kd] } (fun _ x => sr = 0x1A → flagsPend x.g = false)
       (fun s x => setK s x.b.id (.gang x.gang) kd (BitVec.ofNat 64
         (srThread s x.b x.gang x.g 0 sr.toNat)))
     ∧ FeederGives (.sreadK g sr kd) { guard := g, srcs := [], feederOk := true } (fun _ _ _ => srIsGang sr.toNat = false)
       (fun s x b => setK s x.blk .feeder kd (BitVec.ofNat 64
         (match sr.toNat with
           | 0x10 => x.f.ev.srEv.toNat
           | 0x11 => x.f.ev.srEvpay.toNat
           | 0x12 => x.f.ev.srEvret.toNat
           | n => srBlock s b n)))
     ∧ FeederFaults (.sreadK g sr kd) { guard := g, srcs := [], feederOk := true } (fun _ _ _ => srIsGang sr.toNat = true)
       (fun _ _ _ => { cls := 13, cause := 2 })
     ∧ MemGives (.swrite g 0x12 a) { guard := g, srcs := [(a, 2)] } (fun _ _ => True)
       (fun s x => modGang s x.b.id x.gang (fun y =>
         { y with ev := { y.ev with srEvret := BitVec.ofNat 64 (x.rd (lowestLane (x.on g)) (.int 64) a) } }))
     ∧ MemGives (.swrite g 0x1A a) { guard := g, srcs := [(a, 1)] } (fun _ x => flagsPend x.g = false)
       (fun s x => modGang s x.b.id x.gang (fun y => { y with fstat := BitVec.ofNat 6 (x.rd (lowestLane (x.on g)) n32 a) }))
     ∧ MemGives (.fence g f sc) d0 (fun _ x => fenceWaits x.g (x.on g) f = false) (fun s _ => s)
     ∧ (∀ s x, turnOf s = some x → memReady s x d0 = true → fenceWaits x.g (x.on g) f = true →
         exec (.fence g f sc) s = .next (marked s x.frag x.addr x.mask 0 none)))
  ∧ (∀ (g : Guard) (a : Src) (ka kd : BitVec 6),
      let one : GangDesc := { guard := g, srcs := [a] }
      let d0 : GangDesc := { guard := g, srcs := [] }
      let dw : GangDesc := { guard := g, srcs := [], kdst := [kd], swap := true }
      let id := fun (x : Turn) => ((x.uni a).setWidth 16 : BitVec 16)
      let any := fun (_ : State) (_ : Turn) (_ : Block) (_ : Gang) => True
      let watch := fun (s : State) (x : Turn) (w : Watch) => modGang s x.blk x.gang (fun y => { y with watch := w })
      let ans := fun (s : State) (x : Turn) (v : W64) (w : Watch) => setK (watch s x w) x.blk (.gang x.gang) kd v
      GangGives (.rgenter g a) one (fun s x b _ => x.g.regions.length < 16 ∧ isStopId s b.ctx (id x) = false)
        (fun s x _ _ => regionRecord (modGang s x.blk x.gang (fun y => { y with regions := id x :: y.regions })) x.blk x.gang 3 x.addr)
      ∧ GangFaults (.rgenter g a) one (fun _ x _ _ => 16 ≤ x.g.regions.length)
        (fun _ x _ _ => { cls := 23, cause := 3, w := [(id x).setWidth 64] })
      ∧ GangGives (.rgleave g a) one (fun s _ b _ => debugOn s b.ctx = false)
        (fun s x _ _ => regionRecord (modGang s x.blk x.gang (fun y => { y with regions := y.regions.drop 1, stopNext := false }))
          x.blk x.gang 4 x.addr)
      ∧ GangGives (.rgleave g a) one (fun s x b y => debugOn s b.ctx = true ∧ x.g.regions.head? = some (id x)
          ∧ (isStopId s b.ctx (id x) = false ∨ y.stopNext = true))
        (fun s x _ _ => regionRecord (modGang s x.blk x.gang (fun y => { y with regions := y.regions.drop 1, stopNext := false }))
          x.blk x.gang 4 x.addr)
      ∧ GangPlaces (.rgenter g a) one (fun s x b _ => x.g.regions.length < 16 ∧ isStopId s b.ctx (id x) = true)
        (fun s x _ _ =>
          let t := regionRecord (modGang s x.blk x.gang (fun y => { y with regions := id x :: y.regions })) x.blk x.gang 3 x.addr
          modGang (debugStop t x.blk x.gang x.addr x.insn x.g.live x.len false) x.blk x.gang (fun y => { y with parked := y.live }))
      ∧ GangPlaces (.rgleave g a) one (fun s x b y => y.stopNext = false ∧ (isStopId s b.ctx (id x) = true
          ∨ debugOn s b.ctx = true ∧ x.g.regions.head? ≠ some (id x) ∧ stopsOnMismatch s b.ctx = true))
        (fun s x _ _ => modGang (debugStop s x.blk x.gang x.addr x.insn x.g.live 0 false) x.blk x.gang
          (fun y => { y with stopNext := true, parked := y.live }))
      ∧ GangPlaces (.rgleave g a) one (fun s x b y => debugOn s b.ctx = true ∧ x.g.regions.head? ≠ some (id x)
          ∧ (y.stopNext = true ∨ isStopId s b.ctx (id x) = false ∧ stopsOnMismatch s b.ctx = false))
        (fun s x _ _ => raiseGang (modGang s x.blk x.gang (fun y => { y with stopNext := false })) x.blk x.gang 0 x.addr x.len x.insn
          x.g.live { cls := 23, cause := 4, w := [(id x).setWidth 64, ((x.g.regions.head?).getD 0).setWidth 64] })
      ∧ (∀ l, GangGives (.monitor g ka a) { guard := g, srcs := [.k ka, a], mem := true }
        (fun s x b _ => gaugePlace s b .watch .page (x.k ka + x.uni a) = .ok l
          ∧ tlbHolds s b.ctx b.core (x.k ka + x.uni a).toNat = true)
        (fun s x _ _ => watch s x { va := x.k ka + x.uni a, loc := l, armed := true }))
      ∧ (∀ l r, GangWaits (.monitor g ka a) { guard := g, srcs := [.k ka, a], mem := true }
        (fun s x b _ => gaugePlace s b .watch .page (x.k ka + x.uni a) = .ok l
          ∧ missAt s b.ctx b.core (gangRef b.id x.gang) (x.k ka + x.uni a) = some r)
        (fun _ _ _ _ => r) (fun _ _ _ _ => .blocked))
      ∧ GangGives (.monitorClr g) d0 any
        (fun s x _ _ => modGang s x.blk x.gang (fun y => { y with watch := { y.watch with armed := false } }))
      ∧ GangGives (.mwait g kd) dw (fun _ x _ _ => x.g.watch.restored = true) (fun s x _ y => ans s x 1 { y.watch with restored := false })
      ∧ GangGives (.mwait g kd) dw (fun _ x _ _ => x.g.watch.restored = false ∧ x.g.watch.triggered = true)
        (fun s x _ y => ans s x 0 { y.watch with armed := false, triggered := false })
      ∧ GangGives (.mwait g kd) dw (fun _ x _ _ => x.g.watch.restored = false ∧ x.g.watch.triggered = false ∧ x.g.watch.armed = false)
        (fun s x _ y => ans s x 2 y.watch)
      ∧ GangWaits (.mwait g kd) dw (fun _ x _ _ => x.g.watch.restored = false ∧ x.g.watch.triggered = false ∧ x.g.watch.armed = true)
        (fun s _ _ _ => s) (fun _ _ _ _ => .mwait kd))
/-- 07 R207, R208, 12 R343, 01 R18: WAITC goes on when the counter it names is at most n; GROW goes on with what the gang holds
or waits for a grant; SHRINK drops the registers at and above n; PHASE, when the whole block is ready, begins the next phase.
That a waiting instruction issues again is the model's reading (log 22, 34). -/
def Obligations.CountersPoolAndPhase : Prop :=
  ∀ (g : Guard) (c : WaitClass) (n : Src),
    let d : GangDesc := { guard := g, srcs := [n], swap := true }
    let least := fun (x : Turn) => min 63 (x.uni n).toNat
    let ds : GangDesc := { guard := g, srcs := [n] }
    let dp : GangDesc := { guard := g, srcs := [], swap := true, mem := true }
    let want := fun (x : Turn) => (x.uni n).toNat
    let few := fun (x : Turn) (b : Block) => want x % 8 = 0 ∧ 8 * b.kd.rmin ≤ want x
    GangGives (.waitc g c n) d (fun _ x _ _ => waitcMet x.g c (least x) = true) (fun s _ _ _ => s)
    ∧ GangWaits (.waitc g c n) d (fun _ x _ _ => waitcMet x.g c (least x) = false) (fun s _ _ _ => s)
      (fun _ x _ _ => .waitc c (least x))
    ∧ GangGives (.grow g n) d (fun _ x b _ => few x b ∧ want x ≤ 8 * b.kd.rmax ∧ want x ≤ x.g.alloc) (fun s _ _ _ => s)
    ∧ (∀ cx, GangWaits (.grow g n) d (fun s x b _ => few x b ∧ want x ≤ 8 * b.kd.rmax ∧ x.g.alloc < want x ∧ getCtx s b.ctx = some cx
          ∧ b.chunks + (want x - x.g.alloc) / 8 ≤ min 384 (min cx.chunks (minRegshare cx b.region)))
        (fun s x b _ => modCore s b.core (fun c => { c with growQ := c.growQ ++ [(b.id, x.gang)] })) (fun _ x _ _ => .grow (want x)))
    ∧ GangGives (.shrink g n) ds (fun _ x b _ => few x b ∧ x.g.alloc ≤ want x) (fun s _ _ _ => s)
    ∧ GangGives (.shrink g n) ds (fun _ x b _ => few x b ∧ want x < x.g.alloc)
      (fun s x _ _ => modGang s x.blk x.gang (fun y => dropRegs y (want x)))
    ∧ GangFaults (.shrink g n) ds (fun _ x b _ => ¬few x b) (fun _ x _ _ => { cls := 3, cause := 4, w := [x.uni n] })
    ∧ GangPlaces (.phase g) dp (fun s x b y => owesChecksum b y phaseBar = false ∧ (∀ c, c ∈ [0, 2, 3] → classCount y c = 0)
          ∧ phaseReady s b x.gang = true ∧ openForks s b = [] ∧ b.stat ≠ .killed
          ∧ ctxHalted s b.ctx = false ∧ boundaryFault b = none ∧ matrixHeld s b = false)
        (fun s x _ _ => passPhase (pastPhase s x.blk x.gang x.addr x.len) x.blk)
    ∧ GangWaits (.phase g) dp (fun s x b y => owesChecksum b y phaseBar = false
          ∧ ((∃ c, c ∈ [0, 2, 3] ∧ classCount y c ≠ 0) ∨ phaseReady s b x.gang = false))
        (fun s _ _ _ => s) (fun _ _ _ _ => .phase)

/-- 07 R187 to R194, R203, 08 R232: a global load or store checks the translated places of its guard-true threads, becomes an
outstanding operation with those places and, for a store, its bytes, and its threads go on; a failed check is a precise fault;
KLD and KST do the same for one place of a gang, and a feeder's take effect at once. PFETCH fetches the lines that a translation
buffer serves and has a walk fetch the others. Which causes the checks report follows log 19, what holds a thread back log 21. -/
def Obligations.GlobalLoadsAndStores : Prop :=
  ∀ (g : Guard) (t : LaneTy) (kd : Kind) (sc : Scope) (ln : Bool) (d : Dst) (base off data : Src) (ka k1 : BitVec 6) (hits : List Hit)
    (f : Flt) (l : Loc),
    let n := ltBytes t
    let ld : MemDesc := { guard := g, mem := true, srcs := [(base, 2), (off, 1)], dst := some (d, t.regs), cls := some 0 }
    let ldk : MemDesc := { guard := g, mem := true, srcs := [(.k ka, 2), (off, 1)], dst := some (d, t.regs), cls := some 0 }
    let st : MemDesc := { guard := g, mem := true, srcs := [(base, 2), (off, 1), (data, t.regs)], cls := some 1 }
    let stk : MemDesc := { guard := g, mem := true, srcs := [(.k ka, 2), (off, 1), (data, t.regs)], cls := some 1 }
    let kld : GangDesc := { guard := g, srcs := [.k ka, off], kdst := [k1], feederOk := true, mem := true }
    let kst : GangDesc := { guard := g, srcs := [.k ka, off, data], words := [2, 2, t.regs], feederOk := true, mem := true }
    let at_ := fun (x : Turn) => x.each g (x.ea base off)
    let lined := fun (x : Turn) => x.each g (fun l => x.ea (.k ka) off l + BitVec.ofNat 64 (if ln then l * n else 0))
    let striped := fun (x : Turn) => x.each g (fun l => x.ea (.k ka) off l + BitVec.ofNat 64 (l * n))
    let ok := fun (need : Need) (access : Nat) (poison : Poi) (vas : Turn → List (Nat × W64)) (s : State) (x : Turn) =>
      checkGlobal s x.b.ctx x.b.core x.b.views need access n poison (vas x) = .ok hits
        ∧ walkRoom s x.b.ctx x.b.core ((vas x).map (·.2)) = true
    let bad := fun (need : Need) (access : Nat) (poison : Poi) (vas : Turn → List (Nat × W64)) (s : State) (x : Turn) =>
      checkGlobal s x.b.ctx x.b.core x.b.views need access n poison (vas x) = .error f
    let loads := fun (vas : Turn → List (Nat × W64)) (acq ro : Bool) (s : State) (x : Turn) =>
      let r := issueOp s x.b x.gang 0 (x.on g) ((vas x).map (·.2))
        (.load t n (.lane d) (hits.map (fun h => { lane := h.1, loc := h.2.loc })) acq ro)
      modGang r.2 x.b.id x.gang (fun y => pushPending y (x.on g) d t.regs r.1)
    let stores := fun (vas : Turn → List (Nat × W64)) (s : State) (x : Turn) =>
      (issueOp s x.b x.gang 1 (x.on g) ((vas x).map (·.2))
        (.store (hits.map (fun h => { lane := h.1, loc := h.2.loc, data := x.stored t data h.1 })) (isRel kd))).2
    let va := fun (k : Store W64) => sget 0 k ka.toNat + readUni k off
    let held := fun (s : State) (b : Block) (a : W64) => tlbHolds s b.ctx b.core a.toNat
    let lines := fun (x : Turn) => ((at_ x).map (·.2)).filter (fun va => va.toNat % 4 == 0 && decide (va.toNat < 2 ^ 57))
    MemGives (.ld g t kd sc d base off) ld (ok .rd 1 .all at_) (loads at_ (isAcq kd) false)
    ∧ MemFaults (.ld g t kd sc d base off) ld (bad .rd 1 .all at_) (fun _ _ => f)
    ∧ MemGives (.ldk g t ln d ka off) ldk (ok .rdk 1 .all lined) (loads lined false true)
    ∧ MemFaults (.ldk g t ln d ka off) ldk (bad .rdk 1 .all lined) (fun _ _ => f)
    ∧ MemGives (.st g t kd sc base off data) st (ok .wr 2 .no at_) (stores at_)
    ∧ MemFaults (.st g t kd sc base off data) st (bad .wr 2 .no at_) (fun _ _ => f)
    ∧ MemGives (.stk g t kd sc ka off data) stk (ok .wr 2 .no striped) (stores striped)
    ∧ MemFaults (.stk g t kd sc ka off data) stk (bad .wr 2 .no striped) (fun _ _ => f)
    ∧ MemGives (.pfetch g base off) { guard := g, srcs := [(base, 2), (off, 1)] }
      (fun s x => walkRoom s x.b.ctx x.b.core (lines x) = true)
      (fun s x => (lines x).foldl (fun s va => prefetch s x.b va) s)
    ∧ GangGives (.kld g t k1 ka off) kld (fun s x b y => checkUni s b .rd n .all (va x.g.k) = .ok l ∧ classFull y 0 = false
        ∧ walkRoom s b.ctx b.core [va x.g.k] = true)
      (fun s x b y => modGang (issueOp s b x.gang 0 y.live [va x.g.k] (.load t n (.uni k1) [{ lane := 0, loc := l }] false false)).2
        x.blk x.gang (fun y => markFirst y [kBase + k1.toNat] y.live))
    ∧ FeederGives (.kld g t k1 ka off) kld (fun s x b => checkUni s b .rd n .all (va x.f.k) = .ok l ∧ held s b (va x.f.k) = true)
      (fun s x b => setK (touchLine s l) x.blk .feeder k1 (extendUni t (locNat s b.views l n)))
    ∧ (∀ r, FeederWaits (.kld g t k1 ka off) kld
      (fun s x b => checkUni s b .rd n .all (va x.f.k) = .ok l ∧ missAt s b.ctx b.core (feederRef b.id) (va x.f.k) = some r)
      (fun _ _ _ => r) (fun _ _ _ => .blocked))
    ∧ PartyFaults (.kld g t k1 ka off) kld (fun s _ b k => checkUni s b .rd n .all (va k) = .error f) (fun _ _ _ _ => f)
    ∧ PartyFaults (.kst g t ka off data) kst (fun s _ b k => checkUni s b .wr n .no (va k) = .error f) (fun _ _ _ _ => f)
    ∧ GangGives (.kst g t ka off data) kst (fun s x b y => checkUni s b .wr n .no (va x.g.k) = .ok l ∧ classFull y 1 = false
        ∧ walkRoom s b.ctx b.core [va x.g.k] = true)
      (fun s x b y => (issueOp s b x.gang 1 y.live [va x.g.k]
        (.store [{ lane := 0, loc := l, data := le n (x.uni data).toNat }] false)).2)
    ∧ (∀ r, FeederWaits (.kst g t ka off data) kst
      (fun s x b => checkUni s b .wr n .no (va x.f.k) = .ok l ∧ missAt s b.ctx b.core (feederRef b.id) (va x.f.k) = some r)
      (fun _ _ _ => r) (fun _ _ _ => .blocked))
    ∧ (∀ r, FeederGives (.kst g t ka off data) kst
      (fun s x b => checkUni s b .wr n .no (va x.f.k) = .ok l ∧ held s b (va x.f.k) = true
        ∧ locWrite s b.views l (le n (x.uni data).toNat) = .ok r)
      (fun _ _ _ => r))

/-- 07 R182 to R186, R190, R202: scratchpad loads and stores of the block take effect at issue; those of the clique become
operations on the named core's scratchpad; LDQ decodes one group, lanes 24 to 63 taking zero; a range, clique, alignment,
poison or format fault is precise. Accesses of one bank's different words count replays (R184). That the clique's index has 64
bits is log 61. -/
def Obligations.ScratchpadLoadsAndStores : Prop :=
  ∀ (g : Guard) (t : LaneTy) (kd : Kind) (sc : Scope) (d : Dst) (base off data c : Src) (ter : Bool) (dm1 : BitVec 3) (grp : BitVec 6),
    let n := ltBytes t
    let lds := ldsDesc g t d base off
    let sts := stsDesc g t kd base off data
    let ldc := ldcDesc g t d base c off
    let stc := stcDesc g t base c data off
    let ldq := ldqDesc g d base off ter dm1
    let at_ := fun (x : Turn) => x.each g (x.spa base off)
    let own := fun (x : Turn) => (at_ x).map (fun p => (p.1, some x.b, p.2))
    let far := fun (s : State) (x : Turn) => x.each g (fun l => (cliqueBlock s x.b (x.rd l (.int 64) c), x.spa base off l))
    let free := fun (s : State) (x : Turn) (m : Nat) (l : List (Nat × Nat)) => spHeld s x.b x.gang x.g m l = false
    let still := fun (_ : State) (_ : Turn) (_ : Nat) (s : State) => s
    let depth := dm1.toNat + 1
    let size := ldqSize ter dm1
    let mine := fun (x : Turn) (as : List Nat) => spBanks x.b x.b as
    let low := fun (x : Turn) => (at_ x).filter (fun p => decide (p.1 < 24))
    MemShares (.lds g t kd sc d base off) lds (fun s x => checkScratch 1 n n true (own x) = none ∧ free s x n (at_ x))
      (fun s x => modGang s x.b.id x.gang (fun y =>
        landAll y d t.regs ((at_ x).map (fun p => (p.1, extendLoad t (natOf (spRead x.b p.2 n)))))))
      still (fun _ x => mine x ((at_ x).map (·.2)))
    ∧ MemShares (.sts g t kd sc base off data) sts (fun s x => checkScratch 2 n n false (own x) = none ∧ free s x n (at_ x))
      (fun s x => modBlk s x.b.id (fun b => spClear b ((at_ x).map (fun p => (p.2, x.stored t data p.1)))))
      (fun _ x l s => modBlk s x.b.id (fun b => spPut b [(x.spa base off l, x.stored t data l)])) (fun _ x => mine x ((at_ x).map (·.2)))
    ∧ (∀ f, MemFaults (.lds g t kd sc d base off) lds (fun _ x => checkScratch 1 n n true (own x) = some f) (fun _ _ => f))
    ∧ (∀ f, MemFaults (.sts g t kd sc base off data) sts (fun _ x => checkScratch 2 n n false (own x) = some f) (fun _ _ => f))
    ∧ (∀ f, MemFaults (.ldc g t kd sc d base c off) ldc (fun s x => checkScratch 1 n n true (far s x) = some f) (fun _ _ => f))
    ∧ (∀ f, MemFaults (.stc g t kd sc base c data off) stc (fun s x => checkScratch 2 n n false (far s x) = some f) (fun _ _ => f))
    ∧ MemRanges (.lds g t kd sc d base off) lds 1 n (fun _ x => own x)
    ∧ MemRanges (.sts g t kd sc base off data) sts 2 n (fun _ x => own x)
    ∧ MemRanges (.ldc g t kd sc d base c off) ldc 1 n far
    ∧ MemRanges (.stc g t kd sc base c data off) stc 2 n far
    ∧ MemRanges (.ldq g t d base off ter dm1 grp) ldq 1 size (fun _ x => (low x).map (fun p => (p.1, some x.b, p.2)))
    ∧ (∀ f, MemFaults (.ldq g t d base off ter dm1 grp) ldq
        (fun _ x => checkScratch 1 size 128 true ((low x).map (fun p => (p.1, some x.b, p.2))) = some f) (fun _ _ => f))
    ∧ (∀ f, MemFaults (.ldq g t d base off ter dm1 grp) ldq
        (fun s x => checkScratch 1 size 128 true ((low x).map (fun p => (p.1, some x.b, p.2))) = none ∧ free s x size (low x)
          ∧ ldqFormat x.b ter depth (low x) = some f) (fun _ _ => f))
    ∧ MemShares (.ldc g t kd sc d base c off) ldc (fun s x => checkScratch 1 n n true (far s x) = none)
      (fun s x =>
        let r := issueOp s x.b x.gang 0 (x.on g) [] (.load t n (.lane d)
          ((far s x).map (fun p => { lane := p.1, loc := spLoc p.2.2, sp := some ((p.2.1.map (fun b => b.id)).getD 0) })) (isAcq kd) false)
        modGang r.2 x.b.id x.gang (fun y => pushPending y (x.on g) d t.regs r.1))
      still (fun s x => cliqueBanks x.b (far s x))
    ∧ MemShares (.stc g t kd sc base c data off) stc (fun s x => checkScratch 2 n n false (far s x) = none)
      (fun s x => (issueOp s x.b x.gang 1 (x.on g) [] (.store
        ((far s x).map (fun p => { lane := p.1, loc := spLoc p.2.2, sp := some ((p.2.1.map (fun b => b.id)).getD 0),
                                   data := x.stored t data p.1 })) (isRel kd))).2)
      still (fun s x => cliqueBanks x.b (far s x))
    ∧ MemShares (.ldq g t d base off ter dm1 grp) ldq
      (fun s x => checkScratch 1 size 128 true ((low x).map (fun p => (p.1, some x.b, p.2))) = none ∧ free s x size (low x)
        ∧ ldqFormat x.b ter depth (low x) = none)
      (fun s x => modGang s x.b.id x.gang (fun y => (x.parts g).foldl (fun y l =>
        let v := if l < 24 then ldqValue x.b (x.spa base off l) ter depth grp.toNat l else FVal.zero
        let r := roundF (ltFmt t) .rne 0 {} v
        raiseFlags (landAll y d 1 [(l, r.1)]) r.2) y))
      still (fun _ x => mine x ((low x).flatMap (fun p => (List.range (size / 16)).map (fun i => p.2 + 16 * i))))

/-- 07 R188, R193, R194: what a store leaves in memory: STS in the block's scratchpad; a store that is performed, and a
feeder's KST, in local memory outside any fork. The bytes at its places are the stored ones, and every byte elsewhere reads as
before. -/
def Obligations.StoredBytes : Prop :=
  (∀ (g : Guard) (t : LaneTy) (kd : Kind) (sc : Scope) (base off data : Src) (s : State) (x : Turn),
    turnOf s = some x → memReady s x (stsDesc g t kd base off data) = true →
    checkScratch 2 (ltBytes t) (ltBytes t) false ((x.each g (x.spa base off)).map (fun p => (p.1, some x.b, p.2))) = none →
    spPending x.g = false →
    ∃ u b, exec (.sts g t kd sc base off data) s = .next u ∧ getBlk u x.blk = some b
      ∧ (∀ a, (∀ l ∈ x.parts g, a < x.spa base off l ∨ x.spa base off l + ltBytes t ≤ a) →
          sget 0 b.scratch a = sget 0 x.b.scratch a)
      ∧ (∀ l ∈ x.parts g, (∀ m ∈ x.parts g, m ≠ l → x.spa base off m ≠ x.spa base off l) → ∀ j, j < ltBytes t →
          sget 0 b.scratch (x.spa base off l + j) = (x.stored t data l).getD j 0)
      ∧ u.mem = s.mem ∧ u.hostMem = s.hostMem ∧ u.peerMem = s.peerMem)
  ∧ (∀ (s : State) (blk gang op : Nat) (b : Block) (y : Gang) (o : Op) (acc : List LaneAcc) (rel : Bool) (key : Nat),
    OpTurn s blk gang op (opRel o) b y o → o.body = .store acc rel → o.sampled = none → o.group = 0 → s.forks = [] → b.views = [] →
    (∀ x ∈ acc, x.sp = none ∧ x.fin = false ∧ x.loc.ap = 0 ∧ x.loc.key = key) →
    ∃ u, exec (.storePerformed blk gang op) s = .next u
      ∧ (∀ a, (∀ x ∈ acc, a < x.loc.addr ∨ x.loc.addr + x.data.length ≤ a) →
          hbmRead u (keyMat s key) a 1 = hbmRead s (keyMat s key) a 1)
      ∧ (∀ x ∈ acc, (∀ z ∈ acc, z ≠ x → z.loc.addr + z.data.length ≤ x.loc.addr ∨ x.loc.addr + x.data.length ≤ z.loc.addr) →
          hbmRead u (keyMat s key) x.loc.addr x.data.length = x.data)
      ∧ u.hostMem = s.hostMem ∧ u.peerMem = s.peerMem)
  ∧ (∀ (g : Guard) (t : LaneTy) (ka : BitVec 6) (off data : Src) (s : State) (x : FTurn) (b : Block) (l : Loc),
    fturnOf s = some x → feederCan s x { guard := g, srcs := [.k ka, off, data], words := [2, 2, t.regs], feederOk := true, mem := true } = true →
    getBlk (feederSees s x) x.blk = some b →
    checkUni (feederSees s x) b .wr (ltBytes t) .no (x.k ka + x.uni off) = .ok l → l.ap = 0 → s.forks = [] → b.views = [] →
    tlbHolds (feederSees s x) b.ctx b.core (x.k ka + x.uni off).toNat = true →
    ∃ u, exec (.kst g t ka off data) s = .next u
      ∧ (∀ a, a < l.addr ∨ l.addr + ltBytes t ≤ a → hbmRead u (keyMat s l.key) a 1 = hbmRead s (keyMat s l.key) a 1)
      ∧ hbmRead u (keyMat s l.key) l.addr (ltBytes t) = le (ltBytes t) (x.uni data).toNat
      ∧ u.hostMem = s.hostMem ∧ u.peerMem = s.peerMem)

/-- 07 R195 to R198, R204 to R206, 06 R176: a global atomic becomes an operation with one request for each place; a scratchpad
atomic takes effect at issue, lane after lane; each lane receives the value before its own step; the steps of an integer
atomic; WSIG becomes an operation with payloads and gauges. -/
def Obligations.Atomics : Prop :=
  (∀ (g : Guard) (op : AtomOp) (fop : AtomFOp) (w64 : Bool) (ord : Order) (sc : Scope) (d : Dst) (base off v cmp : Src)
      (hits : List Hit),
    let desc := fun (w64 : Bool) (cmp : Src) =>
      ({ guard := g, mem := true, srcs := [(base, 2), (off, 1), (v, if w64 then 2 else 1), (cmp, if w64 then 2 else 1)],
         dst := some (d, if w64 then 2 else 1), cls := some 2 } : MemDesc)
    let gives := fun (i : Instr) (k : AtomKind) (w64 : Bool) (cmp : Src) =>
      ∀ (s : State) (x : Turn), turnOf s = some x → memReady s x (desc w64 cmp) = true →
        let m := memState s x (desc w64 cmp)
        let n := if w64 then 8 else 4
        let vas := x.each g (x.ea base off)
        checkGlobal m x.b.ctx x.b.core x.b.views .rw 3 n .all vas = .ok hits → orderDependent x.b m k hits = none →
        walkRoom m x.b.ctx x.b.core (vas.map (·.2)) = true →
        let r := issueOp m x.b x.gang 2 (x.on g) (vas.map (·.2)) (.atomic (n / 4) d (x.parts g) (ordAcq ord) (ordRel ord))
        let s2 := modGang r.2 x.b.id x.gang (fun y => pushPending y (x.on g) d (n / 4) r.1)
        let asked := hits.foldl (fun rs h =>
          let a : AtomLane := { blk := x.b.id, gang := x.gang, op := r.1, lane := h.1,
                                opnd := BitVec.ofNat 64 (x.rd h.1 (atomReadAs k n) v), cmp := BitVec.ofNat 64 (x.rd h.1 (atomReadAs k n) cmp) }
          rs.filter (fun q => q.id != 0) ++ combineAtom s2 w64 k (rs.filter (fun q => q.id == 0)) h.2.loc a) s2.atoms
        let t := noted s x (went x x.mask { s2 with atoms := asked })
        exec i s = .next { t with atoms := t.atoms.zipIdx.map (fun p => if p.1.id = 0 then { p.1 with id := t.nextId + p.2 } else p.1),
                                  nextId := t.nextId + t.atoms.length }
    gives (.atom g op w64 ord sc d base off v) (.int op) w64 (.inl 0)
    ∧ gives (.atomcas g w64 ord sc d base cmp v off) .cas w64 cmp
    ∧ gives (.atomf g fop ord sc d base off v) (.flt fop) false (.inl 0))
  ∧ (∀ (g : Guard) (op : AtomOp) (w64 : Bool) (ord : Order) (d : Dst) (base off v cmp : Src),
    let n := if w64 then 8 else 4
    let desc := fun (cmp : Src) => atomsDesc w64 ord g d base off v cmp
    let at_ := fun (x : Turn) => x.each g (x.spa base off)
    let free := fun (s : State) (x : Turn) =>
      checkScratch 3 n n true ((at_ x).map (fun p => (p.1, some x.b, p.2))) = none ∧ spHeld s x.b x.gang x.g n (at_ x) = false
    let step := fun (k : AtomKind) (cmp : Src) (_ : State) (x : Turn) (l : Nat) (s : State) =>
      let old := ((getBlk s x.b.id).map (fun b => natOf (spRead b (x.spa base off l) n))).getD 0
      let new := (atomStep k (8 * n) old (x.rd l (.int (8 * n)) v) (x.rd l (.int (8 * n)) cmp)).1
      modGang (spWrite s x.b.id [(x.spa base off l, le n new)]) x.b.id x.gang (fun y => landAll y d (n / 4) [(l, old)])
    let banks := fun (_ : State) (x : Turn) => spBanks x.b x.b ((at_ x).map (·.2))
    let own := fun (_ : State) (x : Turn) => (at_ x).map (fun p => (p.1, some x.b, p.2))
    MemShares (.atoms g op w64 ord d base off v) (desc (.inl 0)) free (fun s _ => s) (step (.int op) (.inl 0)) banks
    ∧ MemShares (.atomscas g w64 ord d base cmp v off) (desc cmp) free (fun s _ => s) (step .cas cmp) banks
    ∧ MemRanges (.atoms g op w64 ord d base off v) (desc (.inl 0)) 3 n own
    ∧ MemRanges (.atomscas g w64 ord d base cmp v off) (desc cmp) 3 n own)
  ∧ (∀ (op : AtomOp) (w64 : Bool) (old v : Nat),
    let w := if w64 then 64 else 32
    let ts : LaneTy := if w64 then .s64 else .s32
    old < 2 ^ w → v < 2 ^ w →
    let new := (atomStep (.int op) w old v 0).1
    new < 2 ^ w ∧ (match op with
      | .add => new = (old + v) % 2 ^ w
      | .smin => asInt ts new = min (asInt ts old) (asInt ts v)
      | .smax => asInt ts new = max (asInt ts old) (asInt ts v)
      | .and => new = old &&& v
      | .or => new = old ||| v
      | .xor => new = old ^^^ v
      | .exch => new = v
      | .nmin => new = min old v
      | .nmax => new = max old v))
  ∧ (∀ (g : Guard) (w64 : Bool) (sc : Scope) (base data gaddr off : Src) (ps gs : List Hit),
    let n := if w64 then 8 else 4
    let pas := fun (x : Turn) => x.each g (x.ea base off)
    let gas := fun (x : Turn) => x.each g (fun l => BitVec.ofNat 64 (x.rd l (.int 64) gaddr))
    MemGives (.wsig g w64 sc base data gaddr off)
      { guard := g, mem := true, srcs := [(base, 2), (data, n / 4), (gaddr, 2), (off, 1)], cls := some 1 }
      (fun s x => checkWsig s x.b n (pas x) (gas x) = .ok (ps, gs) ∧ walkRoom s x.b.ctx x.b.core ((pas x ++ gas x).map (·.2)) = true)
      (fun s x => (issueOp s x.b x.gang 1 (x.on g) ((pas x ++ gas x).map (·.2))
        (.wsig (ps.map (fun h => { lane := h.1, loc := h.2.loc, data := le n (x.rd h.1 (.int (8 * n)) data) }))
          (gs.map (fun h => (h.1, h.2.loc))) false)).2))

/-- 09 R238, R264 to R268: the gate, the banks' claims, the clique's coop gauge, restart regions, and what MSTAT reads. The
previous holder and the snapshot are the model's readings (log 25). -/
def Obligations.MatrixGateAndState : Prop :=
  ∀ (g : Guard) (bank s32 : Bool) (kd kg : BitVec 6) (qd : BitVec 3) (a : Src) (disp : BitVec 32),
    let d0 : GangDesc := { guard := g, srcs := [] }
    let dt : GangDesc := { guard := g, srcs := [], swap := true }
    let dk : GangDesc := { guard := g, srcs := [], kdst := [kd] }
    let dc : GangDesc := { guard := g, srcs := [a, .k kg], kdst := [kd], mem := true }
    let core := fun (s : State) (b : Block) => getCore s b.core
    let mine := fun (s : State) (x : Turn) (b : Block) => (core s b).gate = some (b.id, x.gang)
    let may := fun (s : State) (x : Turn) (b : Block) => gateBarred s (b.id, x.gang) = false
    let grant := fun (s : State) (x : Turn) (b : Block) => (core s b).gate = none ∧ gateGrantable s (b.id, x.gang) = true
    let put := fun (s : State) (x : Turn) (v : W64) => setK s x.blk (.gang x.gang) kd v
    let q := fun (s : State) (x : Turn) (v : Bool) => setQp s x.blk (.gang x.gang) qd v
    let any := fun (_ : State) (_ : Turn) (_ : Block) (_ : Gang) => True
    GangGives (.mgateTake g) dt (fun s x b _ => may s x b ∧ mine s x b)
      (fun s x b _ => modCore s b.core (fun c => { c with gateQ := c.gateQ.filter (fun p => p != (b.id, x.gang)) }))
    ∧ GangGives (.mgateTake g) dt (fun s x b _ => may s x b ∧ grant s x b ∧ (core s b).gateQ.any (gateGrantable s) = false)
      (fun s x b _ => takeGate s b.core b.id x.gang)
    ∧ GangWaits (.mgateTake g) dt (fun s x b _ => ¬may s x b
        ∨ (¬mine s x b ∧ ¬(grant s x b ∧ (core s b).gateQ.any (gateGrantable s) = false)))
      (fun s x b _ => modCore s b.core (fun c =>
        { c with gateQ := if c.gateQ.contains (b.id, x.gang) then c.gateQ else c.gateQ ++ [(b.id, x.gang)] })) (fun _ _ _ _ => .mgate)
    ∧ GangGives (.mgateTry g qd) d0 (fun s x b _ => may s x b ∧ mine s x b) (fun s x _ _ => q s x true)
    ∧ GangGives (.mgateTry g qd) d0 (fun s x b _ => may s x b ∧ grant s x b ∧ (core s b).gateQ = [])
      (fun s x b _ => q (takeGate s b.core b.id x.gang) x true)
    ∧ GangGives (.mgateTry g qd) d0 (fun s x b _ => ¬may s x b ∨ (¬mine s x b ∧ ¬(grant s x b ∧ (core s b).gateQ = [])))
      (fun s x _ _ => q s x false)
    ∧ GangGives (.mgateGive g) d0 (fun s x b _ => mine s x b) (fun s _ b _ => modCore s b.core (fun c => { c with gate := none }))
    ∧ GangFaults (.mgateGive g) d0 (fun s x b _ => ¬mine s x b) (fun _ _ _ _ => { cls := 11, cause := 4 })
    ∧ GangGives (.mswap g) d0 (fun s x b _ => mine s x b)
      (fun s _ b _ => modCore s b.core (fun c => { c with active := c.shadow, shadow := c.active }))
    ∧ GangFaults (.mswap g) d0 (fun s x b _ => ¬mine s x b) (fun _ _ _ _ => { cls := 11, cause := 1 })
    ∧ GangGives (.mzero g s32 bank) d0 (fun s x b _ => mine s x b ∧ ((getBank (core s b) bank).claim = none
          ∨ (getBank (core s b) bank).claim = some (b.id, x.gang)))
      (fun s x b _ => modBank s b.core bank (fun _ => { claim := some (b.id, x.gang), s32 := s32 }))
    ∧ GangFaults (.mzero g s32 bank) d0 (fun s x b _ => mine s x b ∧ ∃ o, (getBank (core s b) bank).claim = some o ∧ o ≠ (b.id, x.gang))
      (fun _ _ _ _ => { cls := 11, cause := 3 })
    ∧ (∀ l rows cols, GangGives (.mcoop g kd a kg) dc
      (fun s x b _ => b.kd.clique = some (rows, cols) ∧ (x.uni a).toNat = (rows - 1) + 4 * (cols - 1)
        ∧ 1 ≤ rows ∧ rows ≤ 4 ∧ 1 ≤ cols ∧ cols ≤ 4 ∧ gaugePlace s b .rw .page (x.k kg) = .ok l
        ∧ tlbHolds s b.ctx b.core (x.k kg).toNat = true)
      (fun s x b _ => put (modBlk s x.blk (fun b => { b with coop := some l })) x (BitVec.ofNat 64
        (128 * (b.cliqueIdx / cols) + 192 * (b.cliqueIdx % cols) * 2 ^ 16 + (b.cliqueIdx / cols) * 2 ^ 32 + (b.cliqueIdx % cols) * 2 ^ 36))))
    ∧ (∀ l r, GangWaits (.mcoop g kd a kg) dc
      (fun s x b _ => gaugePlace s b .rw .page (x.k kg) = .ok l ∧ missAt s b.ctx b.core (gangRef b.id x.gang) (x.k kg) = some r)
      (fun _ _ _ _ => r) (fun _ _ _ _ => .blocked))
    ∧ GangGives (.mcoopClr g) d0 any (fun s x _ _ => modBlk s x.blk (fun b => { b with coop := none }))
    ∧ GangGives (.mrestart g disp) d0 (fun s x b y => holdsBank s b x.gang = false ∧ y.restart = none)
      (fun s x b _ => putRestarts (modGang s x.blk x.gang (fun z =>
        { z with restart := some {
            label := x.addr + disp.signExtend 64, carry := carryOf b.kd z, alloc := z.alloc, regions := z.regions, rstack := z.rstack,
            spill := z.spill, draw := z.draw, badRegs := z.badRegs.filter (carryMark b.kd), spillBad := z.spillBad } })) x.blk)
    ∧ GangFaults (.mrestart g disp) d0 (fun s x b y => holdsBank s b x.gang = true ∨ y.restart.isSome = true)
      (fun _ _ _ _ => { cls := 11, cause := 5 })
    ∧ GangGives (.mend g) d0 (fun _ _ _ y => y.restart.isSome = true)
      (fun s x _ _ => putRestarts (modGang s x.blk x.gang (fun z => { z with restart := none })) x.blk)
    ∧ GangFaults (.mend g) d0 (fun _ _ _ y => y.restart = none) (fun _ _ _ _ => { cls := 11, cause := 5 })
    ∧ GangGives (.mstatSt g kd) dk any (fun s x b y => put s x (BitVec.ofNat 64 (mstatWord s b x.gang y)))
    ∧ GangGives (.mstatBal g kd) dk any (fun s x b _ => put s x (if b.level = 0 then (core s b).ballast else 0))
    ∧ GangGives (.mstatAcc g bank kd a) { guard := g, srcs := [a], kdst := [kd] }
      (fun s x b _ => (x.uni a).toNat % 256 < 128 ∧ (x.uni a).toNat / 256 < 192 ∧ (getBank (core s b) bank).claim = some (b.id, x.gang)
        ∧ (getBank (core s b) bank).bad.contains (192 * ((x.uni a).toNat % 256) + (x.uni a).toNat / 256) = false)
      (fun s x b _ => put s x ((sget 0 (getBank (core s b) bank).acc
        (192 * ((x.uni a).toNat % 256) + (x.uni a).toNat / 256)).setWidth 64))

/-- 09 R242 to R248, R257, R259, R261, R263: MLDW loads a checked tile into the shadow plane, MSTR accumulates the supplied rows
into a bank, MDRAIN sends rows of a bank away as an operation and clears the bank's flags; MLDW and MSTR without the gate, MSTR
and MDRAIN without the bank are faults. That MDRAIN.rel frees the bank at issue is log 25; that MLDW and MDRAIN wait for the
gang's own accesses to their bytes, log 21. -/
def Obligations.MatrixData : Prop :=
  ∀ (g : Guard) (f : Fmt) (ka : BitVec 6) (tp va pitch : Src) (dm1 gm1 : BitVec 3) (par rel coop bank : Bool) (nrm1 : BitVec 7),
    let core := fun (s : State) (b : Block) => getCore s b.core
    let mine := fun (s : State) (x : Turn) (b : Block) => (core s b).gate = some (b.id, x.gang)
    let at_ := fun (x : Turn) => (x.k ka).toNat % 2 ^ 32
    let w := f.width / 8
    let fits := fun (b : Block) (runs : List (Nat × Nat)) => ∀ r ∈ runs, r.1 + r.2 ≤ b.kd.scratch ∧ spBad b r.1 r.2 = false
    let shadow := fun (s : State) (b : Block) (p : Plane) => modCore s b.core (fun c => { c with shadow := some p })
    let per := if f.width = 8 then 256 else 128
    let depth := dm1.toNat + 1
    let step := fun (x : Turn) => (x.uni tp).toNat
    let rd := fun (x : Turn) (b : Block) (t i : Nat) => (sget 0 b.scratch (at_ x + t * step x + i)).toNat
    let quiet := fun (s : State) (x : Turn) (b : Block) (y : Gang) (m : MldwSpec) => runsOwed s b x.gang y (mldwRuns m x.g.k) = false
    let dr : MemDesc := { guard := g, srcs := [(va, 2)], wide := true, mem := true }
    let dd : GangDesc := { guard := g, srcs := [.k ka, pitch], mem := true }
    let room := fun (s : State) (x : Turn) (b : Block) (y : Gang) =>
      classFull y 3 = false ∧ runsOwed s b x.gang y (drainRuns f ka pitch (nrm1.toNat + 1) x.g.k) = false
    let dm := fun (m : MldwSpec) => ({ guard := g, srcs := mldwSrcs m, mem := true } : GangDesc)
    GangGives (.mldw g (.bare f ka)) (dm (.bare f ka))
      (fun s x b y => quiet s x b y (.bare f ka) ∧ mine s x b ∧ at_ x % 128 = 0 ∧ fits b [(at_ x, 36864 * w)])
      (fun s x b _ => shadow s b (planeOf f false 8 (fun n gr => (0x7F, fun j => natOf (spRead b (at_ x + (192 * n + 24 * gr + j) * w) w)))))
    ∧ GangGives (.mldw g (.par f ka)) (dm (.par f ka))
      (fun s x b y => quiet s x b y (.par f ka) ∧ mine s x b ∧ at_ x % 128 = 0 ∧ fits b [(at_ x, 192 * per)]
        ∧ ∀ n, n < 192 → ∀ p ∈ parcelRuns f (at_ x + per * n) 8, parcelCheck b f p = none)
      (fun s x b _ => shadow s b (planeOf f true 8 (fun n gr => rowGroup b f (at_ x + per * n) gr)))
    ∧ GangGives (.mldw g (.ter ka tp dm1)) (dm (.ter ka tp dm1))
      (fun s x b y => quiet s x b y (.ter ka tp dm1) ∧ mine s x b ∧ at_ x % 128 = 0 ∧ step x % 128 = 0 ∧ 128 * (1 + depth) ≤ step x
        ∧ fits b ((List.range 39).map (fun t => (at_ x + t * step x, 128 * (1 + depth))))
        ∧ ∀ t, t < 39 → terraceFault (rd x b t) depth = none)
      (fun s x b _ => shadow s b (planeOf .terrace true depth (fun n gr =>
        let e := fun j => terraceElem (rd x b (n / 5)) depth (8 * (n % 5) + gr) j
        ((e 0).2, fun j => wrap 32 (e j).1))))
    ∧ (∀ m, GangFaults (.mldw g m) (dm m) (fun s x b y => quiet s x b y m ∧ ¬mine s x b) (fun _ _ _ _ => { cls := 11, cause := 1 }))
    ∧ MemFaults (.mstr g par f bank va gm1) dr (fun s x => ¬mine s x x.b) (fun _ _ => { cls := 11, cause := 1 })
    ∧ MemFaults (.mstr g par f bank va gm1) dr (fun s x => mine s x x.b ∧ (getBank (core s x.b) bank).claim ≠ some (x.b.id, x.gang))
      (fun _ _ => { cls := 11, cause := 2 })
    ∧ GangFaults (.mdrain g rel coop f bank ka pitch nrm1) dd
      (fun s x b y => room s x b y ∧ (getBank (core s b) bank).claim ≠ some (b.id, x.gang)) (fun _ _ _ _ => { cls := 11, cause := 2 })
    ∧ (∀ p int, MemGives (.mstr g par f bank va gm1) dr
      (fun s x =>
        let c := getCore s x.b.core
        let rows := mstrRows x.g (x.on g) va
        c.gate = some (x.b.id, x.gang) ∧ (getBank c bank).claim = some (x.b.id, x.gang) ∧ c.active = some p ∧ pairType par f p = some int
          ∧ (getBank c bank).s32 = int
          ∧ ∀ r ∈ rows, r.2.2 % (if par then 128 else 16) = 0 ∧ fits x.b (rowRuns par f (gm1.toNat + 1) r.2.2)
            ∧ (par = true → ∀ a ∈ parcelRuns f r.2.2 (gm1.toNat + 1), parcelCheck x.b f a = none))
      (fun s x =>
        let rows := mstrRows x.g (x.on g) va
        let acts := rows.map (fun r => (r.2.1, (List.range (gm1.toNat + 1)).map (fun gr =>
          if par then ((rowGroup x.b f r.2.2 gr).1, (List.range 24).map (rowGroup x.b f r.2.2 gr).2)
          else (0x7F, (List.range 24).map (fun j => bareCode x.b f r.2.2 (24 * gr + j))))))
        modCore (modBank s x.b.core bank (accRows p f int acts)) x.b.core
          (fun c => { c with busy := c.busy + strCycles f * rows.length * (gm1.toNat + 1) / 1024 })))
    ∧ GangGives (.mdrain g rel coop f bank ka pitch nrm1) dd
      (fun s x b y =>
        let k := getBank (core s b) bank
        let p := (x.uni pitch).toNat
        let row := drainRow f
        room s x b y ∧ k.claim = some (b.id, x.gang) ∧ drainPair f k.s32 = true ∧ at_ x % row.2 = 0 ∧ p % row.2 = 0 ∧ row.1 ≤ p
          ∧ (∀ m, m < nrm1.toNat + 1 → at_ x + m * p + row.1 ≤ b.kd.scratch) ∧ (coop = true → b.coop.isSome = true)
          ∧ ∀ e ∈ k.bad, 192 * (nrm1.toNat + 1) ≤ e)
      (fun s x b y =>
        let k := getBank (core s b) bank
        let rows := (List.range (nrm1.toNat + 1)).map (fun m => (List.range 192).map (fun n => sget 0 k.acc (192 * m + n)))
        let o := addOp s x.blk x.gang 3 y.live x.addr []
          (.drain b.core bank f (at_ x) (x.uni pitch).toNat rows k.s32 k.flags (if coop then b.coop else none) rel)
        let t := modBank o.2 b.core bank (fun k => { k with flags := 0 })
        if rel then modBank t b.core bank (fun _ => {}) else t)

/-- 06 R142 to R148, R163: a streamer command that passes its checks joins its channel; with 16 there the feeder waits; a failed
check is a fault and nothing is queued (made whatever the guard: log 36); a gang that executes one takes streamer rights.
06 R141, R148, R164 to R167: PUSHQ appends to an inlet queue or waits while it is full, POPQ takes the oldest or the closed value
or waits, SETGS resolves a guard slot once, SETGS.clr makes it unresolved, LOOPK counts down and loops. That a waiting
instruction issues again is the model's reading (log 22, 26). -/
def Obligations.StreamerInletsAndGuardSlots : Prop :=
  (∀ (g : Guard) (nm1 ch : BitVec 2) (tag : Option (BitVec 3)) (gf : GatherForm) (m ls x64 : Bool) (ka kb kn : BitVec 6),
     let queued := fun (i : Instr) (kind : CmdKind) (func : BitVec 10) (k : Option (BitVec 6)) =>
       let srcs := (k.map (fun k => [Src.k k])).getD [] ++ [.k kb] ++ (List.range 8).map (fun j => Src.k (kn + BitVec.ofNat 6 j))
       let cmd := fun (s : State) (x : FTurn) =>
         ({ id := s.nextId, kind := kind, ch := ch.toNat, tag := tag.map (fun t => t.toNat), ka := (k.map x.k).getD 0, kb := x.k kb,
            kn := (List.range 8).map (fun j => x.k (kn + BitVec.ofNat 6 j)), func := func, addr := x.addr } : Cmd)
       let d : GangDesc := { guard := g, srcs := srcs, feederOk := true, feederOnly := true }
       let may := fun (s : State) (x : FTurn) (b : Block) => cmdEarly s b (cmd s x) = none ∧ cmdFault (cmd s x) = none
       FeederGives i d (fun s x b => may s x b ∧ chanLen b ch.toNat < 16)
         (fun s x _ => modBlk { s with nextId := s.nextId + 1 } x.blk (fun b => { b with chans := b.chans ++ [cmd s x] }))
       ∧ FeederWaits i d (fun s x b => may s x b ∧ 16 ≤ chanLen b ch.toNat) (fun s _ _ => s) (fun _ _ _ => .channel ch.toNat)
       ∧ (∀ f, FeederFaults i d (fun s x b => cmdEarly s b (cmd s x) = none ∧ cmdFault (cmd s x) = some f) (fun _ _ _ => f))
       ∧ (∀ s x f, fturnOf s = some x → cmdEarly s x.b (cmd s x) = some f →
           exec i s = .next (raiseFeeder s x.blk 0 x.addr x.insn f))
       ∧ (∀ s x, turnOf s = some x → x.mask ≠ 0 → x.mask = x.g.live → stalledLanes x.g d.names [] x.g.live = 0 →
           exec i s = .next (noted s x (raiseGang s x.blk x.gang 0 x.addr x.len x.insn x.g.live { cls := 12, cause := 1 })))
     queued (.scopy g nm1 m ch tag ka kb kn) (.copy nm1.toNat m) (cmdFunc nm1 m tag ch) (some ka)
     ∧ queued (.sgather g gf ls ch tag ka kb kn) (.gather gf ls)
         (cmdFunc (match gf with | .x32 => 0 | .x64 => 1 | .ter => 2) ls tag ch) (some ka)
     ∧ queued (.sscatter g x64 ls ch tag ka kb kn) (.scatter x64 ls) (cmdFunc (if x64 then 1 else 0) ls tag ch) (some ka)
     ∧ queued (.sfill g nm1 .sp ch tag kb kn) (.fill nm1.toNat false) (cmdFunc nm1 false tag ch) none
     ∧ queued (.sfill g nm1 (.mem ka) ch tag kb kn) (.fill nm1.toNat true) (cmdFunc nm1 true tag ch) (some ka))
  ∧ (∀ (g : Guard) (q : BitVec 2) (slot : BitVec 3) (gang ks : Src) (kd kc k1 : BitVec 6) (disp : BitVec 32),
      let dq : GangDesc := { guard := g, srcs := [gang, ks], feederOk := true, feederOnly := true }
      let dp : GangDesc := { guard := g, srcs := [], kdst := [kd], swap := true, mem := true }
      let ds := fun (m : SetgsSpec) =>
        ({ guard := g, srcs := (match m with | .ks k => [.k k] | _ => []), feederOk := true, mem := true } : GangDesc)
      let dl : GangDesc := { guard := g, srcs := [.k kc], kdst := [kc], feederOk := true }
      let who := fun (x : FTurn) => (x.uni gang).toNat
      let fair := fun (x : FTurn) (b : Block) => who x < b.gangs.length ∧ x.uni ks ≠ closedValue
      let put := fun (v : GSlot) (s : State) (i : Iss) (_ : Block) (_ : Store W64) => modBlk s i.blk (fun b => putSlot b slot.toNat v)
      let sets := fun (m : SetgsSpec) (want : Store W64 → Bool) =>
        let v := fun (k : Store W64) => if want k then GSlot.isTrue else GSlot.isFalse
        PartyGives (.setgs g slot m) (ds m) (fun _ _ b k => slotOf b slot.toNat = v k) (fun s _ _ _ => s)
        ∧ PartyFaults (.setgs g slot m) (ds m) (fun _ _ b k => slotOf b slot.toNat ≠ .unresolved ∧ slotOf b slot.toNat ≠ v k)
          (fun _ _ _ _ => { cls := 16, cause := 2 })
        ∧ PartyGives (.setgs g slot m) (ds m) (fun _ i b k => slotOf b slot.toNat = .unresolved ∧
            ∀ gi y, i.party = .gang gi → sfind b.gangs gi = some y → want k = true → pendingFor y y.live = false)
          (fun s i b k => put (v k) s i b k)
      FeederGives (.pushq g q gang ks) dq (fun s x b => fair x b ∧ inletFull s x.blk (who x) q.toNat = false)
        (fun s x _ => modGang s x.blk (who x) (fun y => if y.exited then y else
          { y with inlet := sset [] y.inlet q.toNat (sget [] y.inlet q.toNat ++ [x.uni ks]) }))
      ∧ FeederWaits (.pushq g q gang ks) dq (fun s x b => fair x b ∧ inletFull s x.blk (who x) q.toNat = true) (fun s _ _ => s)
        (fun _ x _ => .pushq (who x) q.toNat (x.uni ks))
      ∧ FeederFaults (.pushq g q gang ks) dq (fun _ x b => ¬fair x b) (fun _ _ _ => { cls := 13, cause := 3 })
      ∧ (∀ v rest, GangGives (.popq g kd q) dp (fun _ _ _ y => sget [] y.inlet q.toNat = v :: rest)
        (fun s x _ y => setK (modGang s x.blk x.gang (fun z => { z with inlet := sset [] y.inlet q.toNat rest })) x.blk (.gang x.gang) kd v))
      ∧ GangGives (.popq g kd q) dp (fun _ _ b y => sget [] y.inlet q.toNat = [] ∧ feederDone b = true)
        (fun s x _ y => setK (modGang s x.blk x.gang (fun z => { z with inlet := y.inlet })) x.blk (.gang x.gang) kd closedValue)
      ∧ GangWaits (.popq g kd q) dp (fun _ _ b y => sget [] y.inlet q.toNat = [] ∧ feederDone b = false) (fun s _ _ _ => s)
        (fun _ _ _ _ => .popq kd q.toNat)
      ∧ sets .t (fun _ => true) ∧ sets .f (fun _ => false) ∧ sets (.ks k1) (fun k => sget 0 k k1.toNat != 0)
      ∧ FeederGives (.setgsClr g slot) { guard := g, srcs := [], feederOk := true, feederOnly := true }
        (fun _ _ b => b.chans.any (fun c => c.tag == some slot.toNat) = false)
        (fun s x _ => modBlk s x.blk (fun b => putSlot b slot.toNat .unresolved))
      ∧ FeederWaits (.setgsClr g slot) { guard := g, srcs := [], feederOk := true, feederOnly := true }
        (fun _ _ b => b.chans.any (fun c => c.tag == some slot.toNat) = true) (fun s _ _ => s) (fun _ _ _ => .setgsClr slot.toNat)
      ∧ PartyPlaces (.loopk g kc disp) dl (fun _ _ _ k => 1 < (sget 0 k kc.toNat).toNat)
        (fun s i _ k => jumpTo (setK s i.blk i.party kc (sget 0 k kc.toNat - 1)) i.blk i.party (i.addr + disp.signExtend 64))
      ∧ PartyGives (.loopk g kc disp) dl (fun _ _ _ k => (sget 0 k kc.toNat).toNat ≤ 1) (fun s i _ _ => setK s i.blk i.party kc 0))
/-- 06 R154 to R157, R168 to R171: BARINIT sets an idle barrier, BARARR arrives and reads the phase, BAREXP adds bytes, BARWAIT goes on
when the phase differs, a barrier completes when all is there; a block-wide one counts a period and logs checksums.
06 R153, R160, R172 to R175: GAUGEADD adds, a gang's as an operation (log 46); GAUGEWAIT goes on at its target, after the gang's
own accesses to the gauge (log 21); MBSEND appends, discards for an ended block (log 31), or waits; MBRECV takes the oldest in
its turn (log 46). -/
def Obligations.BarriersGaugesAndMailboxes : Prop :=
  (∀ (g : Guard) (a c : Src) (qd qs : BitVec 3),
     let di := fun (m : BarinitSpec) => ({ guard := g, srcs := a :: barSrcs m, feederOk := true, mem := true } : GangDesc)
     let da : GangDesc := { guard := g, srcs := [a, c], feederOk := true, mem := true, rel := true }
     let de : GangDesc := { guard := g, srcs := [a, c], feederOk := true, mem := true }
     let dw : GangDesc := { guard := g, srcs := [a], swap := true, feederOk := true }
     let n := fun (k : Store W64) => (readUni k a).toNat
     let bar := fun (b : Block) (k : Store W64) => sget ({} : Barrier) b.bars (n k)
     let named := fun (b : Block) (k : Store W64) => n k < b.kd.nbar
     let idle := fun (b : Block) (k : Store W64) => named b k ∧ (bar b k).arrivals = 0 ∧ (bar b k).balance = 0
     let inits := fun (s : State) (i : Iss) (k : Store W64) (mode e : Nat) =>
       modBar s i.blk (n k) (fun x => { x with mode := mode, expected := e, arrived := [] })
     let cnt := fun (k : Store W64) => (readUni k c).toNat
     let there := fun (k : Store W64) => byteCount k c
     let phase := fun (i : Iss) (b : Block) => uniBit (b.qOf i.party) qs.toNat
     PartyGives (.barinit g a (.counted c)) (di (.counted c)) (fun _ _ b k => idle b k ∧ 1 ≤ cnt k ∧ cnt k ≤ 65535)
       (fun s i _ k => inits s i k 0 (cnt k))
     ∧ PartyGives (.barinit g a .blk) (di .blk) (fun _ _ b k => idle b k) (fun s i b k => inits s i k 1 b.liveGangs.length)
     ∧ PartyGives (.barinit g a .blkf) (di .blkf) (fun _ _ b k => idle b k)
       (fun s i b k => inits s i k 2 (b.liveGangs.length + (if feederDone b then 0 else 1)))
     ∧ PartyFaults (.barinit g a .blk) (di .blk) (fun _ _ b k => named b k ∧ ((bar b k).arrivals ≠ 0 ∨ (bar b k).balance ≠ 0))
       (fun _ _ _ _ => { cls := 15, cause := 2 })
     ∧ PartyGives (.bararr g qd a c) da (fun _ i b k => named b k ∧ arrivalBad (bar b k) (partyName i.party) (cnt k) = false
         ∧ ∀ gi y, i.party = .gang gi → sfind b.gangs gi = some y → (bar b k).mode = 0 ∨ owesChecksum b y (n k) = false)
       (fun s i b k => evalBarrier (modBar (setQp s i.blk i.party qd (bar b k).phase) i.blk (n k) (fun x =>
         { x with arrivals := x.arrivals + cnt k, arrived := if x.mode = 0 then x.arrived else x.arrived ++ [partyName i.party] }))
         i.blk (n k))
     ∧ PartyFaults (.bararr g qd a c) da (fun _ i b k => named b k ∧ arrivalBad (bar b k) (partyName i.party) (cnt k) = true)
       (fun _ _ _ _ => { cls := 14, cause := 2 })
     ∧ PartyGives (.barexp g a c) de (fun _ _ b k => named b k ∧ 0 ≤ there k ∧ (bar b k).balance + there k ≤ 2 ^ 63 - 1)
       (fun s i _ k => evalBarrier (modBar s i.blk (n k) (fun x => { x with balance := x.balance + there k })) i.blk (n k))
     ∧ PartyFaults (.barexp g a c) de (fun _ _ b k => named b k ∧ (there k < 0 ∨ 2 ^ 63 - 1 < (bar b k).balance + there k))
       (fun _ _ _ _ => { cls := 14, cause := 3 })
     ∧ PartyGives (.barwait g a qs) dw (fun _ i b k => named b k ∧ (bar b k).phase ≠ phase i b) (fun s _ _ _ => s)
     ∧ PartyWaits (.barwait g a qs) dw (fun _ i b k => named b k ∧ (bar b k).phase = phase i b) (fun s _ _ _ => s)
       (fun _ i b k => .barwait (n k) (phase i b))
     ∧ PartyFaults (.barwait g a qs) dw (fun _ _ b k => ¬named b k) (fun _ _ _ k => resourceFault 0 (readUni k a))
     ∧ (∀ (s : State) (b : Block) (blk m : Nat), getBlk s blk = some b →
         let x := sget ({} : Barrier) b.bars m
         (¬(x.expected ≠ 0 ∧ x.arrivals = x.expected ∧ x.balance = 0) → evalBarrier s blk m = s)
         ∧ (x.expected ≠ 0 → x.arrivals = x.expected → x.balance = 0 → x.mode = 0 →
           ∃ z, getBlk (evalBarrier s blk m) blk = some z
             ∧ sget ({} : Barrier) z.bars m = { x with phase := !x.phase, arrivals := 0, arrived := [] }
             ∧ (∀ m', m' ≠ m → sget ({} : Barrier) z.bars m' = sget ({} : Barrier) b.bars m') ∧ z.period = b.period)
         ∧ (x.expected ≠ 0 → x.arrivals = x.expected → x.balance = 0 → x.mode ≠ 0 →
           ∃ t z, evalBarrier s blk m = logBarrier t blk m ∧ getBlk t blk = some z
             ∧ sget ({} : Barrier) z.bars m = { x with phase := !x.phase, arrivals := 0, arrived := [] }
             ∧ (∀ m', m' ≠ m → sget ({} : Barrier) z.bars m' = sget ({} : Barrier) b.bars m') ∧ z.period = (b.period + 1) % 2 ^ 64)))
  ∧ (∀ (g : Guard) (sc : Scope) (ka kd : BitVec 6) (qd : BitVec 3) (a ks : Src) (l : Loc),
      let da : GangDesc := { guard := g, srcs := [.k ka, a], feederOk := true, mem := true }
      let dw : GangDesc := { guard := g, srcs := [.k ka, a], swap := true, feederOk := true, mem := true }
      let dm : GangDesc := { guard := g, srcs := [a, ks], feederOk := true, mem := true, rel := true }
      let dr : GangDesc := { guard := g, srcs := [a], kdst := [kd], swap := true, mem := true }
      let va := fun (k : Store W64) => sget 0 k ka.toNat
      let held := fun (s : State) (b : Block) (k : Store W64) => tlbHolds s b.ctx b.core (va k).toNat = true
      let small := fun (k : Store W64) => (readUni k a).toNat < 2 ^ 63
      let box := fun (k : Store W64) => (readUni k a).toNat % 32
      let to_ := fun (s : State) (b : Block) (k : Store W64) (x : Option Block) => targetBad a b k = none ∧ mboxTarget s b (readUni k a) = x
      let room := fun (x : Option Block) (k : Store W64) => ∀ y, x = some y → mboxLen y (box k) < 8
      let sent := fun (s : State) (b : Block) (x : Option Block) (k : Store W64) => match x with
        | none => countCtr s b.ctx 13 1
        | some y => modBlk s y.id (fun z => { z with mboxes := sset [] z.mboxes (box k) (sget [] z.mboxes (box k) ++ [readUni k ks]) })
      GangGives (.gaugeadd g sc ka a) da (fun s x b y => gaugePlace s b .rw .all (va x.g.k) = .ok l ∧ small x.g.k ∧ classFull y 2 = false
          ∧ walkRoom s b.ctx b.core [va x.g.k] = true)
        (fun s x b y => (issueOp s b x.gang 2 y.live [va x.g.k] (.gaugeAdd l (x.uni a))).2)
      ∧ (∀ r, FeederGives (.gaugeadd g sc ka a) da (fun s x b => gaugePlace s b .rw .all (va x.f.k) = .ok l ∧ small x.f.k
          ∧ held s b x.f.k ∧ gaugeAddLoc s b.views l (x.uni a) = .ok (.ok r)) (fun _ _ _ => r))
      ∧ (∀ r, FeederWaits (.gaugeadd g sc ka a) da (fun s x b => gaugePlace s b .rw .all (va x.f.k) = .ok l ∧ small x.f.k
          ∧ missAt s b.ctx b.core (feederRef b.id) (va x.f.k) = some r) (fun _ _ _ => r) (fun _ _ _ => .blocked))
      ∧ PartyFaults (.gaugeadd g sc ka a) da (fun s _ b k => gaugePlace s b .rw .all (va k) = .ok l ∧ ¬small k)
        (fun _ _ _ k => { cls := 28, cause := 1, access := 9, va := va k })
      ∧ PartyGives (.gaugewait g sc ka a) dw (fun s i b k => gaugePlace s b .watch .all (va k) = .ok l ∧ gaugeOwed s b i.party l = false
          ∧ held s b k ∧ (gaugeTarget k a).toNat ≤ gaugeValue s b l) (fun s _ _ _ => touchLine s l)
      ∧ (∀ r, PartyWaits (.gaugewait g sc ka a) dw (fun s i b k => gaugePlace s b .watch .all (va k) = .ok l
          ∧ gaugeOwed s b i.party l = false ∧ missAt s b.ctx b.core (partyRef b.id i.party) (va k) = some r)
        (fun _ _ _ _ => r) (fun _ _ _ _ => .blocked))
      ∧ PartyWaits (.gaugewait g sc ka a) dw (fun s i b k => gaugePlace s b .watch .all (va k) = .ok l ∧ gaugeOwed s b i.party l = false
          ∧ held s b k ∧ gaugeValue s b l < (gaugeTarget k a).toNat) (fun s _ _ _ => s) (fun _ _ _ k => .gaugewait l (gaugeTarget k a))
      ∧ (∀ f, PartyFaults (.mbsend g a ks) dm (fun _ _ b k => targetBad a b k = some f) (fun _ _ _ _ => f))
      ∧ (∀ f, PartyFaults (.mbsendTry g qd a ks) dm (fun _ _ b k => targetBad a b k = some f) (fun _ _ _ _ => f))
      ∧ (∀ x, PartyGives (.mbsend g a ks) dm (fun s _ b k => to_ s b k x ∧ room x k) (fun s _ b k => sent s b x k))
      ∧ (∀ y, PartyWaits (.mbsend g a ks) dm (fun s _ b k => to_ s b k (some y) ∧ 8 ≤ mboxLen y (box k))
        (fun s _ _ _ => s) (fun _ _ _ k => .mbsend ((readUni k a).toNat / 32) (box k) (readUni k ks)))
      ∧ (∀ x, PartyGives (.mbsendTry g qd a ks) dm (fun s _ b k => to_ s b k x ∧ room x k)
        (fun s i b k => setQp (sent s b x k) i.blk i.party qd true))
      ∧ (∀ y, PartyGives (.mbsendTry g qd a ks) dm (fun s _ b k => to_ s b k (some y) ∧ 8 ≤ mboxLen y (box k))
        (fun s i _ _ => setQp s i.blk i.party qd false))
      ∧ (∀ v rest, GangGives (.mbrecv g kd a) dr (fun _ x b _ => (x.uni a).toNat < b.kd.nmbox
          ∧ sget [] b.mboxes (x.uni a).toNat = v :: rest ∧ mboxWaiters b (x.uni a).toNat = [])
        (fun s x _ _ => setK (modBlk s x.blk (fun z => { z with mboxes := sset [] z.mboxes (x.uni a).toNat rest })) x.blk (.gang x.gang) kd v))
      ∧ GangWaits (.mbrecv g kd a) dr (fun _ x b _ => (x.uni a).toNat < b.kd.nmbox
          ∧ (sget [] b.mboxes (x.uni a).toNat = [] ∨ mboxWaiters b (x.uni a).toNat ≠ []))
        (fun s _ _ _ => s) (fun _ x _ _ => .mbrecv kd (x.uni a).toNat)
      ∧ GangFaults (.mbrecv g kd a) dr (fun _ x b _ => b.kd.nmbox ≤ (x.uni a).toNat) (fun _ x _ _ => resourceFault 1 (x.uni a)))
/-- 12 R330, R344 to R349: RANGE hands out chunks at level 0 and fixed indices above it; LAUNCH adds the grid of a checked launch;
record-queue instructions take a free record, commit one with its header, and close; a structure on a page that no buffer holds
is awaited first. The lowest free record is the model's choice (log 11), and so are the checks at an opening (log 30, 61); that a
queue's instructions wait for the gang's own accesses is log 21. -/
def Obligations.RangesLaunchesAndRecords : Prop :=
  ∀ (g : Guard) (kd kq ka : BitVec 6) (key : Src),
    let dr : GangDesc := { guard := g, srcs := [], kdst := [kd], feederOk := true }
    let dl : GangDesc := { guard := g, srcs := [.k ka], mem := true, rel := true }
    let dc : GangDesc := { guard := g, srcs := [.k kq, .k ka, key], mem := true, rel := true }
    let dx : GangDesc := { guard := g, srcs := [.k kq], mem := true, rel := true }
    let put := fun (s : State) (i : Iss) (v : W64) => setK s i.blk i.party kd v
    let of := fun (s : State) (b : Block) (gr : Grid) => getGrid s b.grid = some gr ∧ gr.lp.rcount ≠ 0
    let r0 := fun (gr : Grid) => gr.lp.rcount - gr.rangeNext
    let chunk := fun (gr : Grid) => min (r0 gr) (min (2 ^ 24 - 1) (max gr.lp.minchunk
      ((r0 gr + 2 * max 1 gr.nblocks - 1) / (2 * max 1 gr.nblocks))))
    let index := fun (i : Iss) (b : Block) (gr : Grid) => b.wave + max 1 gr.nblocks * partyRange b i.party
    let rq := fun (s : State) (x : Turn) (b : Block) (q : RecQueue) (s1 : State) =>
      accessOwed b (.gang x.gang) = false ∧ openRq s b (x.k kq) = .ok (q, s1)
    let committed := fun (x : Turn) (b : Block) (q : RecQueue) (s2 : State) => modRq s2 q.id (fun q => { q with
      allocated := q.allocated.filter (fun y => y != (x.k ka).toNat),
      committed := q.committed ++ [{ addr := (x.k ka).toNat, key := x.uni key, depth := b.depth + 1 }] })
    let closed := fun (q : RecQueue) (s1 : State) =>
      rqDone (modRq s1 q.id (fun q => { q with left := q.left - 1, closed := q.left == 1 })) q.id
    let hot := fun (s : State) (b : Block) (t : State) => warmed s b t
    (∀ gr, PartyGives (.range g kd) dr (fun s _ b _ => of s b gr ∧ b.level = 0 ∧ gr.rangeNext < gr.lp.rcount)
      (fun s i _ _ => put (modGrid s gr.id (fun z => { z with rangeNext := z.rangeNext + chunk gr })) i
        (BitVec.ofNat 64 (gr.rangeNext + chunk gr * 2 ^ 40))))
    ∧ (∀ gr, PartyGives (.range g kd) dr (fun s _ b _ => of s b gr ∧ b.level = 0 ∧ gr.lp.rcount ≤ gr.rangeNext)
      (fun s i _ _ => put s i 0xFFFF_FFFF_FFFF_FFFF))
    ∧ (∀ gr, PartyGives (.range g kd) dr (fun s i b _ => of s b gr ∧ b.level ≠ 0 ∧ index i b gr < gr.lp.rcount)
      (fun s i b _ => put (bumpRange s i.blk i.party) i (BitVec.ofNat 64 (index i b gr + 2 ^ 40))))
    ∧ (∀ gr, PartyGives (.range g kd) dr (fun s i b _ => of s b gr ∧ b.level ≠ 0 ∧ gr.lp.rcount ≤ index i b gr)
      (fun s i _ _ => put s i 0xFFFF_FFFF_FFFF_FFFF))
    ∧ (∀ gr, PartyFaults (.range g kd) dr (fun s _ b _ => getGrid s b.grid = some gr ∧ gr.lp.rcount = 0) (fun _ _ _ _ => { cls := 3, cause := 9 }))
    ∧ (∀ bytes body s0 s1 k lp, GangGives (.launch g ka) dl (fun s x b _ => (x.k ka).toNat % 64 = 0
        ∧ structLoad s b.ctx (some b.core) b.views (x.k ka) 64 = .ok (s0, bytes) ∧ launchMbz bytes = true
        ∧ parseLaunch bytes = some body ∧ checkLaunch s0 b.ctx (some b.core) b.views body (some b.region) = .ok (s1, k, lp)
        ∧ hot s b (weirAdmit (addGrid s1 b.ctx 1 (some b.grid) b.queue b.level body k lp).2))
      (fun _ _ b _ => weirAdmit (addGrid s1 b.ctx 1 (some b.grid) b.queue b.level body k lp).2))
    ∧ (∀ bytes body s0 s1 k lp r, GangWaits (.launch g ka) dl (fun s x b _ => (x.k ka).toNat % 64 = 0
        ∧ structLoad s b.ctx (some b.core) b.views (x.k ka) 64 = .ok (s0, bytes) ∧ launchMbz bytes = true
        ∧ parseLaunch bytes = some body ∧ checkLaunch s0 b.ctx (some b.core) b.views body (some b.region) = .ok (s1, k, lp)
        ∧ Colds s b (.gang x.gang) (weirAdmit (addGrid s1 b.ctx 1 (some b.grid) b.queue b.level body k lp).2) r)
      (fun _ _ _ _ => r) (fun _ _ _ _ => .blocked))
    ∧ GangFaults (.launch g ka) dl (fun _ x _ _ => (x.k ka).toNat % 64 ≠ 0) (fun _ x _ _ => { cls := 5, va := x.k ka, access := 1 })
    ∧ (∀ q s1 a s2, GangGives (.rqalloc g kd kq) (rqallocDesc g kd kq true) (fun s x b _ => rq s x b q s1 ∧ q.closed = false
        ∧ q.rqwait = [] ∧ freeRecord q = some a ∧ takeRecord s1 b q a = .ok s2
        ∧ hot s b (setK s2 x.blk (.gang x.gang) kd (BitVec.ofNat 64 a)))
      (fun _ x _ _ => setK s2 x.blk (.gang x.gang) kd (BitVec.ofNat 64 a)))
    ∧ (∀ q s1, GangWaits (.rqalloc g kd kq) (rqallocDesc g kd kq true) (fun s x b _ => rq s x b q s1 ∧ q.closed = false ∧ b.level = 0
        ∧ (q.rqwait ≠ [] ∨ freeRecord q = none)
        ∧ hot s b (modRq s1 q.id (fun q => { q with rqwait := q.rqwait ++ [(x.blk, x.gang)] })))
      (fun _ x _ _ => modRq s1 q.id (fun q => { q with rqwait := q.rqwait ++ [(x.blk, x.gang)] })) (fun _ _ _ _ => .rqalloc kd q.handle))
    ∧ (∀ q s1 a s2, GangGives (.rqallocTry g kd kq) (rqallocDesc g kd kq false) (fun s x b _ => rq s x b q s1 ∧ q.closed = false
        ∧ freeRecord q = some a ∧ takeRecord s1 b q a = .ok s2 ∧ hot s b (setK s2 x.blk (.gang x.gang) kd (BitVec.ofNat 64 a)))
      (fun _ x _ _ => setK s2 x.blk (.gang x.gang) kd (BitVec.ofNat 64 a)))
    ∧ (∀ q s1, GangGives (.rqallocTry g kd kq) (rqallocDesc g kd kq false) (fun s x b _ => rq s x b q s1 ∧ q.closed = false
        ∧ freeRecord q = none ∧ hot s b (setK s1 x.blk (.gang x.gang) kd 0))
      (fun _ x _ _ => setK s1 x.blk (.gang x.gang) kd 0))
    ∧ (∀ q s1 s2, GangGives (.rqcommit g kq ka key) dc (fun s x b _ => rq s x b q s1 ∧ q.allocated.contains (x.k ka).toNat = true
        ∧ b.depth + 1 ≤ 64 ∧ structWrite s1 b.ctx (some b.core) b.views (BitVec.ofNat 64 (x.k ka).toNat)
          (le64 (x.uni key) ++ zeros 8 ++ le 4 (b.depth + 1) ++ zeros 12) = .ok s2 ∧ hot s b (committed x b q s2))
      (fun _ x b _ => committed x b q s2))
    ∧ (∀ q s1, GangGives (.rqclose g kq) dx (fun s x b _ => rq s x b q s1 ∧ q.left ≠ 0 ∧ hot s b (closed q s1))
      (fun _ _ _ _ => closed q s1))
    ∧ (∀ q s1, GangFaults (.rqclose g kq) dx (fun s x b _ => rq s x b q s1 ∧ q.left = 0) (fun _ _ _ _ => { cls := 3, cause := 10 }))

/-- 05 R132 to R136: FORK opens a fork or faults with nothing opened; JOIN of an ended bucket sets the status word, releases the
tag and goes on, and waits before; ABANDON ends the child that executes it; VIEW reads the view and an address's window. How a
child starts follows log 27. -/
def Obligations.ForkInstructions : Prop :=
  ∀ (g : Guard) (sc : ForkScope) (ka kd : BitVec 6) (a : Src),
    let df : GangDesc := { guard := g, srcs := [.k ka], mem := true, rel := true }
    let dj : GangDesc := { guard := g, srcs := [a], kdst := [kd], swap := true, mem := true }
    let dv : GangDesc := { guard := g, srcs := [], kdst := [kd] }
    let opener := fun (b : Block) =>
      ({ ctx := b.ctx, view := b.views, blk := some b.id, grid := some b.grid, queue := b.queue, level := b.level,
         region := b.region, core := some b.core } : Opener)
    let late := fun (s1 : State) (id : Nat) => ((getFork s1 id).map (winPending s1)).getD false
    let tag := fun (x : Turn) => (x.uni a).toNat
    (∀ s1 id, GangGives (.fork g sc ka) df (fun s x b _ => openFork s (opener b) sc (x.k ka) = .ok (s1, id) ∧ late s1 id = false ∧ warmed s b s1)
      (fun _ _ _ _ => s1))
    ∧ (∀ (s s1 : State) (x : Turn) (b : Block) (id : Nat), turnOf s = some x → gangReady s x df = true →
        getBlk (gangSees s x df) x.blk = some b → openFork (gangSees s x df) (opener b) sc (x.k ka) = .ok (s1, id) → late s1 id = true →
        exec (.fork g sc ka) s = .next (marked s x.frag x.addr x.mask 0 none))
    ∧ (∀ s1 id r, GangWaits (.fork g sc ka) df (fun s x b _ => openFork s (opener b) sc (x.k ka) = .ok (s1, id) ∧ late s1 id = false
        ∧ Colds s b (.gang x.gang) s1 r) (fun _ _ _ _ => r) (fun _ _ _ _ => .blocked))
    ∧ (∀ f, GangFaults (.fork g sc ka) df (fun s x b _ => openFork s (opener b) sc (x.k ka) = .error f) (fun _ _ _ _ => f))
    ∧ (∀ f, GangPlaces (.join g kd a) dj (fun s x b _ => findTag s b (tag x) = some f ∧ f.bucketEnded (tag x) = true
        ∧ joinFails (f.status (tag x)).1 = false)
      (fun s x _ _ => jumpTo (releaseTag (setK (modGang s x.blk x.gang (fun y =>
        { y with fstat := y.fstat ||| (f.status (tag x)).2.2.setWidth 6 })) x.blk (.gang x.gang) kd (statusWord (f.status (tag x))))
        f (tag x)) x.blk (.gang x.gang) x.next))
    ∧ (∀ f, GangWaits (.join g kd a) dj (fun s x b _ => findTag s b (tag x) = some f ∧ f.bucketEnded (tag x) = false)
      (fun s _ _ _ => s) (fun _ x _ _ => .join (tag x)))
    ∧ GangFaults (.join g kd a) dj (fun s x b _ => findTag s b (tag x) = none) (fun _ _ _ _ => { cls := 17, cause := 6 })
    ∧ (∀ f c rest, GangPlaces (.abandon g) { guard := g, srcs := [] } (fun _ _ b _ => b.views = (f, c) :: rest)
      (fun s _ _ _ => modChild (modFork (stopChild s f c) f (fun x => dropVersions x c)) f c (fun x => { x with ending := .abandoned })))
    ∧ GangFaults (.abandon g) { guard := g, srcs := [] } (fun _ _ b _ => b.views = []) (fun _ _ _ _ => { cls := 17, cause := 5 })
    ∧ GangGives (.viewInfo g kd) dv (fun _ _ _ _ => True)
      (fun s x b _ => setK s x.blk (.gang x.gang) kd (BitVec.ofNat 64 (viewInfo s b)))
    ∧ GangGives (.viewAddr g kd ka a) { guard := g, srcs := [.k ka, a], kdst := [kd] } (fun _ _ _ _ => True)
      (fun s x b _ => setK s x.blk (.gang x.gang) kd (viewAddrWord s b (x.k ka + x.uni a)))
    ∧ (∀ (s s1 : State) (o : Opener) (va : W64) (id : Nat), openFork s o sc va = .ok (s1, id) →
        ∃ f, s1.forks = s.forks ++ [f] ∧ f.id = id ∧ f.scope = sc ∧ f.ctx = o.ctx ∧ f.parentView = o.view ∧ f.ended = false
          ∧ f.vers = [] ∧ f.twins = [] ∧ f.children.map (fun c => c.idx) = List.range f.count
          ∧ (∀ c ∈ f.children, c.st = .unstarted) ∧ s1.mem = s.mem ∧ s1.blocks = s.blocks)

/-- 02 R37: a pair under a true uniform guard: every live lane receives the lane operation's result, the uniform register or
predicate takes the uniform operation's, both from the state before; under a false one nothing but the pushes and the place. -/
def Obligations.Pairs : Prop :=
  ∀ (lane uni : Instr) (d : LaneDesc) (u : UniDesc), laneDesc lane = some d → uniDesc uni = some u → d.custom = none →
    ∀ (s : State) (x : Turn), turnOf s = some x → x.mask ≠ 0 → x.mask = x.g.live →
      stalledLanes x.g (pairNames d u) d.latches x.g.live = 0 → (d.wide && spPending x.g) = false → d.priv x.g x.g.live = none →
      let uk := match u.kdst with | some k => [kBase + k.toNat] | none => []
      let prep := fun (off : Bool) => prepLane x.g x.g.live ⟨off, 7⟩ d.srcs (d.dst.names ++ (u.srcs.flatMap (fun p => srcNames 1 p.1)) ++ uk) false
      (∀ g1, guardUni x.g.q d.guard = true → prep false = .ok (g1, x.g.live) → d.bad g1 x.g.live = none →
        poisonLanes g1 (u.srcs.flatMap (fun p => srcBad p.2 p.1)) x.g.live = 0 →
        ∃ t y, exec (.pair lane uni) s = .next t ∧ getGang t x.blk x.gang = some y
          ∧ (∀ l, l < 64 → x.g.live.getLsbD l = true → received y l d.dst (d.eval x.b x.gang g1 x.g.live l).val ∧ sget 0 y.pc l = x.next)
          ∧ (∀ k, u.kdst = some k → sget 0 y.k k.toNat = BitVec.ofNat 64 (u.eval x.g.k x.g.q).1)
          ∧ (∀ n, u.kdst ≠ some (BitVec.ofNat 6 n) → n < 64 → sget 0 y.k n = sget 0 x.g.k n)
          ∧ (u.kdst = none → y.q = setQ x.g.q u.qdst ((u.eval x.g.k x.g.q).1 != 0)))
      ∧ (∀ g1, guardUni x.g.q d.guard = false → prep true = .ok (g1, 0) →
        ∃ t y, exec (.pair lane uni) s = .next t ∧ getGang t x.blk x.gang = some y
          ∧ y.v = x.g.v ∧ y.o = x.g.o ∧ y.p = x.g.p ∧ y.k = x.g.k ∧ y.q = x.g.q ∧ y.fstat = x.g.fstat
          ∧ (∀ l, l < 64 → x.g.live.getLsbD l = true → sget 0 y.pc l = x.next))

/-- 11 R287 to R294, 06 R137: a cycle of a core counts itself and chooses at most two groups, of different addresses and no common
lane; an entry that has waited 64 cycles is starved; a feeder's issue is chosen in rotation; the active set is filled. The
order of the two groups, the arrival times and the rank of a gang that issues as a whole are the model's readings (log 11, 22, 49). -/
def Obligations.IssueCycle : Prop :=
  (∀ (core : Nat) (s : State), s.cur = [] → uniformityFault s core = none →
    let s0 := startFetches s core
    let ready := readyOf (activeFrags s0 core)
    let groups := chooseGroups s0 core ready
    ∃ t, exec (.issueCycle core) s = .next { t with
        cur := (sortBy (fun (x y : W64 × List Frag) => decide (x.1 ≤ y.1)) groups).flatMap (fun g => splitGroup t core g.1 g.2) }
      ∧ (getCore t core).cyc = (getCore s core).cyc + 1
      ∧ (getCore t core).pct = nextPct (getCore s0 core) (tableAddrs s0 core) ((readyEntries ready).map (·.1))
      ∧ t.mem = s.mem ∧ t.tick = s.tick)
  ∧ (∀ (core : Nat) (s t : State), s.cur = [] → uniformityFault s core = some t → exec (.issueCycle core) s = .next t)
  ∧ (∀ (s : State) (core : Nat) (es : List Entry), (chooseGroups s core es).length ≤ 2
      ∧ ∀ a b, chooseGroups s core es = [a, b] → a.1 ≠ b.1 ∧ fragLanes a.2 &&& fragLanes b.2 = 0)
  ∧ (∀ (core : Nat) (addr : W64), Acts (.entryStarved core addr) (fun _ => True)
      (fun s => modCore s core (fun c => { c with
        pct := c.pct.map (fun e => if e.addr = addr ∧ 64 ≤ e.wait then { e with starved := true } else e) })))
  ∧ (∀ (core : Nat) (b : Block) (f : Feeder),
      Acts (.feederIssue core) (fun s => s.cur = [] ∧ nextFeeder s core = some (b, f) ∧ fetchMisses s b f.pc = false)
        (fun s => { modCore s core (fun c => { c with rotFeeder := b.slot }) with cur := [.feeder b.id f.pc] })
      ∧ Acts (.feederIssue core) (fun s => s.cur = [] ∧ nextFeeder s core = some (b, f) ∧ fetchMisses s b f.pc = true)
        (fun s => modFeeder ((missAt s b.ctx b.core (fetchRef b.id 32) f.pc).getD s) b.id (fun f => { f with fetchWait := true })))
  ∧ (∀ (core b g : Nat), Acts (.activeSetSwap core) (fun s => (activeGangs s core).length < 8 ∧ nextPending s core = some (b, g))
      (fun s => enterActive s core b g))
  ∧ (∀ (core : Nat) (addr : W64) (b : Block) (y : Gang) (blk gi l : Nat) (s : State),
      getBlk s blk = some b → b.core = core → sfind b.gangs gi = some y → l < 64 → y.fetchWait.getLsbD l = true → sget 0 y.pc l = addr →
      fetchMisses s b addr = false →
      (∀ i j, i ∈ s.blocks → j ∈ s.blocks → i.id = j.id → i = j) →
      ∃ t z, exec (.instructionFetchComplete core addr) s = .next t ∧ getGang t blk gi = some z ∧ z.fetchWait.getLsbD l = false
        ∧ z.pc = y.pc ∧ z.v = y.v)

/-- 07 R189, R192 to R196, R200, 06 R172, R176, 09 R248: a load delivers its bytes, a store writes its lanes, an atomic steps at its
home, WSIG signals after its payload, a drain writes its rows; an issue group's operations at one location are performed together;
a peer's poisoned answer faults the load, with no effect, a failing gauge the WSIG.
03 R69: a walk's leaf fills the buffers of the cores that wait and lets its accesses and prefetches go on; its fault goes to them;
a queued walk starts. That one event performs every lane is log 20. -/
def Obligations.OperationsAndWalksComplete : Prop :=
  (∀ (s : State) (blk gang op : Nat) (b : Block) (y : Gang) (o : Op),
     let turn := fun (rel : Bool) => OpTurn s blk gang op rel b y o
     let alone := turn (opRel o) ∧ o.group = 0
     let mates := fun (serve : State → Nat → Block → Op → State) =>
       (opMates s o).foldl (fun s m => onOp s m (fun b _ o => serve s m.2.1 b o)) (serve s gang b o)
     (∀ t n dst acc acq ro, alone → o.body = .load t n dst acc acq ro → (∀ a ∈ acc, accPoison s b a = false) →
       exec (.loadComplete blk gang op) s = .next (finish (landLoad s b gang o t n dst acc ro) b gang o))
     ∧ (∀ t n dst acc acq ro a bad, alone → o.body = .load t n dst acc acq ro → acc.filter (accPoison s b) = a :: bad →
       ∃ f : Flt, f.cls = 8 ∧ f.cause = 8 ∧ f.va = a.loc.va
         ∧ (∀ d, dst = .lane d → f.lanes = maskOfList ((a :: bad).map (fun a => a.lane))) ∧ (∀ k, dst = .uni k → f.lanes = o.lanes)
         ∧ exec (.loadComplete blk gang op) s = .next (raiseHeld (withdrawOp s blk gang o) blk gang o o.lanes f))
     ∧ (∀ acc rel, alone → o.body = .store acc rel → (performLanes b acc s).blocked = false →
       let r := performLanes b acc s
       exec (.storePerformed blk gang op) s = .next (finish (clearWhole r.s b r.acc) b gang o))
     ∧ (turn (opRel o) → (opMates s o).all (mateReady s) = true →
       exec (.loadComplete blk gang op) s = .next (mates serveLoad) ∧ exec (.storePerformed blk gang op) s = .next (mates serveStore))
     ∧ (turn (opRel o) → (opMates s o).all (mateReady s) = false →
       exec (.loadComplete blk gang op) s = .next s ∧ exec (.storePerformed blk gang op) s = .next s)
     ∧ (∀ acc gs, alone → o.body = .wsig acc gs false → (performLanes b acc s).blocked = false →
       let r := performLanes b acc s
       exec (.storePerformed blk gang op) s = .next (modGang r.s blk gang
         (fun z => { z with ops := updFirst (fun x => x.id == o.id) (fun x => { x with body := .wsig [] gs true }) z.ops })))
     ∧ (∀ acc gs t, turn true → o.body = .wsig acc gs true → signalGauges b gs s = (t, [], []) →
       exec (.wsigSignal blk gang op) s = .next (finish t b gang o))
     ∧ (∀ acc gs t l c k va bad, turn true → o.body = .wsig acc gs true → signalGauges b gs s = (t, [], (l, c, k, va) :: bad) →
       ∃ f : Flt, f.cls = c ∧ f.cause = k ∧ f.va = va ∧ f.lanes.getLsbD l = decide (l < 64)
         ∧ exec (.wsigSignal blk gang op) s = .next (raiseHeld (finish t b gang o) blk gang o f.lanes f))
     ∧ (∀ core bank f a p rows s32 fl coop rel, turn false → o.body = .drain core bank f a p rows s32 fl coop rel →
       let d := drainAll f s32 a p rows
       let s0 := modGang (modBlk s blk (fun k => spPut k d.1)) blk gang (fun z => raiseFlags z (fl ||| d.2))
       (∀ t, coopAdd s0 b coop = .error t → exec (.mdrainComplete blk gang op) s = .next t)
       ∧ (∀ t, coopAdd s0 b coop = .ok t → (∀ z, getGang t blk gang = some z → z.exited = false) → exec (.mdrainComplete blk gang op) s = .next (finish t b gang o)))
     ∧ (∀ (r : AtomReq) (a : AtomLane) (t : State), s.atoms.find? (fun x => x.id == op) = some r → r.lanes.head? = some a →
       (∀ a ∈ r.lanes, ∃ z, getBlk s a.blk = some z ∧ blockLost s z r.loc = false ∧ childHeld s z.views = false) →
       getBlk s a.blk = some b → atomReady s r = true →
       let n := if r.w64 then 8 else 4
       let x := atomRun r.kind (8 * n) r.lanes (locNat s b.views r.loc n)
       locWrite s b.views r.loc (le n x.1) = .ok t →
       exec (.atomicPerformed op) s = .next (
         let u := x.2.foldl (fun s p => landAtom s p.1 (some p.2)) t
         { u with atoms := u.atoms.filter (fun q => q.id != r.id) }))
     ∧ (∀ k w v (ls : List AtomLane) (a : AtomLane), atomRun k w (a :: ls) v =
         let st := atomStep k w v a.opnd.toNat a.cmp.toNat
         ((atomRun k w ls st.1).1, (a, v, st.2) :: (atomRun k w ls st.1).2))
     ∧ (∀ (l : Loc) (v : W64) (t : State), s.atoms.find? (fun x => x.id == op) = none → o.id = op →
       s.blocks.findSome? (fun b => b.gangs.findSome? (fun (p : Nat × Gang) =>
         if p.2.ops.any (fun x => x.id == op) then some (b.id, p.1) else none)) = some (blk, gang) →
       turn true → o.body = .gaugeAdd l v → blockLost s b l = false → gaugeStep s b.views l v = .ok (.ok t) →
       exec (.atomicPerformed op) s = .next (finish t b gang o)))
  ∧ (∀ (s : State) (die id : Nat) (w : Walk) (e lv : Nat),
      (getDie s die).walks.find? (fun x => x.id == id && x.running) = some w →
      walk s false (((getCtx s w.ctx).map (fun c => c.root)).getD 0) (w.page * 65536) = .leaf e lv →
      let size := 2 ^ pageLog lv
      let base := w.page * 65536 / size * size
      let same := w :: (getDie s die).walks.filter (fun x => !x.running
        && (x.ctx == w.ctx && decide (base ≤ x.page * 65536) && decide (x.page * 65536 < base + size)))
      exec (.walkComplete die id) s = .next (startWalks ((same.flatMap (fun x => x.ops.filter (fun r => r.2.1 == 35))).foldl (fun s r =>
        match getBlk s r.1 with
          | some b => prefetchLine s b (BitVec.ofNat 64 r.2.2)
          | none => s) (same.foldl detachWalk
        ((same.flatMap (fun x => x.cores)).eraseDups.foldl (fun s c => fillTlbs s c { ctx := w.ctx, va := base, size := size })
          (modDie (walkSeen s w.ctx (w.page * 65536)) die
            (fun d => { d with walks := d.walks.filter (fun x => !same.any (fun y => y.id == x.id)) }))))) die))
  ∧ (∀ (s : State) (die id : Nat) (w : Walk) (c lv : Nat),
      (getDie s die).walks.find? (fun x => x.id == id && x.running) = some w →
      walk s false (((getCtx s w.ctx).map (fun c => c.root)).getD 0) (w.page * 65536) = .fault c lv →
      exec (.walkComplete die id) s = .next (startWalks (w.ops.foldl (fun s r => walkFails s w c lv r)
        (detachWalk (modDie (walkSeen s w.ctx (w.page * 65536)) die
          (fun d => { d with walks := d.walks.filter (fun x => x.id != w.id) })) w)) die))

/-- 06 R142, R146 to R148, R151, R152: a command starts when it is the head of its channel and its guard slot is true, reads its index
list, delivers each piece once and draws the barrier down by it, completes when all is delivered, and is discarded when its slot
is false; a failure of a started command is a copy fault. An access that misses the buffers waits for its walk (03 R68).
06 R157: a delivery of n bytes lowers a balance by n, and by no more than there is. The numbers of pieces and the words of a copy
fault are log 26. -/
def Obligations.StreamerCommandsRun : Prop :=
  (∀ (s : State) (blk : Nat) (b : Block) (c : Cmd), getBlk s blk = some b →
     let on := streamerOn s b = true
     let moved := modBlk s blk (fun b => { b with chans := b.chans.filter (fun x => x.id != c.id), started := b.started ++ [c] })
     (∀ ch l, b.chans.find? (fun x => x.ch == ch) = some c → on → (∀ t, c.tag = some t → slotOf b t = .isTrue) → readList s b c = .ok l → listMiss s b c = none →
       exec (.commandStart blk ch) s = .next (modBlk (listSeen moved b c) blk (fun b => { b with
         started := updFirst (fun x => x.id == c.id) (fun x => { x with idx := l }) b.started })))
     ∧ (∀ ch l t, b.chans.find? (fun x => x.ch == ch) = some c → on → (∀ t, c.tag = some t → slotOf b t = .isTrue) →
       readList s b c = .ok l → listMiss s b c = some t → exec (.commandStart blk ch) s = .next t)
     ∧ (∀ ch f, b.chans.find? (fun x => x.ch == ch) = some c → on → (∀ t, c.tag = some t → slotOf b t = .isTrue) →
       readList s b c = .error f → exec (.commandStart blk ch) s = .next (copyFault moved blk c f))
     ∧ (∀ n p bs t, b.started.find? (fun x => x.id == c.id) = some c → c.piece b n = some p → c.delivered.contains n = false →
       childHeld s b.views = false → pieceSource s b c p = .ok bs → pieceMiss s b c p = none → putPiece (pieceSeen s b c p) b c p bs = .ok t →
       exec (.pieceDelivered blk c.id n) s = .next (drawFor (modBlk t blk (fun b => { b with
         started := updFirst (fun x => x.id == c.id) (fun x => { x with delivered := x.delivered ++ [n] }) b.started })) b c p.dst p.len))
     ∧ (∀ n p f, b.started.find? (fun x => x.id == c.id) = some c → c.piece b n = some p → c.delivered.contains n = false →
       childHeld s b.views = false → pieceSource s b c p = .error f → exec (.pieceDelivered blk c.id n) s = .next (copyFault s blk c f))
     ∧ (∀ n p bs t f, b.started.find? (fun x => x.id == c.id) = some c → c.piece b n = some p → c.delivered.contains n = false →
       childHeld s b.views = false → pieceSource s b c p = .ok bs → pieceMiss s b c p = none →
       putPiece (pieceSeen s b c p) b c p bs = .fault t f → exec (.pieceDelivered blk c.id n) s = .next (copyFault t blk c f))
     ∧ (∀ n p bs t, b.started.find? (fun x => x.id == c.id) = some c → c.piece b n = some p → c.delivered.contains n = false →
       childHeld s b.views = false → pieceSource s b c p = .ok bs → pieceMiss s b c p = some t →
       exec (.pieceDelivered blk c.id n) s = .next t)
     ∧ (∀ t, b.started.find? (fun x => x.id == c.id) = some c → c.allDelivered b = true → childHeld s b.views = false →
       cmdGauge s b c = .ok (t, true) → exec (.commandComplete blk c.id) s =
         .next (modBlk t blk (fun b => { b with started := b.started.filter (fun x => x.id != c.id) })))
     ∧ (∀ ch t g, b.chans.find? (fun x => x.ch == ch) = some c → on → childHeld s b.views = false → c.tag = some g →
       slotOf b g = .isFalse → cmdGauge s b c = .ok (t, true) →
       exec (.commandDiscarded blk ch) s = .next ((c.dests b).foldl (fun s d => drawFor s b c d c.bytesEach)
         (modBlk t blk (fun b => { b with chans := b.chans.filter (fun x => x.id != c.id) }))))
     ∧ (c.gbind = false → cmdGauge s b c = .ok (s, true)))
  ∧ (∀ (s : State) (b : Block) (blk bar n cmd : Nat), getBlk s blk = some b →
      let x := sget ({} : Barrier) b.bars bar
      ((n : Int) ≤ x.balance → drawDown s blk bar n cmd =
          evalBarrier (modBar s blk bar (fun y => { y with balance := y.balance - (n : Int) })) blk bar)
      ∧ (x.balance < (n : Int) → x.mode = 0 → ∃ z, getBlk (drawDown s blk bar n cmd) blk = some z
          ∧ (sget ({} : Barrier) z.bars bar).balance = 0 ∧ (∃ r ∈ z.async, r.cls = 14 ∧ r.cause = 1)))
/-- 06 R164, R171 to R175, 09 R238, 11 R306, R313, 07 R179, R180, 13 R375: what lets a waiting party go on, and what it receives; the
gate goes to the first in its queue that can take it, the pool to its oldest request, a standstill of the pool evicts. The
waiter that a message goes to is the model's reading (log 46), and so are the triggered mark that MWAIT takes off (log 23) and a
message discarded for an ended or killed block (log 31). -/
def Obligations.WaitsEnd : Prop :=
  ∀ (s : State) (blk gi : Nat) (p : Party) (b : Block) (y : Gang),
    let go := fun (t : State) => resumeParty t blk p
    let gang := fun (t : State) => resumeParty t blk (.gang gi)
    (∀ kd, Waits s blk (.gang gi) b (.mwait kd) → getGang s blk gi = some y → y.watch.triggered = true →
      exec (.mwaitWake blk gi) s = .next (gang (setK (modGang s blk gi (fun z =>
        { z with watch := { z.watch with armed := false, triggered := false } })) blk (.gang gi) kd 0)))
    ∧ (∀ bar q, Waits s blk p b (.barwait bar q) → (sget ({} : Barrier) b.bars bar).phase ≠ q →
      exec (.barwaitResume blk p) s = .next (go s))
    ∧ (∀ l t, Waits s blk p b (.gaugewait l t) → locPoison s b.views l = false → t.toNat ≤ gaugeValue s b l →
      exec (.gaugewaitResume blk p) s = .next (go (touchLine s l)))
    ∧ (∀ kd m v rest, Waits s blk (.gang gi) b (.mbrecv kd m) → sget [] b.mboxes m = v :: rest → (mboxWaiters b m).head? = some gi →
      exec (.mbrecvResume blk gi) s = .next (gang (setK (modBlk s blk (fun z => { z with mboxes := sset [] z.mboxes m rest }))
        blk (.gang gi) kd v)))
    ∧ (∀ c m v z, Waits s blk p b (.mbsend c m v) → cmdBlock s b c = some z → z.stat ≠ .ended → z.stat ≠ .killed → mboxLen z m < 8 →
      exec (.mbsendAppend blk p) s = .next (go (appendMbox s z.id m v)))
    ∧ (∀ c m v, Waits s blk p b (.mbsend c m v) → (∀ z, cmdBlock s b c = some z → z.stat = .ended ∨ z.stat = .killed) →
      exec (.mbsendAppend blk p) s = .next (go (countCtr s b.ctx 13 1)))
    ∧ (∀ kd q v rest, Waits s blk (.gang gi) b (.popq kd q) → getGang s blk gi = some y → sget [] y.inlet q = v :: rest →
      exec (.popqResume blk gi) s = .next (gang (setK (modGang s blk gi (fun z => { z with inlet := sset [] y.inlet q rest }))
        blk (.gang gi) kd v)))
    ∧ (∀ kd q, Waits s blk (.gang gi) b (.popq kd q) → getGang s blk gi = some y → sget [] y.inlet q = [] → feederDone b = true →
      exec (.popqResume blk gi) s = .next (gang (setK (modGang s blk gi (fun z => { z with inlet := y.inlet })) blk (.gang gi) kd closedValue)))
    ∧ (∀ g q v, Waits s blk .feeder b (.pushq g q v) → inletFull s blk g q = false →
      exec (.pushqAppend blk) s = .next (resumeParty (appendInlet s blk g q v) blk .feeder))
    ∧ (∀ c n, Waits s blk (.gang gi) b (.waitany c) → getGang s blk gi = some y → candidate y.ev c = some n →
      exec (.eventDispatch blk (.gang gi)) s = .next (dispatchSlot (setWait s blk (.gang gi) .none 0) blk (.gang gi) n
        (partyPc s blk (.gang gi) + BitVec.ofNat 64 y.waitLen)))
    ∧ (∀ core, (getCore s core).gate = none → (getCore s core).gateQ.find? (gateGrantable s) = some (blk, gi) →
      partyWait s blk (.gang gi) = .mgate → exec (.gateGrant core) s = .next (gang (takeGate s core blk gi)))
    ∧ (∀ core n, growNext s core = .grant blk gi → partyWait s blk (.gang gi) = .grow n →
      let t := gang (modGang (modCore s core (fun c => { c with growQ := c.growQ.filter (fun p => p != (blk, gi)), sinceGrant := 0 }))
        blk gi (fun z => growRegs z n))
      exec (.growGrant core) s = .next (if (getCore t core).growQ = [] then
        { t with blocks := t.blocks.map (fun z => { z with notAgain := z.notAgain.filter (fun c => c != core) }) } else t))
    ∧ (∀ core, growNext s core = .lacks → exec (.growGrant core) s = .next s)
    ∧ (∀ core x, poolStuck s core = true →
      leastBy (fun (b : Block) => 2 ^ 64 - b.admitted) (s.blocks.filter (fun b => b.core == core && b.stat == .resident)) = some x →
      x.clique = 0 → exec (.poolStandstillEvict core) s = .next (countCtr (modCore { s with blocks := s.blocks.map (fun z =>
        if z.stat = .resident ∧ z.id = x.id then { z with stat := .stopping, evict := true, notAgain := z.notAgain ++ [z.core] } else z) } core
          (fun c => { c with sinceGrant := 0 })) x.ctx 15 1))
    ∧ (∀ bar, getBlk s blk = some b → getGang s blk gi = some y → b.runs = true → ctxHalted s b.ctx = false → y.wait = .checksum →
      (∀ c, c ∈ [0, 2, 3] → classCount y c = 0) → y.ckAt = some bar →
      exec (.checksumArrival blk gi) s = .next (modGang s blk gi (fun z =>
        { z with checksum := z.checksum ++ [(bar, crc64 (checksumBytes z))], ckAt := none, wait := .none })))

/-- 12 R317 to R322, R324, R342, R418, 13 R370, 14 R388 to R391, R397: what each packet does when its queue reads it. A LAUNCH adds
its grid or faults and the queue reads on; FORKCHIP opens a fork or cancels buckets; LEVEL, FENCE, GWAIT, GADD, CAPTURE, REGION and
POWER take effect and the queue reads on; a tail write hands packets over; a restart clears the error, with a skip past head.
The order across queues, the kinds of a rejected packet and the order of a virtual function's queues are the model's readings
(log 40, 41). -/
def Obligations.PacketsTakeEffect : Prop :=
  Packets .launchPacket 1 0 (fun _ _ _ l => parseLaunch l = none)
    (fun s qi _ l => rejectPacket s qi (w64At l 0x30) { cls := 3, cause := 7 })
  ∧ (∀ b s1 kd lp, Packets .launchPacket 1 0 (fun s _ q l => parseLaunch l = some b ∧ checkLaunch s q.ctx none [] b none = .ok (s1, kd, lp))
    (fun s qi q _ =>
      let r := addGrid s1 q.ctx 0 none qi (levelOf s q.ctx) b kd lp
      weirAdmit (modQueue (passPacket r.2 qi) qi (fun q => { q with launched := q.launched ++ [r.1] }))))
  ∧ (∀ b e, Packets .launchPacket 1 0 (fun s _ q l => parseLaunch l = some b ∧ checkLaunch s q.ctx none [] b none = .error e)
    (fun s qi _ _ => rejectPacket s qi b.rcb (lerrFlt (if e.2.1 = 3 ∨ e.2.1 = 25 then 0 else 1) e)))
  ∧ (∀ s1 s2 id, Packets .forkchipOpen 2 0 (fun s qi q l => nameRegion s q.ctx none [] (w64At l 0x10) = .ok s1
      ∧ openFork s1 { ctx := q.ctx, queue := qi, packet := true, level := levelOf s q.ctx, region := w64At l 0x10 } .chip (w64At l 8)
        = .ok (s2, id) ∧ ((getFork s2 id).map (winPending s2)).getD false = false)
    (fun _ qi _ _ => passPacket s2 qi))
  ∧ (∀ s1 s2 id, Packets .forkchipOpen 2 0 (fun s qi q l => nameRegion s q.ctx none [] (w64At l 0x10) = .ok s1
      ∧ openFork s1 { ctx := q.ctx, queue := qi, packet := true, level := levelOf s q.ctx, region := w64At l 0x10 } .chip (w64At l 8)
        = .ok (s2, id) ∧ ((getFork s2 id).map (winPending s2)).getD false = true)
    (fun s _ _ _ => s))
  ∧ (∀ x, Packets .forkchipOpen 2 0 (fun s _ q l => nameRegion s q.ctx none [] (w64At l 0x10) = .error x)
    (fun s qi _ l => rejectPacket s qi (w64At l 0x10) { cls := 3, cause := 8, va := x.1 }))
  ∧ Packets .forkchipCancel 2 1 (fun _ _ _ _ => True)
    (fun s qi q l => (List.range (min 4 (natAt l 0x19 1))).foldl (fun s i => cancelBucket s q.ctx (natAt l 0x18 1 + i)) (passPacket s qi))
  ∧ Packets .levelPacket 3 0 (fun _ _ _ _ => True)
    (fun s qi q l => modCtx (passPacket s qi) q.ctx (fun c => { c with pendingLevels := c.pendingLevels ++ [(natAt l 8 1, q.order)] }))
  ∧ (∀ ctx c p, Acts (.levelChange ctx) (fun s => getCtx s ctx = some c ∧ p ∈ c.pendingLevels
      ∧ (∀ x ∈ c.pendingLevels, x = p ∨ p.2 < x.2) ∧ (∀ g ∈ s.grids, g.ctx = ctx → p.2 ≤ g.read) ∧ unreadBefore s ctx p.2 = false)
    (fun s => modCtx s ctx (fun c => { c with level := p.1, pendingLevels := c.pendingLevels.erase p })))
  ∧ Packets .fencePacket 4 0 (fun _ _ _ _ => True) (fun s qi _ _ => passPacket s qi)
  ∧ (∀ g, Packets .gwait 5 0 (fun s _ q l => packetGauge s q.ctx .watch (w64At l 8) = .ok g)
    (fun s qi _ _ => passPacket (touchLine s g) qi))
  ∧ (∀ e, Packets .gwait 5 0 (fun s _ q l => packetGauge s q.ctx .watch (w64At l 8) = .error e)
    (fun s qi _ _ => packetStop s qi 5 e 9))
  ∧ (∀ g t, Packets .gadd 6 0 (fun s _ q l => packetGauge s q.ctx .rw (w64At l 8) = .ok g
      ∧ gaugeAddLoc s [] g (w64At l 0x10) = .ok (.ok t))
    (fun _ qi _ _ => passPacket t qi))
  ∧ Packets .captureStart 7 0 (fun _ _ _ l => natAt l 0x24 4 < 8 ∧ (w64At l 8).toNat % 128 = 0)
    (fun s qi q l => modCtx (passPacket s qi) q.ctx (fun c => { c with
      capture := some { buf := w64At l 8, size := natAt l 0x10 8, cmask := natAt l 0x18 8, period := natAt l 0x20 4,
                        opts := natAt l 0x24 4, filter := natAt l 0x28 2 },
      counters := (List.range 16).foldl (fun m i => if natAt l 0x18 8 / 2 ^ i % 2 = 1 then sset 0 m i 0 else m) c.counters }))
  ∧ (∀ c t, Packets .captureStop 7 1 (fun s _ q l => getCtx s q.ctx = some c ∧ (w64At l 8).toNat % 128 = 0
      ∧ structWrite s q.ctx none [] (w64At l 8) (stopRecord c) = .ok t)
    (fun _ qi q _ => modCtx (passPacket t qi) q.ctx (fun c => { c with capture := none })))
  ∧ (∀ t, Packets .regionPacket 8 0 (fun s _ q l => scanRcb q.ctx none [] true regionFuel [] s (w64At l 8) = (t, none))
    (fun _ qi _ _ => passPacket t qi))
  ∧ (∀ t a up, Packets .regionPacket 8 0 (fun s _ q l => scanRcb q.ctx none [] true regionFuel [] s (w64At l 8) = (t, some (a, up)))
    (fun s qi q _ => raisePacket (passPacket t qi) q.ctx up qi (levelOf s q.ctx) (packetVa q) { cls := 3, cause := 8, va := a }))
  ∧ (∀ t b r, Packets .regionRoot 8 1 (fun s _ q l => structLoad s q.ctx none [] (w64At l 8) 128 = .ok (t, b)
      ∧ parseRcb (w64At l 8) b = some r ∧ r.parent = 0 ∧ r.imask = 1023)
    (fun _ qi q _ => modCtx (passPacket t qi) q.ctx (fun c => { c with rootRegion := { r with addr := 0, imask := 0 } })))
  ∧ (∀ t b, let p := fun (q : Queue) (l : List Byte) => scanRcb q.ctx none [] true regionFuel [w64At l 8] t (w64At b 0)
      Packets .regionRoot 8 1 (fun s _ q l => structLoad s q.ctx none [] (w64At l 8) 128 = .ok (t, b)
        ∧ ∀ r, parseRcb (w64At l 8) b = some r → r.parent ≠ 0 ∨ r.imask ≠ 1023)
      (fun s qi q l => raisePacket (passPacket (p q l).1 qi) q.ctx (((p q l).2.map (·.2)).getD (w64At b 0)) qi
        (levelOf s q.ctx) (packetVa q) { cls := 3, cause := 8, va := w64At l 8 }))
  ∧ Packets .powerPacket 9 0 (fun s _ q l => (∀ c, getCtx s q.ctx = some c → c.owner = .pf) ∧ 1 ≤ natAt l 8 1 ∧ natAt l 8 1 ≤ 4)
    (fun s qi _ l => requestPower (passPacket s qi) (natAt l 8 1))
  ∧ (∀ fn i qi (tail : BitVec 32), Acts (.queueTailWrite fn i tail) (fun s => queueAt s fn i = qi
      ∧ ownsQueue s fn (getQueue s qi) = true ∧ s.dev.ready = true
      ∧ (tail - (getQueue s qi).tail).toNat ≠ 0 ∧ (tail - (getQueue s qi).head).toNat ≤ (getQueue s qi).entries)
    (fun s => let n := (tail - (getQueue s qi).tail).toNat
      modQueue { s with pktOrder := s.pktOrder + n } qi (fun q => { q with tail := tail, reads := q.reads ++ [(n, s.pktOrder)] })))
  ∧ (∀ i s, queueAt s .pf i = i)
  ∧ (∀ fn i qi, Acts (.queueRestart fn i) (fun s => queueAt s fn i = qi ∧ ownsQueue s fn (getQueue s qi) = true ∧ s.dev.ready = true
      ∧ (getQueue s qi).unread ≤ (getQueue s qi).entries)
    (fun s => modQueue s qi (fun q => { q with err := 0, stopped := false })))
  ∧ (∀ fn i qi, Acts (.queueSkip fn i) (fun s => queueAt s fn i = qi ∧ ownsQueue s fn (getQueue s qi) = true ∧ s.dev.ready = true
      ∧ (getQueue (passPacket s qi) qi).unread ≤ (getQueue s qi).entries)
    (fun s => modQueue (passPacket s qi) qi (fun q => { q with err := 0, stopped := false })))

/-- 14 R381 to R388, R393, R402, 13 R374, 03 R59, R60: the management commands that a function's mailbox accepts: what each does and
what it answers, and the status of the failures that the rules name. Ids, places in pools and the order of checks are the
model's readings (log 10, 41, 42). -/
def Obligations.ManagementCommands : Prop :=
  let owns := fun (s : State) (fn : Fn) (l : List Byte) (c : Ctx) => getCtx s (natAt l 8 4) = some c ∧ c.owner = fn
  let none8 := fun (_ : State) (_ : List Byte) => ([] : List Byte)
  let param := fun (i : Fn → Request → Instr) (n : Nat) (ok : State → Nat → Prop) (e : State → Nat → State) =>
    Commands i 0x0D 0x18 true (fun s _ l => natAt l 8 8 = n ∧ ok s (natAt l 0x10 8)) (fun s l => e s (natAt l 0x10 8)) none8
  let dev := fun (f : Device → Nat → Device) (s : State) (v : Nat) => { s with dev := f s.dev v }
  (∀ c id t root, Commands .ctxCreate 0x01 0x100 false (fun s fn l =>
      (List.range 1024).find? (fun i => (getCtx s i).isNone) = some id ∧ parseCtx fn id l = some c ∧ (∀ d ∈ s.ctxs, poolsMeet c d = false)
      ∧ (s.ctxs.map (fun c => c.tags)).foldl (· + ·) c.tags ≤ 256 ∧ (∀ p ∈ c.pools, spillBytes c ≤ p.2.2)
      ∧ carve { s with ctxs := s.ctxs ++ [{ c with carved := spillCut c }] } id 131072 = some (t, root))
    (fun _ _ => modCtx t id (fun c => { c with root := root })) (fun _ _ => le 4 id))
  ∧ (∀ (s : State) (fn : Fn) (req : Request) (c : Ctx), CommandTurn s fn req 0x02 0x0C false → owns s fn (reqBytes req) c →
    exec (.ctxDestroy fn req) s = .next (startDestroy { s with mailboxes := s.mailboxes.filter (fun p => p.1 != fn)
      ++ [(fn, { getMbox s fn with request := req, doorbell := true })] } c.id (some fn)))
  ∧ (∀ (t : State) (c : Ctx) (id : Nat) (fn : Fn), getCtx t id = some c → c.dying = some (some fn) →
    (drained t id = true → finishDestroy t id = respond (destroyCtx t id) fn (getMbox t fn).request 0 [])
    ∧ (drained t id = false → finishDestroy t id = t))
  ∧ (∀ (t : State) (id : Nat), getCtx (destroyCtx t id) id = none ∧ (∀ b ∈ (destroyCtx t id).blocks, b.ctx ≠ id))
  ∧ (∀ c, Commands .ctxReset 0x03 0x0C false (fun s fn l => owns s fn l c ∧ c.halt = .halted) (fun s _ => resetCtx s c) none8)
  ∧ CommandFails .ctxReset 0x03 0x0C false (fun s fn l => ∃ c, owns s fn l c ∧ c.halt ≠ .halted) 5
  ∧ CommandFails .ctxDestroy 0x02 0x0C false (fun s fn l => ∀ c, ¬ owns s fn l c) 3
  ∧ (∀ c log lv t, let size := 2 ^ log
      let pages := fun (l : List Byte) => (List.range (natAt l 0x18 8 / size)).map (fun i => (natAt l 0x10 8 + i * size, natAt l 0x28 8 + i * size))
    Commands .mapPages 0x04 0x31 false (fun s fn l => owns s fn l c ∧ mapSize (natAt l 0x30 1) = some (log, lv) ∧ allZero l 0x0C 4 = true
      ∧ natAt l 0x10 8 % size = 0 ∧ natAt l 0x18 8 % size = 0 ∧ natAt l 0x28 8 % size = 0 ∧ natAt l 0x10 8 + natAt l 0x18 8 ≤ 2 ^ 57
      ∧ windowRange s c.id c.root (natAt l 0x10 8) (natAt l 0x18 8) = false
      ∧ (∀ p ∈ pages l, pageOk s c lv size p.1 p.2 (leafWord (natAt l 0x20 8) p.2) = true)
      ∧ mapRun c lv log (natAt l 0x20 8) (natAt l 0x18 8 / size) s (natAt l 0x10 8) (natAt l 0x28 8) = some t)
    (fun _ l => invalidate t c.id (natAt l 0x10 8) (natAt l 0x18 8)) none8)
  ∧ CommandFails .mapPages 0x04 0x31 false (fun s fn l => ∃ c, owns s fn l c ∧ natAt l 0x30 1 ≤ 2
      ∧ windowRange s c.id c.root (natAt l 0x10 8) (natAt l 0x18 8) = true) 1
  ∧ CommandFails .unmapPages 0x05 0x20 false (fun s fn l => ∃ c, owns s fn l c
      ∧ windowRange s c.id c.root (natAt l 0x10 8) (natAt l 0x18 8) = true) 1
  ∧ (∀ c, let leaves := fun (s : State) (l : List Byte) => rangeLeaves s c.root (natAt l 0x10 8) (natAt l 0x18 8)
    Commands .unmapPages 0x05 0x20 false (fun s fn l => owns s fn l c ∧ allZero l 0x0C 4 = true ∧ natAt l 0x10 8 % 65536 = 0
      ∧ natAt l 0x18 8 % 65536 = 0 ∧ natAt l 0x10 8 + natAt l 0x18 8 ≤ 2 ^ 57
      ∧ windowRange s c.id c.root (natAt l 0x10 8) (natAt l 0x18 8) = false ∧ (∀ p ∈ leaves s l, natAt l 0x10 8 ≤ p.1
          ∧ p.1 + p.2.1 ≤ natAt l 0x10 8 + natAt l 0x18 8))
    (fun s l => invalidate ((leaves s l).foldl (fun s p => match entryAt s p.1 p.2.2.1 4 c.root 0 with
        | some a => freeTables c.id p.1 4 (devWrite s a (zeros 8)) c.root 0
        | none => s) s) c.id (natAt l 0x10 8) (natAt l 0x18 8)) none8)
  ∧ (∀ c, Commands .queueBind 0x06 0x1C false (fun s fn l => natAt l 8 4 < 16384 ∧ natAt l 0x0C 4 ≠ 0xFFFFFFFF
      ∧ getCtx s (natAt l 0x0C 4) = some c ∧ c.owner = fn ∧ (getQueue s (natAt l 8 4)).bound = false ∧ isPow2 (natAt l 0x18 4) = true
      ∧ 64 ≤ natAt l 0x18 4 ∧ natAt l 0x18 4 ≤ 2 ^ 20 ∧ (w64At l 0x10).toNat % (64 * natAt l 0x18 4) = 0)
    (fun s l => modQueue s (natAt l 8 4) (fun _ => { bound := true, ctx := c.id, ring := w64At l 0x10, entries := natAt l 0x18 4 })) none8)
  ∧ (∀ c, Commands .queueBind 0x06 0x1C false (fun s fn l => natAt l 8 4 < 16384 ∧ natAt l 0x0C 4 = 0xFFFFFFFF
      ∧ (getQueue s (natAt l 8 4)).bound = true ∧ getCtx s (getQueue s (natAt l 8 4)).ctx = some c ∧ c.owner = fn
      ∧ (getQueue s (natAt l 8 4)).unread = 0)
    (fun s l => { s with queues := sdel s.queues (natAt l 8 4) }) none8)
  ∧ (∀ c t, Commands .preempt 0x07 0x18 false (fun s fn l => owns s fn l c ∧ stopTarget l = some t)
    (fun s _ => switchOut (requestStop (modCtx s c.id (fun c => { c with stops := c.stops.filter (fun x => x != t) ++ [t] }))
      (fun b => b.ctx == c.id && stopHits c b t)) c.id) none8)
  ∧ (∀ c t, Commands .resume 0x08 0x18 false (fun s fn l => owns s fn l c ∧ stopTarget l = some t) (fun s _ => resumeTarget s c t) none8)
  ∧ (∀ c d, Commands .importImages 0x09 0x11 false (fun s fn l => owns s fn l c ∧ natAt l 0x10 1 = 0xFF
      ∧ getCtx s (natAt l 0x0C 4) = some d ∧ d.owner = fn ∧ ∃ b ∈ s.blocks, waitingImage c b = true)
    (fun s _ => { s with blocks := s.blocks.map (fun b => if waitingImage c b then { b with ctx := d.id, stat := .waitHost, capWait := false } else b) })
    none8)
  ∧ (∀ c p, Commands .importImages 0x09 0x11 false (fun s fn l => owns s fn l c ∧ natAt l 0x10 1 ≠ 0xFF
      ∧ sfind c.peers (natAt l 0x10 1) = some p ∧ p.valid = true ∧ p.self = false ∧ peerUp s p = true
      ∧ ∃ b ∈ s.blocks, waitingImage c b = true)
    (fun s _ => { s with
      blocks := s.blocks.filter (fun b => !waitingImage c b),
      grids := s.grids.map (fun g => if (s.blocks.filter (waitingImage c)).any (fun b => b.grid == g.id) then { g with away := true } else g) }) none8)
  ∧ (∀ c, let n := fun (s : State) (p : Block → Bool) => ((s.blocks.filter (fun b => b.ctx == c.id)).filter p).length
    Commands .query 0x0A 0x0C false (fun s fn l => owns s fn l c) (fun s _ => s) (fun s _ =>
      le 4 ((if c.halt = .halted then 1 else 0) + (if c.switched then 2 else 0)
        + (if n s (fun b => b.stat == .stopping || b.stat == .stopped) ≠ 0 then 4 else 0))
      ++ le 4 (n s Block.onCore) ++ le 4 (n s (fun b => b.stat == .waitHost && b.capWait))))
  ∧ (∀ c, Commands .debugMode 0x0B 0x22 false (fun s fn l => owns s fn l c ∧ natAt l 0x0C 4 ≤ 1)
    (fun s l => releaseStop (modCtx s c.id (fun c => { c with
      debug := natAt l 0x0C 4 == 1,
      stopIds := ((List.range 4).map (fun i => BitVec.ofNat 16 (natAt l (0x10 + 2 * i) 2))).filter (fun x => x != 0) }))
      c.id (natAt l 0x18 8) (natAt l 0x20 2)) none8)
  ∧ (∀ c p, Commands .peerEntry 0x0C 0x30 false (fun s fn l => owns s fn l c ∧ parsePeer l 0x10 = some p ∧ natAt l 0x0C 4 < 16)
    (fun s l => modCtx s c.id (fun c => { c with peers := sput c.peers (natAt l 0x0C 4) p })) none8)
  ∧ param .setReservoir 1 (fun s v => 1 ≤ v ∧ v ≤ 16 ∧ s.ctxs = []) (dev (fun d v => { d with reservoir := v }))
  ∧ param .setScrubPeriod 2 (fun _ v => 1 ≤ v ∧ v ≤ 168) (dev (fun d v => { d with scrub := v }))
  ∧ param .setRiseLimit 3 (fun _ v => 1 ≤ v ∧ v ≤ 4096) (dev (fun d v => { d with rise := v }))
  ∧ param .setFallLimit 4 (fun _ v => 1 ≤ v ∧ v ≤ 4096) (dev (fun d v => { d with fall := v }))
  ∧ param .setAgingThreshold 5 (fun _ v => 1 ≤ v ∧ v ≤ 65535) (dev (fun d v => { d with aging := v }))
  ∧ param .setPowerState 6 (fun _ v => 1 ≤ v ∧ v ≤ 4) requestPower
  ∧ param .setErrorLogRing 7 (fun _ v => v % 64 = 0) (dev (fun d v => { d with errRing := BitVec.ofNat 64 v }))
  ∧ param .setErrorLogEntries 8 (fun _ v => isPow2 v = true ∧ 64 ≤ v ∧ v ≤ 2 ^ 20) (dev (fun d v => { d with errEntries := v }))
  ∧ CommandFails .setReservoir 0x0D 0x18 true (fun s _ l => natAt l 8 8 = 1 ∧ 1 ≤ natAt l 0x10 8 ∧ natAt l 0x10 8 ≤ 16 ∧ s.ctxs ≠ []) 5
  ∧ (∀ (req : Request) (img : FwImage), let l := reqBytes req
    let staged := fun (s : State) => natAt l 0 1 = 0x0E ∧ (s.dev.ready = true ∨ s.dev.recovery = true) ∧ s.dev.tripped = false
      ∧ allZero l 1 7 = true ∧ allZero l 0x18 (256 - 0x18) = true ∧ (getMbox s .pf).doorbell = false
    let kept := fun (s : State) => stagedImage s (natAt l 8 8) (natAt l 0x10 8) img
    (∀ v, Acts (.fwStage .pf req img) (fun s => staged s ∧ verifyImage s.dev.trust s.dev.fused (kept s) = some v)
      (fun s => respond { s with dev := { s.dev with staged := some (kept s), fused := v } } .pf req 0 []))
    ∧ Acts (.fwStage .pf req img) (fun s => staged s ∧ verifyImage s.dev.trust s.dev.fused (kept s) = none)
      (fun s => respond { s with dev := { s.dev with recovery := true, ready := false } } .pf req 2 []))

/-- 14 R394 to R396, 03 R73: an SPDM request that comes in its order moves its session on, and each is answered while the device is
up; a key request needs an open session: KEY_LOAD takes the lowest empty slot, KEY_GRANT adds a context, KEY_REMOVE takes one away
and empties the slot of the last, whose lines leave L2 with their plaintext. What an answer tells, the certificates and the
measurements among it, is what its request asks for; its bytes are free values of that (the spec does not lay them out). The bytes
and the lowest empty slot are the model's choice (log 13). -/
def Obligations.AttestationAndKeys : Prop :=
  let answers := fun (i : Instr) (fn : Fn) (ok : Session → Prop) (f : Session → Session) (code : Nat) (tells : State → List Nat) (signed : Bool) =>
    Acts i (fun s => reeveUp s = true ∧ ok (getSession s fn))
      (fun s => setSession s fn { f (getSession s fn) with
        response := Config.spdmBytes s.tick code (tells s) (if signed then s.dev.aliasKey else none) })
  let moves := fun (i : Instr) (fn : Fn) (n m code : Nat) (tells : State → List Nat) (signed : Bool) =>
    answers i fn (fun x => x.phase = n) (fun x => { x with phase := m }) code tells signed
  let stays := fun (i : Instr) (fn : Fn) (n code : Nat) (tells : State → List Nat) (signed : Bool) =>
    answers i fn (fun x => n ≤ x.phase) (fun x => x) code tells signed
  let keyed := fun (s : State) (fn : Fn) (ctx : Nat) (c : Ctx) => reeveUp s = true ∧ (getSession s fn).phase = 5
    ∧ getCtx s ctx = some c ∧ c.owner = fn
  ∀ (fn : Fn) (msg : List Byte) (ix ctx i : Nat) (c : Ctx) (k : KeySlot),
    let echo := fun (_ : State) => said msg
    answers (.getVersion fn msg) fn (fun _ => True) (fun _ => { phase := 1 }) 1 (fun _ => [0x12, 0x13]) false
    ∧ moves (.getCapabilities fn msg) fn 1 2 2 echo false ∧ moves (.negotiateAlgorithms fn msg) fn 2 3 3 echo false
    ∧ moves (.keyExchange fn msg) fn 3 4 8 echo true
    ∧ moves (.finish fn true msg) fn 4 5 9 echo false ∧ moves (.finish fn false msg) fn 4 3 9 echo false
    ∧ stays (.getDigests fn msg) fn 3 4 (fun s => certificateChain s.dev) false
    ∧ stays (.getCertificate fn msg) fn 3 5 (fun s => said msg ++ certificateChain s.dev) false
    ∧ stays (.challenge fn msg) fn 3 6 (fun s => said msg ++ certificateChain s.dev) true
    ∧ (∀ m, Acts (.getMeasurements fn ix) (fun s => reeveUp s = true ∧ 3 ≤ (getSession s fn).phase ∧ measurement s fn ix = some m)
      (fun s => setSession s fn { getSession s fn with response := Config.spdmBytes s.tick 7 (ix :: m) s.dev.aliasKey }))
    ∧ (∀ s, measurement s fn 4 = some [s.dev.reservoir, s.dev.scrub, s.dev.rise, s.dev.fall, s.dev.aging]
      ∧ measurement s fn 5 = some ((s.ctxs.filter (fun c => c.owner == fn)).flatMap contextFacts)
      ∧ measurement s fn 6 = some ((List.range 16).flatMap (fun i =>
        let p := sget ({} : Port) s.ports i
        [if p.up then 1 else 0, p.serial.toNat])))
    ∧ answers (.keyUpdate fn msg) fn (fun x => x.phase = 5) (fun x => { x with updates := x.updates + 1 }) 10 echo false
    ∧ answers (.heartbeat fn msg) fn (fun x => x.phase = 5) (fun x => x) 11 echo false
    ∧ answers (.endSession fn msg) fn (fun x => x.phase = 5) (fun _ => { phase := 3 }) 12 echo false
    ∧ (∀ key, Acts (.keyLoad fn ctx key) (fun s => keyed s fn ctx c ∧ emptyKeySlot s = some i)
      (fun s => setSession { s with keys := sput s.keys i { present := true, key := key.getD (Config.genKey s.tick), grants := [c.id] } } fn
        { getSession s fn with response := le 2 i }))
    ∧ Acts (.keyGrant fn i ctx) (fun s => keyed s fn ctx c ∧ sfind s.keys i = some k ∧ i ≠ 0 ∧ grantedTo s fn k = true
        ∧ k.grants.contains c.id = false)
      (fun s => { s with keys := sput s.keys i { k with grants := k.grants ++ [c.id] } })
    ∧ Acts (.keyRemove fn i ctx) (fun s => keyed s fn ctx c ∧ sfind s.keys i = some k ∧ i ≠ 0 ∧ k.grants.contains c.id = true
        ∧ k.grants.filter (fun x => x != c.id) ≠ [])
      (fun s => { s with keys := sput s.keys i { k with grants := k.grants.filter (fun x => x != c.id) } })
    ∧ Acts (.keyRemove fn i ctx) (fun s => keyed s fn ctx c ∧ sfind s.keys i = some k ∧ i ≠ 0 ∧ k.grants = [c.id])
      (fun s => emptySlot s i)
    ∧ (∀ s, let t := emptySlot s i
      sfind t.keys i = none ∧ (∀ p ∈ t.l2, p.2.map (fun x => x.key) ≠ some i) ∧ (∀ p ∈ t.cores, p.2.robuf = []) ∧ t.mem = s.mem)

/-- 14 R380, R393, R397 to R400, R403 to R405: a reset verifies its images and brings the device up with its ports, or leaves it in
recovery; a thermal trip ends all work; a power state, a virtual function and a port change; a port fails after 16 failures
within one second. That a refused image of FW_STAGE sets recovery, and the state of what is not named at reset, are the model's
readings (log 8, 42); so are which loads a port that goes down poisons, how long a second is, the keys of a link and the return
of a port by its serial (log 43). -/
def Obligations.DeviceEvents : Prop :=
  (∀ (a b c : FwImage) (v : BitVec 6), Acts (.deviceReset a b c)
      (fun s => verifyAll s.dev.trust ([a, b, c] ++ s.dev.staged.toList) s.dev.fused = (v, true))
      (fun s => let up : Device := { (blank s).dev with fused := v, hbminit := true, ready := linkUp s.dev, firmware := [a, b, c] }
        { blank s with dev := { up with aliasKey := some (deriveAlias up) }, ports := trainPorts s,
                       keys := [(0, { present := true, key := Config.genKey s.tick })] }))
  ∧ (∀ (a b c : FwImage) (v : BitVec 6), Acts (.deviceReset a b c)
      (fun s => verifyAll s.dev.trust ([a, b, c] ++ s.dev.staged.toList) s.dev.fused = (v, false))
      (fun s => { blank s with dev := { (blank s).dev with fused := v, recovery := true } }))
  ∧ (∀ (t : BitVec 384) (v : BitVec 6) (i : FwImage), (verifyImage t v i = none ↔ i.sigOk = false ∨ i.key ≠ t ∨ i.version < v)
      ∧ ∀ w, verifyImage t v i = some w → v ≤ w ∧ i.version ≤ w)
  ∧ (∀ (t : BitVec 384) (v : BitVec 6) (l : List FwImage), v ≤ (verifyAll t l v).1)
  ∧ (∀ die, Acts (.thermalTrip die) (fun s => s.dev.tripdie.getLsbD die = true) (fun s => s))
  ∧ (∀ die, Acts (.thermalTrip die) (fun s => die < 9 ∧ s.dev.tripdie.getLsbD die = false ∧ (s.dev.errRing = 0 ∨ s.dev.errEntries = 0))
      (fun s => { loseAll s with dev := { s.dev with
        tripped := true, ready := false, target := none, changed := [], tripdie := s.dev.tripdie ||| BitVec.ofNat 9 (2 ^ die),
        vectors := s.dev.vectors ++ [(Fn.pf, 0)] } }))
  ∧ (∀ (die : Nat) (s : State), die < 9 → s.dev.tripdie.getLsbD die = false → ∃ t, exec (.thermalTrip die) s = .next t
      ∧ t.dev.tripped = true ∧ t.dev.ready = false ∧ t.dev.tripdie.getLsbD die = true ∧ t.ctxs = [] ∧ t.queues = [] ∧ t.grids = []
      ∧ t.forks = [] ∧ t.rqs = [] ∧ t.blocks = [] ∧ t.cores = [])
  ∧ (∀ die p, Acts (.powerStateChange die) (fun s => die < 8 ∧ s.dev.target = some p ∧ p ≠ 1
        ∧ (s.dev.changed ++ [die]).eraseDups.length = 8)
      (fun s => { s with dev := { s.dev with power := p, target := none, changed := [] } }))
  ∧ (∀ die, Acts (.powerStateChange die) (fun s => die < 8 ∧ s.dev.target = some 1 ∧ ∀ b ∈ s.blocks, b.onCore = false)
      (fun s => { s with dev := { s.dev with power := 1, target := none, changed := [] } }))
  ∧ Acts .powerRemoval (fun s => s.ctxs = []) (fun s => { blank s with dev := { (blank s).dev with power := 0 } })
  ∧ (∀ vf, Acts (.vfEntersRun vf) (fun s => s.dev.vfRun.contains vf = false ∧ vf < 1023)
      (fun s => { s with dev := { s.dev with vfRun := s.dev.vfRun ++ [vf] } }))
  ∧ (∀ vf, Acts (.vfLeavesRun vf) (fun s => s.dev.vfRun.contains vf = true ∧ ∀ c ∈ s.ctxs, c.owner ≠ .vf vf)
      (fun s => { s with dev := { s.dev with vfRun := s.dev.vfRun.filter (fun x => x != vf) } }))
  ∧ (∀ vf c, Acts (.vfLeavesRun vf) (fun s => s.dev.vfRun.contains vf = true ∧ s.ctxs.filter (fun c => c.owner == .vf vf && c.dying.isNone) = [c])
      (fun s => let t := startDestroy s c.id none
        { t with dev := { t.dev with vfRun := t.dev.vfRun.filter (fun x => x != vf) } }))
  ∧ (∀ port, Acts (.linkTagFail port) (fun _ => port < 16)
      (fun s => modPort s port (fun p => { p with fails := (p.fails ++ [s.tick]).drop (p.fails.length + 1 - 16) })))
  ∧ (∀ port, Acts (.linkPortDown port) (fun s => port < 16 ∧ (sget {} s.ports port).up = true ∧ 16 ≤ (sget {} s.ports port).fails.length)
      (fun s => if Config.withinSecond ((sget {} s.ports port).fails.headD 0) ((sget {} s.ports port).fails.getLastD 0) = true
        then devError (poisonLoads (modPort s port (fun p => { p with up := false }))) errLink 8 port 1 else s))
  ∧ (∀ port, Acts (.linkRekey ⟨port, true⟩) (fun s => port < 16 ∧ (sget {} s.ports port).up = true)
      (fun s => modPort s port (fun p => { p with outKey := Config.linkKey s.tick port true })))
  ∧ (∀ port, Acts (.linkRekey ⟨port, false⟩) (fun s => port < 16 ∧ (sget {} s.ports port).up = true)
      (fun s => modPort s port (fun p => { p with inKey := Config.linkKey s.tick port false })))
  ∧ (∀ port, Acts (.linkPortReturn port) (fun s => port < 16 ∧ (sget {} s.ports port).serial ≠ 0 ∧ (sget {} s.ports port).up = false)
      (fun s => modPort s port (fun p => openPort s.tick port p.serial)))
  ∧ (∀ port, Acts (.linkCheckReplay port) (fun _ => True) (fun s => s))

/-- 03 R74 to R76, R109, R387, 14 R403: soft errors mark what they hit and are logged, corrected ones are counted; the host reads and
writes ciphertext, a poisoned sector makes a poisoned completion, and an open window refuses a write; a peer's access is admitted
by the address entries and performed at the home slice, but at a pool's frames never. The units of the log, the edges of the host
port, the children that an error in a version or a twin fails, and that answer are the model's readings (log 37, 38, 58, 61). -/
def Obligations.ErrorsHostAndPeers : Prop :=
  (∀ stack bad, Acts (.scrubPeriod stack bad) (fun _ => ∀ x ∈ bad, x < hbmSectors ∧ stackOf x = stack)
      (fun s => bad.foldl (fun s x => devError (setBad s x true) errScrub (homeDie (32 * x)) (32 * x) 1) s))
  ∧ (∀ at_, Acts (.uncorrectableError at_) (fun _ => True)
      (fun s => devError (markError s at_) errUncorrectable (errUnit s at_).1 (errUnit s at_).2 1))
  ∧ (∀ (s : State) (x i : Nat), x < hbmSectors → sectorBad (markError s (.hbm x)) x = true ∧ sectorBad (markError s (.l2 x)) x = true
      ∧ (i ≠ x → sectorBad (markError s (.hbm x)) i = sectorBad s i) ∧ (markError s (.hbm x)).mem = s.mem)
  ∧ (∀ (s : State) (i : Nat), let t := markError s (.keySlot i)
      sfind t.keys i = none ∧ (∀ p ∈ t.l2, p.2.map (fun x => x.key) ≠ some i) ∧ t.mem = s.mem)
  ∧ (∀ (s : State) (fid c gran : Nat) (f : Fork) (g : StepGran), getFork s fid = some f → f.ended = false → ctxHalted s f.ctx = false →
      f.scope ≠ .chip → (stepGrans f c).find? (fun g => g.1 == gran) = some g →
      let rep := forkPoison f c 2 (granVa g 0)
      let s1 := modFork s fid (fun f => { f with
        vers := updFirst (fun v => v.gran == gran && v.child == c) (fun v => { v with poisoned := true }) f.vers })
      let s2 := failAtChild s1 fid c 4 rep
      markError s (.forkState fid c gran) = if childLive s2 fid c then failChild s2 fid c rep true else s2)
  ∧ (∀ (s : State) (fid gran : Nat) (f : Fork) (t : Twin) (g : Seg) (h : Child), getFork s fid = some f → f.ended = false →
      ctxHalted s f.ctx = false → f.scope ≠ .chip → twinOf f gran = some t → forkSeg f (32 * gran) = some g → headOf s f = some h →
      markError s (.twin fid gran) = failAtChild (modFork s fid (fun f => { f with
        twins := updFirst (fun t => t.gran == gran) (fun t => { t with poisoned := true }) f.twins })) fid h.idx 4
        (forkPoison f h.idx 7 (granVa (gran, t.bytes, g) 0)))
  ∧ (∀ (s : State) (blk gi lane r : Nat) (g : Gang), getGang s blk gi = some g →
      ∃ z, getGang (markError s (.mainReg blk gi lane r)) blk gi = some z ∧ z.badRegs.contains (badKey r lane) = true ∧ z.v = g.v)
  ∧ (∀ unit addr, Acts (.correctedError unit addr) (fun _ => True)
      (fun s => devError { s with dev := { s.dev with corrected := s.dev.corrected + 1 } } errCorrected unit addr (s.dev.corrected + 1)))
  ∧ (∀ pa len, Acts (.hostRead pa len) (fun s => pa + len ≤ 2 ^ 40 ∧ ∀ x ∈ sectorsOf pa len, sectorBad s x = false)
      (fun s => { s with hostBad := false, hostData := cipherBytes s pa len }))
  ∧ (∀ pa len, Acts (.hostRead pa len) (fun s => pa + len ≤ 2 ^ 40 ∧ ∃ x ∈ sectorsOf pa len, sectorBad s x = true)
      (fun s => { s with hostBad := true, hostData := [] }))
  ∧ (∀ pa data, Acts (.hostWrite pa data) (fun s => pa + data.length ≤ 2 ^ 40 ∧ inOpenWindow s pa data.length = true)
      (fun s => { s with hostBad := true }))
  ∧ (∀ pa data, Acts (.hostWrite pa data) (fun s => pa + data.length ≤ 2 ^ 40 ∧ inOpenWindow s pa data.length = false)
      (fun s => (bySector { addr := pa } (data.length / 32 + 2) data).foldl (fun s p =>
        notifyWrite (putCipher s (p.1.addr / 32) (p.1.addr % 32) p.2) [] p.1) { s with hostBad := false }))
  ∧ (∀ ctx serial pc pa op c p, let at_ : Loc := { ap := 0, addr := pa, key := p.key }
      Acts (.remoteAccess ctx serial pc pa op) (fun s => getCtx s ctx = some c ∧ admitPeer c serial pc pa (remoteBytes op) = some p
        ∧ poolFrame s pa (remoteBytes op) = false ∧ keyFault s ctx at_ = none ∧ remoteAligned pa op = true)
      (fun s => remotePerform s at_ op))
  ∧ (∀ ctx serial pc pa op c, Acts (.remoteAccess ctx serial pc pa op) (fun s => getCtx s ctx = some c
        ∧ (admitPeer c serial pc pa (remoteBytes op) = none ∨ poolFrame s pa (remoteBytes op) = true))
      (fun s => { s with linkStatus := 1, linkReply := [] }))

/-- 05 R112 to R117, R122 to R130: a prefix step commits the head's versions into the parent view, or fails the child at a poisoned
twin or at a conflict; a blocked child gets its slots; or grants not yet taken go back, or a rollback frees the slots of the
highest child that holds some, or the quota is exhausted and ends the fork, at chip scope by the head's final contribution; at chip scope contributions gather at their home slice and a broadcast writes the outcome everywhere.
Which child is blocked or granted, and how a failing bucket ends, are the model's readings (log 27, 28). -/
def Obligations.ForkEvents : Prop :=
  ∀ (s : State) (fork : Nat) (f : Fork) (h : Child), getFork s fork = some f →
    let gs := stepGrans f h.idx
    let on := f.ended = false ∧ ctxHalted s f.ctx = false
    let head := on ∧ f.scope ≠ .chip ∧ childHeld s f.parentView = false ∧ headOf s f = some h ∧ h.st = .complete
    (∀ r fl, head → stepPoison s f gs = none → childPoison f h.idx = none → conflictReport f h.idx (stepConflicts s f gs) = none →
      stepRoom s f (stepNeed s f gs) = none → commitAll s fork h.idx gs = (r, fl) →
      exec (.prefixStep fork) s = .next (forkSettle (countCtr (modChild (modFork r fork (fun f =>
        dropVersions { f with mflags := f.mflags ||| fl.setWidth 5 } h.idx)) fork h.idx (fun c => { c with st := .merged })) f.ctx 12 1) fork))
    ∧ (∀ va, head → stepPoison s f gs = some va →
      exec (.prefixStep fork) s = .next (failAtChild s fork h.idx 4 (forkPoison f h.idx 7 va)))
    ∧ (∀ rep, head → stepPoison s f gs = none → childPoison f h.idx = none → conflictReport f h.idx (stepConflicts s f gs) = some rep →
      exec (.prefixStep fork) s = .next (failAtChild s fork h.idx 1 rep))
    ∧ (∀ rep, head → stepPoison s f gs = none → childPoison f h.idx = some rep → h.reruns < f.retry → h.noRerun = false →
      exec (.prefixStep fork) s = .next (modChild (failChild s fork h.idx rep false) fork h.idx
        (fun c => { c with st := .unstarted, reruns := c.reruns + 1 })))
    ∧ (∀ rep, head → stepPoison s f gs = none → childPoison f h.idx = some rep → f.retry ≤ h.reruns →
      exec (.prefixStep fork) s = .next (failAtChild (failChild s fork h.idx rep false) fork h.idx 2 { rep with kind := 4 }))
    ∧ (∀ c, on → slotWinner f = some c → exec (.slotGrant fork) s =
        .next (modChild s fork c.idx (fun c => { c with st := .running, granted := c.need, need := 0 })))
    ∧ (on → headOf s f = some h → h.st = .blocked → slotWinner f = none → grantsOut f h.idx = true →
      exec (.forkRollback fork) s = .next (modFork s fork (fun f => withdrawGrants f h.idx)))
    ∧ (on → headOf s f = some h → h.st = .blocked → slotWinner f = none → grantsOut f h.idx = false → holders f h.idx = [] →
      let t := modFork s fork (fun f => { f with slotsAtExh := slotsHeld f })
      let rep : Report := { cls := 20, cause := 1, kind := 4, level := f.level, ctx := f.ctx, child := h.idx }
      (f.scope ≠ .chip → exec (.forkRollback fork) s = .next (failAtChild t fork h.idx 3 rep))
      ∧ (f.scope = .chip → exec (.forkRollback fork) s = .next (failChild t fork h.idx rep true)))
    ∧ (∀ c, on → headOf s f = some h → h.st = .blocked → slotWinner f = none → grantsOut f h.idx = false → (holders f h.idx).getLast? = some c →
      (∀ b ∈ s.blocks, b.views.head? = some (fork, c) → b.stat = .ended) →
      let t := modFork (stopChild s fork c) fork (fun f => dropVersions f c)
      exec (.forkRollback fork) s = .next (countCtr (modChild
        ((t.grids.filter (fun g => g.fork == some fork && g.child == some c)).foldl dropChildGrid t) fork c
        (fun x => { x with st := .unstarted, granted := 0, need := 0, ending := .no })) f.ctx 11 1))
    ∧ (∀ c b, on → headOf s f = some h → h.st = .blocked → slotWinner f = none → grantsOut f h.idx = false → (holders f h.idx).getLast? = some c →
      b ∈ s.blocks → b.views.head? = some (fork, c) → b.stat ≠ .ended →
      exec (.forkRollback fork) s = .next (countCtr (modChild (modFork (stopChild s fork c) fork (fun f => dropVersions f c)) fork c
        (fun x => { x with st := .running, granted := 0, need := 0, ending := .rolledBack })) f.ctx 11 1))
    ∧ (∀ (k : Contribution),
      let same := fun (x : Accepted) =>
        x.fork == fork && x.k.win == k.win && x.k.slice == k.slice && x.k.child == k.child
      (∀ st, f.scope = .chip → f.ended = false → homedHere s f k.win k.slice = true → k.child < f.count →
        f.slices.find? (fun x => x.win == k.win && x.slice == k.slice) = some st → s.accepted.find? same = none →
        f.tagsDone.contains (f.tag + k.win) = false → st.written = false → st.outcome = 0 → st.next ≤ k.child →
        exec (.contributionArrival fork k) s = .next (acceptContribution s f k))
      ∧ (∀ x, s.accepted.find? same = some x → x.void = false → k.final = false →
        let t := { s with accepted := s.accepted.filter (fun x => !same x) }
        exec (.contributionArrival fork k) s = .next (if x.k.data = k.data then t else backupDivergence t x k)))
    ∧ (∀ (b : Broadcast) g, f.scope = .chip → on → sliceWritten f b.win b.slice = false →
      (∃ x ∈ f.slices, x.win = b.win ∧ x.slice = b.slice) →
      let w := b.data.foldl (fun s p => match offGran f b.win p.1 with
        | some g => notifyWrite (parentWrite s (keyMat s g.2.key) g.1 p.2 f.parentView) f.parentView
            { ap := 0, addr := 32 * g.1, key := g.2.key }
        | none => s) s
      let t := modFork w fork (fun f => modSlice f b.win b.slice (fun x => { x with
        written := true, outcome := b.outcome, merged := b.merged, mflags := b.mflags, fail := sliceFailure b }))
      getFork t fork = some g →
      exec (.sliceBroadcast fork b) s = .next (if g.bucketEnded (g.tag + b.win) then endBucket t fork (g.tag + b.win) else t))

/-- 12 R318, R331 to R333, R336 to R341, R347, 13 R356, R360 to R363, R367 to R369, R372, 06 R140: dispatch in every power state but
idle and off, the weir's interval, the record-queue launchers, the end of blocks and grids, asynchronous faults, pre-emption and
restore, dumps and samples. Where a choice falls among equals, when time's events come, and the package's weir interval at die 0
with the dies' shares, are the model's (log 11, 32, 33, 35, 39, 57). -/
def Obligations.BlocksComeAndGo : Prop :=
  let live := fun (s : State) => s.dev.power ≥ 2 ∧ s.dev.target ≠ some 1
  let placed := fun (s : State) (die : Nat) (p : Phase) (cores : List Nat) =>
    countCtr ((p.blks.zip cores).foldl (fun s x => settle s x.1 x.2) (bringIn (afterDispatch s die p.key (bandOf s p)) die p)) p.key.1 10 1
  let starts := fun (s : State) (q : RecQueue) (g : Grid) (c : Ctx) => getRq s q.id = some q ∧ getGrid s q.grid = some g
    ∧ getCtx s q.ctx = some c ∧ (recOrder s q).take q.group ≠ [] ∧ c.goesOn = true ∧ g.killed = false
    ∧ rampFits s c q.rcb g.lp.est = true
  let group := fun (s : State) (q : RecQueue) (g : Grid) (c : Ctx) =>
    let l := (recOrder s q).take q.group
    let t := chainRecs { s with weir := rampAdd s.weir c.id (rampChain c q.rcb) g.lp.est } q l
    modRq { t with blocks := t.blocks ++ [nodeBlock s q g l], nextId := t.nextId + 1, pktOrder := t.pktOrder + 1 } q.id (fun q => { q with
      committed := q.committed.filter (fun r => !l.any (fun x => x.addr == r.addr)), taken := q.taken ++ l.map (fun r => r.addr),
      nextBlk := q.nextBlk + 1, liveBlks := q.liveBlks + 1 })
  (∀ (s : State),
    (∀ die p cores, live s → die < 8 → choosePhase s die = some (p, cores) → phaseOver s p = none →
      exec (.dispatch die) s = .next (placed s die p cores))
    ∧ (∀ die p cores b c, live s → die < 8 → choosePhase s die = some (p, cores) → phaseOver s p = some (b, c) →
      exec (.dispatch die) s = .next (restoreFault (afterDispatch s die p.key (bandOf s p)) b c))
    ∧ (∀ die, s.dev.power < 2 → exec (.dispatch die) s = .next s)
    ∧ (∀ die,
      let measured := modDie { s with cores := (s.cores.map (fun p =>
        if p.1 / 64 = die then (p.1, { p.2 with busy := 0, issue2 := 0 }) else p)).filter (fun p => p.2 != {}) } die
          (fun d => { d with act := dieActivity s die })
      let limits := fun (t : State) => modDie t die (fun d => { d with rise := t.dev.rise, fall := t.dev.fall })
      (0 < die → die < 8 → exec (.weirInterval die) s = .next (limits measured))
      ∧ (die = 0 → let t := settlePackage measured
        exec (.weirInterval die) s = .next (weirAdmit { limits (countAll t (staggered t) 9 1) with weir := {} })))
    ∧ (∀ old new falls rises (d : Die), old ≤ new + 1024 * d.fall → new ≤ old + 1024 * d.rise →
      dieShare old new falls rises d = (d.act, 0, 0))
    ∧ (∀ q g c, starts s q g c → groupReady q = true → exec (.recordQueueLaunch q.id) s = .next (group s q g c))
    ∧ (∀ q g c, starts s q g c → q.level = 0 → q.timer ≠ 0 → exec (.recordQueueTimer q.id) s = .next (group s q g c))
    ∧ (∀ gr g, getGrid s gr = some g → g.completed = true → descendantsDone s gr = true →
      exec (.gridRetire gr) s = .next { s with
        grids := s.grids.filter (fun x => x.id != gr),
        queues := s.queues.map (fun p => (p.1, { p.2 with launched := p.2.launched.filter (fun x => x != gr) })) }))
  ∧ ∀ (s : State) (blk : Nat) (b : Block), getBlk s blk = some b →
    let runs := ctxHalted s b.ctx = false
    (∀ p cores, live s → isImage b = true → b.stat = .queued → choosePhase s b.lDie = some (p, cores) → (∃ x ∈ p.blks, x.id = blk) →
      phaseOver s p = none → exec (.restore blk) s = .next (placed s b.lDie p cores))
    ∧ (∀ gi kd h q a t rest, Waits s blk (.gang gi) b (.rqalloc kd h) →
      s.rqs.find? (fun q => q.ctx == b.ctx && q.handle == h) = some q → freeRecord q = some a →
      q.rqwait = (blk, gi) :: rest →
      takeRecord (modRq s q.id (fun q => { q with rqwait := q.rqwait.filter (fun x => x != (blk, gi)) })) b q a = .ok t →
      exec (.rqallocResume blk gi) s = .next (resumeParty (setK t blk (.gang gi) kd (BitVec.ofNat 64 a)) blk (.gang gi)))
    ∧ (runs → b.stat = .resident ∨ b.stat = .stopping → endReady s b = true → exec (.blockEnd blk) s = .next (endChecked s b))
    ∧ (∀ b1, runs → b.stat = .killed → opsDone b = true → b.started = [] → allForksEnded s b = true →
      getBlk (implicitJoins s b) blk = some b1 → ctxHalted (implicitJoins s b) b1.ctx = false →
      exec (.blockEnd blk) s = .next (endBlock (implicitJoins s b) b1))
    ∧ (∀ r rest, runs → b.async = r :: rest → b.runs = true → canTake b r = true →
      exec (.asyncFaultTaken blk) s = .next (deliver (modBlk s blk (fun b => { b with async := rest }))
        { ctx := b.ctx, region := b.region, unit := b.core / 64, queue := b.queue, blk := some blk, gang := asyncTaker b r,
          faulting := 0, len := 0, async := true } (asyncReport b r)))
    ∧ (b.stat = .stopping → (∀ x ∈ s.blocks, together b x = true → x.stat = .stopping → phaseIssued x = false
        ∧ ∀ p ∈ x.gangs, matrixBound s x p.1 = false) →
      exec (.preemptStop blk) s = .next { s with blocks := s.blocks.map (fun x =>
        if together b x && x.stat == .stopping then { x with stat := .stopped } else x) })
    ∧ (runs → b.stat = .stopped → landing s b = false → endReady (discardRestart s b) b = false → exec (.preemptSave blk) s = .next (saveImage (discardRestart s b) b))
    ∧ (∀ c core, getCtx s b.ctx = some c → c.halt = .halting → c.dumped.contains core = false →
      let bs := dumpBlocks s b.ctx core
      bs ≠ [] → (∀ x ∈ bs, opsDone x = true ∧ x.started = []) →
      exec (.dumpWrite b.ctx core) s = .next (modCtx (writeDump (bs.foldl releaseHeld s) c core bs) b.ctx
        (fun c => { c with dumped := c.dumped ++ [core] })))
    ∧ (∀ c cap core gi g, getCtx s b.ctx = some c → c.capture = some cap → cap.period ≠ 0 →
      ((s.blocks.filter (fun x => x.ctx == b.ctx && x.onCore)).map (fun x => x.core)).eraseDups = [core] →
      sampleGangs s b.ctx core = [(b, gi, g)] → (getCore s core).rotSample = 0 →
      exec (.samplePeriod b.ctx) s = .next (sampleGang (modCore s core (fun c => { c with rotSample := 0 })) cap b gi g))

/-- 04 R83 to R85, R87: what rounding gives of every nonzero finite value x. Where it does not overflow the result is a value y of the
format next to x: the nearest under rne and rna, towards zero, below or above under the directed modes, by the drawn word under rsr;
NX says that y differs from x, UF that it is then below the smallest normal. It overflows exactly where the value chosen with an
unbounded exponent exceeds the largest, and the result is then R85's. -/
def Obligations.RoundingToFormats : Prop :=
  ∀ (f : Fmt) (r : Rnd) (u : Nat) (s : Bool) (m : Nat) (e : Int), 0 < m → u < 2 ^ 32 →
    let sh := fshape f
    let x : Rat := exactQ (.fin s m e)
    let out := roundF f r u {} (.fin s m e)
    let y : Rat := exactQ (unpackF f out.1)
    let holds := fun (z : Rat) => ∃ (c : Nat) (t : Bool) (n : Nat) (g : Int), c < 2 ^ sh.width ∧ unpackF f c = .fin t n g ∧ exactQ (.fin t n g) = z
    let largest := (sh.maxSig : Rat) * (2 : Rat) ^ (sh.emax - ((sh.p - 1 : Nat) : Int))
    let unit := (2 : Rat) ^ (sh.emax - ((sh.p - 1 : Nat) : Int))
    let exc := magQ x - largest
    let overflows : Prop := match r with
      | .rne => unit / 2 < exc ∨ (exc = unit / 2 ∧ sh.maxSig % 2 = 1)
      | .rna => unit / 2 ≤ exc
      | .rz => unit ≤ exc
      | .rdn => if s then 0 < exc else unit ≤ exc
      | .rup => if s then unit ≤ exc else 0 < exc
      | .rsr => unit ≤ exc ∨ (0 < exc ∧ if s then ((2 : Rat) ^ (32 : Int) * (unit - exc) / unit).floor ≤ (u : Int)
          else (u : Int) < ((2 : Rat) ^ (32 : Int) * exc / unit).floor)
    (overflows → out.2 = flOF ||| flNX
      ∧ (let toInf := sh.hasInf = true ∧ r ≠ .rz ∧ (r = .rdn → s = true) ∧ (r = .rup → s = false)
         (toInf → unpackF f out.1 = .inf s) ∧ (¬toInf → y = if s then -largest else largest)))
    ∧ (¬overflows → holds y ∧ (∀ z, holds z → ¬(y < z ∧ z < x) ∧ ¬(x < z ∧ z < y))
      ∧ out.2 = (if y = x then 0 else if magQ y < (2 : Rat) ^ sh.emin then flUF ||| flNX else flNX)
      ∧ match r with
        | .rne => ∀ z, holds z → magQ (x - y) ≤ magQ (x - z) ∧ (magQ (x - z) = magQ (x - y) → z ≠ y → out.1 % 2 = 0)
        | .rna => ∀ z, holds z → magQ (x - y) ≤ magQ (x - z) ∧ (magQ (x - z) = magQ (x - y) → z ≠ y → magQ z < magQ y)
        | .rz => magQ y ≤ magQ x
        | .rdn => y ≤ x
        | .rup => x ≤ y
        | .rsr => ∀ a b, holds a → holds b → a < x → x < b → (∀ z, holds z → ¬(a < z ∧ z < b)) →
            y = if (u : Int) < ((2 : Rat) ^ (32 : Int) * (x - a) / (b - a)).floor then b else a)
end

