-- ==== Sys2Proof/Laws/Decode.lean ====
section
/-! SUPPORT. Laws/Decode.lean: fields of packed words, and what each field reader gives on the field that the encoder wrote:
the pieces of the round trip. -/

namespace Sys2Proof

theorem ext_hi {n m : Nat} (x : BitVec n) (y : BitVec m) (k w : Nat) (h : m ≤ k) :
    (x ++ y).extractLsb' k w = x.extractLsb' (k - m) w := by
  ext i hi
  simp [BitVec.getLsbD_append]
  rw [if_neg (by omega)]; congr 1; omega

theorem ext_lo {n m : Nat} (x : BitVec n) (y : BitVec m) (k w : Nat) (h : k + w ≤ m) :
    (x ++ y).extractLsb' k w = y.extractLsb' k w := by
  ext i hi
  simp [BitVec.getLsbD_append]
  intro h; omega

theorem ext_all {n : Nat} (x : BitVec n) : x.extractLsb' 0 n = x := by
  ext i hi; simp

theorem unpack_pack (r : Raw) (l : BitVec 2) : Raw.unpack (r.pack l) = r := by
  obtain ⟨f, c, b, a, ws, d, g, m⟩ := r
  simp only [Raw.unpack, Raw.pack, Raw.mk.injEq]
  refine ⟨?_, ?_, ?_, ?_, ?_, ?_, ?_, ?_⟩ <;>
  · repeat (first | exact ext_all _ | refine (ext_lo _ _ _ _ (by decide)).trans ?_ | refine (ext_hi _ _ _ _ (by decide)).trans ?_)

theorem pack_len (r : Raw) (l : BitVec 2) : (r.pack l).extractLsb' 0 2 = l := by
  exact (ext_lo _ _ _ _ (by decide)).trans (ext_all _)

theorem splitBits_joinBits (x : Enc) (h : x.ext ≠ .bad) : splitBits (joinBits x) = some x := by
  obtain ⟨r, e⟩ := x
  have hb : ∀ (y : BitVec 64) l, (y ++ r.pack l).extractLsb' 0 64 = r.pack l := fun y l => (ext_lo _ _ _ _ (by decide)).trans (ext_all _)
  have hs : ∀ (y : BitVec 64) l, (y ++ r.pack l).extractLsb' 64 64 = y := fun y l => (ext_hi _ _ _ _ (by decide)).trans (ext_all _)
  have hl : ∀ (y : BitVec 64) l, (y ++ r.pack l).extractLsb' 0 2 = l := fun y l => (ext_lo _ _ _ _ (by decide)).trans (pack_len _ _)
  have h32 : ∀ (y : BitVec 64) l, (y ++ r.pack l).extractLsb' 64 32 = y.extractLsb' 0 32 := fun y l => (ext_hi _ _ _ _ (by decide))
  cases e with
  | none => simp only [splitBits, joinBits, hb, hl, Ext.len, unpack_pack]; rfl
  | imm32 w =>
    have : (0#32 ++ w : BitVec 64).extractLsb' 0 32 = w := (ext_lo _ _ _ _ (by decide)).trans (ext_all _)
    simp only [splitBits, joinBits, hb, hl, h32, Ext.len, unpack_pack]
    exact congrArg (fun w => some (Enc.mk r (.imm32 w))) this
  | imm62 w =>
    have h0 : (w ++ 0#2 : BitVec 64).extractLsb' 0 2 = 0 := (ext_lo _ _ _ _ (by decide)).trans (ext_all _)
    have h1 : (w ++ 0#2 : BitVec 64).extractLsb' 2 62 = w := (ext_hi _ _ _ _ (by decide)).trans (ext_all _)
    simp only [splitBits, joinBits, hb, hl, hs, Ext.len, unpack_pack]
    show some (Enc.mk r (match ((w ++ 0#2 : BitVec 64).extractLsb' 0 2).toNat with
      | 0 => .imm62 ((w ++ 0#2 : BitVec 64).extractLsb' 2 62) | 3 => .pair _ | _ => .bad)) = _
    rw [h0, h1]; rfl
  | pair u =>
    simp only [splitBits, joinBits, hb, hl, hs, Ext.len, unpack_pack, pack_len]; rfl
  | bad => exact absurd rfl h

theorem need_true (n : Nat) : need true n = 0 := rfl

theorem Src.ofCode_code {s : Src} (h : ∀ w, s ≠ .imm w) (h' : ∀ w, s ≠ .imm62 w) : Src.ofCode s.code = some s := by
  cases s with
  | v i =>
    have h1 : (0#2 ++ i : BitVec 10).extractLsb' 8 2 = 0#2 := by
      repeat (first | exact ext_all _ | rfl | refine (ext_lo _ _ _ _ (by decide)).trans ?_ | refine (ext_hi _ _ _ _ (by decide)).trans ?_)
    have h2 : (0#2 ++ i : BitVec 10).extractLsb' 0 8 = i := by
      repeat (first | exact ext_all _ | rfl | refine (ext_lo _ _ _ _ (by decide)).trans ?_ | refine (ext_hi _ _ _ _ (by decide)).trans ?_)
    simp only [Src.ofCode, Src.code, h1, h2]; rfl
  | o i =>
    have h1 : (32#7 ++ i : BitVec 10).extractLsb' 8 2 = 1#2 := by
      repeat (first | exact ext_all _ | rfl | refine (ext_lo _ _ _ _ (by decide)).trans ?_ | refine (ext_hi _ _ _ _ (by decide)).trans ?_)
    have h2 : (32#7 ++ i : BitVec 10).extractLsb' 6 4 = 4#4 := by
      repeat (first | exact ext_all _ | rfl | refine (ext_lo _ _ _ _ (by decide)).trans ?_ | refine (ext_hi _ _ _ _ (by decide)).trans ?_)
    have h3 : (32#7 ++ i : BitVec 10).extractLsb' 3 7 = 32#7 := by
      repeat (first | exact ext_all _ | rfl | refine (ext_lo _ _ _ _ (by decide)).trans ?_ | refine (ext_hi _ _ _ _ (by decide)).trans ?_)
    have h4 : (32#7 ++ i : BitVec 10).extractLsb' 0 3 = i := by
      repeat (first | exact ext_all _ | rfl | refine (ext_lo _ _ _ _ (by decide)).trans ?_ | refine (ext_hi _ _ _ _ (by decide)).trans ?_)
    simp only [Src.ofCode, Src.code, h1, h2, h3, h4]; rfl
  | l i =>
    have h1 : (66#8 ++ i : BitVec 10).extractLsb' 8 2 = 1#2 := by
      repeat (first | exact ext_all _ | rfl | refine (ext_lo _ _ _ _ (by decide)).trans ?_ | refine (ext_hi _ _ _ _ (by decide)).trans ?_)
    have h2 : (66#8 ++ i : BitVec 10).extractLsb' 6 4 = 4#4 := by
      repeat (first | exact ext_all _ | rfl | refine (ext_lo _ _ _ _ (by decide)).trans ?_ | refine (ext_hi _ _ _ _ (by decide)).trans ?_)
    have h3 : (66#8 ++ i : BitVec 10).extractLsb' 3 7 = 33#7 := by
      repeat (first | exact ext_all _ | rfl | refine (ext_lo _ _ _ _ (by decide)).trans ?_ | refine (ext_hi _ _ _ _ (by decide)).trans ?_)
    have h4 : (66#8 ++ i : BitVec 10).extractLsb' 2 8 = 66#8 := by
      repeat (first | exact ext_all _ | rfl | refine (ext_lo _ _ _ _ (by decide)).trans ?_ | refine (ext_hi _ _ _ _ (by decide)).trans ?_)
    have h5 : (66#8 ++ i : BitVec 10).extractLsb' 0 2 = i := by
      repeat (first | exact ext_all _ | rfl | refine (ext_lo _ _ _ _ (by decide)).trans ?_ | refine (ext_hi _ _ _ _ (by decide)).trans ?_)
    simp only [Src.ofCode, Src.code, h1, h2, h3, h4, h5]; rfl
  | k i =>
    have h1 : (8#4 ++ i : BitVec 10).extractLsb' 8 2 = 2#2 := by
      repeat (first | exact ext_all _ | rfl | refine (ext_lo _ _ _ _ (by decide)).trans ?_ | refine (ext_hi _ _ _ _ (by decide)).trans ?_)
    have h2 : (8#4 ++ i : BitVec 10).extractLsb' 6 4 = 8#4 := by
      repeat (first | exact ext_all _ | rfl | refine (ext_lo _ _ _ _ (by decide)).trans ?_ | refine (ext_hi _ _ _ _ (by decide)).trans ?_)
    have h4 : (8#4 ++ i : BitVec 10).extractLsb' 0 6 = i := by
      repeat (first | exact ext_all _ | rfl | refine (ext_lo _ _ _ _ (by decide)).trans ?_ | refine (ext_hi _ _ _ _ (by decide)).trans ?_)
    simp only [Src.ofCode, Src.code, h1, h2, h4]; rfl
  | inl i =>
    have h1 : (3#2 ++ i : BitVec 10).extractLsb' 8 2 = 3#2 := by
      repeat (first | exact ext_all _ | rfl | refine (ext_lo _ _ _ _ (by decide)).trans ?_ | refine (ext_hi _ _ _ _ (by decide)).trans ?_)
    have h2 : (3#2 ++ i : BitVec 10).extractLsb' 0 8 = i := by
      repeat (first | exact ext_all _ | rfl | refine (ext_lo _ _ _ _ (by decide)).trans ?_ | refine (ext_hi _ _ _ _ (by decide)).trans ?_)
    simp only [Src.ofCode, Src.code, h1, h2]; rfl
  | imm w => exact absurd rfl (h w)
  | imm62 w => exact absurd rfl (h' w)

theorem rdSrc_code {c : SrcCls} {s : Src} (h : c.accepts s = true) : rdSrc c s.code = (s, 0) := by
  have h1 : ∀ w, s ≠ .imm w := fun w e => by subst e; cases c <;> simp [SrcCls.accepts] at h
  have h2 : ∀ w, s ≠ .imm62 w := fun w e => by subst e; cases c <;> simp [SrcCls.accepts] at h
  simp only [rdSrc, Src.ofCode_code h1 h2, h, need_true]
  have : c.space s = true := by cases c <;> cases s <;> simp_all [SrcCls.space, SrcCls.accepts]
  rw [this]; rfl

theorem rdSlot_code {c : SrcCls} {t : ImmTy} {s : Src} (h : Src.ok c t s = true) : rdSlot c t s.ext s.code = (s, 0) := by
  simp only [Src.ok, Bool.or_eq_true] at h
  by_cases ha : c.accepts s = true
  · have : s.ext = .none := by cases s <;> first | rfl | (cases c <;> simp [SrcCls.accepts] at ha)
    rw [this]; exact rdSrc_code ha
  · replace h := h.resolve_left ha
    cases s <;> first | (cases t <;> simp [ImmTy.accepts] at h; done) | skip
    · cases t <;> simp_all [ImmTy.accepts, rdSlot, Src.ext, Src.code, leastCause, need]
    · cases t <;> simp_all [ImmTy.accepts, rdSlot, Src.ext, Src.code, leastCause, need]

theorem rdGuard_code {g : Guard} (h : g.ok = true) : rdGuard g.code = (g, 0) := by
  obtain ⟨n, i⟩ := g; revert h; cases n <;> revert i <;> decide

theorem rdPSel_code (p : PSel) : rdPSel p.code = (p, 0) := by
  obtain ⟨n, i⟩ := p; cases n <;> revert i <;> decide

theorem rdDst_code {n : Nat} {d : Dst} {r : Raw} (h : d.ok n = true) (hw : r.ws = d.ws) (hf : r.dst = d.field) : rdDst n r = (d, 0) := by
  unfold rdDst; rw [hw, hf]
  cases d with
  | none => rfl
  | v i =>
    have h1 : (0#1 ++ i : BitVec 9).extractLsb' 8 1 = 0#1 := (ext_hi _ _ _ _ (by decide)).trans (ext_all _)
    have h2 : (0#1 ++ i : BitVec 9).extractLsb' 0 8 = i := (ext_lo _ _ _ _ (by decide)).trans (ext_all _)
    simp only [Dst.ws, Dst.field, h1, h2]
    simp only [Dst.ok] at h; simp [need, of_decide_eq_true h]
  | o i =>
    have h2 : (32#6 ++ i : BitVec 9).extractLsb' 0 3 = i := (ext_lo _ _ _ _ (by decide)).trans (ext_all _)
    have h1 : (32#6 ++ i : BitVec 9).extractLsb' 8 1 = 1#1 := by
      repeat (first | exact ext_all _ | rfl | refine (ext_lo _ _ _ _ (by decide)).trans ?_ | refine (ext_hi _ _ _ _ (by decide)).trans ?_)
    have h3 : (32#6 ++ i : BitVec 9).extractLsb' 3 5 = 0#5 := by
      repeat (first | exact ext_all _ | rfl | refine (ext_lo _ _ _ _ (by decide)).trans ?_ | refine (ext_hi _ _ _ _ (by decide)).trans ?_)
    simp only [Dst.ws, Dst.field, h1, h2, h3]
    simp only [Dst.ok] at h; simp [need, of_decide_eq_true h]

theorem rdSrc_ok {c : SrcCls} {s : Src} (h : Src.ok c .no s = true) : rdSrc c s.code = (s, 0) := by
  apply rdSrc_code
  simpa [Src.ok, ImmTy.accepts] using h

theorem rdFInt_code {s : BitVec 4} {t : LaneTy} {sat : Bool} {r : Raw} {ok : LaneTy → Bool} {so : Bool} (hf : r.func = fnInt s t sat)
   (ht : ok t = true) (hs : so = true ∨ sat = false) : rdFInt r ok so = (t, sat, 0) := by
  have h1 : r.func.extractLsb' 2 4 = t.code := by
    rw [hf]; unfold fnInt
    repeat (first | exact ext_all _ | rfl | refine (ext_lo _ _ _ _ (by decide)).trans ?_ | refine (ext_hi _ _ _ _ (by decide)).trans ?_)
  have h2 : r.func.extractLsb' 0 2 = (if sat then 1#2 else 0#2) := by
    rw [hf]; unfold fnInt
    repeat (first | exact ext_all _ | rfl | refine (ext_lo _ _ _ _ (by decide)).trans ?_ | refine (ext_hi _ _ _ _ (by decide)).trans ?_)
  have : LaneTy.ofCode t.code = some t := by cases t <;> rfl
  simp only [rdFInt, Raw.ity, Raw.opt, h1, h2, this, rd, ht]
  cases sat <;> cases so <;> simp_all [leastCause, need] 

theorem f4_int {s : BitVec 4} {t : LaneTy} {sat : Bool} {r : Raw} (hf : r.func = fnInt s t sat) : r.f4 = s := by
  rw [Raw.f4, hf]; unfold fnInt
  repeat (first | exact ext_all _ | rfl | refine (ext_lo _ _ _ _ (by decide)).trans ?_ | refine (ext_hi _ _ _ _ (by decide)).trans ?_)

theorem z0 {n : Nat} : z (0 : BitVec n) = 0 := by simp [z, need]

/-- A decoding gives an instruction without a cause of refusal. -/
def Dec.Is (d : Dec) (i : Instr) : Prop := d.instr = i ∧ leastCause d.causes = 0

theorem is_sub0 {r : Raw} {d : Dec} {i : Instr} (hf : r.f4 = 0) (h : d.Is i) : (sub0 r d).Is i :=
  ⟨h.1, by simp [sub0, hf, leastCause, h.2, need]⟩

theorem is_one {g : Guard} (h : g.ok = true) {d d' : Dec} {i : Instr} (hd : d' = ⟨d.instr, (rdGuard g.code).2 :: d.causes⟩) (h' : d.Is i) : d'.Is i := by
  subst hd; exact ⟨h'.1, by simp [rdGuard_code h, leastCause, h'.2]⟩

theorem is_shI2 {r : Raw} {e : Ext} {types : LaneTy → Bool} {so : Bool} {nd : LaneTy → Nat} {ca cb : LaneTy → SrcCls} {ib : LaneTy → ImmTy}
    {mk : LaneTy → Bool → Dst → Src → Src → Instr} {s : BitVec 4} {t : LaneTy} {sat : Bool} {d : Dst} {a b : Src}
    (hr : r = ⟨fnInt s t sat, 0, b.code, a.code, d.ws, d.field, r.guard, r.major⟩) (he : e = b.ext)
    (ht : types t = true) (hs : so = true ∨ sat = false) (hd : d.ok (nd t) = true) (ha : Src.ok (ca t) .no a = true)
    (hb : Src.ok (cb t) (ib t) b = true) : (shI2 r e types so nd ca cb ib mk).Is (mk t sat d a b) := by
  obtain ⟨f, c, b', a', ws, dd, gg, mm⟩ := r
  injection hr with h1 h2 h3 h4 h5 h6
  subst h1 h2 h3 h4 h5 h6 he
  simp only [Dec.Is, shI2, rdFInt_code (r := ⟨fnInt s t sat, 0, b.code, a.code, d.ws, d.field, gg, mm⟩) rfl ht hs, rdSrc_ok ha, rdSlot_code hb,
    rdDst_code (r := ⟨fnInt s t sat, 0, b.code, a.code, d.ws, d.field, gg, mm⟩) hd rfl rfl, z0]
  exact ⟨trivial, rfl⟩

end Sys2Proof
end

