-- ==== Sys2Proof/Laws/Events.lean ====
section
/-! SUPPORT. Laws/Events.lean: how a statement about a packet or a command follows from one about its body. -/

namespace Sys2Proof.Machine

open Sys2Proof

theorem packet_runs {i : Nat → Instr} {ty fl : Nat} {body : Nat → State → Queue → List Byte → State} {cond e}
    (hi : ∀ qi s, exec (i qi) s = .next (withPacket s qi ty fl (body qi)))
    (hfl : (ty = 1 ∧ fl = 0) ∨ (ty ≠ 1 ∧ fl < 2))
    (hb : ∀ s qi q l, cond s qi q l → body qi s q l = e s qi q l) : Packets i ty fl cond e := by
  intro s qi c q l h hc
  obtain ⟨h1, h2, h3, h4, h5, h6, h7, h8, h9, h10, h11, h12, h13⟩ := h
  subst h1
  rw [hi]
  unfold withPacket
  simp only [h2, h3, h4, h6, h7, h9, h10, h11, h13, Bool.not_true, Bool.false_or]
  have hlim : natAt l 1 1 < flagLimit ty := by
    simp only [packetOk, h11, Bool.and_eq_true, decide_eq_true_eq] at h10; exact h10.1.1.1.2
  have hk : ¬(ty ≠ ty ∨ natAt l 1 1 / 2 * 2 + (if ty = 1 then 0 else natAt l 1 1 % 2) ≠ fl) := by
    have : flagLimit ty ≤ 2 := by unfold flagLimit; split <;> omega
    rcases hfl with ⟨rfl, rfl⟩ | ⟨hne, hf⟩
    · simp; omega
    · have : natAt l 1 1 = fl := by rcases h12 with h | h; exact absurd h hne; exact h
      simp only [hne, if_false]; omega
  have h5' : ((getQueue s qi).unread == 0) = false := by simp [h5]
  simp only [Ctx.goesOn, Bool.and_eq_true, beq_iff_eq, Option.isNone_iff_eq_none] at h8
  simp only [h5', if_neg hk, hb _ _ _ _ hc, h8]; rfl

theorem command_runs {i : Fn → Request → Instr} {code used : Nat} {pf : Bool} {body : State → Fn → List Byte → Cmdo} {cond e res}
    (hi : ∀ fn req s, exec (i fn req) s = .next (command s fn req code used pf (body s fn)))
    (hb : ∀ s fn l, cond s fn l → body s fn l = .done (e s l) (res s l)) : Commands i code used pf cond e res := by
  intro s fn req ⟨h1, hd, h2, h3, h4, h5, h6, h7⟩ hc
  rw [hi]
  unfold command admitted
  have h5' : (pf && fn != Fn.pf) = false := by cases pf <;> simp_all
  simp [h1, hd, h2, h3, h4, h5', h6, h7, hb _ _ _ hc]
theorem command_fails {i : Fn → Request → Instr} {code used : Nat} {pf : Bool} {body : State → Fn → List Byte → Cmdo} {cond st}
    (hi : ∀ fn req s, exec (i fn req) s = .next (command s fn req code used pf (body s fn)))
    (hb : ∀ s fn l, cond s fn l → body s fn l = .fail st) : CommandFails i code used pf cond st := by
  intro s fn req ⟨h1, hd, h2, h3, h4, h5, h6, h7⟩ hc
  rw [hi]
  unfold command admitted
  have h5' : (pf && fn != Fn.pf) = false := by cases pf <;> simp_all
  simp [h1, hd, h2, h3, h4, h5', h6, h7, hb _ _ _ hc]
theorem owned_ok {s : State} {fn : Fn} {id : Nat} {c : Ctx} {f} (h : getCtx s id = some c) (h2 : c.owner = fn) : owned s fn id f = f c := by
  simp [owned, h, h2]
theorem param_runs {i : Fn → Request → Instr} {n : Nat} {ok : Nat → Bool} {set : State → Nat → Cmdo} {c : State → Nat → Prop} {e : State → Nat → State}
    (hi : ∀ fn req s, exec (i fn req) s = .next (setParam s fn req n ok (set s)))
    (hb : ∀ s v, c s v → ok v = true ∧ set s v = .done (e s v) []) : 
    Commands i 0x0D 0x18 true (fun s _ l => natAt l 8 8 = n ∧ c s (natAt l 0x10 8)) (fun s l => e s (natAt l 0x10 8)) (fun _ _ => []) := by
  intro s fn req ⟨h1, hd, h2, h3, h4, h5, h6, h7⟩ hc
  rw [hi]
  obtain ⟨a, b⟩ := hb s _ hc.2
  unfold setParam command admitted
  have h5' : (fn != Fn.pf) = false := by simp_all
  simp [h1, hd, h2, h3, h4, h5', h6, h7, hc.1, a, b]

end Sys2Proof.Machine
end

