-- ==== Sys2Proof/Laws/Store.lean ====
section
/-! SUPPORT. Laws/Store.lean: reading after writing in sparse storage, and the canonical form under every operation on it. -/

namespace Sys2Proof.Machine

open Sys2Proof

variable {α : Type}

/-! ### Reading after writing -/

theorem sget_sput_same (d : α) (s : Store α) (n : Nat) (v : α) : sget d (sput s n v) n = v := by
  induction s with
  | nil => simp [sput, sget]
  | cons p t ih =>
    obtain ⟨k, w⟩ := p
    by_cases h1 : n < k
    · simp [sput, sget, h1]
    · by_cases h2 : n = k
      · simp [sput, sget, h2]
      · simp [sput, sget, h1, h2, ih]

theorem sget_sput_ne (d : α) (s : Store α) {n m : Nat} (v : α) (h : m ≠ n) : sget d (sput s n v) m = sget d s m := by
  induction s with
  | nil => simp [sput, sget, h]
  | cons p t ih =>
    obtain ⟨k, w⟩ := p
    by_cases h1 : n < k
    · simp [sput, sget, h1, h]
    · by_cases h2 : n = k
      · subst h2; simp [sput, sget, h]
      · simp [sput, sget, h1, h2, ih]

theorem sget_sdel_same (d : α) (s : Store α) (n : Nat) : sget d (sdel s n) n = d := by
  induction s with
  | nil => rfl
  | cons p t ih =>
    obtain ⟨k, w⟩ := p
    by_cases h : k = n
    · subst h; simpa [sdel] using ih
    · have h' : ¬ n = k := fun e => h e.symm
      simpa [sdel, h, h', sget] using ih

theorem sget_sdel_ne (d : α) (s : Store α) {n m : Nat} (h : m ≠ n) : sget d (sdel s n) m = sget d s m := by
  induction s with
  | nil => rfl
  | cons p t ih =>
    obtain ⟨k, w⟩ := p
    by_cases hk : k = n
    · subst hk; simpa [sdel, sget, h] using ih
    · by_cases hm : m = k
      · simp [sdel, sget, hm, hk]
      · simpa [sdel, sget, hm, hk] using ih

variable [DecidableEq α]

/-- A key reads as the value written to it last. -/
@[simp] theorem sget_sset_same (d : α) (s : Store α) (n : Nat) (v : α) : sget d (sset d s n v) n = v := by
  unfold sset; split
  · rename_i h; rw [h, sget_sdel_same]
  · exact sget_sput_same d s n v

/-- A write leaves every other key alone. -/
theorem sget_sset_ne (d : α) (s : Store α) {n m : Nat} (v : α) (h : m ≠ n) : sget d (sset d s n v) m = sget d s m := by
  unfold sset; split
  · exact sget_sdel_ne d s h
  · exact sget_sput_ne d s v h

theorem sget_sset (d : α) (s : Store α) (n m : Nat) (v : α) :
    sget d (sset d s n v) m = if m = n then v else sget d s m := by
  by_cases h : m = n
  · subst h; simp
  · simp [h, sget_sset_ne d s v h]

/-- Keys that a list of writes does not name are left alone. -/
theorem sget_ssetMany_ne (d : α) (l : List (Nat × α)) (s : Store α) (m : Nat) (h : ∀ p ∈ l, p.1 ≠ m) :
    sget d (ssetMany d s l) m = sget d s m := by
  induction l generalizing s with
  | nil => rfl
  | cons p t ih =>
    have h1 := ih (sset d s p.1 p.2) (fun q hq => h q (by simp [hq]))
    have h2 : m ≠ p.1 := fun e => h p (by simp) e.symm
    simp only [ssetMany, List.foldl_cons] at h1 ⊢
    rw [h1, sget_sset_ne d s p.2 h2]

/-! ### The canonical form -/

omit [DecidableEq α] in
theorem keysAbove_trans {n m : Nat} {s : Store α} (h : n ≤ m) (hs : keysAbove m s = true) : keysAbove n s = true := by
  induction s with
  | nil => rfl
  | cons p t ih =>
    obtain ⟨k, w⟩ := p
    simp only [keysAbove, Bool.and_eq_true, decide_eq_true_eq] at hs ⊢
    exact ⟨by omega, ih hs.2⟩

omit [DecidableEq α] in
theorem keysAbove_filter {n : Nat} {s : Store α} (p : Nat × α → Bool) (hs : keysAbove n s = true) :
    keysAbove n (s.filter p) = true := by
  induction s with
  | nil => rfl
  | cons q t ih =>
    obtain ⟨k, w⟩ := q
    simp only [keysAbove, Bool.and_eq_true, decide_eq_true_eq] at hs
    by_cases hp : p (k, w) = true
    · rw [List.filter_cons_of_pos hp]; simp [keysAbove, hs.1, ih hs.2]
    · rw [List.filter_cons_of_neg hp]; exact ih hs.2

omit [DecidableEq α] in
theorem keysAbove_sput {n k : Nat} {s : Store α} {v : α} (h : n < k) (hs : keysAbove n s = true) :
    keysAbove n (sput s k v) = true := by
  induction s with
  | nil => simp [sput, keysAbove, h]
  | cons q t ih =>
    obtain ⟨j, w⟩ := q
    have hs' := hs
    simp only [keysAbove, Bool.and_eq_true, decide_eq_true_eq] at hs
    by_cases h1 : k < j
    · simp only [sput, h1, if_true]; simp [keysAbove, h, hs.1, hs.2]
    · by_cases h2 : k = j
      · subst h2; simp [sput, keysAbove, hs.1, hs.2]
      · simp only [sput, h1, h2, if_false]; simp [keysAbove, hs.1, ih hs.2]

/-- Dropping entries keeps the canonical form. -/
theorem swf_filter {d : α} {s : Store α} (p : Nat × α → Bool) (hs : swf d s = true) : swf d (s.filter p) = true := by
  induction s with
  | nil => rfl
  | cons q t ih =>
    obtain ⟨k, w⟩ := q
    simp only [swf, Bool.and_eq_true, decide_eq_true_eq] at hs
    by_cases hp : p (k, w) = true
    · rw [List.filter_cons_of_pos hp]; simp [swf, hs.1.1, keysAbove_filter p hs.1.2, ih hs.2]
    · rw [List.filter_cons_of_neg hp]; exact ih hs.2

theorem swf_sput {d : α} {s : Store α} {n : Nat} {v : α} (hv : v ≠ d) (hs : swf d s = true) : swf d (sput s n v) = true := by
  induction s with
  | nil => simp [sput, swf, hv, keysAbove]
  | cons q t ih =>
    obtain ⟨k, w⟩ := q
    have hs' := hs
    simp only [swf, Bool.and_eq_true, decide_eq_true_eq] at hs
    by_cases h1 : n < k
    · simp only [sput, h1, if_true]
      simp [swf, keysAbove, hv, h1, hs.1.1, hs.1.2, hs.2, keysAbove_trans (Nat.le_of_lt h1) hs.1.2]
    · by_cases h2 : n = k
      · subst h2; simp [sput, swf, hv, hs.1.2, hs.2]
      · simp only [sput, h1, h2, if_false]
        have hk : k < n := by omega
        simp [swf, hs.1.1, keysAbove_sput hk hs.1.2, ih hs.2]

/-- Every write keeps the canonical form. -/
theorem swf_sset {d : α} {s : Store α} (n : Nat) (v : α) (hs : swf d s = true) : swf d (sset d s n v) = true := by
  unfold sset; split
  · exact swf_filter _ hs
  · rename_i h; exact swf_sput h hs

theorem swf_ssetMany {d : α} (l : List (Nat × α)) {s : Store α} (hs : swf d s = true) : swf d (ssetMany d s l) = true := by
  induction l generalizing s with
  | nil => exact hs
  | cons p t ih => exact ih (swf_sset p.1 p.2 hs)

omit [DecidableEq α]

/-! ### Records by key or name -/

theorem find_updFirst_same {p : α → Bool} {f : α → α} {l : List α} {x : α} (h : l.find? p = some x) (hf : p (f x) = true) :
    (updFirst p f l).find? p = some (f x) := by
  induction l with
  | nil => simp at h
  | cons y t ih =>
    by_cases hy : p y = true
    · rw [List.find?_cons_of_pos hy] at h; cases h
      simp [updFirst, hy, List.find?_cons_of_pos hf]
    · rw [List.find?_cons_of_neg hy] at h
      simp only [updFirst, hy, Bool.false_eq_true, if_false]
      rw [List.find?_cons_of_neg hy]; exact ih h

theorem find_updFirst_other {p q : α → Bool} {f : α → α} {l : List α} (h : ∀ y, p y = true → q y = false)
    (hf : ∀ y, p y = true → q (f y) = false) : (updFirst p f l).find? q = l.find? q := by
  induction l with
  | nil => rfl
  | cons y t ih =>
    by_cases hy : p y = true
    · simp [updFirst, hy, h y hy, hf y hy]
    · simp only [updFirst, hy, Bool.false_eq_true, if_false, List.find?_cons, ih]

end Sys2Proof.Machine
end

