-- ==== Sys2Proof/Laws/State.lean ====
section
/-! SUPPORT. Laws/State.lean: what each update of the state leaves alone, field by field, and what a lookup gives after it. -/

namespace Sys2Proof.Machine

open Sys2Proof

/-! ### Fields that an update does not touch -/

@[simp] theorem modBlk_dev (s : State) (id : Nat) (f : Block → Block) : (modBlk s id f).dev = s.dev := rfl
@[simp] theorem modBlk_mem (s : State) (id : Nat) (f : Block → Block) : (modBlk s id f).mem = s.mem := rfl
@[simp] theorem modBlk_bad (s : State) (id : Nat) (f : Block → Block) : (modBlk s id f).bad = s.bad := rfl
@[simp] theorem modBlk_sectorKey (s : State) (id : Nat) (f : Block → Block) : (modBlk s id f).sectorKey = s.sectorKey := rfl
@[simp] theorem modBlk_l2 (s : State) (id : Nat) (f : Block → Block) : (modBlk s id f).l2 = s.l2 := rfl
@[simp] theorem modBlk_hostMem (s : State) (id : Nat) (f : Block → Block) : (modBlk s id f).hostMem = s.hostMem := rfl
@[simp] theorem modBlk_peerMem (s : State) (id : Nat) (f : Block → Block) : (modBlk s id f).peerMem = s.peerMem := rfl
@[simp] theorem modBlk_peerBad (s : State) (id : Nat) (f : Block → Block) : (modBlk s id f).peerBad = s.peerBad := rfl
@[simp] theorem modBlk_peerShut (s : State) (id : Nat) (f : Block → Block) : (modBlk s id f).peerShut = s.peerShut := rfl
@[simp] theorem modBlk_ctxs (s : State) (id : Nat) (f : Block → Block) : (modBlk s id f).ctxs = s.ctxs := rfl
@[simp] theorem modBlk_queues (s : State) (id : Nat) (f : Block → Block) : (modBlk s id f).queues = s.queues := rfl
@[simp] theorem modBlk_grids (s : State) (id : Nat) (f : Block → Block) : (modBlk s id f).grids = s.grids := rfl
@[simp] theorem modBlk_forks (s : State) (id : Nat) (f : Block → Block) : (modBlk s id f).forks = s.forks := rfl
@[simp] theorem modBlk_accepted (s : State) (id : Nat) (f : Block → Block) : (modBlk s id f).accepted = s.accepted := rfl
@[simp] theorem modBlk_rqs (s : State) (id : Nat) (f : Block → Block) : (modBlk s id f).rqs = s.rqs := rfl
@[simp] theorem modBlk_atoms (s : State) (id : Nat) (f : Block → Block) : (modBlk s id f).atoms = s.atoms := rfl
@[simp] theorem modBlk_cores (s : State) (id : Nat) (f : Block → Block) : (modBlk s id f).cores = s.cores := rfl
@[simp] theorem modBlk_dies (s : State) (id : Nat) (f : Block → Block) : (modBlk s id f).dies = s.dies := rfl
@[simp] theorem modBlk_weir (s : State) (id : Nat) (f : Block → Block) : (modBlk s id f).weir = s.weir := rfl
@[simp] theorem modBlk_keys (s : State) (id : Nat) (f : Block → Block) : (modBlk s id f).keys = s.keys := rfl
@[simp] theorem modBlk_sessions (s : State) (id : Nat) (f : Block → Block) : (modBlk s id f).sessions = s.sessions := rfl
@[simp] theorem modBlk_ports (s : State) (id : Nat) (f : Block → Block) : (modBlk s id f).ports = s.ports := rfl
@[simp] theorem modBlk_partners (s : State) (id : Nat) (f : Block → Block) : (modBlk s id f).partners = s.partners := rfl
@[simp] theorem modBlk_mailboxes (s : State) (id : Nat) (f : Block → Block) : (modBlk s id f).mailboxes = s.mailboxes := rfl
@[simp] theorem modBlk_hostData (s : State) (id : Nat) (f : Block → Block) : (modBlk s id f).hostData = s.hostData := rfl
@[simp] theorem modBlk_hostBad (s : State) (id : Nat) (f : Block → Block) : (modBlk s id f).hostBad = s.hostBad := rfl
@[simp] theorem modBlk_linkReply (s : State) (id : Nat) (f : Block → Block) : (modBlk s id f).linkReply = s.linkReply := rfl
@[simp] theorem modBlk_linkStatus (s : State) (id : Nat) (f : Block → Block) : (modBlk s id f).linkStatus = s.linkStatus := rfl
@[simp] theorem modBlk_pktOrder (s : State) (id : Nat) (f : Block → Block) : (modBlk s id f).pktOrder = s.pktOrder := rfl
@[simp] theorem modBlk_agenda (s : State) (id : Nat) (f : Block → Block) : (modBlk s id f).agenda = s.agenda := rfl
@[simp] theorem modBlk_cur (s : State) (id : Nat) (f : Block → Block) : (modBlk s id f).cur = s.cur := rfl
@[simp] theorem modBlk_active (s : State) (id : Nat) (f : Block → Block) : (modBlk s id f).active = s.active := rfl
@[simp] theorem modBlk_tick (s : State) (id : Nat) (f : Block → Block) : (modBlk s id f).tick = s.tick := rfl
@[simp] theorem modBlk_nextId (s : State) (id : Nat) (f : Block → Block) : (modBlk s id f).nextId = s.nextId := rfl

@[simp] theorem modCtx_dev (s : State) (id : Nat) (f : Ctx → Ctx) : (modCtx s id f).dev = s.dev := rfl
@[simp] theorem modCtx_mem (s : State) (id : Nat) (f : Ctx → Ctx) : (modCtx s id f).mem = s.mem := rfl
@[simp] theorem modCtx_bad (s : State) (id : Nat) (f : Ctx → Ctx) : (modCtx s id f).bad = s.bad := rfl
@[simp] theorem modCtx_sectorKey (s : State) (id : Nat) (f : Ctx → Ctx) : (modCtx s id f).sectorKey = s.sectorKey := rfl
@[simp] theorem modCtx_l2 (s : State) (id : Nat) (f : Ctx → Ctx) : (modCtx s id f).l2 = s.l2 := rfl
@[simp] theorem modCtx_hostMem (s : State) (id : Nat) (f : Ctx → Ctx) : (modCtx s id f).hostMem = s.hostMem := rfl
@[simp] theorem modCtx_peerMem (s : State) (id : Nat) (f : Ctx → Ctx) : (modCtx s id f).peerMem = s.peerMem := rfl
@[simp] theorem modCtx_peerBad (s : State) (id : Nat) (f : Ctx → Ctx) : (modCtx s id f).peerBad = s.peerBad := rfl
@[simp] theorem modCtx_peerShut (s : State) (id : Nat) (f : Ctx → Ctx) : (modCtx s id f).peerShut = s.peerShut := rfl
@[simp] theorem modCtx_queues (s : State) (id : Nat) (f : Ctx → Ctx) : (modCtx s id f).queues = s.queues := rfl
@[simp] theorem modCtx_grids (s : State) (id : Nat) (f : Ctx → Ctx) : (modCtx s id f).grids = s.grids := rfl
@[simp] theorem modCtx_forks (s : State) (id : Nat) (f : Ctx → Ctx) : (modCtx s id f).forks = s.forks := rfl
@[simp] theorem modCtx_accepted (s : State) (id : Nat) (f : Ctx → Ctx) : (modCtx s id f).accepted = s.accepted := rfl
@[simp] theorem modCtx_rqs (s : State) (id : Nat) (f : Ctx → Ctx) : (modCtx s id f).rqs = s.rqs := rfl
@[simp] theorem modCtx_blocks (s : State) (id : Nat) (f : Ctx → Ctx) : (modCtx s id f).blocks = s.blocks := rfl
@[simp] theorem modCtx_atoms (s : State) (id : Nat) (f : Ctx → Ctx) : (modCtx s id f).atoms = s.atoms := rfl
@[simp] theorem modCtx_cores (s : State) (id : Nat) (f : Ctx → Ctx) : (modCtx s id f).cores = s.cores := rfl
@[simp] theorem modCtx_dies (s : State) (id : Nat) (f : Ctx → Ctx) : (modCtx s id f).dies = s.dies := rfl
@[simp] theorem modCtx_weir (s : State) (id : Nat) (f : Ctx → Ctx) : (modCtx s id f).weir = s.weir := rfl
@[simp] theorem modCtx_keys (s : State) (id : Nat) (f : Ctx → Ctx) : (modCtx s id f).keys = s.keys := rfl
@[simp] theorem modCtx_sessions (s : State) (id : Nat) (f : Ctx → Ctx) : (modCtx s id f).sessions = s.sessions := rfl
@[simp] theorem modCtx_ports (s : State) (id : Nat) (f : Ctx → Ctx) : (modCtx s id f).ports = s.ports := rfl
@[simp] theorem modCtx_partners (s : State) (id : Nat) (f : Ctx → Ctx) : (modCtx s id f).partners = s.partners := rfl
@[simp] theorem modCtx_mailboxes (s : State) (id : Nat) (f : Ctx → Ctx) : (modCtx s id f).mailboxes = s.mailboxes := rfl
@[simp] theorem modCtx_hostData (s : State) (id : Nat) (f : Ctx → Ctx) : (modCtx s id f).hostData = s.hostData := rfl
@[simp] theorem modCtx_hostBad (s : State) (id : Nat) (f : Ctx → Ctx) : (modCtx s id f).hostBad = s.hostBad := rfl
@[simp] theorem modCtx_linkReply (s : State) (id : Nat) (f : Ctx → Ctx) : (modCtx s id f).linkReply = s.linkReply := rfl
@[simp] theorem modCtx_linkStatus (s : State) (id : Nat) (f : Ctx → Ctx) : (modCtx s id f).linkStatus = s.linkStatus := rfl
@[simp] theorem modCtx_pktOrder (s : State) (id : Nat) (f : Ctx → Ctx) : (modCtx s id f).pktOrder = s.pktOrder := rfl
@[simp] theorem modCtx_agenda (s : State) (id : Nat) (f : Ctx → Ctx) : (modCtx s id f).agenda = s.agenda := rfl
@[simp] theorem modCtx_cur (s : State) (id : Nat) (f : Ctx → Ctx) : (modCtx s id f).cur = s.cur := rfl
@[simp] theorem modCtx_active (s : State) (id : Nat) (f : Ctx → Ctx) : (modCtx s id f).active = s.active := rfl
@[simp] theorem modCtx_tick (s : State) (id : Nat) (f : Ctx → Ctx) : (modCtx s id f).tick = s.tick := rfl
@[simp] theorem modCtx_nextId (s : State) (id : Nat) (f : Ctx → Ctx) : (modCtx s id f).nextId = s.nextId := rfl

@[simp] theorem modGrid_dev (s : State) (id : Nat) (f : Grid → Grid) : (modGrid s id f).dev = s.dev := rfl
@[simp] theorem modGrid_mem (s : State) (id : Nat) (f : Grid → Grid) : (modGrid s id f).mem = s.mem := rfl
@[simp] theorem modGrid_bad (s : State) (id : Nat) (f : Grid → Grid) : (modGrid s id f).bad = s.bad := rfl
@[simp] theorem modGrid_sectorKey (s : State) (id : Nat) (f : Grid → Grid) : (modGrid s id f).sectorKey = s.sectorKey := rfl
@[simp] theorem modGrid_l2 (s : State) (id : Nat) (f : Grid → Grid) : (modGrid s id f).l2 = s.l2 := rfl
@[simp] theorem modGrid_hostMem (s : State) (id : Nat) (f : Grid → Grid) : (modGrid s id f).hostMem = s.hostMem := rfl
@[simp] theorem modGrid_peerMem (s : State) (id : Nat) (f : Grid → Grid) : (modGrid s id f).peerMem = s.peerMem := rfl
@[simp] theorem modGrid_peerBad (s : State) (id : Nat) (f : Grid → Grid) : (modGrid s id f).peerBad = s.peerBad := rfl
@[simp] theorem modGrid_peerShut (s : State) (id : Nat) (f : Grid → Grid) : (modGrid s id f).peerShut = s.peerShut := rfl
@[simp] theorem modGrid_ctxs (s : State) (id : Nat) (f : Grid → Grid) : (modGrid s id f).ctxs = s.ctxs := rfl
@[simp] theorem modGrid_queues (s : State) (id : Nat) (f : Grid → Grid) : (modGrid s id f).queues = s.queues := rfl
@[simp] theorem modGrid_forks (s : State) (id : Nat) (f : Grid → Grid) : (modGrid s id f).forks = s.forks := rfl
@[simp] theorem modGrid_accepted (s : State) (id : Nat) (f : Grid → Grid) : (modGrid s id f).accepted = s.accepted := rfl
@[simp] theorem modGrid_rqs (s : State) (id : Nat) (f : Grid → Grid) : (modGrid s id f).rqs = s.rqs := rfl
@[simp] theorem modGrid_blocks (s : State) (id : Nat) (f : Grid → Grid) : (modGrid s id f).blocks = s.blocks := rfl
@[simp] theorem modGrid_atoms (s : State) (id : Nat) (f : Grid → Grid) : (modGrid s id f).atoms = s.atoms := rfl
@[simp] theorem modGrid_cores (s : State) (id : Nat) (f : Grid → Grid) : (modGrid s id f).cores = s.cores := rfl
@[simp] theorem modGrid_dies (s : State) (id : Nat) (f : Grid → Grid) : (modGrid s id f).dies = s.dies := rfl
@[simp] theorem modGrid_weir (s : State) (id : Nat) (f : Grid → Grid) : (modGrid s id f).weir = s.weir := rfl
@[simp] theorem modGrid_keys (s : State) (id : Nat) (f : Grid → Grid) : (modGrid s id f).keys = s.keys := rfl
@[simp] theorem modGrid_sessions (s : State) (id : Nat) (f : Grid → Grid) : (modGrid s id f).sessions = s.sessions := rfl
@[simp] theorem modGrid_ports (s : State) (id : Nat) (f : Grid → Grid) : (modGrid s id f).ports = s.ports := rfl
@[simp] theorem modGrid_partners (s : State) (id : Nat) (f : Grid → Grid) : (modGrid s id f).partners = s.partners := rfl
@[simp] theorem modGrid_mailboxes (s : State) (id : Nat) (f : Grid → Grid) : (modGrid s id f).mailboxes = s.mailboxes := rfl
@[simp] theorem modGrid_hostData (s : State) (id : Nat) (f : Grid → Grid) : (modGrid s id f).hostData = s.hostData := rfl
@[simp] theorem modGrid_hostBad (s : State) (id : Nat) (f : Grid → Grid) : (modGrid s id f).hostBad = s.hostBad := rfl
@[simp] theorem modGrid_linkReply (s : State) (id : Nat) (f : Grid → Grid) : (modGrid s id f).linkReply = s.linkReply := rfl
@[simp] theorem modGrid_linkStatus (s : State) (id : Nat) (f : Grid → Grid) : (modGrid s id f).linkStatus = s.linkStatus := rfl
@[simp] theorem modGrid_pktOrder (s : State) (id : Nat) (f : Grid → Grid) : (modGrid s id f).pktOrder = s.pktOrder := rfl
@[simp] theorem modGrid_agenda (s : State) (id : Nat) (f : Grid → Grid) : (modGrid s id f).agenda = s.agenda := rfl
@[simp] theorem modGrid_cur (s : State) (id : Nat) (f : Grid → Grid) : (modGrid s id f).cur = s.cur := rfl
@[simp] theorem modGrid_active (s : State) (id : Nat) (f : Grid → Grid) : (modGrid s id f).active = s.active := rfl
@[simp] theorem modGrid_tick (s : State) (id : Nat) (f : Grid → Grid) : (modGrid s id f).tick = s.tick := rfl
@[simp] theorem modGrid_nextId (s : State) (id : Nat) (f : Grid → Grid) : (modGrid s id f).nextId = s.nextId := rfl

@[simp] theorem modFork_dev (s : State) (id : Nat) (f : Fork → Fork) : (modFork s id f).dev = s.dev := rfl
@[simp] theorem modFork_mem (s : State) (id : Nat) (f : Fork → Fork) : (modFork s id f).mem = s.mem := rfl
@[simp] theorem modFork_bad (s : State) (id : Nat) (f : Fork → Fork) : (modFork s id f).bad = s.bad := rfl
@[simp] theorem modFork_sectorKey (s : State) (id : Nat) (f : Fork → Fork) : (modFork s id f).sectorKey = s.sectorKey := rfl
@[simp] theorem modFork_l2 (s : State) (id : Nat) (f : Fork → Fork) : (modFork s id f).l2 = s.l2 := rfl
@[simp] theorem modFork_hostMem (s : State) (id : Nat) (f : Fork → Fork) : (modFork s id f).hostMem = s.hostMem := rfl
@[simp] theorem modFork_peerMem (s : State) (id : Nat) (f : Fork → Fork) : (modFork s id f).peerMem = s.peerMem := rfl
@[simp] theorem modFork_peerBad (s : State) (id : Nat) (f : Fork → Fork) : (modFork s id f).peerBad = s.peerBad := rfl
@[simp] theorem modFork_peerShut (s : State) (id : Nat) (f : Fork → Fork) : (modFork s id f).peerShut = s.peerShut := rfl
@[simp] theorem modFork_ctxs (s : State) (id : Nat) (f : Fork → Fork) : (modFork s id f).ctxs = s.ctxs := rfl
@[simp] theorem modFork_queues (s : State) (id : Nat) (f : Fork → Fork) : (modFork s id f).queues = s.queues := rfl
@[simp] theorem modFork_grids (s : State) (id : Nat) (f : Fork → Fork) : (modFork s id f).grids = s.grids := rfl
@[simp] theorem modFork_accepted (s : State) (id : Nat) (f : Fork → Fork) : (modFork s id f).accepted = s.accepted := rfl
@[simp] theorem modFork_rqs (s : State) (id : Nat) (f : Fork → Fork) : (modFork s id f).rqs = s.rqs := rfl
@[simp] theorem modFork_blocks (s : State) (id : Nat) (f : Fork → Fork) : (modFork s id f).blocks = s.blocks := rfl
@[simp] theorem modFork_atoms (s : State) (id : Nat) (f : Fork → Fork) : (modFork s id f).atoms = s.atoms := rfl
@[simp] theorem modFork_cores (s : State) (id : Nat) (f : Fork → Fork) : (modFork s id f).cores = s.cores := rfl
@[simp] theorem modFork_dies (s : State) (id : Nat) (f : Fork → Fork) : (modFork s id f).dies = s.dies := rfl
@[simp] theorem modFork_weir (s : State) (id : Nat) (f : Fork → Fork) : (modFork s id f).weir = s.weir := rfl
@[simp] theorem modFork_keys (s : State) (id : Nat) (f : Fork → Fork) : (modFork s id f).keys = s.keys := rfl
@[simp] theorem modFork_sessions (s : State) (id : Nat) (f : Fork → Fork) : (modFork s id f).sessions = s.sessions := rfl
@[simp] theorem modFork_ports (s : State) (id : Nat) (f : Fork → Fork) : (modFork s id f).ports = s.ports := rfl
@[simp] theorem modFork_partners (s : State) (id : Nat) (f : Fork → Fork) : (modFork s id f).partners = s.partners := rfl
@[simp] theorem modFork_mailboxes (s : State) (id : Nat) (f : Fork → Fork) : (modFork s id f).mailboxes = s.mailboxes := rfl
@[simp] theorem modFork_hostData (s : State) (id : Nat) (f : Fork → Fork) : (modFork s id f).hostData = s.hostData := rfl
@[simp] theorem modFork_hostBad (s : State) (id : Nat) (f : Fork → Fork) : (modFork s id f).hostBad = s.hostBad := rfl
@[simp] theorem modFork_linkReply (s : State) (id : Nat) (f : Fork → Fork) : (modFork s id f).linkReply = s.linkReply := rfl
@[simp] theorem modFork_linkStatus (s : State) (id : Nat) (f : Fork → Fork) : (modFork s id f).linkStatus = s.linkStatus := rfl
@[simp] theorem modFork_pktOrder (s : State) (id : Nat) (f : Fork → Fork) : (modFork s id f).pktOrder = s.pktOrder := rfl
@[simp] theorem modFork_agenda (s : State) (id : Nat) (f : Fork → Fork) : (modFork s id f).agenda = s.agenda := rfl
@[simp] theorem modFork_cur (s : State) (id : Nat) (f : Fork → Fork) : (modFork s id f).cur = s.cur := rfl
@[simp] theorem modFork_active (s : State) (id : Nat) (f : Fork → Fork) : (modFork s id f).active = s.active := rfl
@[simp] theorem modFork_tick (s : State) (id : Nat) (f : Fork → Fork) : (modFork s id f).tick = s.tick := rfl
@[simp] theorem modFork_nextId (s : State) (id : Nat) (f : Fork → Fork) : (modFork s id f).nextId = s.nextId := rfl

@[simp] theorem modRq_dev (s : State) (id : Nat) (f : RecQueue → RecQueue) : (modRq s id f).dev = s.dev := rfl
@[simp] theorem modRq_mem (s : State) (id : Nat) (f : RecQueue → RecQueue) : (modRq s id f).mem = s.mem := rfl
@[simp] theorem modRq_bad (s : State) (id : Nat) (f : RecQueue → RecQueue) : (modRq s id f).bad = s.bad := rfl
@[simp] theorem modRq_sectorKey (s : State) (id : Nat) (f : RecQueue → RecQueue) : (modRq s id f).sectorKey = s.sectorKey := rfl
@[simp] theorem modRq_l2 (s : State) (id : Nat) (f : RecQueue → RecQueue) : (modRq s id f).l2 = s.l2 := rfl
@[simp] theorem modRq_hostMem (s : State) (id : Nat) (f : RecQueue → RecQueue) : (modRq s id f).hostMem = s.hostMem := rfl
@[simp] theorem modRq_peerMem (s : State) (id : Nat) (f : RecQueue → RecQueue) : (modRq s id f).peerMem = s.peerMem := rfl
@[simp] theorem modRq_peerBad (s : State) (id : Nat) (f : RecQueue → RecQueue) : (modRq s id f).peerBad = s.peerBad := rfl
@[simp] theorem modRq_peerShut (s : State) (id : Nat) (f : RecQueue → RecQueue) : (modRq s id f).peerShut = s.peerShut := rfl
@[simp] theorem modRq_ctxs (s : State) (id : Nat) (f : RecQueue → RecQueue) : (modRq s id f).ctxs = s.ctxs := rfl
@[simp] theorem modRq_queues (s : State) (id : Nat) (f : RecQueue → RecQueue) : (modRq s id f).queues = s.queues := rfl
@[simp] theorem modRq_grids (s : State) (id : Nat) (f : RecQueue → RecQueue) : (modRq s id f).grids = s.grids := rfl
@[simp] theorem modRq_forks (s : State) (id : Nat) (f : RecQueue → RecQueue) : (modRq s id f).forks = s.forks := rfl
@[simp] theorem modRq_accepted (s : State) (id : Nat) (f : RecQueue → RecQueue) : (modRq s id f).accepted = s.accepted := rfl
@[simp] theorem modRq_blocks (s : State) (id : Nat) (f : RecQueue → RecQueue) : (modRq s id f).blocks = s.blocks := rfl
@[simp] theorem modRq_atoms (s : State) (id : Nat) (f : RecQueue → RecQueue) : (modRq s id f).atoms = s.atoms := rfl
@[simp] theorem modRq_cores (s : State) (id : Nat) (f : RecQueue → RecQueue) : (modRq s id f).cores = s.cores := rfl
@[simp] theorem modRq_dies (s : State) (id : Nat) (f : RecQueue → RecQueue) : (modRq s id f).dies = s.dies := rfl
@[simp] theorem modRq_weir (s : State) (id : Nat) (f : RecQueue → RecQueue) : (modRq s id f).weir = s.weir := rfl
@[simp] theorem modRq_keys (s : State) (id : Nat) (f : RecQueue → RecQueue) : (modRq s id f).keys = s.keys := rfl
@[simp] theorem modRq_sessions (s : State) (id : Nat) (f : RecQueue → RecQueue) : (modRq s id f).sessions = s.sessions := rfl
@[simp] theorem modRq_ports (s : State) (id : Nat) (f : RecQueue → RecQueue) : (modRq s id f).ports = s.ports := rfl
@[simp] theorem modRq_partners (s : State) (id : Nat) (f : RecQueue → RecQueue) : (modRq s id f).partners = s.partners := rfl
@[simp] theorem modRq_mailboxes (s : State) (id : Nat) (f : RecQueue → RecQueue) : (modRq s id f).mailboxes = s.mailboxes := rfl
@[simp] theorem modRq_hostData (s : State) (id : Nat) (f : RecQueue → RecQueue) : (modRq s id f).hostData = s.hostData := rfl
@[simp] theorem modRq_hostBad (s : State) (id : Nat) (f : RecQueue → RecQueue) : (modRq s id f).hostBad = s.hostBad := rfl
@[simp] theorem modRq_linkReply (s : State) (id : Nat) (f : RecQueue → RecQueue) : (modRq s id f).linkReply = s.linkReply := rfl
@[simp] theorem modRq_linkStatus (s : State) (id : Nat) (f : RecQueue → RecQueue) : (modRq s id f).linkStatus = s.linkStatus := rfl
@[simp] theorem modRq_pktOrder (s : State) (id : Nat) (f : RecQueue → RecQueue) : (modRq s id f).pktOrder = s.pktOrder := rfl
@[simp] theorem modRq_agenda (s : State) (id : Nat) (f : RecQueue → RecQueue) : (modRq s id f).agenda = s.agenda := rfl
@[simp] theorem modRq_cur (s : State) (id : Nat) (f : RecQueue → RecQueue) : (modRq s id f).cur = s.cur := rfl
@[simp] theorem modRq_active (s : State) (id : Nat) (f : RecQueue → RecQueue) : (modRq s id f).active = s.active := rfl
@[simp] theorem modRq_tick (s : State) (id : Nat) (f : RecQueue → RecQueue) : (modRq s id f).tick = s.tick := rfl
@[simp] theorem modRq_nextId (s : State) (id : Nat) (f : RecQueue → RecQueue) : (modRq s id f).nextId = s.nextId := rfl

@[simp] theorem modCore_dev (s : State) (c : Nat) (f : Core → Core) : (modCore s c f).dev = s.dev := rfl
@[simp] theorem modCore_mem (s : State) (c : Nat) (f : Core → Core) : (modCore s c f).mem = s.mem := rfl
@[simp] theorem modCore_bad (s : State) (c : Nat) (f : Core → Core) : (modCore s c f).bad = s.bad := rfl
@[simp] theorem modCore_sectorKey (s : State) (c : Nat) (f : Core → Core) : (modCore s c f).sectorKey = s.sectorKey := rfl
@[simp] theorem modCore_l2 (s : State) (c : Nat) (f : Core → Core) : (modCore s c f).l2 = s.l2 := rfl
@[simp] theorem modCore_hostMem (s : State) (c : Nat) (f : Core → Core) : (modCore s c f).hostMem = s.hostMem := rfl
@[simp] theorem modCore_peerMem (s : State) (c : Nat) (f : Core → Core) : (modCore s c f).peerMem = s.peerMem := rfl
@[simp] theorem modCore_peerBad (s : State) (c : Nat) (f : Core → Core) : (modCore s c f).peerBad = s.peerBad := rfl
@[simp] theorem modCore_peerShut (s : State) (c : Nat) (f : Core → Core) : (modCore s c f).peerShut = s.peerShut := rfl
@[simp] theorem modCore_ctxs (s : State) (c : Nat) (f : Core → Core) : (modCore s c f).ctxs = s.ctxs := rfl
@[simp] theorem modCore_queues (s : State) (c : Nat) (f : Core → Core) : (modCore s c f).queues = s.queues := rfl
@[simp] theorem modCore_grids (s : State) (c : Nat) (f : Core → Core) : (modCore s c f).grids = s.grids := rfl
@[simp] theorem modCore_forks (s : State) (c : Nat) (f : Core → Core) : (modCore s c f).forks = s.forks := rfl
@[simp] theorem modCore_accepted (s : State) (c : Nat) (f : Core → Core) : (modCore s c f).accepted = s.accepted := rfl
@[simp] theorem modCore_rqs (s : State) (c : Nat) (f : Core → Core) : (modCore s c f).rqs = s.rqs := rfl
@[simp] theorem modCore_blocks (s : State) (c : Nat) (f : Core → Core) : (modCore s c f).blocks = s.blocks := rfl
@[simp] theorem modCore_atoms (s : State) (c : Nat) (f : Core → Core) : (modCore s c f).atoms = s.atoms := rfl
@[simp] theorem modCore_dies (s : State) (c : Nat) (f : Core → Core) : (modCore s c f).dies = s.dies := rfl
@[simp] theorem modCore_weir (s : State) (c : Nat) (f : Core → Core) : (modCore s c f).weir = s.weir := rfl
@[simp] theorem modCore_keys (s : State) (c : Nat) (f : Core → Core) : (modCore s c f).keys = s.keys := rfl
@[simp] theorem modCore_sessions (s : State) (c : Nat) (f : Core → Core) : (modCore s c f).sessions = s.sessions := rfl
@[simp] theorem modCore_ports (s : State) (c : Nat) (f : Core → Core) : (modCore s c f).ports = s.ports := rfl
@[simp] theorem modCore_partners (s : State) (c : Nat) (f : Core → Core) : (modCore s c f).partners = s.partners := rfl
@[simp] theorem modCore_mailboxes (s : State) (c : Nat) (f : Core → Core) : (modCore s c f).mailboxes = s.mailboxes := rfl
@[simp] theorem modCore_hostData (s : State) (c : Nat) (f : Core → Core) : (modCore s c f).hostData = s.hostData := rfl
@[simp] theorem modCore_hostBad (s : State) (c : Nat) (f : Core → Core) : (modCore s c f).hostBad = s.hostBad := rfl
@[simp] theorem modCore_linkReply (s : State) (c : Nat) (f : Core → Core) : (modCore s c f).linkReply = s.linkReply := rfl
@[simp] theorem modCore_linkStatus (s : State) (c : Nat) (f : Core → Core) : (modCore s c f).linkStatus = s.linkStatus := rfl
@[simp] theorem modCore_pktOrder (s : State) (c : Nat) (f : Core → Core) : (modCore s c f).pktOrder = s.pktOrder := rfl
@[simp] theorem modCore_agenda (s : State) (c : Nat) (f : Core → Core) : (modCore s c f).agenda = s.agenda := rfl
@[simp] theorem modCore_cur (s : State) (c : Nat) (f : Core → Core) : (modCore s c f).cur = s.cur := rfl
@[simp] theorem modCore_active (s : State) (c : Nat) (f : Core → Core) : (modCore s c f).active = s.active := rfl
@[simp] theorem modCore_tick (s : State) (c : Nat) (f : Core → Core) : (modCore s c f).tick = s.tick := rfl
@[simp] theorem modCore_nextId (s : State) (c : Nat) (f : Core → Core) : (modCore s c f).nextId = s.nextId := rfl

@[simp] theorem modDie_dev (s : State) (d : Nat) (f : Die → Die) : (modDie s d f).dev = s.dev := rfl
@[simp] theorem modDie_mem (s : State) (d : Nat) (f : Die → Die) : (modDie s d f).mem = s.mem := rfl
@[simp] theorem modDie_bad (s : State) (d : Nat) (f : Die → Die) : (modDie s d f).bad = s.bad := rfl
@[simp] theorem modDie_sectorKey (s : State) (d : Nat) (f : Die → Die) : (modDie s d f).sectorKey = s.sectorKey := rfl
@[simp] theorem modDie_l2 (s : State) (d : Nat) (f : Die → Die) : (modDie s d f).l2 = s.l2 := rfl
@[simp] theorem modDie_hostMem (s : State) (d : Nat) (f : Die → Die) : (modDie s d f).hostMem = s.hostMem := rfl
@[simp] theorem modDie_peerMem (s : State) (d : Nat) (f : Die → Die) : (modDie s d f).peerMem = s.peerMem := rfl
@[simp] theorem modDie_peerBad (s : State) (d : Nat) (f : Die → Die) : (modDie s d f).peerBad = s.peerBad := rfl
@[simp] theorem modDie_peerShut (s : State) (d : Nat) (f : Die → Die) : (modDie s d f).peerShut = s.peerShut := rfl
@[simp] theorem modDie_ctxs (s : State) (d : Nat) (f : Die → Die) : (modDie s d f).ctxs = s.ctxs := rfl
@[simp] theorem modDie_queues (s : State) (d : Nat) (f : Die → Die) : (modDie s d f).queues = s.queues := rfl
@[simp] theorem modDie_grids (s : State) (d : Nat) (f : Die → Die) : (modDie s d f).grids = s.grids := rfl
@[simp] theorem modDie_forks (s : State) (d : Nat) (f : Die → Die) : (modDie s d f).forks = s.forks := rfl
@[simp] theorem modDie_accepted (s : State) (d : Nat) (f : Die → Die) : (modDie s d f).accepted = s.accepted := rfl
@[simp] theorem modDie_rqs (s : State) (d : Nat) (f : Die → Die) : (modDie s d f).rqs = s.rqs := rfl
@[simp] theorem modDie_blocks (s : State) (d : Nat) (f : Die → Die) : (modDie s d f).blocks = s.blocks := rfl
@[simp] theorem modDie_atoms (s : State) (d : Nat) (f : Die → Die) : (modDie s d f).atoms = s.atoms := rfl
@[simp] theorem modDie_cores (s : State) (d : Nat) (f : Die → Die) : (modDie s d f).cores = s.cores := rfl
@[simp] theorem modDie_weir (s : State) (d : Nat) (f : Die → Die) : (modDie s d f).weir = s.weir := rfl
@[simp] theorem modDie_keys (s : State) (d : Nat) (f : Die → Die) : (modDie s d f).keys = s.keys := rfl
@[simp] theorem modDie_sessions (s : State) (d : Nat) (f : Die → Die) : (modDie s d f).sessions = s.sessions := rfl
@[simp] theorem modDie_ports (s : State) (d : Nat) (f : Die → Die) : (modDie s d f).ports = s.ports := rfl
@[simp] theorem modDie_partners (s : State) (d : Nat) (f : Die → Die) : (modDie s d f).partners = s.partners := rfl
@[simp] theorem modDie_mailboxes (s : State) (d : Nat) (f : Die → Die) : (modDie s d f).mailboxes = s.mailboxes := rfl
@[simp] theorem modDie_hostData (s : State) (d : Nat) (f : Die → Die) : (modDie s d f).hostData = s.hostData := rfl
@[simp] theorem modDie_hostBad (s : State) (d : Nat) (f : Die → Die) : (modDie s d f).hostBad = s.hostBad := rfl
@[simp] theorem modDie_linkReply (s : State) (d : Nat) (f : Die → Die) : (modDie s d f).linkReply = s.linkReply := rfl
@[simp] theorem modDie_linkStatus (s : State) (d : Nat) (f : Die → Die) : (modDie s d f).linkStatus = s.linkStatus := rfl
@[simp] theorem modDie_pktOrder (s : State) (d : Nat) (f : Die → Die) : (modDie s d f).pktOrder = s.pktOrder := rfl
@[simp] theorem modDie_agenda (s : State) (d : Nat) (f : Die → Die) : (modDie s d f).agenda = s.agenda := rfl
@[simp] theorem modDie_cur (s : State) (d : Nat) (f : Die → Die) : (modDie s d f).cur = s.cur := rfl
@[simp] theorem modDie_active (s : State) (d : Nat) (f : Die → Die) : (modDie s d f).active = s.active := rfl
@[simp] theorem modDie_tick (s : State) (d : Nat) (f : Die → Die) : (modDie s d f).tick = s.tick := rfl
@[simp] theorem modDie_nextId (s : State) (d : Nat) (f : Die → Die) : (modDie s d f).nextId = s.nextId := rfl

@[simp] theorem modGang_dev (s : State) (b g : Nat) (f : Gang → Gang) : (modGang s b g f).dev = s.dev := rfl
@[simp] theorem modGang_mem (s : State) (b g : Nat) (f : Gang → Gang) : (modGang s b g f).mem = s.mem := rfl
@[simp] theorem modGang_bad (s : State) (b g : Nat) (f : Gang → Gang) : (modGang s b g f).bad = s.bad := rfl
@[simp] theorem modGang_sectorKey (s : State) (b g : Nat) (f : Gang → Gang) : (modGang s b g f).sectorKey = s.sectorKey := rfl
@[simp] theorem modGang_l2 (s : State) (b g : Nat) (f : Gang → Gang) : (modGang s b g f).l2 = s.l2 := rfl
@[simp] theorem modGang_hostMem (s : State) (b g : Nat) (f : Gang → Gang) : (modGang s b g f).hostMem = s.hostMem := rfl
@[simp] theorem modGang_peerMem (s : State) (b g : Nat) (f : Gang → Gang) : (modGang s b g f).peerMem = s.peerMem := rfl
@[simp] theorem modGang_peerBad (s : State) (b g : Nat) (f : Gang → Gang) : (modGang s b g f).peerBad = s.peerBad := rfl
@[simp] theorem modGang_peerShut (s : State) (b g : Nat) (f : Gang → Gang) : (modGang s b g f).peerShut = s.peerShut := rfl
@[simp] theorem modGang_ctxs (s : State) (b g : Nat) (f : Gang → Gang) : (modGang s b g f).ctxs = s.ctxs := rfl
@[simp] theorem modGang_queues (s : State) (b g : Nat) (f : Gang → Gang) : (modGang s b g f).queues = s.queues := rfl
@[simp] theorem modGang_grids (s : State) (b g : Nat) (f : Gang → Gang) : (modGang s b g f).grids = s.grids := rfl
@[simp] theorem modGang_forks (s : State) (b g : Nat) (f : Gang → Gang) : (modGang s b g f).forks = s.forks := rfl
@[simp] theorem modGang_accepted (s : State) (b g : Nat) (f : Gang → Gang) : (modGang s b g f).accepted = s.accepted := rfl
@[simp] theorem modGang_rqs (s : State) (b g : Nat) (f : Gang → Gang) : (modGang s b g f).rqs = s.rqs := rfl
@[simp] theorem modGang_atoms (s : State) (b g : Nat) (f : Gang → Gang) : (modGang s b g f).atoms = s.atoms := rfl
@[simp] theorem modGang_cores (s : State) (b g : Nat) (f : Gang → Gang) : (modGang s b g f).cores = s.cores := rfl
@[simp] theorem modGang_dies (s : State) (b g : Nat) (f : Gang → Gang) : (modGang s b g f).dies = s.dies := rfl
@[simp] theorem modGang_weir (s : State) (b g : Nat) (f : Gang → Gang) : (modGang s b g f).weir = s.weir := rfl
@[simp] theorem modGang_keys (s : State) (b g : Nat) (f : Gang → Gang) : (modGang s b g f).keys = s.keys := rfl
@[simp] theorem modGang_sessions (s : State) (b g : Nat) (f : Gang → Gang) : (modGang s b g f).sessions = s.sessions := rfl
@[simp] theorem modGang_ports (s : State) (b g : Nat) (f : Gang → Gang) : (modGang s b g f).ports = s.ports := rfl
@[simp] theorem modGang_partners (s : State) (b g : Nat) (f : Gang → Gang) : (modGang s b g f).partners = s.partners := rfl
@[simp] theorem modGang_mailboxes (s : State) (b g : Nat) (f : Gang → Gang) : (modGang s b g f).mailboxes = s.mailboxes := rfl
@[simp] theorem modGang_hostData (s : State) (b g : Nat) (f : Gang → Gang) : (modGang s b g f).hostData = s.hostData := rfl
@[simp] theorem modGang_hostBad (s : State) (b g : Nat) (f : Gang → Gang) : (modGang s b g f).hostBad = s.hostBad := rfl
@[simp] theorem modGang_linkReply (s : State) (b g : Nat) (f : Gang → Gang) : (modGang s b g f).linkReply = s.linkReply := rfl
@[simp] theorem modGang_linkStatus (s : State) (b g : Nat) (f : Gang → Gang) : (modGang s b g f).linkStatus = s.linkStatus := rfl
@[simp] theorem modGang_pktOrder (s : State) (b g : Nat) (f : Gang → Gang) : (modGang s b g f).pktOrder = s.pktOrder := rfl
@[simp] theorem modGang_agenda (s : State) (b g : Nat) (f : Gang → Gang) : (modGang s b g f).agenda = s.agenda := rfl
@[simp] theorem modGang_cur (s : State) (b g : Nat) (f : Gang → Gang) : (modGang s b g f).cur = s.cur := rfl
@[simp] theorem modGang_active (s : State) (b g : Nat) (f : Gang → Gang) : (modGang s b g f).active = s.active := rfl
@[simp] theorem modGang_tick (s : State) (b g : Nat) (f : Gang → Gang) : (modGang s b g f).tick = s.tick := rfl
@[simp] theorem modGang_nextId (s : State) (b g : Nat) (f : Gang → Gang) : (modGang s b g f).nextId = s.nextId := rfl

@[simp] theorem modFeeder_dev (s : State) (b : Nat) (f : Feeder → Feeder) : (modFeeder s b f).dev = s.dev := rfl
@[simp] theorem modFeeder_mem (s : State) (b : Nat) (f : Feeder → Feeder) : (modFeeder s b f).mem = s.mem := rfl
@[simp] theorem modFeeder_bad (s : State) (b : Nat) (f : Feeder → Feeder) : (modFeeder s b f).bad = s.bad := rfl
@[simp] theorem modFeeder_sectorKey (s : State) (b : Nat) (f : Feeder → Feeder) : (modFeeder s b f).sectorKey = s.sectorKey := rfl
@[simp] theorem modFeeder_l2 (s : State) (b : Nat) (f : Feeder → Feeder) : (modFeeder s b f).l2 = s.l2 := rfl
@[simp] theorem modFeeder_hostMem (s : State) (b : Nat) (f : Feeder → Feeder) : (modFeeder s b f).hostMem = s.hostMem := rfl
@[simp] theorem modFeeder_peerMem (s : State) (b : Nat) (f : Feeder → Feeder) : (modFeeder s b f).peerMem = s.peerMem := rfl
@[simp] theorem modFeeder_peerBad (s : State) (b : Nat) (f : Feeder → Feeder) : (modFeeder s b f).peerBad = s.peerBad := rfl
@[simp] theorem modFeeder_peerShut (s : State) (b : Nat) (f : Feeder → Feeder) : (modFeeder s b f).peerShut = s.peerShut := rfl
@[simp] theorem modFeeder_ctxs (s : State) (b : Nat) (f : Feeder → Feeder) : (modFeeder s b f).ctxs = s.ctxs := rfl
@[simp] theorem modFeeder_queues (s : State) (b : Nat) (f : Feeder → Feeder) : (modFeeder s b f).queues = s.queues := rfl
@[simp] theorem modFeeder_grids (s : State) (b : Nat) (f : Feeder → Feeder) : (modFeeder s b f).grids = s.grids := rfl
@[simp] theorem modFeeder_forks (s : State) (b : Nat) (f : Feeder → Feeder) : (modFeeder s b f).forks = s.forks := rfl
@[simp] theorem modFeeder_accepted (s : State) (b : Nat) (f : Feeder → Feeder) : (modFeeder s b f).accepted = s.accepted := rfl
@[simp] theorem modFeeder_rqs (s : State) (b : Nat) (f : Feeder → Feeder) : (modFeeder s b f).rqs = s.rqs := rfl
@[simp] theorem modFeeder_atoms (s : State) (b : Nat) (f : Feeder → Feeder) : (modFeeder s b f).atoms = s.atoms := rfl
@[simp] theorem modFeeder_cores (s : State) (b : Nat) (f : Feeder → Feeder) : (modFeeder s b f).cores = s.cores := rfl
@[simp] theorem modFeeder_dies (s : State) (b : Nat) (f : Feeder → Feeder) : (modFeeder s b f).dies = s.dies := rfl
@[simp] theorem modFeeder_weir (s : State) (b : Nat) (f : Feeder → Feeder) : (modFeeder s b f).weir = s.weir := rfl
@[simp] theorem modFeeder_keys (s : State) (b : Nat) (f : Feeder → Feeder) : (modFeeder s b f).keys = s.keys := rfl
@[simp] theorem modFeeder_sessions (s : State) (b : Nat) (f : Feeder → Feeder) : (modFeeder s b f).sessions = s.sessions := rfl
@[simp] theorem modFeeder_ports (s : State) (b : Nat) (f : Feeder → Feeder) : (modFeeder s b f).ports = s.ports := rfl
@[simp] theorem modFeeder_partners (s : State) (b : Nat) (f : Feeder → Feeder) : (modFeeder s b f).partners = s.partners := rfl
@[simp] theorem modFeeder_mailboxes (s : State) (b : Nat) (f : Feeder → Feeder) : (modFeeder s b f).mailboxes = s.mailboxes := rfl
@[simp] theorem modFeeder_hostData (s : State) (b : Nat) (f : Feeder → Feeder) : (modFeeder s b f).hostData = s.hostData := rfl
@[simp] theorem modFeeder_hostBad (s : State) (b : Nat) (f : Feeder → Feeder) : (modFeeder s b f).hostBad = s.hostBad := rfl
@[simp] theorem modFeeder_linkReply (s : State) (b : Nat) (f : Feeder → Feeder) : (modFeeder s b f).linkReply = s.linkReply := rfl
@[simp] theorem modFeeder_linkStatus (s : State) (b : Nat) (f : Feeder → Feeder) : (modFeeder s b f).linkStatus = s.linkStatus := rfl
@[simp] theorem modFeeder_pktOrder (s : State) (b : Nat) (f : Feeder → Feeder) : (modFeeder s b f).pktOrder = s.pktOrder := rfl
@[simp] theorem modFeeder_agenda (s : State) (b : Nat) (f : Feeder → Feeder) : (modFeeder s b f).agenda = s.agenda := rfl
@[simp] theorem modFeeder_cur (s : State) (b : Nat) (f : Feeder → Feeder) : (modFeeder s b f).cur = s.cur := rfl
@[simp] theorem modFeeder_active (s : State) (b : Nat) (f : Feeder → Feeder) : (modFeeder s b f).active = s.active := rfl
@[simp] theorem modFeeder_tick (s : State) (b : Nat) (f : Feeder → Feeder) : (modFeeder s b f).tick = s.tick := rfl
@[simp] theorem modFeeder_nextId (s : State) (b : Nat) (f : Feeder → Feeder) : (modFeeder s b f).nextId = s.nextId := rfl

@[simp] theorem modBar_dev (s : State) (b k : Nat) (f : Barrier → Barrier) : (modBar s b k f).dev = s.dev := rfl
@[simp] theorem modBar_mem (s : State) (b k : Nat) (f : Barrier → Barrier) : (modBar s b k f).mem = s.mem := rfl
@[simp] theorem modBar_bad (s : State) (b k : Nat) (f : Barrier → Barrier) : (modBar s b k f).bad = s.bad := rfl
@[simp] theorem modBar_sectorKey (s : State) (b k : Nat) (f : Barrier → Barrier) : (modBar s b k f).sectorKey = s.sectorKey := rfl
@[simp] theorem modBar_l2 (s : State) (b k : Nat) (f : Barrier → Barrier) : (modBar s b k f).l2 = s.l2 := rfl
@[simp] theorem modBar_hostMem (s : State) (b k : Nat) (f : Barrier → Barrier) : (modBar s b k f).hostMem = s.hostMem := rfl
@[simp] theorem modBar_peerMem (s : State) (b k : Nat) (f : Barrier → Barrier) : (modBar s b k f).peerMem = s.peerMem := rfl
@[simp] theorem modBar_peerBad (s : State) (b k : Nat) (f : Barrier → Barrier) : (modBar s b k f).peerBad = s.peerBad := rfl
@[simp] theorem modBar_peerShut (s : State) (b k : Nat) (f : Barrier → Barrier) : (modBar s b k f).peerShut = s.peerShut := rfl
@[simp] theorem modBar_ctxs (s : State) (b k : Nat) (f : Barrier → Barrier) : (modBar s b k f).ctxs = s.ctxs := rfl
@[simp] theorem modBar_queues (s : State) (b k : Nat) (f : Barrier → Barrier) : (modBar s b k f).queues = s.queues := rfl
@[simp] theorem modBar_grids (s : State) (b k : Nat) (f : Barrier → Barrier) : (modBar s b k f).grids = s.grids := rfl
@[simp] theorem modBar_forks (s : State) (b k : Nat) (f : Barrier → Barrier) : (modBar s b k f).forks = s.forks := rfl
@[simp] theorem modBar_accepted (s : State) (b k : Nat) (f : Barrier → Barrier) : (modBar s b k f).accepted = s.accepted := rfl
@[simp] theorem modBar_rqs (s : State) (b k : Nat) (f : Barrier → Barrier) : (modBar s b k f).rqs = s.rqs := rfl
@[simp] theorem modBar_atoms (s : State) (b k : Nat) (f : Barrier → Barrier) : (modBar s b k f).atoms = s.atoms := rfl
@[simp] theorem modBar_cores (s : State) (b k : Nat) (f : Barrier → Barrier) : (modBar s b k f).cores = s.cores := rfl
@[simp] theorem modBar_dies (s : State) (b k : Nat) (f : Barrier → Barrier) : (modBar s b k f).dies = s.dies := rfl
@[simp] theorem modBar_weir (s : State) (b k : Nat) (f : Barrier → Barrier) : (modBar s b k f).weir = s.weir := rfl
@[simp] theorem modBar_keys (s : State) (b k : Nat) (f : Barrier → Barrier) : (modBar s b k f).keys = s.keys := rfl
@[simp] theorem modBar_sessions (s : State) (b k : Nat) (f : Barrier → Barrier) : (modBar s b k f).sessions = s.sessions := rfl
@[simp] theorem modBar_ports (s : State) (b k : Nat) (f : Barrier → Barrier) : (modBar s b k f).ports = s.ports := rfl
@[simp] theorem modBar_partners (s : State) (b k : Nat) (f : Barrier → Barrier) : (modBar s b k f).partners = s.partners := rfl
@[simp] theorem modBar_mailboxes (s : State) (b k : Nat) (f : Barrier → Barrier) : (modBar s b k f).mailboxes = s.mailboxes := rfl
@[simp] theorem modBar_hostData (s : State) (b k : Nat) (f : Barrier → Barrier) : (modBar s b k f).hostData = s.hostData := rfl
@[simp] theorem modBar_hostBad (s : State) (b k : Nat) (f : Barrier → Barrier) : (modBar s b k f).hostBad = s.hostBad := rfl
@[simp] theorem modBar_linkReply (s : State) (b k : Nat) (f : Barrier → Barrier) : (modBar s b k f).linkReply = s.linkReply := rfl
@[simp] theorem modBar_linkStatus (s : State) (b k : Nat) (f : Barrier → Barrier) : (modBar s b k f).linkStatus = s.linkStatus := rfl
@[simp] theorem modBar_pktOrder (s : State) (b k : Nat) (f : Barrier → Barrier) : (modBar s b k f).pktOrder = s.pktOrder := rfl
@[simp] theorem modBar_agenda (s : State) (b k : Nat) (f : Barrier → Barrier) : (modBar s b k f).agenda = s.agenda := rfl
@[simp] theorem modBar_cur (s : State) (b k : Nat) (f : Barrier → Barrier) : (modBar s b k f).cur = s.cur := rfl
@[simp] theorem modBar_active (s : State) (b k : Nat) (f : Barrier → Barrier) : (modBar s b k f).active = s.active := rfl
@[simp] theorem modBar_tick (s : State) (b k : Nat) (f : Barrier → Barrier) : (modBar s b k f).tick = s.tick := rfl
@[simp] theorem modBar_nextId (s : State) (b k : Nat) (f : Barrier → Barrier) : (modBar s b k f).nextId = s.nextId := rfl

@[simp] theorem spWrite_dev (s : State) (b : Nat) (ws : List (Nat × List Byte)) : (spWrite s b ws).dev = s.dev := rfl
@[simp] theorem spWrite_mem (s : State) (b : Nat) (ws : List (Nat × List Byte)) : (spWrite s b ws).mem = s.mem := rfl
@[simp] theorem spWrite_bad (s : State) (b : Nat) (ws : List (Nat × List Byte)) : (spWrite s b ws).bad = s.bad := rfl
@[simp] theorem spWrite_sectorKey (s : State) (b : Nat) (ws : List (Nat × List Byte)) : (spWrite s b ws).sectorKey = s.sectorKey := rfl
@[simp] theorem spWrite_l2 (s : State) (b : Nat) (ws : List (Nat × List Byte)) : (spWrite s b ws).l2 = s.l2 := rfl
@[simp] theorem spWrite_hostMem (s : State) (b : Nat) (ws : List (Nat × List Byte)) : (spWrite s b ws).hostMem = s.hostMem := rfl
@[simp] theorem spWrite_peerMem (s : State) (b : Nat) (ws : List (Nat × List Byte)) : (spWrite s b ws).peerMem = s.peerMem := rfl
@[simp] theorem spWrite_peerBad (s : State) (b : Nat) (ws : List (Nat × List Byte)) : (spWrite s b ws).peerBad = s.peerBad := rfl
@[simp] theorem spWrite_peerShut (s : State) (b : Nat) (ws : List (Nat × List Byte)) : (spWrite s b ws).peerShut = s.peerShut := rfl
@[simp] theorem spWrite_ctxs (s : State) (b : Nat) (ws : List (Nat × List Byte)) : (spWrite s b ws).ctxs = s.ctxs := rfl
@[simp] theorem spWrite_queues (s : State) (b : Nat) (ws : List (Nat × List Byte)) : (spWrite s b ws).queues = s.queues := rfl
@[simp] theorem spWrite_grids (s : State) (b : Nat) (ws : List (Nat × List Byte)) : (spWrite s b ws).grids = s.grids := rfl
@[simp] theorem spWrite_forks (s : State) (b : Nat) (ws : List (Nat × List Byte)) : (spWrite s b ws).forks = s.forks := rfl
@[simp] theorem spWrite_accepted (s : State) (b : Nat) (ws : List (Nat × List Byte)) : (spWrite s b ws).accepted = s.accepted := rfl
@[simp] theorem spWrite_rqs (s : State) (b : Nat) (ws : List (Nat × List Byte)) : (spWrite s b ws).rqs = s.rqs := rfl
@[simp] theorem spWrite_atoms (s : State) (b : Nat) (ws : List (Nat × List Byte)) : (spWrite s b ws).atoms = s.atoms := rfl
@[simp] theorem spWrite_cores (s : State) (b : Nat) (ws : List (Nat × List Byte)) : (spWrite s b ws).cores = s.cores := rfl
@[simp] theorem spWrite_dies (s : State) (b : Nat) (ws : List (Nat × List Byte)) : (spWrite s b ws).dies = s.dies := rfl
@[simp] theorem spWrite_weir (s : State) (b : Nat) (ws : List (Nat × List Byte)) : (spWrite s b ws).weir = s.weir := rfl
@[simp] theorem spWrite_keys (s : State) (b : Nat) (ws : List (Nat × List Byte)) : (spWrite s b ws).keys = s.keys := rfl
@[simp] theorem spWrite_sessions (s : State) (b : Nat) (ws : List (Nat × List Byte)) : (spWrite s b ws).sessions = s.sessions := rfl
@[simp] theorem spWrite_ports (s : State) (b : Nat) (ws : List (Nat × List Byte)) : (spWrite s b ws).ports = s.ports := rfl
@[simp] theorem spWrite_partners (s : State) (b : Nat) (ws : List (Nat × List Byte)) : (spWrite s b ws).partners = s.partners := rfl
@[simp] theorem spWrite_mailboxes (s : State) (b : Nat) (ws : List (Nat × List Byte)) : (spWrite s b ws).mailboxes = s.mailboxes := rfl
@[simp] theorem spWrite_hostData (s : State) (b : Nat) (ws : List (Nat × List Byte)) : (spWrite s b ws).hostData = s.hostData := rfl
@[simp] theorem spWrite_hostBad (s : State) (b : Nat) (ws : List (Nat × List Byte)) : (spWrite s b ws).hostBad = s.hostBad := rfl
@[simp] theorem spWrite_linkReply (s : State) (b : Nat) (ws : List (Nat × List Byte)) : (spWrite s b ws).linkReply = s.linkReply := rfl
@[simp] theorem spWrite_linkStatus (s : State) (b : Nat) (ws : List (Nat × List Byte)) : (spWrite s b ws).linkStatus = s.linkStatus := rfl
@[simp] theorem spWrite_pktOrder (s : State) (b : Nat) (ws : List (Nat × List Byte)) : (spWrite s b ws).pktOrder = s.pktOrder := rfl
@[simp] theorem spWrite_agenda (s : State) (b : Nat) (ws : List (Nat × List Byte)) : (spWrite s b ws).agenda = s.agenda := rfl
@[simp] theorem spWrite_cur (s : State) (b : Nat) (ws : List (Nat × List Byte)) : (spWrite s b ws).cur = s.cur := rfl
@[simp] theorem spWrite_active (s : State) (b : Nat) (ws : List (Nat × List Byte)) : (spWrite s b ws).active = s.active := rfl
@[simp] theorem spWrite_tick (s : State) (b : Nat) (ws : List (Nat × List Byte)) : (spWrite s b ws).tick = s.tick := rfl
@[simp] theorem spWrite_nextId (s : State) (b : Nat) (ws : List (Nat × List Byte)) : (spWrite s b ws).nextId = s.nextId := rfl

@[simp] theorem modQueue_dev (s : State) (q : Nat) (f : Queue → Queue) : (modQueue s q f).dev = s.dev := rfl
@[simp] theorem modQueue_mem (s : State) (q : Nat) (f : Queue → Queue) : (modQueue s q f).mem = s.mem := rfl
@[simp] theorem modQueue_bad (s : State) (q : Nat) (f : Queue → Queue) : (modQueue s q f).bad = s.bad := rfl
@[simp] theorem modQueue_sectorKey (s : State) (q : Nat) (f : Queue → Queue) : (modQueue s q f).sectorKey = s.sectorKey := rfl
@[simp] theorem modQueue_l2 (s : State) (q : Nat) (f : Queue → Queue) : (modQueue s q f).l2 = s.l2 := rfl
@[simp] theorem modQueue_hostMem (s : State) (q : Nat) (f : Queue → Queue) : (modQueue s q f).hostMem = s.hostMem := rfl
@[simp] theorem modQueue_peerMem (s : State) (q : Nat) (f : Queue → Queue) : (modQueue s q f).peerMem = s.peerMem := rfl
@[simp] theorem modQueue_peerBad (s : State) (q : Nat) (f : Queue → Queue) : (modQueue s q f).peerBad = s.peerBad := rfl
@[simp] theorem modQueue_peerShut (s : State) (q : Nat) (f : Queue → Queue) : (modQueue s q f).peerShut = s.peerShut := rfl
@[simp] theorem modQueue_ctxs (s : State) (q : Nat) (f : Queue → Queue) : (modQueue s q f).ctxs = s.ctxs := rfl
@[simp] theorem modQueue_grids (s : State) (q : Nat) (f : Queue → Queue) : (modQueue s q f).grids = s.grids := rfl
@[simp] theorem modQueue_forks (s : State) (q : Nat) (f : Queue → Queue) : (modQueue s q f).forks = s.forks := rfl
@[simp] theorem modQueue_accepted (s : State) (q : Nat) (f : Queue → Queue) : (modQueue s q f).accepted = s.accepted := rfl
@[simp] theorem modQueue_rqs (s : State) (q : Nat) (f : Queue → Queue) : (modQueue s q f).rqs = s.rqs := rfl
@[simp] theorem modQueue_blocks (s : State) (q : Nat) (f : Queue → Queue) : (modQueue s q f).blocks = s.blocks := rfl
@[simp] theorem modQueue_atoms (s : State) (q : Nat) (f : Queue → Queue) : (modQueue s q f).atoms = s.atoms := rfl
@[simp] theorem modQueue_cores (s : State) (q : Nat) (f : Queue → Queue) : (modQueue s q f).cores = s.cores := rfl
@[simp] theorem modQueue_dies (s : State) (q : Nat) (f : Queue → Queue) : (modQueue s q f).dies = s.dies := rfl
@[simp] theorem modQueue_weir (s : State) (q : Nat) (f : Queue → Queue) : (modQueue s q f).weir = s.weir := rfl
@[simp] theorem modQueue_keys (s : State) (q : Nat) (f : Queue → Queue) : (modQueue s q f).keys = s.keys := rfl
@[simp] theorem modQueue_sessions (s : State) (q : Nat) (f : Queue → Queue) : (modQueue s q f).sessions = s.sessions := rfl
@[simp] theorem modQueue_ports (s : State) (q : Nat) (f : Queue → Queue) : (modQueue s q f).ports = s.ports := rfl
@[simp] theorem modQueue_partners (s : State) (q : Nat) (f : Queue → Queue) : (modQueue s q f).partners = s.partners := rfl
@[simp] theorem modQueue_mailboxes (s : State) (q : Nat) (f : Queue → Queue) : (modQueue s q f).mailboxes = s.mailboxes := rfl
@[simp] theorem modQueue_hostData (s : State) (q : Nat) (f : Queue → Queue) : (modQueue s q f).hostData = s.hostData := rfl
@[simp] theorem modQueue_hostBad (s : State) (q : Nat) (f : Queue → Queue) : (modQueue s q f).hostBad = s.hostBad := rfl
@[simp] theorem modQueue_linkReply (s : State) (q : Nat) (f : Queue → Queue) : (modQueue s q f).linkReply = s.linkReply := rfl
@[simp] theorem modQueue_linkStatus (s : State) (q : Nat) (f : Queue → Queue) : (modQueue s q f).linkStatus = s.linkStatus := rfl
@[simp] theorem modQueue_pktOrder (s : State) (q : Nat) (f : Queue → Queue) : (modQueue s q f).pktOrder = s.pktOrder := rfl
@[simp] theorem modQueue_agenda (s : State) (q : Nat) (f : Queue → Queue) : (modQueue s q f).agenda = s.agenda := rfl
@[simp] theorem modQueue_cur (s : State) (q : Nat) (f : Queue → Queue) : (modQueue s q f).cur = s.cur := rfl
@[simp] theorem modQueue_active (s : State) (q : Nat) (f : Queue → Queue) : (modQueue s q f).active = s.active := rfl
@[simp] theorem modQueue_tick (s : State) (q : Nat) (f : Queue → Queue) : (modQueue s q f).tick = s.tick := rfl
@[simp] theorem modQueue_nextId (s : State) (q : Nat) (f : Queue → Queue) : (modQueue s q f).nextId = s.nextId := rfl

@[simp] theorem setK_dev (s : State) (b : Nat) (p : Party) (i : BitVec 6) (v : W64) : (setK s b p i v).dev = s.dev := by cases p <;> rfl
@[simp] theorem setK_mem (s : State) (b : Nat) (p : Party) (i : BitVec 6) (v : W64) : (setK s b p i v).mem = s.mem := by cases p <;> rfl
@[simp] theorem setK_bad (s : State) (b : Nat) (p : Party) (i : BitVec 6) (v : W64) : (setK s b p i v).bad = s.bad := by cases p <;> rfl
@[simp] theorem setK_sectorKey (s : State) (b : Nat) (p : Party) (i : BitVec 6) (v : W64) : (setK s b p i v).sectorKey = s.sectorKey := by cases p <;> rfl
@[simp] theorem setK_l2 (s : State) (b : Nat) (p : Party) (i : BitVec 6) (v : W64) : (setK s b p i v).l2 = s.l2 := by cases p <;> rfl
@[simp] theorem setK_hostMem (s : State) (b : Nat) (p : Party) (i : BitVec 6) (v : W64) : (setK s b p i v).hostMem = s.hostMem := by cases p <;> rfl
@[simp] theorem setK_peerMem (s : State) (b : Nat) (p : Party) (i : BitVec 6) (v : W64) : (setK s b p i v).peerMem = s.peerMem := by cases p <;> rfl
@[simp] theorem setK_peerBad (s : State) (b : Nat) (p : Party) (i : BitVec 6) (v : W64) : (setK s b p i v).peerBad = s.peerBad := by cases p <;> rfl
@[simp] theorem setK_peerShut (s : State) (b : Nat) (p : Party) (i : BitVec 6) (v : W64) : (setK s b p i v).peerShut = s.peerShut := by cases p <;> rfl
@[simp] theorem setK_ctxs (s : State) (b : Nat) (p : Party) (i : BitVec 6) (v : W64) : (setK s b p i v).ctxs = s.ctxs := by cases p <;> rfl
@[simp] theorem setK_queues (s : State) (b : Nat) (p : Party) (i : BitVec 6) (v : W64) : (setK s b p i v).queues = s.queues := by cases p <;> rfl
@[simp] theorem setK_grids (s : State) (b : Nat) (p : Party) (i : BitVec 6) (v : W64) : (setK s b p i v).grids = s.grids := by cases p <;> rfl
@[simp] theorem setK_forks (s : State) (b : Nat) (p : Party) (i : BitVec 6) (v : W64) : (setK s b p i v).forks = s.forks := by cases p <;> rfl
@[simp] theorem setK_accepted (s : State) (b : Nat) (p : Party) (i : BitVec 6) (v : W64) : (setK s b p i v).accepted = s.accepted := by cases p <;> rfl
@[simp] theorem setK_rqs (s : State) (b : Nat) (p : Party) (i : BitVec 6) (v : W64) : (setK s b p i v).rqs = s.rqs := by cases p <;> rfl
@[simp] theorem setK_atoms (s : State) (b : Nat) (p : Party) (i : BitVec 6) (v : W64) : (setK s b p i v).atoms = s.atoms := by cases p <;> rfl
@[simp] theorem setK_cores (s : State) (b : Nat) (p : Party) (i : BitVec 6) (v : W64) : (setK s b p i v).cores = s.cores := by cases p <;> rfl
@[simp] theorem setK_dies (s : State) (b : Nat) (p : Party) (i : BitVec 6) (v : W64) : (setK s b p i v).dies = s.dies := by cases p <;> rfl
@[simp] theorem setK_weir (s : State) (b : Nat) (p : Party) (i : BitVec 6) (v : W64) : (setK s b p i v).weir = s.weir := by cases p <;> rfl
@[simp] theorem setK_keys (s : State) (b : Nat) (p : Party) (i : BitVec 6) (v : W64) : (setK s b p i v).keys = s.keys := by cases p <;> rfl
@[simp] theorem setK_sessions (s : State) (b : Nat) (p : Party) (i : BitVec 6) (v : W64) : (setK s b p i v).sessions = s.sessions := by cases p <;> rfl
@[simp] theorem setK_ports (s : State) (b : Nat) (p : Party) (i : BitVec 6) (v : W64) : (setK s b p i v).ports = s.ports := by cases p <;> rfl
@[simp] theorem setK_partners (s : State) (b : Nat) (p : Party) (i : BitVec 6) (v : W64) : (setK s b p i v).partners = s.partners := by cases p <;> rfl
@[simp] theorem setK_mailboxes (s : State) (b : Nat) (p : Party) (i : BitVec 6) (v : W64) : (setK s b p i v).mailboxes = s.mailboxes := by cases p <;> rfl
@[simp] theorem setK_hostData (s : State) (b : Nat) (p : Party) (i : BitVec 6) (v : W64) : (setK s b p i v).hostData = s.hostData := by cases p <;> rfl
@[simp] theorem setK_hostBad (s : State) (b : Nat) (p : Party) (i : BitVec 6) (v : W64) : (setK s b p i v).hostBad = s.hostBad := by cases p <;> rfl
@[simp] theorem setK_linkReply (s : State) (b : Nat) (p : Party) (i : BitVec 6) (v : W64) : (setK s b p i v).linkReply = s.linkReply := by cases p <;> rfl
@[simp] theorem setK_linkStatus (s : State) (b : Nat) (p : Party) (i : BitVec 6) (v : W64) : (setK s b p i v).linkStatus = s.linkStatus := by cases p <;> rfl
@[simp] theorem setK_pktOrder (s : State) (b : Nat) (p : Party) (i : BitVec 6) (v : W64) : (setK s b p i v).pktOrder = s.pktOrder := by cases p <;> rfl
@[simp] theorem setK_agenda (s : State) (b : Nat) (p : Party) (i : BitVec 6) (v : W64) : (setK s b p i v).agenda = s.agenda := by cases p <;> rfl
@[simp] theorem setK_cur (s : State) (b : Nat) (p : Party) (i : BitVec 6) (v : W64) : (setK s b p i v).cur = s.cur := by cases p <;> rfl
@[simp] theorem setK_active (s : State) (b : Nat) (p : Party) (i : BitVec 6) (v : W64) : (setK s b p i v).active = s.active := by cases p <;> rfl
@[simp] theorem setK_tick (s : State) (b : Nat) (p : Party) (i : BitVec 6) (v : W64) : (setK s b p i v).tick = s.tick := by cases p <;> rfl
@[simp] theorem setK_nextId (s : State) (b : Nat) (p : Party) (i : BitVec 6) (v : W64) : (setK s b p i v).nextId = s.nextId := by cases p <;> rfl

@[simp] theorem setQp_dev (s : State) (b : Nat) (p : Party) (i : BitVec 3) (v : Bool) : (setQp s b p i v).dev = s.dev := by cases p <;> rfl
@[simp] theorem setQp_mem (s : State) (b : Nat) (p : Party) (i : BitVec 3) (v : Bool) : (setQp s b p i v).mem = s.mem := by cases p <;> rfl
@[simp] theorem setQp_bad (s : State) (b : Nat) (p : Party) (i : BitVec 3) (v : Bool) : (setQp s b p i v).bad = s.bad := by cases p <;> rfl
@[simp] theorem setQp_sectorKey (s : State) (b : Nat) (p : Party) (i : BitVec 3) (v : Bool) : (setQp s b p i v).sectorKey = s.sectorKey := by cases p <;> rfl
@[simp] theorem setQp_l2 (s : State) (b : Nat) (p : Party) (i : BitVec 3) (v : Bool) : (setQp s b p i v).l2 = s.l2 := by cases p <;> rfl
@[simp] theorem setQp_hostMem (s : State) (b : Nat) (p : Party) (i : BitVec 3) (v : Bool) : (setQp s b p i v).hostMem = s.hostMem := by cases p <;> rfl
@[simp] theorem setQp_peerMem (s : State) (b : Nat) (p : Party) (i : BitVec 3) (v : Bool) : (setQp s b p i v).peerMem = s.peerMem := by cases p <;> rfl
@[simp] theorem setQp_peerBad (s : State) (b : Nat) (p : Party) (i : BitVec 3) (v : Bool) : (setQp s b p i v).peerBad = s.peerBad := by cases p <;> rfl
@[simp] theorem setQp_peerShut (s : State) (b : Nat) (p : Party) (i : BitVec 3) (v : Bool) : (setQp s b p i v).peerShut = s.peerShut := by cases p <;> rfl
@[simp] theorem setQp_ctxs (s : State) (b : Nat) (p : Party) (i : BitVec 3) (v : Bool) : (setQp s b p i v).ctxs = s.ctxs := by cases p <;> rfl
@[simp] theorem setQp_queues (s : State) (b : Nat) (p : Party) (i : BitVec 3) (v : Bool) : (setQp s b p i v).queues = s.queues := by cases p <;> rfl
@[simp] theorem setQp_grids (s : State) (b : Nat) (p : Party) (i : BitVec 3) (v : Bool) : (setQp s b p i v).grids = s.grids := by cases p <;> rfl
@[simp] theorem setQp_forks (s : State) (b : Nat) (p : Party) (i : BitVec 3) (v : Bool) : (setQp s b p i v).forks = s.forks := by cases p <;> rfl
@[simp] theorem setQp_accepted (s : State) (b : Nat) (p : Party) (i : BitVec 3) (v : Bool) : (setQp s b p i v).accepted = s.accepted := by cases p <;> rfl
@[simp] theorem setQp_rqs (s : State) (b : Nat) (p : Party) (i : BitVec 3) (v : Bool) : (setQp s b p i v).rqs = s.rqs := by cases p <;> rfl
@[simp] theorem setQp_atoms (s : State) (b : Nat) (p : Party) (i : BitVec 3) (v : Bool) : (setQp s b p i v).atoms = s.atoms := by cases p <;> rfl
@[simp] theorem setQp_cores (s : State) (b : Nat) (p : Party) (i : BitVec 3) (v : Bool) : (setQp s b p i v).cores = s.cores := by cases p <;> rfl
@[simp] theorem setQp_dies (s : State) (b : Nat) (p : Party) (i : BitVec 3) (v : Bool) : (setQp s b p i v).dies = s.dies := by cases p <;> rfl
@[simp] theorem setQp_weir (s : State) (b : Nat) (p : Party) (i : BitVec 3) (v : Bool) : (setQp s b p i v).weir = s.weir := by cases p <;> rfl
@[simp] theorem setQp_keys (s : State) (b : Nat) (p : Party) (i : BitVec 3) (v : Bool) : (setQp s b p i v).keys = s.keys := by cases p <;> rfl
@[simp] theorem setQp_sessions (s : State) (b : Nat) (p : Party) (i : BitVec 3) (v : Bool) : (setQp s b p i v).sessions = s.sessions := by cases p <;> rfl
@[simp] theorem setQp_ports (s : State) (b : Nat) (p : Party) (i : BitVec 3) (v : Bool) : (setQp s b p i v).ports = s.ports := by cases p <;> rfl
@[simp] theorem setQp_partners (s : State) (b : Nat) (p : Party) (i : BitVec 3) (v : Bool) : (setQp s b p i v).partners = s.partners := by cases p <;> rfl
@[simp] theorem setQp_mailboxes (s : State) (b : Nat) (p : Party) (i : BitVec 3) (v : Bool) : (setQp s b p i v).mailboxes = s.mailboxes := by cases p <;> rfl
@[simp] theorem setQp_hostData (s : State) (b : Nat) (p : Party) (i : BitVec 3) (v : Bool) : (setQp s b p i v).hostData = s.hostData := by cases p <;> rfl
@[simp] theorem setQp_hostBad (s : State) (b : Nat) (p : Party) (i : BitVec 3) (v : Bool) : (setQp s b p i v).hostBad = s.hostBad := by cases p <;> rfl
@[simp] theorem setQp_linkReply (s : State) (b : Nat) (p : Party) (i : BitVec 3) (v : Bool) : (setQp s b p i v).linkReply = s.linkReply := by cases p <;> rfl
@[simp] theorem setQp_linkStatus (s : State) (b : Nat) (p : Party) (i : BitVec 3) (v : Bool) : (setQp s b p i v).linkStatus = s.linkStatus := by cases p <;> rfl
@[simp] theorem setQp_pktOrder (s : State) (b : Nat) (p : Party) (i : BitVec 3) (v : Bool) : (setQp s b p i v).pktOrder = s.pktOrder := by cases p <;> rfl
@[simp] theorem setQp_agenda (s : State) (b : Nat) (p : Party) (i : BitVec 3) (v : Bool) : (setQp s b p i v).agenda = s.agenda := by cases p <;> rfl
@[simp] theorem setQp_cur (s : State) (b : Nat) (p : Party) (i : BitVec 3) (v : Bool) : (setQp s b p i v).cur = s.cur := by cases p <;> rfl
@[simp] theorem setQp_active (s : State) (b : Nat) (p : Party) (i : BitVec 3) (v : Bool) : (setQp s b p i v).active = s.active := by cases p <;> rfl
@[simp] theorem setQp_tick (s : State) (b : Nat) (p : Party) (i : BitVec 3) (v : Bool) : (setQp s b p i v).tick = s.tick := by cases p <;> rfl
@[simp] theorem setQp_nextId (s : State) (b : Nat) (p : Party) (i : BitVec 3) (v : Bool) : (setQp s b p i v).nextId = s.nextId := by cases p <;> rfl

@[simp] theorem modEv_dev (s : State) (b : Nat) (p : Party) (h : Events → Events) : (modEv s b p h).dev = s.dev := by cases p <;> rfl
@[simp] theorem modEv_mem (s : State) (b : Nat) (p : Party) (h : Events → Events) : (modEv s b p h).mem = s.mem := by cases p <;> rfl
@[simp] theorem modEv_bad (s : State) (b : Nat) (p : Party) (h : Events → Events) : (modEv s b p h).bad = s.bad := by cases p <;> rfl
@[simp] theorem modEv_sectorKey (s : State) (b : Nat) (p : Party) (h : Events → Events) : (modEv s b p h).sectorKey = s.sectorKey := by cases p <;> rfl
@[simp] theorem modEv_l2 (s : State) (b : Nat) (p : Party) (h : Events → Events) : (modEv s b p h).l2 = s.l2 := by cases p <;> rfl
@[simp] theorem modEv_hostMem (s : State) (b : Nat) (p : Party) (h : Events → Events) : (modEv s b p h).hostMem = s.hostMem := by cases p <;> rfl
@[simp] theorem modEv_peerMem (s : State) (b : Nat) (p : Party) (h : Events → Events) : (modEv s b p h).peerMem = s.peerMem := by cases p <;> rfl
@[simp] theorem modEv_peerBad (s : State) (b : Nat) (p : Party) (h : Events → Events) : (modEv s b p h).peerBad = s.peerBad := by cases p <;> rfl
@[simp] theorem modEv_peerShut (s : State) (b : Nat) (p : Party) (h : Events → Events) : (modEv s b p h).peerShut = s.peerShut := by cases p <;> rfl
@[simp] theorem modEv_ctxs (s : State) (b : Nat) (p : Party) (h : Events → Events) : (modEv s b p h).ctxs = s.ctxs := by cases p <;> rfl
@[simp] theorem modEv_queues (s : State) (b : Nat) (p : Party) (h : Events → Events) : (modEv s b p h).queues = s.queues := by cases p <;> rfl
@[simp] theorem modEv_grids (s : State) (b : Nat) (p : Party) (h : Events → Events) : (modEv s b p h).grids = s.grids := by cases p <;> rfl
@[simp] theorem modEv_forks (s : State) (b : Nat) (p : Party) (h : Events → Events) : (modEv s b p h).forks = s.forks := by cases p <;> rfl
@[simp] theorem modEv_accepted (s : State) (b : Nat) (p : Party) (h : Events → Events) : (modEv s b p h).accepted = s.accepted := by cases p <;> rfl
@[simp] theorem modEv_rqs (s : State) (b : Nat) (p : Party) (h : Events → Events) : (modEv s b p h).rqs = s.rqs := by cases p <;> rfl
@[simp] theorem modEv_atoms (s : State) (b : Nat) (p : Party) (h : Events → Events) : (modEv s b p h).atoms = s.atoms := by cases p <;> rfl
@[simp] theorem modEv_cores (s : State) (b : Nat) (p : Party) (h : Events → Events) : (modEv s b p h).cores = s.cores := by cases p <;> rfl
@[simp] theorem modEv_dies (s : State) (b : Nat) (p : Party) (h : Events → Events) : (modEv s b p h).dies = s.dies := by cases p <;> rfl
@[simp] theorem modEv_weir (s : State) (b : Nat) (p : Party) (h : Events → Events) : (modEv s b p h).weir = s.weir := by cases p <;> rfl
@[simp] theorem modEv_keys (s : State) (b : Nat) (p : Party) (h : Events → Events) : (modEv s b p h).keys = s.keys := by cases p <;> rfl
@[simp] theorem modEv_sessions (s : State) (b : Nat) (p : Party) (h : Events → Events) : (modEv s b p h).sessions = s.sessions := by cases p <;> rfl
@[simp] theorem modEv_ports (s : State) (b : Nat) (p : Party) (h : Events → Events) : (modEv s b p h).ports = s.ports := by cases p <;> rfl
@[simp] theorem modEv_partners (s : State) (b : Nat) (p : Party) (h : Events → Events) : (modEv s b p h).partners = s.partners := by cases p <;> rfl
@[simp] theorem modEv_mailboxes (s : State) (b : Nat) (p : Party) (h : Events → Events) : (modEv s b p h).mailboxes = s.mailboxes := by cases p <;> rfl
@[simp] theorem modEv_hostData (s : State) (b : Nat) (p : Party) (h : Events → Events) : (modEv s b p h).hostData = s.hostData := by cases p <;> rfl
@[simp] theorem modEv_hostBad (s : State) (b : Nat) (p : Party) (h : Events → Events) : (modEv s b p h).hostBad = s.hostBad := by cases p <;> rfl
@[simp] theorem modEv_linkReply (s : State) (b : Nat) (p : Party) (h : Events → Events) : (modEv s b p h).linkReply = s.linkReply := by cases p <;> rfl
@[simp] theorem modEv_linkStatus (s : State) (b : Nat) (p : Party) (h : Events → Events) : (modEv s b p h).linkStatus = s.linkStatus := by cases p <;> rfl
@[simp] theorem modEv_pktOrder (s : State) (b : Nat) (p : Party) (h : Events → Events) : (modEv s b p h).pktOrder = s.pktOrder := by cases p <;> rfl
@[simp] theorem modEv_agenda (s : State) (b : Nat) (p : Party) (h : Events → Events) : (modEv s b p h).agenda = s.agenda := by cases p <;> rfl
@[simp] theorem modEv_cur (s : State) (b : Nat) (p : Party) (h : Events → Events) : (modEv s b p h).cur = s.cur := by cases p <;> rfl
@[simp] theorem modEv_active (s : State) (b : Nat) (p : Party) (h : Events → Events) : (modEv s b p h).active = s.active := by cases p <;> rfl
@[simp] theorem modEv_tick (s : State) (b : Nat) (p : Party) (h : Events → Events) : (modEv s b p h).tick = s.tick := by cases p <;> rfl
@[simp] theorem modEv_nextId (s : State) (b : Nat) (p : Party) (h : Events → Events) : (modEv s b p h).nextId = s.nextId := by cases p <;> rfl

@[simp] theorem setWait_dev (s : State) (b : Nat) (p : Party) (w : Wait) (n : Nat) : (setWait s b p w n).dev = s.dev := by cases p <;> rfl
@[simp] theorem setWait_mem (s : State) (b : Nat) (p : Party) (w : Wait) (n : Nat) : (setWait s b p w n).mem = s.mem := by cases p <;> rfl
@[simp] theorem setWait_bad (s : State) (b : Nat) (p : Party) (w : Wait) (n : Nat) : (setWait s b p w n).bad = s.bad := by cases p <;> rfl
@[simp] theorem setWait_sectorKey (s : State) (b : Nat) (p : Party) (w : Wait) (n : Nat) : (setWait s b p w n).sectorKey = s.sectorKey := by cases p <;> rfl
@[simp] theorem setWait_l2 (s : State) (b : Nat) (p : Party) (w : Wait) (n : Nat) : (setWait s b p w n).l2 = s.l2 := by cases p <;> rfl
@[simp] theorem setWait_hostMem (s : State) (b : Nat) (p : Party) (w : Wait) (n : Nat) : (setWait s b p w n).hostMem = s.hostMem := by cases p <;> rfl
@[simp] theorem setWait_peerMem (s : State) (b : Nat) (p : Party) (w : Wait) (n : Nat) : (setWait s b p w n).peerMem = s.peerMem := by cases p <;> rfl
@[simp] theorem setWait_peerBad (s : State) (b : Nat) (p : Party) (w : Wait) (n : Nat) : (setWait s b p w n).peerBad = s.peerBad := by cases p <;> rfl
@[simp] theorem setWait_peerShut (s : State) (b : Nat) (p : Party) (w : Wait) (n : Nat) : (setWait s b p w n).peerShut = s.peerShut := by cases p <;> rfl
@[simp] theorem setWait_ctxs (s : State) (b : Nat) (p : Party) (w : Wait) (n : Nat) : (setWait s b p w n).ctxs = s.ctxs := by cases p <;> rfl
@[simp] theorem setWait_queues (s : State) (b : Nat) (p : Party) (w : Wait) (n : Nat) : (setWait s b p w n).queues = s.queues := by cases p <;> rfl
@[simp] theorem setWait_grids (s : State) (b : Nat) (p : Party) (w : Wait) (n : Nat) : (setWait s b p w n).grids = s.grids := by cases p <;> rfl
@[simp] theorem setWait_forks (s : State) (b : Nat) (p : Party) (w : Wait) (n : Nat) : (setWait s b p w n).forks = s.forks := by cases p <;> rfl
@[simp] theorem setWait_accepted (s : State) (b : Nat) (p : Party) (w : Wait) (n : Nat) : (setWait s b p w n).accepted = s.accepted := by cases p <;> rfl
@[simp] theorem setWait_rqs (s : State) (b : Nat) (p : Party) (w : Wait) (n : Nat) : (setWait s b p w n).rqs = s.rqs := by cases p <;> rfl
@[simp] theorem setWait_atoms (s : State) (b : Nat) (p : Party) (w : Wait) (n : Nat) : (setWait s b p w n).atoms = s.atoms := by cases p <;> rfl
@[simp] theorem setWait_cores (s : State) (b : Nat) (p : Party) (w : Wait) (n : Nat) : (setWait s b p w n).cores = s.cores := by cases p <;> rfl
@[simp] theorem setWait_dies (s : State) (b : Nat) (p : Party) (w : Wait) (n : Nat) : (setWait s b p w n).dies = s.dies := by cases p <;> rfl
@[simp] theorem setWait_weir (s : State) (b : Nat) (p : Party) (w : Wait) (n : Nat) : (setWait s b p w n).weir = s.weir := by cases p <;> rfl
@[simp] theorem setWait_keys (s : State) (b : Nat) (p : Party) (w : Wait) (n : Nat) : (setWait s b p w n).keys = s.keys := by cases p <;> rfl
@[simp] theorem setWait_sessions (s : State) (b : Nat) (p : Party) (w : Wait) (n : Nat) : (setWait s b p w n).sessions = s.sessions := by cases p <;> rfl
@[simp] theorem setWait_ports (s : State) (b : Nat) (p : Party) (w : Wait) (n : Nat) : (setWait s b p w n).ports = s.ports := by cases p <;> rfl
@[simp] theorem setWait_partners (s : State) (b : Nat) (p : Party) (w : Wait) (n : Nat) : (setWait s b p w n).partners = s.partners := by cases p <;> rfl
@[simp] theorem setWait_mailboxes (s : State) (b : Nat) (p : Party) (w : Wait) (n : Nat) : (setWait s b p w n).mailboxes = s.mailboxes := by cases p <;> rfl
@[simp] theorem setWait_hostData (s : State) (b : Nat) (p : Party) (w : Wait) (n : Nat) : (setWait s b p w n).hostData = s.hostData := by cases p <;> rfl
@[simp] theorem setWait_hostBad (s : State) (b : Nat) (p : Party) (w : Wait) (n : Nat) : (setWait s b p w n).hostBad = s.hostBad := by cases p <;> rfl
@[simp] theorem setWait_linkReply (s : State) (b : Nat) (p : Party) (w : Wait) (n : Nat) : (setWait s b p w n).linkReply = s.linkReply := by cases p <;> rfl
@[simp] theorem setWait_linkStatus (s : State) (b : Nat) (p : Party) (w : Wait) (n : Nat) : (setWait s b p w n).linkStatus = s.linkStatus := by cases p <;> rfl
@[simp] theorem setWait_pktOrder (s : State) (b : Nat) (p : Party) (w : Wait) (n : Nat) : (setWait s b p w n).pktOrder = s.pktOrder := by cases p <;> rfl
@[simp] theorem setWait_agenda (s : State) (b : Nat) (p : Party) (w : Wait) (n : Nat) : (setWait s b p w n).agenda = s.agenda := by cases p <;> rfl
@[simp] theorem setWait_cur (s : State) (b : Nat) (p : Party) (w : Wait) (n : Nat) : (setWait s b p w n).cur = s.cur := by cases p <;> rfl
@[simp] theorem setWait_active (s : State) (b : Nat) (p : Party) (w : Wait) (n : Nat) : (setWait s b p w n).active = s.active := by cases p <;> rfl
@[simp] theorem setWait_tick (s : State) (b : Nat) (p : Party) (w : Wait) (n : Nat) : (setWait s b p w n).tick = s.tick := by cases p <;> rfl
@[simp] theorem setWait_nextId (s : State) (b : Nat) (p : Party) (w : Wait) (n : Nat) : (setWait s b p w n).nextId = s.nextId := by cases p <;> rfl

@[simp] theorem jumpTo_dev (s : State) (b : Nat) (p : Party) (a : W64) : (jumpTo s b p a).dev = s.dev := by cases p <;> rfl
@[simp] theorem jumpTo_mem (s : State) (b : Nat) (p : Party) (a : W64) : (jumpTo s b p a).mem = s.mem := by cases p <;> rfl
@[simp] theorem jumpTo_bad (s : State) (b : Nat) (p : Party) (a : W64) : (jumpTo s b p a).bad = s.bad := by cases p <;> rfl
@[simp] theorem jumpTo_sectorKey (s : State) (b : Nat) (p : Party) (a : W64) : (jumpTo s b p a).sectorKey = s.sectorKey := by cases p <;> rfl
@[simp] theorem jumpTo_l2 (s : State) (b : Nat) (p : Party) (a : W64) : (jumpTo s b p a).l2 = s.l2 := by cases p <;> rfl
@[simp] theorem jumpTo_hostMem (s : State) (b : Nat) (p : Party) (a : W64) : (jumpTo s b p a).hostMem = s.hostMem := by cases p <;> rfl
@[simp] theorem jumpTo_peerMem (s : State) (b : Nat) (p : Party) (a : W64) : (jumpTo s b p a).peerMem = s.peerMem := by cases p <;> rfl
@[simp] theorem jumpTo_peerBad (s : State) (b : Nat) (p : Party) (a : W64) : (jumpTo s b p a).peerBad = s.peerBad := by cases p <;> rfl
@[simp] theorem jumpTo_peerShut (s : State) (b : Nat) (p : Party) (a : W64) : (jumpTo s b p a).peerShut = s.peerShut := by cases p <;> rfl
@[simp] theorem jumpTo_ctxs (s : State) (b : Nat) (p : Party) (a : W64) : (jumpTo s b p a).ctxs = s.ctxs := by cases p <;> rfl
@[simp] theorem jumpTo_queues (s : State) (b : Nat) (p : Party) (a : W64) : (jumpTo s b p a).queues = s.queues := by cases p <;> rfl
@[simp] theorem jumpTo_grids (s : State) (b : Nat) (p : Party) (a : W64) : (jumpTo s b p a).grids = s.grids := by cases p <;> rfl
@[simp] theorem jumpTo_forks (s : State) (b : Nat) (p : Party) (a : W64) : (jumpTo s b p a).forks = s.forks := by cases p <;> rfl
@[simp] theorem jumpTo_accepted (s : State) (b : Nat) (p : Party) (a : W64) : (jumpTo s b p a).accepted = s.accepted := by cases p <;> rfl
@[simp] theorem jumpTo_rqs (s : State) (b : Nat) (p : Party) (a : W64) : (jumpTo s b p a).rqs = s.rqs := by cases p <;> rfl
@[simp] theorem jumpTo_atoms (s : State) (b : Nat) (p : Party) (a : W64) : (jumpTo s b p a).atoms = s.atoms := by cases p <;> rfl
@[simp] theorem jumpTo_cores (s : State) (b : Nat) (p : Party) (a : W64) : (jumpTo s b p a).cores = s.cores := by cases p <;> rfl
@[simp] theorem jumpTo_dies (s : State) (b : Nat) (p : Party) (a : W64) : (jumpTo s b p a).dies = s.dies := by cases p <;> rfl
@[simp] theorem jumpTo_weir (s : State) (b : Nat) (p : Party) (a : W64) : (jumpTo s b p a).weir = s.weir := by cases p <;> rfl
@[simp] theorem jumpTo_keys (s : State) (b : Nat) (p : Party) (a : W64) : (jumpTo s b p a).keys = s.keys := by cases p <;> rfl
@[simp] theorem jumpTo_sessions (s : State) (b : Nat) (p : Party) (a : W64) : (jumpTo s b p a).sessions = s.sessions := by cases p <;> rfl
@[simp] theorem jumpTo_ports (s : State) (b : Nat) (p : Party) (a : W64) : (jumpTo s b p a).ports = s.ports := by cases p <;> rfl
@[simp] theorem jumpTo_partners (s : State) (b : Nat) (p : Party) (a : W64) : (jumpTo s b p a).partners = s.partners := by cases p <;> rfl
@[simp] theorem jumpTo_mailboxes (s : State) (b : Nat) (p : Party) (a : W64) : (jumpTo s b p a).mailboxes = s.mailboxes := by cases p <;> rfl
@[simp] theorem jumpTo_hostData (s : State) (b : Nat) (p : Party) (a : W64) : (jumpTo s b p a).hostData = s.hostData := by cases p <;> rfl
@[simp] theorem jumpTo_hostBad (s : State) (b : Nat) (p : Party) (a : W64) : (jumpTo s b p a).hostBad = s.hostBad := by cases p <;> rfl
@[simp] theorem jumpTo_linkReply (s : State) (b : Nat) (p : Party) (a : W64) : (jumpTo s b p a).linkReply = s.linkReply := by cases p <;> rfl
@[simp] theorem jumpTo_linkStatus (s : State) (b : Nat) (p : Party) (a : W64) : (jumpTo s b p a).linkStatus = s.linkStatus := by cases p <;> rfl
@[simp] theorem jumpTo_pktOrder (s : State) (b : Nat) (p : Party) (a : W64) : (jumpTo s b p a).pktOrder = s.pktOrder := by cases p <;> rfl
@[simp] theorem jumpTo_agenda (s : State) (b : Nat) (p : Party) (a : W64) : (jumpTo s b p a).agenda = s.agenda := by cases p <;> rfl
@[simp] theorem jumpTo_cur (s : State) (b : Nat) (p : Party) (a : W64) : (jumpTo s b p a).cur = s.cur := by cases p <;> rfl
@[simp] theorem jumpTo_active (s : State) (b : Nat) (p : Party) (a : W64) : (jumpTo s b p a).active = s.active := by cases p <;> rfl
@[simp] theorem jumpTo_tick (s : State) (b : Nat) (p : Party) (a : W64) : (jumpTo s b p a).tick = s.tick := by cases p <;> rfl
@[simp] theorem jumpTo_nextId (s : State) (b : Nat) (p : Party) (a : W64) : (jumpTo s b p a).nextId = s.nextId := by cases p <;> rfl
/-! ### Lookups -/

theorem getBlk_id {s : State} {i : Nat} {b : Block} (h : getBlk s i = some b) : b.id = i := by
  have := List.find?_some h; simpa using this

theorem getBlk_modBlk_same {s : State} {i : Nat} {f : Block → Block} {b : Block} (h : getBlk s i = some b)
    (hf : (f b).id = b.id) : getBlk (modBlk s i f) i = some (f b) := by
  have hb := getBlk_id h
  exact find_updFirst_same h (by simp [hf, hb])

theorem getBlk_modBlk_other {s : State} {i j : Nat} {f : Block → Block} (h : j ≠ i) (hf : ∀ b, (f b).id = b.id) :
    getBlk (modBlk s i f) j = getBlk s j := by
  refine find_updFirst_other (fun y hy => ?_) (fun y hy => ?_) <;> simp_all [Ne.symm]

theorem sfind_smod {α : Type} (l : Store α) (n : Nat) (f : α → α) : sfind (smod l n f) n = (sfind l n).map f := by
  induction l with
  | nil => rfl
  | cons p t ih =>
    obtain ⟨k, w⟩ := p
    by_cases h : k = n <;> simp_all [smod, sfind]

theorem sfind_smod_ne {α : Type} (l : Store α) {n m : Nat} (f : α → α) (h : m ≠ n) : sfind (smod l n f) m = sfind l m := by
  induction l with
  | nil => rfl
  | cons p t ih =>
    obtain ⟨k, w⟩ := p
    by_cases hk : k = n
    · have : ¬ n = m := fun e => h e.symm
      simp_all [smod, sfind]
    · by_cases hm : k = m <;> simp_all [smod, sfind]

/-- The block after a change of one of its gangs. -/
theorem getBlk_modGang_same {s : State} {i g : Nat} {f : Gang → Gang} {b : Block} (h : getBlk s i = some b) :
    getBlk (modGang s i g f) i = some { b with gangs := smod b.gangs g f } :=
  getBlk_modBlk_same h rfl

theorem getBlk_modGang_other {s : State} {i j g : Nat} {f : Gang → Gang} (h : j ≠ i) :
    getBlk (modGang s i g f) j = getBlk s j := getBlk_modBlk_other h (fun _ => rfl)

/-- A gang reads as the change makes it. -/
theorem getGang_modGang_same {s : State} {i g : Nat} {f : Gang → Gang} {x : Gang} (h : getGang s i g = some x) :
    getGang (modGang s i g f) i g = some (f x) := by
  obtain ⟨b, hb, hx⟩ := Option.bind_eq_some_iff.mp h
  simp [getGang, getBlk_modGang_same hb, sfind_smod, hx]

/-- A change of a gang leaves every other gang alone. -/
theorem getGang_modGang_other {s : State} {i j g k : Nat} {f : Gang → Gang} (h : j ≠ i ∨ k ≠ g) :
    getGang (modGang s i g f) j k = getGang s j k := by
  by_cases hj : j = i
  · subst hj
    have hk : k ≠ g := by simpa using h
    unfold getGang
    cases hb : getBlk s j with
    | none =>
      have : getBlk (modGang s j g f) j = none := by
        simp only [getBlk, modGang, modBlk] at hb ⊢
        rw [List.find?_eq_none] at hb ⊢
        intro x hx
        have : ∀ (l : List Block), (∀ y ∈ l, ¬ (y.id == j) = true) → updFirst (fun b => b.id == j)
            (fun x => { x with gangs := smod x.gangs g f }) l = l := by
          intro l hl
          induction l with
          | nil => rfl
          | cons y t ih => simp [updFirst, hl y (by simp), ih (fun z hz => hl z (by simp [hz]))]
        rw [this _ hb] at hx
        exact hb x hx
      rw [this]
    | some b => rw [getBlk_modGang_same hb]; simp [sfind_smod_ne _ _ hk]
  · simp only [getGang, getBlk_modGang_other hj]

theorem getCore_modCore_same (s : State) (c : Nat) (f : Core → Core) : getCore (modCore s c f) c = f (getCore s c) :=
  sget_sset_same _ _ _ _
theorem getCore_modCore_other (s : State) {c e : Nat} (f : Core → Core) (h : e ≠ c) : getCore (modCore s c f) e = getCore s e :=
  sget_sset_ne _ _ _ h
theorem getDie_modDie_same (s : State) (c : Nat) (f : Die → Die) : getDie (modDie s c f) c = f (getDie s c) :=
  sget_sset_same _ _ _ _
theorem getDie_modDie_other (s : State) {c e : Nat} (f : Die → Die) (h : e ≠ c) : getDie (modDie s c f) e = getDie s e :=
  sget_sset_ne _ _ _ h

/-- A turn names the block and the gang that the state holds. -/
theorem turnOf_spec {s : State} {x : Turn} (h : turnOf s = some x) :
    (∃ core, s.active = some ⟨.group core x.addr [x.frag], x.len, x.insn⟩) ∧ getBlk s x.blk = some x.b
      ∧ sfind x.b.gangs x.gang = some x.g ∧ getGang s x.blk x.gang = some x.g := by
  unfold turnOf at h
  split at h
  · rename_i c a f len insn hact
    split at h
    · rename_i b hb
      obtain ⟨g, hg, rfl⟩ := Option.map_eq_some_iff.mp h
      exact ⟨⟨c, hact⟩, hb, hg, by simp [getGang, hb, hg]⟩
    · cases h
  · cases h

end Sys2Proof.Machine
end

