-- ==== Sys2Proof/Laws/Issue.lean ====
section
/-! SUPPORT. Laws/Issue.lean: one lemma for each way in which an instruction is issued, for a turn of one gang or feeder:
what the state is after it. -/

namespace Sys2Proof.Machine

open Sys2Proof

/-- What a gang keeps of an issue. -/
def noteOf (s : State) (x : Turn) (g : Gang) : Gang :=
  { g with issued := some x.addr, issuedLanes := x.mask, arrived := (lanesOf x.mask).foldl (fun r l => sset 0 r l s.tick) g.arrived,
           atSwap := (g.atSwap &&& ~~~x.mask) ||| 0,
           issuedOp := if g.issuedOp = ((getGang s x.blk x.gang).map (fun g => g.issuedOp)).getD 0 then 0 else g.issuedOp }

theorem getGang_noted {s t : State} {x : Turn} {g : Gang} (h : getGang t x.blk x.gang = some g) :
    getGang (noted s x t) x.blk x.gang = some (noteOf s x g) := getGang_modGang_same h

theorem firstLanes_zero (g : Gang) (names : List Nat) : firstLanes g names 0 = 0 := by simp [firstLanes]

/-- The threads that take part when nothing holds them. -/
theorem takes_part {wide sp : Bool} {m live held : Mask} (h : held = 0) (hw : wide = false ∨ m = live) (hs : (wide && sp) = false) :
    (if wide = true then (if m = live ∧ held = 0 ∧ (!sp) = true then m else 0) else m &&& ~~~held) = m := by
  subst h
  by_cases hd : wide = true
  · simp_all
  · rw [if_neg hd]; ext i hi; simp; intro; exact BitVec.getElem_allOnes i hi

/-- A part that is alone in its issue group and leaves nothing to do after it. -/
theorem runShared_none (s : State) (f : Frag) : runShared s [f] {} = s := rfl

/-- A lane instruction of a turn that is ready. -/
theorem runLane_ready {s : State} {x : Turn} {d : LaneDesc} (hx : turnOf s = some x) (hr : laneReady x d = true) :
    runLane s d = noted s x (modGang s x.blk x.gang (fun _ =>
      advance (applyLane x.b x.gang d (x.ready d) x.mask (x.on d.guard) (x.ready d)) x.mask x.addr x.len)) := by
  obtain ⟨⟨core, hact⟩, hb, -, hg⟩ := turnOf_spec hx
  simp only [laneReady, Bool.and_eq_true, bne_iff_ne, ne_eq, beq_iff_eq, Bool.not_eq_true', Bool.or_eq_true,
    Option.isNone_iff_eq_none] at hr
  obtain ⟨⟨⟨⟨⟨⟨⟨⟨⟨hm, hst⟩, hw⟩, hov⟩, hl⟩, hp⟩, hbad⟩, hhold⟩, hsp⟩, hpriv⟩ := hr
  have hprep : prepLane x.g x.mask d.guard d.srcs d.dst.names false = .ok (x.ready d, x.on d.guard) := by
    simp only [prepLane, Turn.ready, Turn.on, LaneDesc.names, LaneDesc.latches] at hov hl hp ⊢
    simp [unmarked] at hov hl hp ⊢
    simp [hov, hl, hp]
  have hmask := takes_part (wide := d.wide) hst hw hsp
  simp only [runLane, hact, List.foldl_cons, List.foldl_nil, laneFrag, Turn.frag, hb, hg, hmask, hhold, Bool.false_eq_true, if_false]
  simp only [hst, firstLanes_zero, hm, if_false, laneBody, hpriv, hprep, hbad, noted, Turn.frag]

/-- A gang-issued instruction of a turn that is ready. -/
theorem runGang_ready {s : State} {x : Turn} {d : GangDesc} {body : State → Iss → GRes} (hx : turnOf s = some x)
    (hr : gangReady s x d = true) :
    runGang s d body = match body (gangSees s x d) x.iss with
      | .done t => noted s x (stepped x t)
      | .placed t => noted s x t
      | .wait t w => noted s x (setWait t x.blk (.gang x.gang) w x.len)
      | .stall => marked s x.frag x.addr x.mask 0 none
      | .fault e => noted s x (raiseGang s x.blk x.gang 0 x.addr x.len x.insn (if e.lanes = 0 then x.g.live else e.lanes) e) := by
  obtain ⟨⟨core, hact⟩, hb, -, hg⟩ := turnOf_spec hx
  simp only [gangReady, Bool.and_eq_true, bne_iff_ne, ne_eq, beq_iff_eq, Bool.not_eq_true'] at hr
  obtain ⟨⟨⟨⟨⟨⟨⟨⟨⟨⟨hm, hl⟩, hst⟩, hf⟩, hov⟩, hon⟩, hp⟩, hacq⟩, hrel⟩, hsp⟩, hearly⟩ := hr
  have hat : clearLatches (clearFirst x.g d.names (firstLanes x.g d.names x.g.live))
      (if (d.swap && true) = true then x.g.live else firstLanes x.g d.names x.g.live) = x.gangAt d := by
    unfold Turn.gangAt unmarked
    cases hs : d.swap
    · simp
    · have : firstLanes x.g d.names x.g.live ||| x.g.live = x.g.live := by
        simp only [firstLanes]; ext i; simp
      simp [this]
  have hearly' : d.early s { blk := x.blk, party := .gang x.gang, addr := x.addr, len := x.len, insn := x.insn } = none :=
    Option.isNone_iff_eq_none.mp hearly
  simp only [runGang, hact, List.foldl_cons, List.foldl_nil, gangFrag, Turn.frag, hg, hl, hst, firstLanes_zero, ne_eq, not_true,
    false_or, if_false, hsp, Bool.false_eq_true, gangBody, hf, hearly', hov, hon, Bool.not_true]
  simp only [hat, hp, hacq, hrel, Bool.or_self, Bool.false_eq_true, if_false, not_true]
  simp only [gangSees, noted, stepped, Turn.iss, Turn.frag, hl]
  split <;> simp_all

/-- A feeder's instruction. -/
theorem runGang_feeder {s : State} {x : FTurn} {d : GangDesc} {body : State → Iss → GRes} (hx : fturnOf s = some x)
    (hr : feederCan s x d = true) :
    runGang s d body = match body (feederSees s x) x.iss with
      | .done t => fstepped x t
      | .placed t => t
      | .wait t w => setWait t x.blk .feeder w x.len
      | .stall => s
      | .fault e => raiseFeeder s x.blk 0 x.addr x.insn e := by
  unfold fturnOf at hx
  split at hx
  · rename_i blk a len insn hact
    split at hx
    · rename_i b hb
      obtain ⟨f, hf, rfl⟩ := Option.map_eq_some_iff.mp hx
      simp only [feederCan, Bool.and_eq_true, Bool.not_eq_true'] at hr
      obtain ⟨⟨⟨hok, hearly⟩, hon⟩, hbad⟩ := hr
      have hearly' : d.early s { blk := blk, party := .feeder, addr := a, len := len, insn := insn } = none :=
        Option.isNone_iff_eq_none.mp hearly
      simp only [runGang, hact, feederPart, hb, Option.bind_some, hf, hok, hearly', hon, hbad, Bool.not_true, Bool.false_eq_true, if_false,
        feederSees, fstepped, FTurn.iss, FTurn.next]
      all_goals (split <;> simp_all)
    · cases hx
  · cases hx

/-- A per-thread instruction with effects outside its gang, of a turn that is ready. -/
theorem runMem_ready {s : State} {x : Turn} {d : MemDesc} {body : State → Block → Nat → Gang → Mask → MRes}
    (hx : turnOf s = some x) (hr : memReady s x d = true) :
    runMem s d body = match body (memState s x d) x.b x.gang (x.memSees d) (x.on d.guard) with
      | .ok t sh => runShared (noted s x (went x x.mask t)) [x.frag] sh
      | .placed t => noted s x (went x (x.mask &&& ~~~(x.on d.guard)) t)
      | .hold => marked s x.frag x.addr x.mask 0 none
      | .fault e => noted s x (raiseGang s x.blk x.gang 0 x.addr x.len x.insn (if e.lanes = 0 then x.mask else e.lanes) e) := by
  obtain ⟨⟨core, hact⟩, hb, -, hg⟩ := turnOf_spec hx
  simp only [memReady, Bool.and_eq_true, bne_iff_ne, ne_eq, beq_iff_eq, Bool.not_eq_true', Bool.or_eq_true] at hr
  obtain ⟨⟨⟨⟨⟨⟨⟨⟨⟨hon, hst⟩, hw⟩, hfull⟩, hov⟩, hl⟩, hp⟩, hwait⟩, hsp⟩, hearly⟩ := hr
  have hearly' : d.early s { blk := x.blk, party := .gang x.gang, addr := x.addr, len := x.len, insn := x.insn } x.mask = none :=
    Option.isNone_iff_eq_none.mp hearly
  have hst1 : stalledLanes x.g d.names d.latches x.mask = 0 := by
    have h := hst; ext i hi; have := congrArg (fun m => m.getLsbD i) h; simp at this ⊢; exact this.1
  have hm : x.mask ≠ 0 := by
    intro h; apply hon; simp [Turn.on, guardMask, h]
  have hprep : prepLane x.g x.mask d.guard d.srcs d.dstNames d.swap = .ok (x.memAt d, x.on d.guard) := by
    have hsw : (if d.swap = true then firstLanes x.g d.names x.mask ||| x.on d.guard else firstLanes x.g d.names x.mask)
        = firstLanes x.g d.names x.mask ||| (if d.swap = true then x.on d.guard else 0) := by split <;> simp
    simp only [prepLane, Turn.memAt, Turn.on, MemDesc.names, MemDesc.latches, unmarked] at hov hl hp hsw ⊢
    rw [hsw]
    simp [hov] at hl hp ⊢
    simp [hl, hp]
  have hmask := takes_part (wide := d.wide) hst hw hsp
  simp only [runMem, hact, runFrags, List.foldl_cons, List.foldl_nil, memFrag, Turn.frag, hb, hg]
  simp only [hfull, Bool.false_eq_true, if_false, hmask]
  simp only [hst1, firstLanes_zero, hm, if_false, memBody, hearly', hprep, hwait, Bool.false_eq_true, hon, List.nil_append]
  simp only [noted, went, Turn.frag, memState, Turn.memSees]
  split <;> rename_i h <;> (try rw [h]) <;> rfl

end Sys2Proof.Machine
end

