-- ==== Sys2Proof/Laws/Lane.lean ====
section
/-! SUPPORT. Laws/Lane.lean: what a lane instruction writes and where: its destination in each guard-true lane, L0, the
thread addresses, and nothing in another lane. -/

namespace Sys2Proof.Machine

open Sys2Proof

theorem mem_lanesOf {m : Mask} {l : Nat} : l ∈ lanesOf m ↔ l < 64 ∧ m.getLsbD l = true := by
  simp [lanesOf, bitsOf]

theorem lt_of_mem_lanesOf {m : Mask} {l : Nat} (h : l ∈ lanesOf m) : l < 64 := (mem_lanesOf.mp h).1

theorem reg_ne_lane {i j l k : Nat} (hl : l < 64) (hk : k < 64) (h : l ≠ k) : reg i l ≠ reg j k := by
  simp only [reg]; omega

/-! ### Consecutive registers -/

theorem sget_putRegs_below (s : Store W32) {l i j x : Nat} (n : Nat) (h : j < i) :
    sget 0 (putRegs s l i x n) (reg j l) = sget 0 s (reg j l) := by
  induction n generalizing s i x with
  | zero => rfl
  | succ n ih =>
    rw [putRegs, ih _ (by omega), sget_sset_ne]
    simp only [reg]; omega

theorem sget_putRegs_lane (s : Store W32) {l k i j x : Nat} (n : Nat) (hl : l < 64) (hk : k < 64) (h : k ≠ l) :
    sget 0 (putRegs s l i x n) (reg j k) = sget 0 s (reg j k) := by
  induction n generalizing s i x with
  | zero => rfl
  | succ n ih => rw [putRegs, ih, sget_sset_ne _ _ _ (reg_ne_lane hk hl h)]

/-- Registers read as the number written to them. -/
theorem regsNat_putRegs (s : Store W32) (l i x n : Nat) :
    regsNat (putRegs s l i x n) l i n = x % 2 ^ (32 * n) := by
  induction n generalizing s i x with
  | zero => simp [regsNat, Nat.mod_one]
  | succ n ih =>
    rw [putRegs, regsNat, ih, sget_putRegs_below _ _ (Nat.lt_succ_self i), sget_sset_same, BitVec.toNat_ofNat,
      show 32 * (n + 1) = 32 + 32 * n by omega, Nat.pow_add, Nat.mod_mul]

theorem regsNat_congr {s t : Store W32} {l i : Nat} (n : Nat) (h : ∀ j, sget 0 s (reg j l) = sget 0 t (reg j l)) :
    regsNat s l i n = regsNat t l i n := by
  induction n generalizing i with
  | zero => rfl
  | succ n ih => rw [regsNat, regsNat, h, ih]

theorem regsNat_putRegs_lane (s : Store W32) {l k : Nat} (i x n j m : Nat) (hl : l < 64) (hk : k < 64) (h : k ≠ l) :
    regsNat (putRegs s l i x n) k j m = regsNat s k j m :=
  regsNat_congr m (fun _ => sget_putRegs_lane s n hl hk h)

/-! ### The push of R45 -/

theorem setLane_other (s : Store Mask) (i j : Nat) {l k : Nat} (b : Bool) (hk : k < 64) (h : k ≠ l) :
    (sget 0 (setLane s i l b) j).getLsbD k = (sget 0 s j).getLsbD k := by
  have hb : (laneBit l).getLsbD k = false := by
    simp only [laneBit, BitVec.getLsbD_ofNat, Nat.testBit_two_pow, Bool.and_eq_false_iff]; right; simp; omega
  unfold setLane
  rw [sget_sset]
  split
  · subst_vars; split <;> simp only [BitVec.getLsbD_or, BitVec.getLsbD_and, BitVec.getLsbD_not, hb, hk, Bool.or_false,
      decide_true, Bool.not_false, Bool.and_true]
  · rfl

theorem setLane_same (s : Store Mask) (i l : Nat) (b : Bool) (hl : l < 64) : (sget 0 (setLane s i l b) i).getLsbD l = b := by
  have hb : (laneBit l).getLsbD l = true := by
    simp only [laneBit, BitVec.getLsbD_ofNat, Nat.testBit_two_pow_self, hl, decide_true, Bool.and_true]
  unfold setLane
  rw [sget_sset_same]
  cases b <;> simp [hb, hl]

theorem pushLatch_lat (g : Gang) {l : Nat} (x : W64) (v : Bool) (op : Nat) (bad : List Nat) : sget 0 (pushLatch g l x v op bad).lat (reg 0 l) = x := by
  simp [pushLatch]

theorem pushLatch_valid (g : Gang) {l : Nat} (x : W64) (v : Bool) (op : Nat) (bad : List Nat) (hl : l < 64) :
    (sget 0 (pushLatch g l x v op bad).latValid 0).getLsbD l = v := by
  simp only [pushLatch]; exact setLane_same _ _ _ _ hl

theorem pushLatch_lat_lane (g : Gang) {l k : Nat} (x : W64) (v : Bool) (op j : Nat) (bad : List Nat) (hl : l < 64) (hk : k < 64) (h : k ≠ l) :
    sget 0 (pushLatch g l x v op bad).lat (reg j k) = sget 0 g.lat (reg j k) := by
  simp only [pushLatch]
  rw [sget_sset_ne _ _ _ (reg_ne_lane hk hl h), sget_sset_ne _ _ _ (reg_ne_lane hk hl h), sget_sset_ne _ _ _ (reg_ne_lane hk hl h),
    sget_sset_ne _ _ _ (reg_ne_lane hk hl h)]

theorem pushLatch_valid_lane (g : Gang) {l k : Nat} (x : W64) (v : Bool) (op j : Nat) (bad : List Nat) (hk : k < 64) (h : k ≠ l) :
    (sget 0 (pushLatch g l x v op bad).latValid j).getLsbD k = (sget 0 g.latValid j).getLsbD k := by
  simp only [pushLatch]
  rw [setLane_other _ _ _ _ hk h, setLane_other _ _ _ _ hk h, setLane_other _ _ _ _ hk h, setLane_other _ _ _ _ hk h]

@[simp] theorem pushLatch_v (g : Gang) (l : Nat) (x : W64) (b : Bool) (op : Nat) (bad : List Nat) : (pushLatch g l x b op bad).v = g.v := rfl
@[simp] theorem pushLatch_o (g : Gang) (l : Nat) (x : W64) (b : Bool) (op : Nat) (bad : List Nat) : (pushLatch g l x b op bad).o = g.o := rfl
@[simp] theorem pushLatch_p (g : Gang) (l : Nat) (x : W64) (b : Bool) (op : Nat) (bad : List Nat) : (pushLatch g l x b op bad).p = g.p := rfl

/-! ### What a lane has received -/

/-- What `received` looks at: one lane's registers, latches and predicates. -/
structure SameLane (a b : Gang) (k : Nat) : Prop where
  v : ∀ j, sget 0 a.v (reg j k) = sget 0 b.v (reg j k)
  o : ∀ j, sget 0 a.o (reg j k) = sget 0 b.o (reg j k)
  lat : ∀ j, sget 0 a.lat (reg j k) = sget 0 b.lat (reg j k)
  valid : ∀ j, (sget 0 a.latValid j).getLsbD k = (sget 0 b.latValid j).getLsbD k
  p : ∀ j, (sget 0 a.p j).getLsbD k = (sget 0 b.p j).getLsbD k

theorem SameLane.refl (a : Gang) (k : Nat) : SameLane a a k := ⟨fun _ => rfl, fun _ => rfl, fun _ => rfl, fun _ => rfl, fun _ => rfl⟩

theorem SameLane.trans {a b c : Gang} {k : Nat} (h : SameLane a b k) (h' : SameLane b c k) : SameLane a c k :=
  ⟨fun j => (h.v j).trans (h'.v j), fun j => (h.o j).trans (h'.o j), fun j => (h.lat j).trans (h'.lat j),
   fun j => (h.valid j).trans (h'.valid j), fun j => (h.p j).trans (h'.p j)⟩

theorem received_congr {a b : Gang} {k : Nat} (h : SameLane a b k) (d : LDst) (x : Nat) : received a k d x ↔ received b k d x := by
  cases d with
  | lane d n =>
    have hv := fun i => regsNat_congr (i := i) n h.v
    have ho := fun i => regsNat_congr (i := i) n h.o
    cases d <;> simp only [received, dstOld, hv, ho, h.lat 0, h.valid 0]
  | pred p => simp only [received, predBit, h.p p.toNat]
  | none => exact Iff.rfl

theorem writeDst_other (g : Gang) {l k : Nat} (n x : Nat) (d : Dst) (hl : l < 64) (hk : k < 64) (h : k ≠ l) :
    SameLane (writeDst g l n x d) g k := by
  cases d with
  | v i => exact ⟨fun j => sget_putRegs_lane _ _ hl hk h, fun _ => rfl, fun _ => rfl, fun _ => rfl, fun _ => rfl⟩
  | o i => exact ⟨fun _ => rfl, fun j => sget_putRegs_lane _ _ hl hk h, fun _ => rfl, fun _ => rfl, fun _ => rfl⟩
  | none => exact SameLane.refl _ _

theorem pushLatch_other (g : Gang) {l k : Nat} (x : W64) (b : Bool) (op : Nat) (bad : List Nat) (hl : l < 64) (hk : k < 64) (h : k ≠ l) :
    SameLane (pushLatch g l x b op bad) g k :=
  ⟨fun _ => rfl, fun _ => rfl, fun j => pushLatch_lat_lane g x b op j bad hl hk h, fun j => pushLatch_valid_lane g x b op j bad hk h,
   fun _ => rfl⟩

theorem pushFalse_other (g : Gang) {l k : Nat} (d : Dst) (n : Nat) (hl : l < 64) (hk : k < 64) (h : k ≠ l) :
    SameLane (pushFalse g l d n) g k := by
  cases d <;> exact pushLatch_other _ _ _ _ _ hl hk h

theorem addDraws_same (g : Gang) (l n k : Nat) : SameLane (addDraws g l n) g k := by
  unfold addDraws; split
  · exact SameLane.refl _ _
  · exact ⟨fun _ => rfl, fun _ => rfl, fun _ => rfl, fun _ => rfl, fun _ => rfl⟩

theorem raiseFlags_same (g : Gang) (f : Flags) (k : Nat) : SameLane (raiseFlags g f) g k :=
  ⟨fun _ => rfl, fun _ => rfl, fun _ => rfl, fun _ => rfl, fun _ => rfl⟩

theorem unmarkBad_same (g : Gang) (names : List Nat) (m : Mask) (k : Nat) : SameLane (unmarkBad g names m) g k := by
  unfold unmarkBad; split
  · exact SameLane.refl _ _
  · exact ⟨fun _ => rfl, fun _ => rfl, fun _ => rfl, fun _ => rfl, fun _ => rfl⟩

/-- One thread's write touches no other lane. -/
theorem commitLane_other (acc : Gang) {l k : Nat} (gt : Bool) (d : LDst) (o : LOut) (hl : l < 64) (hk : k < 64) (h : k ≠ l) :
    SameLane (commitLane acc l gt d o) acc k := by
  cases d with
  | lane d n =>
    cases gt
    · exact pushFalse_other _ _ _ hl hk h
    · exact ((raiseFlags_same _ _ _).trans (addDraws_same _ _ _ _)).trans
        ((pushLatch_other _ _ _ _ _ hl hk h).trans (writeDst_other _ _ _ _ hl hk h))
  | pred p =>
    cases gt
    · exact SameLane.refl _ _
    · refine ((raiseFlags_same _ _ _).trans (addDraws_same _ _ _ _)).trans ?_
      unfold writePred; split
      · exact SameLane.refl _ _
      · exact ⟨fun _ => rfl, fun _ => rfl, fun _ => rfl, fun _ => rfl, fun j => setLane_other _ _ _ _ hk h⟩
  | none =>
    cases gt
    · exact SameLane.refl _ _
    · exact (raiseFlags_same _ _ _).trans (addDraws_same _ _ _ _)

/-- A guard-true thread receives its result. -/
theorem commitLane_received (acc : Gang) {l : Nat} (d : LDst) (o : LOut) (hl : l < 64) :
    received (commitLane acc l true d o) l d o.val := by
  cases d with
  | lane d n =>
    simp only [commitLane]
    rw [received_congr (raiseFlags_same _ _ _), received_congr (addDraws_same _ _ _ _)]
    refine ⟨?_, pushLatch_lat _ _ _ _ _, pushLatch_valid _ _ _ _ _ hl⟩
    cases d with
    | v i => exact regsNat_putRegs _ _ _ _ _
    | o i => exact regsNat_putRegs _ _ _ _ _
    | none => trivial
  | pred p =>
    simp only [commitLane]
    rw [received_congr (raiseFlags_same _ _ _), received_congr (addDraws_same _ _ _ _)]
    simp only [received]
    by_cases hp : p = 7
    · exact .inl hp
    · right
      have h7 : p.toNat ≠ 7 := fun e => hp (BitVec.eq_of_toNat_eq (by simpa using e))
      simp only [writePred, if_neg hp, predBit, if_neg h7]
      exact setLane_same _ _ _ _ hl
  | none => trivial

/-- Lanes that a list of threads does not name stay as they are. -/
theorem foldLane_other (f : Gang → Nat → Gang) (ls : List Nat) (acc : Gang) {k : Nat}
    (hf : ∀ acc l, l ∈ ls → l ≠ k → SameLane (f acc l) acc k) (hk : k ∉ ls) : SameLane (ls.foldl f acc) acc k := by
  induction ls generalizing acc with
  | nil => exact SameLane.refl _ _
  | cons a t ih =>
    exact (ih (f acc a) (fun acc l hl => hf acc l (by simp [hl])) (fun h => hk (by simp [h]))).trans
      (hf acc a (by simp) (fun e => hk (by simp [e])))

theorem foldLane_received (f : Gang → Nat → Gang) (ls : List Nat) (acc : Gang) {k : Nat} {d : LDst} {v : Nat}
    (hf : ∀ acc l, l ∈ ls → l ≠ k → SameLane (f acc l) acc k) (hr : ∀ acc, received (f acc k) k d v) (hk : k ∈ ls) :
    received (ls.foldl f acc) k d v := by
  induction ls generalizing acc with
  | nil => cases hk
  | cons a t ih =>
    by_cases ht : k ∈ t
    · exact ih _ (fun acc l hl => hf acc l (by simp [hl])) ht
    · have ha : k = a := by simpa [ht] using hk
      subst ha
      rw [List.foldl_cons, received_congr (foldLane_other f t _ (fun acc l hl => hf acc l (by simp [hl])) ht)]
      exact hr acc

/-- Every guard-true thread of a lane instruction receives what it computes. -/
theorem applyLane_received (b : Block) (gi : Nat) (d : LaneDesc) (g0 : Gang) {m gt : Mask} (acc : Gang) (hc : d.custom = none)
    {l : Nat} (hl : l < 64) (hm : m.getLsbD l = true) (hg : gt.getLsbD l = true) :
    received (applyLane b gi d g0 m gt acc) l d.dst (d.eval b gi g0 gt l).val := by
  simp only [applyLane, hc]
  rw [received_congr (unmarkBad_same _ _ _ _)]
  refine foldLane_received _ _ _ (fun acc k hk hne => commitLane_other _ _ _ _ (lt_of_mem_lanesOf hk) hl (Ne.symm hne)) (fun acc => ?_)
    (mem_lanesOf.mpr ⟨hl, hm⟩)
  simp only [hg, if_true]
  exact commitLane_received acc _ _ hl

/-- Threads that take part stand at the next address. -/
theorem advance_pc (g : Gang) {m : Mask} (addr : W64) (len : Nat) {l : Nat} (hl : l < 64) (hm : m.getLsbD l = true) :
    sget 0 (advance g m addr len).pc l = addr + BitVec.ofNat 64 len := by
  have : ∀ (ls : List Nat) (s : Store W64), l ∈ ls →
      sget 0 (ls.foldl (fun s l => sset 0 s l (addr + BitVec.ofNat 64 len)) s) l = addr + BitVec.ofNat 64 len := by
    intro ls
    induction ls with
    | nil => intro s h; cases h
    | cons a t ih =>
      intro s h
      by_cases ht : l ∈ t
      · exact ih _ ht
      · have ha : l = a := by simpa [ht] using h
        subst ha
        have hk : ∀ (t : List Nat) (s : Store W64), l ∉ t →
            sget 0 (t.foldl (fun s l => sset 0 s l (addr + BitVec.ofNat 64 len)) s) l = sget 0 s l := by
          intro t
          induction t with
          | nil => intro s _; rfl
          | cons c u ih => intro s hn; rw [List.foldl_cons, ih _ (fun h => hn (by simp [h])), sget_sset_ne]; intro e; exact hn (by simp [e])
        rw [List.foldl_cons, hk t _ ht, sget_sset_same]
  exact this _ _ (mem_lanesOf.mpr ⟨hl, hm⟩)

/-- A lane instruction that writes one result per guard-true thread: a turn that is ready runs it. -/
theorem lane_gives {i : Instr} {d : LaneDesc} {val : Turn → Nat → Nat} (he : ∀ s, exec i s = .next (runLane s d))
    (hc : d.custom = none) (hv : i.wf = true → ∀ (x : Turn) (l : Nat), l < 64 → (x.on d.guard).getLsbD l = true →
      (d.eval x.b x.gang (x.ready d) (x.on d.guard) l).val = val x l) : LaneGives i d val := by
  intro hwf s x hx hr
  obtain ⟨-, -, -, hg⟩ := turnOf_spec hx
  have hgang := getGang_noted (s := s) (getGang_modGang_same (f := fun _ =>
    advance (applyLane x.b x.gang d (x.ready d) x.mask (x.on d.guard) (x.ready d)) x.mask x.addr x.len) hg)
  rw [← runLane_ready hx hr] at hgang
  refine ⟨_, _, he s, hgang, ?_, ?_⟩
  · intro l hl hon
    have hm : x.mask.getLsbD l = true := by
      have := hon; simp only [Turn.on, guardMask, BitVec.getLsbD_and, Bool.and_eq_true] at this; exact this.2
    have := applyLane_received x.b x.gang d (x.ready d) (x.ready d) hc hl hm hon
    rw [hv hwf x l hl hon] at this
    exact (received_congr ⟨fun _ => rfl, fun _ => rfl, fun _ => rfl, fun _ => rfl, fun _ => rfl⟩ _ _).mpr this
  · intro l hl hm
    exact advance_pc _ _ _ hl hm

/-! ### Flags -/

theorem addDraws_fstat (g : Gang) (l n : Nat) : (addDraws g l n).fstat = g.fstat := by
  unfold addDraws; split <;> rfl

/-- A guard-true thread adds its flags, a guard-false one adds none. -/
theorem commitLane_fstat (acc : Gang) (l : Nat) (gt : Bool) (d : LDst) (o : LOut) :
    (commitLane acc l gt d o).fstat = if gt then acc.fstat ||| o.flags else acc.fstat := by
  cases d with
  | lane d n =>
    cases gt
    · cases d <;> rfl
    · have hw : (writePush acc l d n o.val).fstat = acc.fstat := by cases d <;> rfl
      simp only [commitLane, raiseFlags, addDraws_fstat, hw, if_true]
  | pred p =>
    cases gt
    · rfl
    · have hw : (writePred acc l p (o.val != 0)).fstat = acc.fstat := by unfold writePred; split <;> rfl
      simp only [commitLane, raiseFlags, addDraws_fstat, hw, if_true]
  | none =>
    cases gt
    · rfl
    · simp only [commitLane, raiseFlags, addDraws_fstat, if_true]

/-- The flags of a lane instruction: those of its guard-true threads, in ascending order. -/
theorem applyLane_fstat (b : Block) (gi : Nat) (d : LaneDesc) (g0 : Gang) (m gt : Mask) (acc : Gang) (hc : d.custom = none)
    (hm : gt &&& m = gt) :
    (applyLane b gi d g0 m gt acc).fstat = (lanesOf gt).foldl (fun a l => a ||| (d.eval b gi g0 gt l).flags) acc.fstat := by
  have hu : ∀ g : Gang, (unmarkBad g d.dst.names gt).fstat = g.fstat := by intro g; unfold unmarkBad; split <;> rfl
  have hl : lanesOf gt = (lanesOf m).filter (fun l => gt.getLsbD l) := by
    simp only [lanesOf, bitsOf, List.filter_filter]
    apply List.filter_congr
    intro l _
    have := congrArg (fun x => x.getLsbD l) hm
    simp only [BitVec.getLsbD_and] at this
    revert this; cases gt.getLsbD l <;> cases m.getLsbD l <;> simp
  simp only [applyLane, hc, hu, hl]
  generalize lanesOf m = ls
  induction ls generalizing acc with
  | nil => rfl
  | cons x t ih =>
    rw [List.foldl_cons, ih, commitLane_fstat, List.filter_cons]
    split <;> simp_all

/-- The flags that a ready lane instruction raises are those of its guard-true threads. -/
theorem lane_flags {i : Instr} {d : LaneDesc} {fl : Turn → Nat → Flags} (he : ∀ s, exec i s = .next (runLane s d))
    (hc : d.custom = none) (hv : i.wf = true → ∀ (x : Turn) (l : Nat), l < 64 → (x.on d.guard).getLsbD l = true →
      (d.eval x.b x.gang (x.ready d) (x.on d.guard) l).flags = fl x l) : LaneFlags i d fl := by
  intro hwf s x hx hr
  obtain ⟨-, -, -, hg⟩ := turnOf_spec hx
  have hgang := getGang_noted (s := s) (getGang_modGang_same (f := fun _ =>
    advance (applyLane x.b x.gang d (x.ready d) x.mask (x.on d.guard) (x.ready d)) x.mask x.addr x.len) hg)
  rw [← runLane_ready hx hr] at hgang
  refine ⟨_, _, he s, hgang, ?_⟩
  show (applyLane x.b x.gang d (x.ready d) x.mask (x.on d.guard) (x.ready d)).fstat = _
  have hm : x.on d.guard &&& x.mask = x.on d.guard := by
    simp only [Turn.on, guardMask]; ext i; simp
  rw [applyLane_fstat _ _ _ _ _ _ _ hc hm]
  have h0 : (x.ready d).fstat = x.g.fstat := by
    simp only [Turn.ready, unmarked, clearLatches, clearFirst]; repeat' split
    all_goals rfl
  rw [h0]
  have : ∀ (ls : List Nat) (a : Flags), (∀ l ∈ ls, l < 64 ∧ (x.on d.guard).getLsbD l = true) →
      ls.foldl (fun a l => a ||| (d.eval x.b x.gang (x.ready d) (x.on d.guard) l).flags) a = ls.foldl (fun a l => a ||| fl x l) a := by
    intro ls
    induction ls with
    | nil => intros; rfl
    | cons y t ih =>
      intro a hls
      rw [List.foldl_cons, List.foldl_cons, hv hwf x y (hls y (by simp)).1 (hls y (by simp)).2, ih _ (fun l hl => hls l (by simp [hl]))]
  exact this _ _ (fun l hl => mem_lanesOf.mp hl)

end Sys2Proof.Machine
end

