-- ==== Sys2Proof/Laws/Memory.lean ====
section
/-! SUPPORT. Laws/Memory.lean: every operation on memory keeps the canonical form of its stores (State.Inv), what does not
touch them keeps it for nothing, and what a write of local memory leaves at each byte. -/

namespace Sys2Proof.Machine

open Sys2Proof

/-! ### The invariant and what does not touch it -/

/-- The five stores of memory are those of another state. -/
def SameMemory (s t : State) : Prop :=
  t.mem = s.mem ∧ t.hostMem = s.hostMem ∧ t.peerMem = s.peerMem ∧ t.sectorKey = s.sectorKey ∧ t.l2 = s.l2

theorem SameMemory.refl (s : State) : SameMemory s s := ⟨rfl, rfl, rfl, rfl, rfl⟩

theorem SameMemory.trans {s t u : State} (h : SameMemory s t) (k : SameMemory t u) : SameMemory s u :=
  ⟨k.1.trans h.1, k.2.1.trans h.2.1, k.2.2.1.trans h.2.2.1, k.2.2.2.1.trans h.2.2.2.1, k.2.2.2.2.trans h.2.2.2.2⟩

theorem SameMemory.inv {s t : State} (h : SameMemory s t) (hs : s.Inv) : t.Inv := by
  obtain ⟨h1, h2, h3, h4, h5⟩ := h
  exact ⟨h1 ▸ hs.mem, h2 ▸ hs.hostMem, h3 ▸ hs.peerMem, h4 ▸ hs.sectorKey, h5 ▸ hs.l2⟩

theorem same_modBlk (s : State) (i : Nat) (f : Block → Block) : SameMemory s (modBlk s i f) := ⟨rfl, rfl, rfl, rfl, rfl⟩
theorem same_modGang (s : State) (b g : Nat) (f : Gang → Gang) : SameMemory s (modGang s b g f) := ⟨rfl, rfl, rfl, rfl, rfl⟩
theorem same_modFeeder (s : State) (b : Nat) (f : Feeder → Feeder) : SameMemory s (modFeeder s b f) := ⟨rfl, rfl, rfl, rfl, rfl⟩
theorem same_modCtx (s : State) (i : Nat) (f : Ctx → Ctx) : SameMemory s (modCtx s i f) := ⟨rfl, rfl, rfl, rfl, rfl⟩
theorem same_modGrid (s : State) (i : Nat) (f : Grid → Grid) : SameMemory s (modGrid s i f) := ⟨rfl, rfl, rfl, rfl, rfl⟩
theorem same_modFork (s : State) (i : Nat) (f : Fork → Fork) : SameMemory s (modFork s i f) := ⟨rfl, rfl, rfl, rfl, rfl⟩
theorem same_modRq (s : State) (i : Nat) (f : RecQueue → RecQueue) : SameMemory s (modRq s i f) := ⟨rfl, rfl, rfl, rfl, rfl⟩
theorem same_modCore (s : State) (i : Nat) (f : Core → Core) : SameMemory s (modCore s i f) := ⟨rfl, rfl, rfl, rfl, rfl⟩
theorem same_modDie (s : State) (i : Nat) (f : Die → Die) : SameMemory s (modDie s i f) := ⟨rfl, rfl, rfl, rfl, rfl⟩
theorem same_modQueue (s : State) (i : Nat) (f : Queue → Queue) : SameMemory s (modQueue s i f) := ⟨rfl, rfl, rfl, rfl, rfl⟩
theorem same_modVer (s : State) (f c g : Nat) (h : Version → Version) : SameMemory s (modVer s f c g h) := ⟨rfl, rfl, rfl, rfl, rfl⟩
theorem same_notifyWrite (s : State) (v : View) (l : Loc) : SameMemory s (notifyWrite s v l) := ⟨rfl, rfl, rfl, rfl, rfl⟩
theorem same_setBad (s : State) (x : Nat) (b : Bool) : SameMemory s (setBad s x b) := by
  unfold setBad; split
  · split <;> exact ⟨rfl, rfl, rfl, rfl, rfl⟩
  · exact ⟨rfl, rfl, rfl, rfl, rfl⟩
theorem same_makeVersion (s : State) (m g f c : Nat) (v : View) : SameMemory s (makeVersion s m g f c v) := by
  unfold makeVersion; split
  · exact SameMemory.refl s
  · split
    · exact SameMemory.refl s
    · exact same_modFork ..
theorem same_setWait (s : State) (b : Nat) (p : Party) (w : Wait) (n : Nat) : SameMemory s (setWait s b p w n) := by
  cases p <;> exact ⟨rfl, rfl, rfl, rfl, rfl⟩
theorem same_setK (s : State) (b : Nat) (p : Party) (k : BitVec 6) (v : W64) : SameMemory s (setK s b p k v) := by
  cases p <;> exact ⟨rfl, rfl, rfl, rfl, rfl⟩
theorem same_jumpTo (s : State) (b : Nat) (p : Party) (a : W64) : SameMemory s (jumpTo s b p a) := by
  cases p <;> exact ⟨rfl, rfl, rfl, rfl, rfl⟩

/-- A fold of steps that keep the invariant keeps it. -/
theorem inv_foldl {α : Type} {f : State → α → State} (hf : ∀ s a, s.Inv → (f s a).Inv) (l : List α) {s : State} (hs : s.Inv) :
    (l.foldl f s).Inv := by
  induction l generalizing s with
  | nil => exact hs
  | cons a t ih => exact ih (hf s a hs)

/-! ### Operations on memory -/

/-- Memory after reset lists nothing, which is the canonical form. -/
theorem reset_mem_wf : Memory.wf State.reset.mem := by decide

theorem inv_putSector {s : State} (sec m : Nat) (v : BitVec 256) (hs : s.Inv) : (putSector s sec m v).Inv :=
  ⟨swf_ssetMany _ hs.mem, hs.hostMem, hs.peerMem, swf_sset _ _ hs.sectorKey, hs.l2⟩

theorem inv_rekeySector {s : State} (m sec : Nat) (hs : s.Inv) : (rekeySector m s sec).Inv := by
  unfold rekeySector; split
  · exact hs
  · exact inv_putSector _ _ _ hs

theorem inv_hbmWrite {s : State} (m pa : Nat) (bs : List Byte) (hs : s.Inv) : (hbmWrite s m pa bs).Inv := by
  have h : ((sectorsOf pa bs.length).foldl (rekeySector m) s).Inv := inv_foldl (fun _ _ h => inv_rekeySector _ _ h) _ hs
  exact ⟨swf_ssetMany _ h.mem, h.hostMem, h.peerMem, h.sectorKey, h.l2⟩

theorem inv_devWrite {s : State} (pa : Nat) (bs : List Byte) (hs : s.Inv) : (devWrite s pa bs).Inv := inv_hbmWrite _ _ _ hs

theorem swf_lines (l : Store (Option L2Line)) (n : Nat) (v : Option L2Line) (h : swf none l = true) : swf none (sset none l n v) = true :=
  swf_sset _ _ h

theorem inv_lines {s : State} {l : Store (Option L2Line)} (hl : swf none l = true) (hs : s.Inv) : ({ s with l2 := l } : State).Inv :=
  ⟨hs.mem, hs.hostMem, hs.peerMem, hs.sectorKey, hl⟩

theorem inv_dropLine {s : State} (line : Nat) (hs : s.Inv) : (dropLine s line).Inv :=
  inv_lines (swf_lines s.l2 line none hs.l2) hs

theorem inv_fillLine {s : State} (line key cache : Nat) (hs : s.Inv) : (fillLine s line key cache).Inv := by
  unfold fillLine; split
  · exact inv_lines (swf_lines _ _ _ hs.l2) hs
  · refine inv_lines (swf_lines _ _ _ ?_) hs
    split
    · exact swf_lines _ _ _ hs.l2
    · exact hs.l2

theorem inv_touchLine {s : State} (l : Loc) (hs : s.Inv) : (touchLine s l).Inv := by
  unfold touchLine; split
  · split
    · exact inv_dropLine _ hs
    · exact inv_fillLine _ _ _ hs
  · exact hs

theorem inv_hostStore {s : State} (l : List Host.Cell) (hs : s.Inv) : ({ s with hostMem := ssetMany 0 s.hostMem l } : State).Inv :=
  ⟨hs.mem, swf_ssetMany _ hs.hostMem, hs.peerMem, hs.sectorKey, hs.l2⟩

theorem inv_peerStore {s : State} (l : List Host.Cell) (hs : s.Inv) : ({ s with peerMem := ssetMany 0 s.peerMem l } : State).Inv :=
  ⟨hs.mem, hs.hostMem, swf_ssetMany _ hs.peerMem, hs.sectorKey, hs.l2⟩

/-- A write through a view that is done keeps the invariant. -/
theorem inv_locWrite {s t : State} {v : View} {l : Loc} {bs : List Byte} (h : locWrite s v l bs = .ok t) (hs : s.Inv) : t.Inv := by
  unfold locWrite at h
  split at h
  · simp only at h
    split at h
    · injection h with h; subst h
      exact (same_notifyWrite ..).inv (inv_touchLine _ (inv_hbmWrite _ _ _ hs))
    · cases h
    · split at h
      · cases h
      · split at h
        · cases h
        · injection h with h; subst h
          exact (same_notifyWrite ..).inv (inv_touchLine _ (((same_makeVersion ..).trans (same_modVer ..)).inv hs))
  · injection h with h; subst h
    exact (same_notifyWrite ..).inv (inv_hostStore _ hs)
  · injection h with h; subst h
    exact (same_notifyWrite ..).inv (inv_peerStore _ hs)

theorem inv_clearBad {s : State} (v : View) (l : Loc) (hs : s.Inv) : (clearBad s v l).Inv := by
  unfold clearBad
  split
  · split
    · exact (same_setBad ..).inv hs
    · exact (same_modVer ..).inv hs
    · exact hs
  · exact hs
  · exact ⟨hs.mem, hs.hostMem, hs.peerMem, hs.sectorKey, hs.l2⟩

theorem inv_locWriteRun {clear : Bool} {s t : State} {v : View} {l : Loc} {bs : List Byte} (h : locWriteRun clear s v l bs = .ok t) (hs : s.Inv) :
    t.Inv := by
  unfold locWriteRun at h
  generalize bySector l (bs.length / 32 + 2) bs = ps at h
  generalize hr : (WRes.ok s) = r at h
  have hk : ∀ u, r = .ok u → u.Inv := by intro u hu; rw [← hr] at hu; injection hu with hu; exact hu ▸ hs
  clear hr
  induction ps generalizing r with
  | nil => exact hk t h
  | cons p ps ih =>
    refine ih _ h ?_
    intro u hu
    cases r with
    | ok u0 =>
      simp only at hu
      split at hu
      · rename_i w hw
        injection hu with hu; subst hu
        have := inv_locWrite hw (hk u0 rfl)
        split
        · exact inv_clearBad _ _ this
        · exact this
      · rename_i hx; exact absurd hu (hx u)
    | blocked f c n => cases hu
    | violation => cases hu

theorem inv_zeroRange {s : State} (pa n : Nat) (hs : s.Inv) : (zeroRange s pa n).Inv :=
  ⟨swf_filter _ hs.mem, hs.hostMem, hs.peerMem, swf_filter _ hs.sectorKey, hs.l2⟩

theorem inv_emptySlot {s : State} (i : Nat) (hs : s.Inv) : (emptySlot s i).Inv :=
  ⟨hs.mem, hs.hostMem, hs.peerMem, hs.sectorKey, swf_filter _ hs.l2⟩

theorem inv_putCipher {s : State} (sec off : Nat) (bs : List Byte) (hs : s.Inv) : (putCipher s sec off bs).Inv := by
  unfold putCipher
  have h := inv_putSector sec 1 (patch (sectorCipher s sec) off bs) hs
  exact inv_dropLine _ h

theorem inv_devError {s : State} (kind unit addr count : Nat) (hs : s.Inv) : (devError s kind unit addr count).Inv := by
  unfold devError; simp only; split
  · exact hs
  · generalize cells _ _ = l
    exact ⟨hs.mem, swf_ssetMany l hs.hostMem, hs.peerMem, hs.sectorKey, hs.l2⟩

theorem inv_devWriteFailed {s : State} (unit ctx : Nat) (e : LErr) (hs : s.Inv) : (devWriteFailed s unit ctx e).Inv :=
  inv_devError _ _ _ _ hs

theorem inv_countCtr {s : State} (ctx i n : Nat) (hs : s.Inv) : (countCtr s ctx i n).Inv := (same_modCtx ..).inv hs

/-! ### What a write leaves at each byte -/

/-- A list of cells, read at an address. -/
theorem sget_cells (m : List Host.Cell) (a : Nat) (bs : List Byte) (x : Nat) :
    sget 0 (ssetMany 0 m (cells a bs)) x = if a ≤ x ∧ x < a + bs.length then bs.getD (x - a) 0 else sget 0 m x := by
  induction bs generalizing m a with
  | nil => rw [if_neg (by simp)]; rfl
  | cons b t ih =>
    show sget 0 (ssetMany 0 (sset 0 m a b) (cells (a + 1) t)) x = _
    rw [ih]
    by_cases h1 : x = a
    · subst h1
      rw [if_neg (by omega), if_pos (by simp)]; simp
    · by_cases h2 : a + 1 ≤ x ∧ x < a + 1 + t.length
      · rw [if_pos h2, if_pos (by simp; omega)]
        have : x - a = (x - (a + 1)) + 1 := by omega
        rw [this]; simp
      · rw [if_neg h2, if_neg (by simp; omega), sget_sset_ne _ _ _ h1]

end Sys2Proof.Machine
end

