-- ==== Sys2Proof/Laws/Party.lean ====
section
/-! SUPPORT. Laws/Party.lean: what a gang, feeder or per-thread body sees, and how a statement about a shape (GangGives,
PartyGives, MemGives and their kin) follows from one about its body. -/

namespace Sys2Proof.Machine

open Sys2Proof

theorem unmarked_reads (g : Gang) (names : List Nat) (m more : Mask) :
    (unmarked g names m more).v = g.v ∧ (unmarked g names m more).o = g.o ∧ (unmarked g names m more).k = g.k
    ∧ (unmarked g names m more).lat = g.lat ∧ (unmarked g names m more).p = g.p ∧ (unmarked g names m more).live = g.live
    ∧ (unmarked g names m more).draw = g.draw ∧ (unmarked g names m more).q = g.q ∧ (unmarked g names m more).fstat = g.fstat
    ∧ (unmarked g names m more).regions = g.regions ∧ (unmarked g names m more).watch = g.watch ∧ (unmarked g names m more).ops = g.ops
    ∧ (unmarked g names m more).alloc = g.alloc ∧ (unmarked g names m more).stopNext = g.stopNext ∧ (unmarked g names m more).rstack = g.rstack
    ∧ (unmarked g names m more).ev = g.ev ∧ (unmarked g names m more).inlet = g.inlet ∧ (unmarked g names m more).restart = g.restart
    ∧ (unmarked g names m more).rangeCount = g.rangeCount ∧ (unmarked g names m more).wait = g.wait
    ∧ (unmarked g names m more).parked = g.parked := by
  unfold unmarked clearLatches clearFirst; split <;> simp

theorem seen_gang {s : State} {x : Turn} {d : GangDesc} {b : Block} {y : Gang} (hx : turnOf s = some x)
    (hb : getBlk (gangSees s x d) x.blk = some b) (hy : sfind b.gangs x.gang = some y) :
    y = { x.gangAt d with wait := .none, waitLen := 0 } := by
  have h := getGang_modGang_same (f := fun _ => { x.gangAt d with wait := .none, waitLen := 0 }) (turnOf_spec hx).2.2.2
  have h2 : getGang (gangSees s x d) x.blk x.gang = some y := by simp [getGang, hb, hy]
  exact Option.some.inj (h2.symm.trans h)

theorem seen_fields {s : State} {x : Turn} {d : GangDesc} {b : Block} {y : Gang} (hx : turnOf s = some x)
    (hb : getBlk (gangSees s x d) x.blk = some b) (hy : sfind b.gangs x.gang = some y) :
    y.k = x.g.k ∧ y.q = x.g.q ∧ y.regions = x.g.regions ∧ y.watch = x.g.watch ∧ y.ops = x.g.ops ∧ y.alloc = x.g.alloc ∧ y.stopNext = x.g.stopNext
    ∧ y.live = x.g.live ∧ y.fstat = x.g.fstat ∧ y.ev = x.g.ev ∧ y.inlet = x.g.inlet ∧ y.restart = x.g.restart ∧ y.rangeCount = x.g.rangeCount := by
  rw [seen_gang hx hb hy]
  obtain ⟨_, _, a1, _, _, a2, _, a3, a4, a5, a6, a7, a8, a9, a10, a11, a12, a13, a14, _⟩ := unmarked_reads x.g d.names x.g.live (if d.swap then x.g.live else 0)
  exact ⟨a1, a3, a5, a6, a7, a8, a9, a2, a4, a11, a12, a13, a14⟩

theorem kOf_gang {b : Block} {gi : Nat} {y : Gang} (h : sfind b.gangs gi = some y) : b.kOf (.gang gi) = y.k := by simp [Block.kOf, h]
theorem qOf_gang {b : Block} {gi : Nat} {y : Gang} (h : sfind b.gangs gi = some y) : b.qOf (.gang gi) = y.q := by simp [Block.qOf, h]

theorem seen_partyK {s : State} {x : Turn} {d : GangDesc} {b : Block} {y : Gang} (hx : turnOf s = some x)
    (hb : getBlk (gangSees s x d) x.blk = some b) (hy : sfind b.gangs x.gang = some y) :
    partyK (gangSees s x d) x.blk (.gang x.gang) = x.g.k ∧ b.kOf (.gang x.gang) = x.g.k := by
  have h := (seen_fields hx hb hy).1
  constructor
  · simp [partyK, hb, Block.kOf, hy, h]
  · simp [Block.kOf, hy, h]

theorem feeder_seen {s : State} {x : FTurn} {b : Block} (hx : fturnOf s = some x) (hb : getBlk (feederSees s x) x.blk = some b) :
    b.feeder = some { x.f with wait := .none, waitLen := 0 } := by
  unfold fturnOf at hx
  split at hx
  · rename_i blk a len insn hact
    split at hx
    · rename_i b0 hb0
      obtain ⟨f, hf, rfl⟩ := Option.map_eq_some_iff.mp hx
      have hb2 := getBlk_modBlk_same (f := fun b => { b with feeder := b.feeder.map (fun f => { f with wait := .none, waitLen := 0 }) }) hb0 rfl
      have := hb.symm.trans hb2
      obtain rfl := Option.some.inj this
      simp [hf]
    · cases hx
  · cases hx
theorem feeder_partyK {s : State} {x : FTurn} {b : Block} (hx : fturnOf s = some x) (hb : getBlk (feederSees s x) x.blk = some b) :
    partyK (feederSees s x) x.blk .feeder = x.f.k ∧ b.kOf .feeder = x.f.k ∧ b.qOf .feeder = x.f.q := by
  have h := feeder_seen hx hb
  simp [partyK, hb, Block.kOf, Block.qOf, h]

theorem party_gives {i : Instr} {d : GangDesc} {body} {cond e} (he : ∀ s, exec i s = .next (runGang s d body))
    (h : ∀ (s : State) (j : Iss) (b : Block) (k), getBlk s j.blk = some b → b.kOf j.party = k → partyK s j.blk j.party = k
      → (∀ gi, j.party = .gang gi → ∃ y, sfind b.gangs gi = some y) → cond s j b k → body s j = .done (e s j b k)) :
    PartyGives i d cond e := by
  constructor
  · intro s x b y hx hr hb hy hc
    have hk := seen_partyK hx hb hy
    rw [he, runGang_ready hx hr, h _ x.iss b x.g.k hb hk.2 hk.1 (by rintro gi ⟨⟩; exact ⟨y, hy⟩) hc]
  · intro s x b hx hr hb hc
    have hk := feeder_partyK hx hb
    rw [he, runGang_feeder hx hr, h _ x.iss b x.f.k hb hk.2.1 hk.1 (by rintro gi ⟨⟩) hc]
theorem party_faults {i : Instr} {d : GangDesc} {body} {cond e} (he : ∀ s, exec i s = .next (runGang s d body))
    (h : ∀ (s : State) (j : Iss) (b : Block) (k), getBlk s j.blk = some b → b.kOf j.party = k → partyK s j.blk j.party = k
      → (∀ gi, j.party = .gang gi → ∃ y, sfind b.gangs gi = some y) → cond s j b k → body s j = .fault (e s j b k)) :
    PartyFaults i d cond e := by
  constructor
  · intro s x b y hx hr hb hy hc
    have hk := seen_partyK hx hb hy
    rw [he, runGang_ready hx hr, h _ x.iss b x.g.k hb hk.2 hk.1 (by rintro gi ⟨⟩; exact ⟨y, hy⟩) hc]
  · intro s x b hx hr hb hc
    have hk := feeder_partyK hx hb
    rw [he, runGang_feeder hx hr, h _ x.iss b x.f.k hb hk.2.1 hk.1 (by rintro gi ⟨⟩) hc]
theorem party_places {i : Instr} {d : GangDesc} {body} {cond e} (he : ∀ s, exec i s = .next (runGang s d body))
    (h : ∀ (s : State) (j : Iss) (b : Block) (k), getBlk s j.blk = some b → b.kOf j.party = k → partyK s j.blk j.party = k
      → (∀ gi, j.party = .gang gi → ∃ y, sfind b.gangs gi = some y) → cond s j b k → body s j = .placed (e s j b k)) :
    PartyPlaces i d cond e := by
  constructor
  · intro s x b y hx hr hb hy hc
    have hk := seen_partyK hx hb hy
    rw [he, runGang_ready hx hr, h _ x.iss b x.g.k hb hk.2 hk.1 (by rintro gi ⟨⟩; exact ⟨y, hy⟩) hc]
  · intro s x b hx hr hb hc
    have hk := feeder_partyK hx hb
    rw [he, runGang_feeder hx hr, h _ x.iss b x.f.k hb hk.2.1 hk.1 (by rintro gi ⟨⟩) hc]
theorem party_waits {i : Instr} {d : GangDesc} {body} {cond e w} (he : ∀ s, exec i s = .next (runGang s d body))
    (h : ∀ (s : State) (j : Iss) (b : Block) (k), getBlk s j.blk = some b → b.kOf j.party = k → partyK s j.blk j.party = k
      → (∀ gi, j.party = .gang gi → ∃ y, sfind b.gangs gi = some y) → cond s j b k → body s j = .wait (e s j b k) (w s j b k)) :
    PartyWaits i d cond e w := by
  constructor
  · intro s x b y hx hr hb hy hc
    have hk := seen_partyK hx hb hy
    rw [he, runGang_ready hx hr, h _ x.iss b x.g.k hb hk.2 hk.1 (by rintro gi ⟨⟩; exact ⟨y, hy⟩) hc]
  · intro s x b hx hr hb hc
    have hk := feeder_partyK hx hb
    rw [he, runGang_feeder hx hr, h _ x.iss b x.f.k hb hk.2.1 hk.1 (by rintro gi ⟨⟩) hc]
theorem gang_gives {i : Instr} {d : GangDesc} {body} {cond e} (he : ∀ s, exec i s = .next (runGang s d body))
    (h : ∀ (s : State) (x : Turn) (b y), turnOf s = some x → getBlk (gangSees s x d) x.blk = some b → sfind b.gangs x.gang = some y
      → cond (gangSees s x d) x b y → body (gangSees s x d) x.iss = .done (e (gangSees s x d) x b y)) : GangGives i d cond e := by
  intro s x b y hx hr hb hy hc
  rw [he, runGang_ready hx hr, h s x b y hx hb hy hc]
theorem gang_places {i : Instr} {d : GangDesc} {body} {cond e} (he : ∀ s, exec i s = .next (runGang s d body))
    (h : ∀ (s : State) (x : Turn) (b y), turnOf s = some x → getBlk (gangSees s x d) x.blk = some b → sfind b.gangs x.gang = some y
      → cond (gangSees s x d) x b y → body (gangSees s x d) x.iss = .placed (e (gangSees s x d) x b y)) : GangPlaces i d cond e := by
  intro s x b y hx hr hb hy hc
  rw [he, runGang_ready hx hr, h s x b y hx hb hy hc]
theorem gang_faults {i : Instr} {d : GangDesc} {body} {cond e} (he : ∀ s, exec i s = .next (runGang s d body))
    (h : ∀ (s : State) (x : Turn) (b y), turnOf s = some x → getBlk (gangSees s x d) x.blk = some b → sfind b.gangs x.gang = some y
      → cond (gangSees s x d) x b y → body (gangSees s x d) x.iss = .fault (e (gangSees s x d) x b y)) : GangFaults i d cond e := by
  intro s x b y hx hr hb hy hc
  rw [he, runGang_ready hx hr, h s x b y hx hb hy hc]
theorem gang_waits {i : Instr} {d : GangDesc} {body} {cond e w} (he : ∀ s, exec i s = .next (runGang s d body))
    (h : ∀ (s : State) (x : Turn) (b y), turnOf s = some x → getBlk (gangSees s x d) x.blk = some b → sfind b.gangs x.gang = some y
      → cond (gangSees s x d) x b y → body (gangSees s x d) x.iss = .wait (e (gangSees s x d) x b y) (w (gangSees s x d) x b y)) : GangWaits i d cond e w := by
  intro s x b y hx hr hb hy hc
  rw [he, runGang_ready hx hr, h s x b y hx hb hy hc]
theorem feeder_gives {i : Instr} {d : GangDesc} {body} {cond e} (he : ∀ s, exec i s = .next (runGang s d body))
    (h : ∀ (s : State) (x : FTurn) (b), fturnOf s = some x → getBlk (feederSees s x) x.blk = some b
      → cond (feederSees s x) x b → body (feederSees s x) x.iss = .done (e (feederSees s x) x b)) : FeederGives i d cond e := by
  intro s x b hx hr hb hc
  rw [he, runGang_feeder hx hr, h s x b hx hb hc]


theorem mem_gives {i : Instr} {d : MemDesc} {body} {cond e} (he : ∀ s, exec i s = .next (runMem s d body))
    (h : ∀ (s : State) (x : Turn), turnOf s = some x → cond (memState s x d) x →
      body (memState s x d) x.b x.gang (x.memSees d) (x.on d.guard) = .ok (e (memState s x d) x)) : MemGives i d cond e := by
  intro s x hx hr hc
  rw [he, runMem_ready hx hr, h s x hx hc]
  simp only [runShared_none]
theorem insSorted_last {α : Type} (le : α → α → Bool) (x : α) (l : List α) (h : ∀ y ∈ l, le y x = true) : insSorted le x l = l ++ [x] := by
  induction l with
  | nil => rfl
  | cons y t ih =>
    simp only [insSorted, h y (List.mem_cons_self ..), if_true, List.cons_append]
    rw [ih (fun z hz => h z (List.mem_cons_of_mem _ hz))]

/-- A list in order stays as it is. -/
theorem sortBy_sorted {α : Type} (le : α → α → Bool) (l : List α) (h : l.Pairwise (fun x y => le x y = true)) : sortBy le l = l := by
  have : ∀ (l a : List α), (a ++ l).Pairwise (fun x y => le x y = true) → l.foldl (fun a x => insSorted le x a) a = a ++ l := by
    intro l
    induction l with
    | nil => intro a _; simp
    | cons x t ih =>
      intro a ha
      have hx : insSorted le x a = a ++ [x] := insSorted_last le x a (fun y hy =>
        (List.pairwise_append.mp ha).2.2 y hy x (List.mem_cons_self ..))
      rw [List.foldl_cons, hx, ih _ (by simpa using ha)]
      simp
  exact this l [] (by simpa using h)

theorem lanesOf_pairwise (m : Mask) : (lanesOf m).Pairwise (· < ·) := by
  unfold lanesOf
  exact List.Pairwise.filter _ List.pairwise_lt_range

/-- An access of the scratchpad: each guard-true lane's step in ascending order. -/
theorem mem_shares {i : Instr} {d : MemDesc} {body} {cond e} {step : State → Turn → Nat → State → State} {banks}
    (he : ∀ s, exec i s = .next (runMem s d body))
    (h : ∀ (s : State) (x : Turn), turnOf s = some x → cond (memState s x d) x →
      body (memState s x d) x.b x.gang (x.memSees d) (x.on d.guard) = .ok (e (memState s x d) x)
        { steps := (lanesOf (x.on d.guard)).map (fun l => (l, step (memState s x d) x l)), banks := banks (memState s x d) x }) :
    MemShares i d cond e step banks := by
  intro s x hx hr hc
  rw [he, runMem_ready hx hr, h s x hx hc]
  have hs : sortBy (fun (x y : Nat × (State → State)) => decide (x.1 ≤ y.1))
      ((lanesOf (x.on d.guard)).map (fun l => (l, step (memState s x d) x l)))
      = (lanesOf (x.on d.guard)).map (fun l => (l, step (memState s x d) x l)) := by
    apply sortBy_sorted
    rw [List.pairwise_map]
    exact (lanesOf_pairwise _).imp (fun h => by simpa using Nat.le_of_lt h)
  simp only [runShared, shared, hs, List.foldl_map]
  rfl

theorem mem_faults {i : Instr} {d : MemDesc} {body} {cond e} (he : ∀ s, exec i s = .next (runMem s d body))
    (h : ∀ (s : State) (x : Turn), turnOf s = some x → cond (memState s x d) x →
      body (memState s x d) x.b x.gang (x.memSees d) (x.on d.guard) = .fault (e (memState s x d) x)) : MemFaults i d cond e := by
  intro s x hx hr hc
  rw [he, runMem_ready hx hr, h s x hx hc]
theorem readSrc_unmarked (g : Gang) (names : List Nat) (m more : Mask) (l : Nat) (r : ReadAs) (a : Src) :
    readSrc (unmarked g names m more) l r a = readSrc g l r a := by
  obtain ⟨h1, h2, h3, h4, -⟩ := unmarked_reads g names m more
  cases a <;> simp only [readSrc, h1, h2, h3, h4]
theorem pushFalses_reads (g : Gang) (m : Mask) (d : Option (Dst × Nat)) :
    (pushFalses g m d).v = g.v ∧ (pushFalses g m d).o = g.o ∧ (pushFalses g m d).k = g.k ∧ (pushFalses g m d).ops = g.ops
     ∧ (pushFalses g m d).live = g.live ∧ (pushFalses g m d).parked = g.parked := by
  unfold pushFalses
  split
  · simp
  · rename_i x n
    have : ∀ (ls : List Nat) (g0 : Gang), (ls.foldl (fun g l => pushFalse g l x n) g0).v = g0.v ∧ (ls.foldl (fun g l => pushFalse g l x n) g0).o = g0.o
      ∧ (ls.foldl (fun g l => pushFalse g l x n) g0).k = g0.k ∧ (ls.foldl (fun g l => pushFalse g l x n) g0).ops = g0.ops ∧ (ls.foldl (fun g l => pushFalse g l x n) g0).live = g0.live ∧ (ls.foldl (fun g l => pushFalse g l x n) g0).parked = g0.parked := by
      intro ls
      induction ls with
      | nil => intro g0; simp
      | cons a t ih => intro g0; simp only [List.foldl_cons]; have h := ih (pushFalse g0 a x n); refine ⟨h.1.trans ?_, h.2.1.trans ?_, h.2.2.1.trans ?_, h.2.2.2.1.trans ?_, h.2.2.2.2.1.trans ?_, h.2.2.2.2.2.trans ?_⟩ <;> (cases x <;> rfl)
    exact this _ _

theorem pushFalse_lat_lane (g : Gang) {l k : Nat} (x : Dst) (n j : Nat) (hl : l < 64) (hk : k < 64) (h : k ≠ l) :
    sget 0 (pushFalse g l x n).lat (reg j k) = sget 0 g.lat (reg j k) := by
  cases x <;> exact pushLatch_lat_lane _ _ _ _ _ _ hl hk h

theorem pushFalses_lat (g : Gang) (m : Mask) (d : Option (Dst × Nat)) {k j : Nat} (hk : k < 64) (hm : m.getLsbD k = false) :
    sget 0 (pushFalses g m d).lat (reg j k) = sget 0 g.lat (reg j k) := by
  unfold pushFalses
  split
  · rfl
  · rename_i x n
    have : ∀ (ls : List Nat), (∀ l ∈ ls, l < 64 ∧ k ≠ l) → ∀ g0 : Gang, sget 0 (ls.foldl (fun g l => pushFalse g l x n) g0).lat (reg j k) = sget 0 g0.lat (reg j k) := by
      intro ls
      induction ls with
      | nil => intro _ g0; rfl
      | cons a t ih => intro h g0; rw [List.foldl_cons, ih (fun l hl => h l (List.mem_cons_of_mem _ hl))]; exact pushFalse_lat_lane _ _ _ _ (h a (List.mem_cons_self ..)).1 hk (h a (List.mem_cons_self ..)).2
    refine this _ ?_ _
    intro l hl
    have := mem_lanesOf.mp hl
    refine ⟨this.1, ?_⟩
    rintro rfl
    rw [hm] at this; exact absurd this.2 (by simp)

theorem readSrc_memSees (x : Turn) (d : MemDesc) {l : Nat} (r : ReadAs) (a : Src) (hl : l < 64) (hon : (x.on d.guard).getLsbD l = true) :
    readSrc (x.memSees d) l r a = x.rd l r a := by
  have h1 : readSrc (x.memSees d) l r a = readSrc (x.memAt d) l r a := by
    have hm : (x.mask &&& ~~~(x.on d.guard)).getLsbD l = false := by simp [hon]
    obtain ⟨a1, a2, a3, -⟩ := pushFalses_reads (x.memAt d) (x.mask &&& ~~~(x.on d.guard)) d.dst
    cases a <;> simp only [readSrc, Turn.memSees, a1, a2, a3]
    rw [pushFalses_lat _ _ _ hl hm]
  rw [h1]; exact readSrc_unmarked ..
theorem perLane_each {α : Type} (x : Turn) (g : Guard) (f h : Nat → α) (hh : ∀ l, l < 64 → (x.on g).getLsbD l = true → f l = h l) :
    perLane (x.on g) f = x.each g h := by
  unfold perLane Turn.each Turn.parts
  apply List.map_congr_left
  intro l hl
  have := mem_lanesOf.mp hl
  rw [hh l this.1 this.2]
theorem head_mem (m : Mask) (h : m ≠ 0) : lowestLane m < 64 ∧ m.getLsbD (lowestLane m) = true := by
  unfold lowestLane
  cases hl : lanesOf m with
  | nil =>
    exfalso; apply h; ext i hi
    have : i ∉ lanesOf m := by rw [hl]; simp
    rw [mem_lanesOf] at this
    simpa [hi, BitVec.getLsbD_eq_getElem hi] using this
  | cons a t => have : a ∈ lanesOf m := by rw [hl]; simp
                simpa using mem_lanesOf.mp this
theorem mem_on {s : State} {x : Turn} {d : MemDesc} (hr : memReady s x d = true) : x.on d.guard ≠ 0 := by
  simp only [memReady, Bool.and_eq_true, bne_iff_ne] at hr
  exact hr.1.1.1.1.1.1.1.1.1
theorem ea_memSees (x : Turn) (d : MemDesc) (g : Guard) (hg : d.guard = g) (base off : Src) :
    perLane (x.on g) (fun l => eaLane (x.memSees d) l base off) = x.each g (x.ea base off) := by
  subst hg
  apply perLane_each
  intro l hl hon
  simp only [eaLane, Turn.ea, readSrc_memSees x d _ _ hl hon]

/-! ### Faults that do not ask for the guard (R44 items 6 and 7) -/

/-- A body whose fault of the entry comes first. -/
def earlyBody (e : State → Iss → Option Flt) (body : State → Iss → GRes) (s : State) (i : Iss) : GRes :=
  match e s i with
  | some f => .fault f
  | none => body s i

/-- A gang's early check sees what the body sees: the marks of the issue change none of its operands. -/
def SameEarly (e : State → Iss → Option Flt) : Prop :=
  (∀ (s : State) (x : Turn) (d : GangDesc), turnOf s = some x → e (gangSees s x d) x.iss = e s x.iss)
  ∧ (∀ (s : State) (x : FTurn), fturnOf s = some x → e (feederSees s x) x.iss = e s x.iss)

theorem runGang_early {s : State} {x : Turn} {d : GangDesc} {e} {body : State → Iss → GRes} (hx : turnOf s = some x)
    (hs : e (gangSees s x d) x.iss = e s x.iss) (hr : gangReady s x d = true) :
    runGang s { d with early := e } body = runGang s d (earlyBody e body) := by
  rw [runGang_ready (d := d) hx hr]
  cases he : e s x.iss with
  | none =>
    have hr' : gangReady s x { d with early := e } = true := by
      exact (Bool.and_eq_true _ _).mpr ⟨((Bool.and_eq_true _ _).mp hr).1, Option.isNone_iff_eq_none.mpr he⟩
    rw [runGang_ready hx hr']
    have h1 : earlyBody e body (gangSees s x d) x.iss = body (gangSees s x d) x.iss := by simp only [earlyBody, hs, he]
    rw [h1]; rfl
  | some f =>
    obtain ⟨⟨core, hact⟩, hb, -, hg⟩ := turnOf_spec hx
    have h1 : earlyBody e body (gangSees s x d) x.iss = .fault f := by simp only [earlyBody, hs, he]
    rw [h1]
    simp only [gangReady, Bool.and_eq_true, bne_iff_ne, ne_eq, beq_iff_eq, Bool.not_eq_true'] at hr
    obtain ⟨⟨⟨⟨⟨⟨⟨⟨⟨⟨hm, hl⟩, hst⟩, hf⟩, hov⟩, hon⟩, hp⟩, hacq⟩, hrel⟩, hsp⟩, hearly⟩ := hr
    have he' : e s { blk := x.blk, party := .gang x.gang, addr := x.addr, len := x.len, insn := x.insn } = some f := he
    have hf' : GangDesc.feederOnly { d with early := e } = false := hf
    have he2 : GangDesc.early { d with early := e } = e := rfl
    have hst' : stalledLanes x.g (GangDesc.names { d with early := e }) [] x.g.live = 0 := hst
    have hsp' : ((GangDesc.wide { d with early := e }) && spPending x.g) = false := hsp
    generalize ({ d with early := e } : GangDesc) = d' at hf' he2 hst' hsp' ⊢
    subst he2
    simp only [runGang, hact, List.foldl_cons, List.foldl_nil, gangFrag, Turn.frag, hg, hl, hst', firstLanes_zero, ne_eq, not_true,
      false_or, if_false, hsp', Bool.false_eq_true, gangBody, hf', he', noted]

theorem runGang_feeder_early {s : State} {x : FTurn} {d : GangDesc} {e} {body : State → Iss → GRes} (hx : fturnOf s = some x)
    (hs : e (feederSees s x) x.iss = e s x.iss) (hr : feederCan s x d = true) :
    runGang s { d with early := e } body = runGang s d (earlyBody e body) := by
  rw [runGang_feeder (d := d) hx hr]
  cases he : e s x.iss with
  | none =>
    have hr' : feederCan s x { d with early := e } = true := by
      simp only [feederCan, Bool.and_eq_true] at hr ⊢
      exact ⟨⟨⟨hr.1.1.1, Option.isNone_iff_eq_none.mpr he⟩, hr.1.2⟩, hr.2⟩
    rw [runGang_feeder hx hr']
    have h1 : earlyBody e body (feederSees s x) x.iss = body (feederSees s x) x.iss := by simp only [earlyBody, hs, he]
    rw [h1]
  | some f =>
    have h1 : earlyBody e body (feederSees s x) x.iss = .fault f := by simp only [earlyBody, hs, he]
    rw [h1]
    unfold fturnOf at hx
    split at hx
    · rename_i blk a len insn hact
      split at hx
      · rename_i b hb
        obtain ⟨g, hg, rfl⟩ := Option.map_eq_some_iff.mp hx
        simp only [feederCan, Bool.and_eq_true] at hr
        have he' : e s { blk := blk, party := .feeder, addr := a, len := len, insn := insn } = some f := he
        have hok : GangDesc.feederOk { d with early := e } = true := hr.1.1.1
        have he2 : GangDesc.early { d with early := e } = e := rfl
        generalize ({ d with early := e } : GangDesc) = d' at hok he2 ⊢
        subst he2
        simp only [runGang, hact, feederPart, hb, Option.bind_some, hg, hok, Bool.not_true, Bool.false_eq_true, if_false, he']
      · cases hx
    · cases hx

/-- The block that the body of a turn sees. -/
theorem gangSees_blk {s : State} {x : Turn} (d : GangDesc) (hx : turnOf s = some x) :
    getBlk (gangSees s x d) x.blk
      = some { x.b with gangs := smod x.b.gangs x.gang (fun _ => { x.gangAt d with wait := .none, waitLen := 0 }) } :=
  getBlk_modBlk_same (turnOf_spec hx).2.1 rfl
theorem gangSees_sfind {s : State} {x : Turn} (d : GangDesc) (hx : turnOf s = some x) :
    sfind (smod x.b.gangs x.gang (fun _ => { x.gangAt d with wait := .none, waitLen := 0 })) x.gang
      = some { x.gangAt d with wait := .none, waitLen := 0 } := by
  have h : getGang (gangSees s x d) x.blk x.gang = _ := getGang_modGang_same (turnOf_spec hx).2.2.2
  simpa [getGang, gangSees_blk d hx] using h
/-- The block that the body of a feeder's instruction sees. -/
theorem feederSees_blk {s : State} {x : FTurn} (hx : fturnOf s = some x) :
    getBlk s x.blk = some x.b ∧ x.b.feeder = some x.f
      ∧ getBlk (feederSees s x) x.blk = some { x.b with feeder := some { x.f with wait := .none, waitLen := 0 } } := by
  unfold fturnOf at hx
  split at hx
  · split at hx
    · rename_i b hb
      obtain ⟨g, hg, rfl⟩ := Option.map_eq_some_iff.mp hx
      have hb2 := getBlk_modBlk_same (f := fun b => { b with feeder := b.feeder.map (fun f => { f with wait := .none, waitLen := 0 }) }) hb rfl
      refine ⟨hb, hg, hb2.trans ?_⟩
      simp [hg]
    · cases hx
  · cases hx

/-- An early check that reads the block but for its parties, and the party's uniform registers, sees what the body sees. -/
theorem same_atBlk {f : Block → Store W64 → Option Flt} (hg : ∀ b G k, f { b with gangs := G } k = f b k)
    (hf : ∀ b F k, f { b with feeder := F } k = f b k) : SameEarly (atBlk f) := by
  constructor
  · intro s x d hx
    obtain ⟨-, hb, hy, -⟩ := turnOf_spec hx
    simp only [atBlk, Turn.iss, gangSees_blk d hx, hb, Option.bind_some, hg]
    rw [kOf_gang (gangSees_sfind d hx), kOf_gang hy]
    exact congrArg _ (unmarked_reads x.g d.names x.g.live (if d.swap then x.g.live else 0)).2.2.1
  · intro s x hx
    obtain ⟨hb, hy, hb2⟩ := feederSees_blk hx
    simp only [atBlk, FTurn.iss, hb2, hb, Option.bind_some, hf]
    simp only [Block.kOf, hy, Option.map_some]
theorem earlyBody_atBlk (f : Block → Store W64 → Option Flt) (body : State → Iss → GRes) {s : State} {j : Iss} {b : Block} {k : Store W64}
    (hb : getBlk s j.blk = some b) (hk : b.kOf j.party = k) :
    earlyBody (atBlk f) body s j = match f b k with
      | some e => .fault e
      | none => body s j := by
  simp only [earlyBody, atBlk, hb, hk, Option.bind_some]

/-- A party's event state is as the body sees it. -/
theorem same_ev : (∀ (s : State) (x : Turn) (d : GangDesc), turnOf s = some x →
      partyEv (gangSees s x d) x.blk (.gang x.gang) = partyEv s x.blk (.gang x.gang) ∧ partyK (gangSees s x d) x.blk (.gang x.gang) = partyK s x.blk (.gang x.gang))
    ∧ (∀ (s : State) (x : FTurn), fturnOf s = some x →
      partyEv (feederSees s x) x.blk .feeder = partyEv s x.blk .feeder ∧ partyK (feederSees s x) x.blk .feeder = partyK s x.blk .feeder) := by
  constructor
  · intro s x d hx
    obtain ⟨-, hb, hy, -⟩ := turnOf_spec hx
    have h := unmarked_reads x.g d.names x.g.live (if d.swap then x.g.live else 0)
    obtain ⟨b', hb', hy'⟩ : ∃ b', getBlk (gangSees s x d) x.blk = some b' ∧ sfind b'.gangs x.gang = some { x.gangAt d with wait := .none, waitLen := 0 } :=
      ⟨_, gangSees_blk d hx, gangSees_sfind d hx⟩
    constructor
    · simp only [partyEv, hb', hb, hy', hy]
      exact h.2.2.2.2.2.2.2.2.2.2.2.2.2.2.2.1
    · simp only [partyK, hb', hb, Option.map_some, Option.getD_some, kOf_gang hy', kOf_gang hy]
      exact h.2.2.1
  · intro s x hx
    obtain ⟨hb, hy, hb2⟩ := feederSees_blk hx
    constructor
    · simp only [partyEv, hb2, hb, hy, Option.map_some]
    · simp only [partyK, Block.kOf, hb2, hb, hy, Option.map_some]
theorem same_noCandidate (c : Src) : SameEarly (noCandidate c) := by
  constructor
  · intro s x d hx
    have h := same_ev.1 s x d hx
    simp only [noCandidate, maskOperand, Turn.iss, h.1, h.2]; rfl
  · intro s x hx
    have h := same_ev.2 s x hx
    simp only [noCandidate, maskOperand, FTurn.iss, h.1, h.2]; rfl

theorem party_gives_early {i : Instr} {d : GangDesc} {e0 body} {cond e} (he : ∀ s, exec i s = .next (runGang s { d with early := e0 } body))
    (hs : SameEarly e0)
    (h : ∀ (s : State) (j : Iss) (b : Block) (k), getBlk s j.blk = some b → b.kOf j.party = k → partyK s j.blk j.party = k
      → (∀ gi, j.party = .gang gi → ∃ y, sfind b.gangs gi = some y) → cond s j b k → earlyBody e0 body s j = .done (e s j b k)) :
    PartyGives i d cond e := by
  constructor
  · intro s x b y hx hr hb hy hc
    have hk := seen_partyK hx hb hy
    rw [he, runGang_early hx (hs.1 s x d hx) hr, runGang_ready hx hr, h _ x.iss b x.g.k hb hk.2 hk.1 (by rintro gi ⟨⟩; exact ⟨y, hy⟩) hc]
  · intro s x b hx hr hb hc
    have hk := feeder_partyK hx hb
    rw [he, runGang_feeder_early hx (hs.2 s x hx) hr, runGang_feeder hx hr, h _ x.iss b x.f.k hb hk.2.1 hk.1 (by rintro gi ⟨⟩) hc]
theorem party_faults_early {i : Instr} {d : GangDesc} {e0 body} {cond e} (he : ∀ s, exec i s = .next (runGang s { d with early := e0 } body))
    (hs : SameEarly e0)
    (h : ∀ (s : State) (j : Iss) (b : Block) (k), getBlk s j.blk = some b → b.kOf j.party = k → partyK s j.blk j.party = k
      → (∀ gi, j.party = .gang gi → ∃ y, sfind b.gangs gi = some y) → cond s j b k → earlyBody e0 body s j = .fault (e s j b k)) :
    PartyFaults i d cond e := by
  constructor
  · intro s x b y hx hr hb hy hc
    have hk := seen_partyK hx hb hy
    rw [he, runGang_early hx (hs.1 s x d hx) hr, runGang_ready hx hr, h _ x.iss b x.g.k hb hk.2 hk.1 (by rintro gi ⟨⟩; exact ⟨y, hy⟩) hc]
  · intro s x b hx hr hb hc
    have hk := feeder_partyK hx hb
    rw [he, runGang_feeder_early hx (hs.2 s x hx) hr, runGang_feeder hx hr, h _ x.iss b x.f.k hb hk.2.1 hk.1 (by rintro gi ⟨⟩) hc]
theorem party_places_early {i : Instr} {d : GangDesc} {e0 body} {cond e} (he : ∀ s, exec i s = .next (runGang s { d with early := e0 } body))
    (hs : SameEarly e0)
    (h : ∀ (s : State) (j : Iss) (b : Block) (k), getBlk s j.blk = some b → b.kOf j.party = k → partyK s j.blk j.party = k
      → (∀ gi, j.party = .gang gi → ∃ y, sfind b.gangs gi = some y) → cond s j b k → earlyBody e0 body s j = .placed (e s j b k)) :
    PartyPlaces i d cond e := by
  constructor
  · intro s x b y hx hr hb hy hc
    have hk := seen_partyK hx hb hy
    rw [he, runGang_early hx (hs.1 s x d hx) hr, runGang_ready hx hr, h _ x.iss b x.g.k hb hk.2 hk.1 (by rintro gi ⟨⟩; exact ⟨y, hy⟩) hc]
  · intro s x b hx hr hb hc
    have hk := feeder_partyK hx hb
    rw [he, runGang_feeder_early hx (hs.2 s x hx) hr, runGang_feeder hx hr, h _ x.iss b x.f.k hb hk.2.1 hk.1 (by rintro gi ⟨⟩) hc]
theorem party_waits_early {i : Instr} {d : GangDesc} {e0 body} {cond e w} (he : ∀ s, exec i s = .next (runGang s { d with early := e0 } body))
    (hs : SameEarly e0)
    (h : ∀ (s : State) (j : Iss) (b : Block) (k), getBlk s j.blk = some b → b.kOf j.party = k → partyK s j.blk j.party = k
      → (∀ gi, j.party = .gang gi → ∃ y, sfind b.gangs gi = some y) → cond s j b k → earlyBody e0 body s j = .wait (e s j b k) (w s j b k)) :
    PartyWaits i d cond e w := by
  constructor
  · intro s x b y hx hr hb hy hc
    have hk := seen_partyK hx hb hy
    rw [he, runGang_early hx (hs.1 s x d hx) hr, runGang_ready hx hr, h _ x.iss b x.g.k hb hk.2 hk.1 (by rintro gi ⟨⟩; exact ⟨y, hy⟩) hc]
  · intro s x b hx hr hb hc
    have hk := feeder_partyK hx hb
    rw [he, runGang_feeder_early hx (hs.2 s x hx) hr, runGang_feeder hx hr, h _ x.iss b x.f.k hb hk.2.1 hk.1 (by rintro gi ⟨⟩) hc]
/-- What a gang's body does with an early check before it, when the gang is ready. -/
theorem runGang_ready_early {s : State} {x : Turn} {d : GangDesc} {e0 : State → Iss → Option Flt} {body : State → Iss → GRes}
    (hx : turnOf s = some x) (hs : ∀ (s : State) (x : Turn) (d : GangDesc), turnOf s = some x → e0 (gangSees s x d) x.iss = e0 s x.iss)
    (hr : gangReady s x d = true) :
    runGang s { d with early := e0 } body = match earlyBody e0 body (gangSees s x d) x.iss with
      | .done t => noted s x (stepped x t)
      | .placed t => noted s x t
      | .wait t w => noted s x (setWait t x.blk (.gang x.gang) w x.len)
      | .stall => marked s x.frag x.addr x.mask 0 none
      | .fault e => noted s x (raiseGang s x.blk x.gang 0 x.addr x.len x.insn (if e.lanes = 0 then x.g.live else e.lanes) e) := by
  rw [runGang_early hx (hs s x d hx) hr, runGang_ready hx hr]; try rfl
theorem gang_gives_early {i : Instr} {d : GangDesc} {e0 body} {cond e} (he : ∀ s, exec i s = .next (runGang s { d with early := e0 } body))
    (hs : ∀ (s : State) (x : Turn) (d : GangDesc), turnOf s = some x → e0 (gangSees s x d) x.iss = e0 s x.iss)
    (h : ∀ (s : State) (x : Turn) (b y), turnOf s = some x → getBlk (gangSees s x d) x.blk = some b → sfind b.gangs x.gang = some y
      → cond (gangSees s x d) x b y → earlyBody e0 body (gangSees s x d) x.iss = .done (e (gangSees s x d) x b y)) : GangGives i d cond e := by
  intro s x b y hx hr hb hy hc
  rw [he, runGang_ready_early hx hs hr, h s x b y hx hb hy hc]
theorem gang_places_early {i : Instr} {d : GangDesc} {e0 body} {cond e} (he : ∀ s, exec i s = .next (runGang s { d with early := e0 } body))
    (hs : ∀ (s : State) (x : Turn) (d : GangDesc), turnOf s = some x → e0 (gangSees s x d) x.iss = e0 s x.iss)
    (h : ∀ (s : State) (x : Turn) (b y), turnOf s = some x → getBlk (gangSees s x d) x.blk = some b → sfind b.gangs x.gang = some y
      → cond (gangSees s x d) x b y → earlyBody e0 body (gangSees s x d) x.iss = .placed (e (gangSees s x d) x b y)) : GangPlaces i d cond e := by
  intro s x b y hx hr hb hy hc
  rw [he, runGang_ready_early hx hs hr, h s x b y hx hb hy hc]
theorem gang_faults_early {i : Instr} {d : GangDesc} {e0 body} {cond e} (he : ∀ s, exec i s = .next (runGang s { d with early := e0 } body))
    (hs : ∀ (s : State) (x : Turn) (d : GangDesc), turnOf s = some x → e0 (gangSees s x d) x.iss = e0 s x.iss)
    (h : ∀ (s : State) (x : Turn) (b y), turnOf s = some x → getBlk (gangSees s x d) x.blk = some b → sfind b.gangs x.gang = some y
      → cond (gangSees s x d) x b y → earlyBody e0 body (gangSees s x d) x.iss = .fault (e (gangSees s x d) x b y)) : GangFaults i d cond e := by
  intro s x b y hx hr hb hy hc
  rw [he, runGang_ready_early hx hs hr, h s x b y hx hb hy hc]
theorem gang_waits_early {i : Instr} {d : GangDesc} {e0 body} {cond e w} (he : ∀ s, exec i s = .next (runGang s { d with early := e0 } body))
    (hs : ∀ (s : State) (x : Turn) (d : GangDesc), turnOf s = some x → e0 (gangSees s x d) x.iss = e0 s x.iss)
    (h : ∀ (s : State) (x : Turn) (b y), turnOf s = some x → getBlk (gangSees s x d) x.blk = some b → sfind b.gangs x.gang = some y
      → cond (gangSees s x d) x b y → earlyBody e0 body (gangSees s x d) x.iss = .wait (e (gangSees s x d) x b y) (w (gangSees s x d) x b y)) :
    GangWaits i d cond e w := by
  intro s x b y hx hr hb hy hc
  rw [he, runGang_ready_early hx hs hr, h s x b y hx hb hy hc]

/-! ### Walks that a party waits for, and early faults of scratchpad accesses -/

/-- A whole party's access whose translation a buffer holds, and an instruction over structures whose translations are held or not. -/
theorem orMiss_held {s : State} {b : Block} {p : Party} {va : W64} {r : GRes} (h : tlbHolds s b.ctx b.core va.toNat = true) :
    orMiss s b p va r = r := by simp [orMiss, missAt, h]
theorem orMisses_warm {s : State} {b : Block} {p : Party} {t : State} (h : warmed s b t) : orMisses s b p (.done t) = .done t := by
  have : (getCore t b.core).tlb.find? (fun e => !tlbHolds s e.ctx b.core e.va) = none := by
    rw [List.find?_eq_none]; intro e he; simp [h e he]
  simp [orMisses, this]
theorem orMisses_cold {s : State} {b : Block} {p : Party} {t r : State} (h : Colds s b p t r) : orMisses s b p (.done t) = .wait r .blocked := by
  obtain ⟨e, he, hm⟩ := h
  simp [orMisses, he, orMiss, hm]

/-- An early fault of a per-thread instruction of a turn that is ready but for it. -/
theorem runMem_early {s : State} {x : Turn} {d : MemDesc} {f : Flt} {body : State → Block → Nat → Gang → Mask → MRes}
    (hx : turnOf s = some x) (hr : memReady s x { d with early := fun _ _ _ => none } = true) (he : d.early s x.iss x.mask = some f) :
    runMem s d body = noted s x (raiseGang s x.blk x.gang 0 x.addr x.len x.insn f.lanes f) := by
  obtain ⟨⟨core, hact⟩, hb, -, hg⟩ := turnOf_spec hx
  simp only [memReady, Bool.and_eq_true, bne_iff_ne, ne_eq, beq_iff_eq, Bool.not_eq_true', Bool.or_eq_true] at hr
  obtain ⟨⟨⟨⟨⟨⟨⟨⟨⟨hon, hst⟩, hw⟩, hfull⟩, hov⟩, hl⟩, hp⟩, hwait⟩, hsp⟩, -⟩ := hr
  have he' : d.early s { blk := x.blk, party := .gang x.gang, addr := x.addr, len := x.len, insn := x.insn } x.mask = some f := he
  have hst' : (stalledLanes x.g d.names d.latches x.mask ||| if d.mem = true then acqPending x.g &&& x.mask else 0) = 0 := hst
  have hfull' : d.full x.g = false := hfull
  have hst1 : stalledLanes x.g d.names d.latches x.mask = 0 := by
    ext i hi; have := congrArg (fun m => m.getLsbD i) hst'; simp at this ⊢; exact this.1
  have hm : x.mask ≠ 0 := by
    intro h; apply hon; simp [Turn.on, guardMask, h]
  have hmask := takes_part (wide := d.wide) hst' hw hsp
  simp only [runMem, hact, runFrags, List.foldl_cons, List.foldl_nil, memFrag, Turn.frag, hb, hg]
  simp only [hfull', Bool.false_eq_true, if_false, hmask]
  simp only [hst1, firstLanes_zero, hm, if_false, memBody, he', List.nil_append]
  rfl

/-- Fewer latches of fewer lanes are not lost either, and fewer words not poisoned. -/
theorem lost_none {g : Gang} {l : List Nat} {m : Mask} (h : lostLanes g l m = 0) {l' : List Nat} (hs : ∀ i ∈ l', i ∈ l) {m' : Mask}
    (hm : m' &&& m = m') : lostLanes g l' m' = 0 := by
  have key : ∀ (l : List Nat) (a m : Mask), l.foldl (fun a i => a ||| (m &&& ~~~(sget 0 g.latValid i))) a = 0 ↔
      a = 0 ∧ ∀ i ∈ l, m &&& ~~~(sget 0 g.latValid i) = 0 := by
    intro l
    induction l with
    | nil => simp
    | cons i t ih =>
      intro a m
      have hor : ∀ a b : Mask, a ||| b = 0 ↔ a = 0 ∧ b = 0 := by
        intro a b
        constructor
        · intro h; constructor <;> (apply BitVec.eq_of_getLsbD_eq; intro j hj; have := congrArg (fun m => m.getLsbD j) h; simp at this ⊢; simp [this])
        · rintro ⟨rfl, rfl⟩; simp
      rw [List.foldl_cons, ih, hor]; simp [and_assoc]
  have h1 := (key _ _ _).mp h
  refine (key _ _ _).mpr ⟨rfl, fun i hi => ?_⟩
  have := h1.2 i (hs i hi)
  rw [← hm, BitVec.and_assoc, this]; simp
/-- The lanes of a mask by its condition. -/
theorem maskOf_lane (p : Nat → Bool) (j : Nat) : (maskOf p).getLsbD j = (decide (j < 64) && p j) := by
  have key : ∀ (l : List Nat) (a : Mask), (l.foldl (fun m l => if p l then m ||| laneBit l else m) a).getLsbD j
      = (a.getLsbD j || (decide (j < 64) && l.contains j && p j)) := by
    intro l
    induction l with
    | nil => simp
    | cons i t ih =>
      intro a
      rw [List.foldl_cons, ih]
      have hb : (laneBit i).getLsbD j = (decide (j < 64) && decide (i = j)) := by
        simp only [laneBit, BitVec.getLsbD_ofNat, Nat.testBit_two_pow]
      by_cases hp : p i = true
      · rw [if_pos hp, BitVec.getLsbD_or, hb]
        by_cases hij : i = j
        · subst hij; simp only [hp, decide_true, Bool.and_true, List.contains_cons, beq_self_eq_true, Bool.true_or]
          cases a.getLsbD i <;> cases decide (i < 64) <;> simp
        · have : ¬ j = i := fun h => hij h.symm
          simp [hij, this]
      · rw [if_neg hp]
        by_cases hij : i = j
        · subst hij; simp [hp]
        · have : ¬ j = i := fun h => hij h.symm
          simp [this]
  have := key (List.range 64) 0
  rw [maskOf, this]
  by_cases hj : j < 64 <;> simp [hj]
theorem poison_none {g : Gang} {l : List Nat} {m : Mask} (h : poisonLanes g l m = 0) {l' : List Nat} (hs : ∀ i ∈ l', i ∈ l) {m' : Mask}
    (hm : m' &&& m = m') : poisonLanes g l' m' = 0 := by
  unfold poisonLanes at h ⊢
  split
  · rfl
  · rename_i hb
    rw [if_neg hb] at h
    apply BitVec.eq_of_getLsbD_eq
    intro j hj
    have h1 := congrArg (fun m => m.getLsbD j) h
    have h2 := congrArg (fun m => m.getLsbD j) hm
    simp only [BitVec.getLsbD_and, maskOf_lane, hj, decide_true, Bool.true_and, BitVec.ofNat_eq_ofNat, BitVec.getLsbD_zero] at h1 h2 ⊢
    cases h3 : m'.getLsbD j
    · simp
    · rw [h3] at h2
      simp only [Bool.true_and] at h2
      rw [h2, Bool.and_true, List.any_eq_false] at h1
      rw [Bool.and_true, List.any_eq_false]
      exact fun i hi => h1 i (hs i hi)

/-- What the early check of a scratchpad access finds where nothing else holds the access up. -/
theorem spEarly_finds {s : State} {x : Turn} {d : MemDesc} (hx : turnOf s = some x) (hd : d.swap = false)
    (hr : memReady s x { d with early := fun _ _ _ => none } = true) {addr : List (Src × Nat)} (ha : ∀ p ∈ addr, p ∈ d.srcs)
    (access n : Nat) (lanes : Mask) (at_ : State → Block → Gang → Nat → Option Block × Nat) :
    (d.spEarly access n addr lanes at_).early s x.iss x.mask
      = spRange access n (perLane (x.on d.guard &&& lanes) (at_ s x.b x.g)) := by
  obtain ⟨-, hb, hy, hg⟩ := turnOf_spec hx
  simp only [memReady, Bool.and_eq_true, bne_iff_ne, ne_eq, beq_iff_eq, Bool.not_eq_true', Bool.or_eq_true] at hr
  obtain ⟨⟨⟨⟨⟨⟨⟨⟨⟨hon, hst⟩, hw⟩, hfull⟩, hov⟩, hl⟩, hp⟩, hwait⟩, hsp⟩, -⟩ := hr
  have hm : ∀ m m' : Mask, (m &&& m') &&& m = m &&& m' := by
    intro m m'; apply BitVec.eq_of_getLsbD_eq; intro j hj; simp only [BitVec.getLsbD_and]; cases m.getLsbD j <;> simp
  have hov' : overAlloc x.g (addr.flatMap (fun p => srcNames p.2 p.1)) = false := by
    simp only [overAlloc, List.any_eq_false] at hov ⊢
    intro i hi; apply hov i
    obtain ⟨p, hp, h⟩ := List.mem_flatMap.mp hi
    exact List.mem_append.mpr (.inl (List.mem_flatMap.mpr ⟨p, ha p hp, h⟩))
  have hmem : x.memAt { d with early := fun _ _ _ => none } = clearLatches (clearFirst x.g d.names (firstLanes x.g d.names x.mask)) (firstLanes x.g d.names x.mask) := by
    simp only [Turn.memAt, unmarked, hd, Bool.false_eq_true, if_false, BitVec.ofNat_eq_ofNat, BitVec.or_zero]; rfl
  rw [hmem] at hl hp
  have h1 : lostLanes (clearLatches (clearFirst x.g d.names (firstLanes x.g d.names x.mask)) (firstLanes x.g d.names x.mask))
      (addr.flatMap (fun p => srcLatch p.1)) (x.on d.guard &&& lanes) = 0 :=
    lost_none hl (by intro i hi; obtain ⟨p, hp, h⟩ := List.mem_flatMap.mp hi; exact List.mem_flatMap.mpr ⟨p, ha p hp, h⟩) (hm _ _)
  have h2 : poisonLanes (clearLatches (clearFirst x.g d.names (firstLanes x.g d.names x.mask)) (firstLanes x.g d.names x.mask))
      (addr.flatMap (fun p => srcBad p.2 p.1)) (x.on d.guard &&& lanes) = 0 :=
    poison_none hp (by intro i hi; obtain ⟨p, hp, h⟩ := List.mem_flatMap.mp hi; exact List.mem_flatMap.mpr ⟨p, ha p hp, h⟩) (hm _ _)
  simp only [MemDesc.spEarly, Turn.iss, hb, hy, Option.bind_some, hov', Bool.false_eq_true, if_false]
  simp only [Turn.on] at h1 h2
  have hnot : ∀ m : Mask, m &&& ~~~(0 : Mask) = m := by
    intro m; exact BitVec.and_allOnes
  rw [h1, h2, hnot, hnot]
  rfl


/-- The range and clique faults of a scratchpad access. -/
theorem mem_ranges {i : Instr} {d : MemDesc} {body} {access n : Nat} {addr : List (Src × Nat)} {lanes : Mask} {at_ L}
    (he : ∀ s, exec i s = .next (runMem s (d.spEarly access n addr lanes at_) body)) (hd : d.swap = false) (ha : ∀ p ∈ addr, p ∈ d.srcs)
    (hL : ∀ (s : State) (x : Turn), turnOf s = some x → perLane (x.on d.guard &&& lanes) (at_ s x.b x.g) = L s x) :
    MemRanges i (d.spEarly access n addr lanes at_) access n L := by
  intro s x f hx hr hf
  rw [he, runMem_early hx hr]
  rw [spEarly_finds hx hd hr ha, hL s x hx, hf]

end Sys2Proof.Machine
end

