-- ==== Sys2Proof/Laws/Values.lean ====
section
/-! SUPPORT. Laws/Values.lean: operand values lie within their width, the exact-then-narrow form of integer results, and
how a statement about a lane instruction follows from one about the value of a lane. -/

namespace Sys2Proof.Machine

open Sys2Proof

theorem readSrc_ready (x : Turn) (d : LaneDesc) (l : Nat) (r : ReadAs) (a : Src) :
    readSrc (x.ready d) l r a = x.rd l r a := readSrc_unmarked ..

theorem regsNat_lt (s : Store W32) (l i n : Nat) : regsNat s l i n < 2 ^ (32 * n) := by
  induction n generalizing i with
  | zero => simp [regsNat]
  | succ n ih =>
    have h1 := ih (i+1)
    have h2 := (sget 0 s (reg i l)).isLt
    simp only [regsNat]
    have : 2 ^ (32 * (n+1)) = 2^32 * 2 ^ (32*n) := by rw [← Nat.pow_add]; congr 1; omega
    rw [this]
    have h3 : regsNat s l (i+1) n + 1 ≤ 2 ^ (32*n) := h1
    have h4 : 2^32 * (regsNat s l (i+1) n + 1) ≤ 2^32 * 2 ^ (32*n) := Nat.mul_le_mul_left _ h3
    omega

theorem wrap_lt (w : Nat) (x : Int) : wrap w x < 2 ^ w := by
  unfold wrap
  have : (0:Int) < ((2^w : Nat) : Int) := by exact_mod_cast Nat.two_pow_pos w
  have h1 := Int.emod_nonneg x (show ((2^w : Nat) : Int) ≠ 0 by omega)
  have h2 := Int.emod_lt_of_pos x this
  generalize ((2^w : Nat)) = n at *
  omega

theorem rd_lt (x : Turn) (l w : Nat) (a : Src) : x.rd l (.int w) a < 2 ^ w := by
  have h : 0 < 2 ^ w := Nat.two_pow_pos w
  cases a <;> simp only [Turn.rd, readSrc, ReadAs.bits, inlAs, immAs] <;> first | exact Nat.mod_lt _ h | exact wrap_lt _ _

/-- Lane instructions as shapes. -/
theorem gives_shape {i : Instr} {d e : LaneDesc} {val : Turn → Nat → Nat} (he : ∀ s, exec i s = .next (runLane s d))
    (hs : ∀ ev, { d with eval := ev, custom := none } = { e with eval := ev, custom := none })
    (hc : d.custom = none)
    (hv : i.wf = true → ∀ (x : Turn) (l : Nat), l < 64 → (x.on d.guard).getLsbD l = true →
      (d.eval x.b x.gang (x.ready d) (x.on d.guard) l).val = val x l) : LaneGives i e val := by
  have h := lane_gives he hc hv
  have hh := hs (fun _ _ _ _ _ => {})
  obtain ⟨⟩ := d
  obtain ⟨⟩ := e
  simp only [LaneDesc.mk.injEq] at hh
  obtain ⟨rfl, rfl, rfl, rfl, rfl, rfl, rfl, -, -⟩ := hh
  exact h
theorem read_int (t : LaneTy) : t = .n32 ∨ t = .s32 ∨ t = .n64 ∨ t = .s64 → ltRead t = .int (ltBits t) := by rintro (h|h|h|h) <;> subst h <;> rfl

theorem ltBits_pos (t : LaneTy) : 1 ≤ ltBits t := by cases t <;> decide
theorem asInt_eq (t : LaneTy) {x : Nat} (h : x < 2 ^ ltBits t) : asInt t x = intVal (ltSigned t) (ltBits t) x := by
  have hp := ltBits_pos t
  unfold asInt intVal
  split
  · unfold sx
    rw [BitVec.toInt_eq_toNat_cond, BitVec.toNat_ofNat, Nat.mod_eq_of_lt h]
    have : 2 ^ ltBits t = 2 * 2 ^ (ltBits t - 1) := by rw [← Nat.pow_succ']; congr 1; omega
    split <;> split <;> omega
  · rw [Nat.mod_eq_of_lt h]
theorem rd_asInt {t : LaneTy} (ht : ltRead t = .int (ltBits t)) (x : Turn) (l : Nat) (a : Src) :
    asInt t (x.rd l (ltRead t) a) = intVal (ltSigned t) (ltBits t) (x.rd l (ltRead t) a) := by
  rw [ht]; exact asInt_eq t (rd_lt ..)
theorem least_eq (t : LaneTy) : least t = intMin (ltSigned t) (ltBits t) := by unfold least intMin; rfl
theorem most_eq (t : LaneTy) : most t = intMax (ltSigned t) (ltBits t) := by
  unfold most intMax; split <;> simp
theorem satInt_eq (t : LaneTy) (sat : Bool) (z : Int) : satInt (ltSigned t) sat (ltBits t) z = (narrow t sat z, narrowFlags t sat z) := by
  unfold satInt narrow narrowFlags low wrap clampInt isFlag
  rw [least_eq, most_eq]
  cases sat
  · simp
  · have hp := ltBits_pos t
    have : intMin (ltSigned t) (ltBits t) ≤ intMax (ltSigned t) (ltBits t) := by
      unfold intMin intMax
      have := Nat.two_pow_pos (ltBits t - 1)
      have := Nat.two_pow_pos (ltBits t)
      split <;> omega
    simp only [if_true, Bool.true_and]
    split
    · rename_i h
      have : max (intMin (ltSigned t) (ltBits t)) (min (intMax (ltSigned t) (ltBits t)) z) = intMin (ltSigned t) (ltBits t) := by omega
      simp [this, h]
    · split
      · rename_i h h2
        have : max (intMin (ltSigned t) (ltBits t)) (min (intMax (ltSigned t) (ltBits t)) z) = intMax (ltSigned t) (ltBits t) := by omega
        simp [this, h, h2]
      · rename_i h h2
        have : max (intMin (ltSigned t) (ltBits t)) (min (intMax (ltSigned t) (ltBits t)) z) = z := by omega
        simp [this, h, h2]

theorem read_isInt {t : LaneTy} (h : t.isInt = true) : ltRead t = .int (ltBits t) := by cases t <;> simp_all [LaneTy.isInt, ltRead, ltBits]
theorem read_isS {t : LaneTy} (h : t.isS = true) : ltRead t = .int (ltBits t) ∧ ltSigned t = true := by cases t <;> simp_all [LaneTy.isS, ltRead, ltBits, ltSigned]

end Sys2Proof.Machine
end

