-- ==== Sys2Proof/Laws/Uniform.lean ====
section
/-! SUPPORT. Laws/Uniform.lean: how a statement about a uniform operation follows from one about its value. -/

namespace Sys2Proof.Machine

open Sys2Proof

theorem gangAt_fields (x : Turn) (d : GangDesc) : (x.gangAt d).k = x.g.k ∧ (x.gangAt d).q = x.g.q ∧ (x.gangAt d).fstat = x.g.fstat
   ∧ (x.gangAt d).live = x.g.live ∧ keepsLanes x.g (x.gangAt d) := by
  obtain ⟨a1, a2, h1, a3, a4, h2, a5, h3, h4, -, -, -, -, -, a6, -⟩ :=
    unmarked_reads x.g d.names x.g.live (if d.swap then x.g.live else 0)
  exact ⟨h1, h3, h4, h2, a1, a2, a4, a3, h2, a5, a6⟩

theorem updFirst_twice {α : Type} {p : α → Bool} {f h : α → α} (hp : ∀ x, p x = true → p (f x) = true) (l : List α) :
    updFirst p h (updFirst p f l) = updFirst p (fun x => h (f x)) l := by
  induction l with
  | nil => rfl
  | cons x t ih =>
    simp only [updFirst]
    split
    · rename_i hx; simp only [updFirst, hp x hx, if_true]
    · rename_i hx; simp only [updFirst, hx, ih]; rfl

theorem smod_twice {α : Type} (l : Store α) (n : Nat) (f h : α → α) : smod (smod l n f) n h = smod l n (fun x => h (f x)) := by
  simp only [smod, List.map_map]
  apply List.map_congr_left
  intro p _
  simp only [Function.comp]
  by_cases hp : p.1 = n <;> simp [hp]

theorem modBlk_twice (s : State) (b : Nat) (f h : Block → Block) (hf : ∀ x, (f x).id = x.id) :
    modBlk (modBlk s b f) b h = modBlk s b (fun x => h (f x)) := by
  simp only [modBlk]
  rw [updFirst_twice (fun x hx => by rw [hf]; exact hx)]

theorem modGang_twice (s : State) (b g : Nat) (f h : Gang → Gang) :
    modGang (modGang s b g f) b g h = modGang s b g (fun y => h (f y)) := by
  have e := modBlk_twice s b (fun x => { x with gangs := smod x.gangs g f }) (fun x => { x with gangs := smod x.gangs g h }) (fun _ => rfl)
  simp only [smod_twice] at e
  exact e

theorem modFeeder_twice (s : State) (b : Nat) (f h : Feeder → Feeder) :
    modFeeder (modFeeder s b f) b h = modFeeder s b (fun y => h (f y)) := by
  have e := modBlk_twice s b (fun x => { x with feeder := x.feeder.map f }) (fun x => { x with feeder := x.feeder.map h }) (fun _ => rfl)
  simp only [Option.map_map] at e
  exact e

theorem updFirst_congr {α : Type} {p : α → Bool} {f h : α → α} {l : List α} {x : α} (hx : l.find? p = some x) (e : f x = h x) :
    updFirst p f l = updFirst p h l := by
  induction l with
  | nil => rfl
  | cons a t ih =>
    rw [List.find?_cons] at hx
    simp only [updFirst]
    split at hx
    · rename_i ha; obtain rfl := Option.some.inj hx; simp only [ha, if_true, e]
    · rename_i ha; simp [ha, ih hx]

theorem modBlk_congr {s : State} {b : Nat} {f h : Block → Block} {x : Block} (hb : getBlk s b = some x) (e : f x = h x) :
    modBlk s b f = modBlk s b h := by
  simp only [modBlk, updFirst_congr hb e]

/-- Where a gang has been put whole, the frame is the gang that is read back. -/
theorem put_gang {s t : State} {b g : Nat} {x y z : Gang} (h0 : getGang s b g = some x) (ht : t = modGang s b g (fun _ => z))
    (hy : getGang t b g = some y) : t = modGang s b g (fun _ => y) := by
  have h1 : getGang t b g = some z := by rw [ht]; exact getGang_modGang_same h0
  rw [hy] at h1
  rw [ht, Option.some.inj h1]

/-- A feeder that is known: changing it is putting the changed one. -/
theorem modFeeder_known {s : State} {b : Nat} {x : Block} {y : Feeder} (f : Feeder → Feeder) (hb : getBlk s b = some x)
    (hy : x.feeder = some y) : modFeeder s b f = modFeeder s b (fun _ => f y) :=
  modBlk_congr hb (by simp only [hy, Option.map_some])

theorem gangSees_gang {s : State} {x : Turn} {d : GangDesc} (hx : turnOf s = some x) :
    getGang (gangSees s x d) x.blk x.gang = some { x.gangAt d with wait := .none, waitLen := 0 } :=
  getGang_modGang_same (turnOf_spec hx).2.2.2

theorem partyK_gang {s : State} {b g : Nat} {y : Gang} (h : getGang s b g = some y) : partyK s b (.gang g) = y.k := by
  obtain ⟨bb, hb, hg⟩ := Option.bind_eq_some_iff.mp h
  simp [partyK, hb, Block.kOf, hg]
theorem partyQ_gang {s : State} {b g : Nat} {y : Gang} (h : getGang s b g = some y) : partyQ s b (.gang g) = y.q := by
  obtain ⟨bb, hb, hg⟩ := Option.bind_eq_some_iff.mp h
  simp [partyQ, hb, Block.qOf, hg]

theorem uni_gives {i : Instr} {d : UniDesc} {kd : BitVec 6} {val fl} (hk : d.kdst = some kd)
    (he : ∀ s, exec i s = .next (runUni s d)) (hv : i.wf = true → ∀ k q, (d.eval k q).1 = val k q ∧ (d.eval k q).2 = fl k) :
    UniGives i d.guard d.srcs kd val fl := by
  intro hwf
  have hd : uniShape d.guard d.srcs [kd] = d.gang := by simp [uniShape, UniDesc.gang, hk]
  rw [hd]
  constructor
  · intro s x hx hr
    have h1 := gangSees_gang (d := d.gang) hx
    obtain ⟨f1, f2, f3, f4, f5⟩ := gangAt_fields x d.gang
    have hE : runUni s d = noted s x (stepped x (applyUni (gangSees s x d.gang) x.blk (.gang x.gang) d (d.eval x.g.k x.g.q))) := by
      simp only [runUni, runGang_ready hx hr, Turn.iss, partyK_gang h1, partyQ_gang h1, f1, f2]
    have hA : ∃ y, getGang (applyUni (gangSees s x d.gang) x.blk (.gang x.gang) d (d.eval x.g.k x.g.q)) x.blk x.gang = some y
        ∧ y = raiseFlags { x.gangAt d.gang with wait := .none, waitLen := 0, k := sset 0 (x.gangAt d.gang).k kd.toNat (BitVec.ofNat 64 (d.eval x.g.k x.g.q).1), badRegs := kMarks d.high kd (x.gangAt d.gang).badRegs } (d.eval x.g.k x.g.q).2 :=
      ⟨_, by simp only [applyUni, hk, setKw]; exact getGang_modGang_same (getGang_modGang_same h1), rfl⟩
    obtain ⟨y, hA, hy⟩ := hA
    have hG := getGang_noted (s := s) (getGang_modGang_same (f := fun g => advance g g.live x.addr x.len) hA)
    have hT : ∃ z, noted s x (stepped x (applyUni (gangSees s x d.gang) x.blk (.gang x.gang) d (d.eval x.g.k x.g.q)))
        = modGang s x.blk x.gang (fun _ => z) := by
      simp only [noted, marked, stepped, applyUni, hk, setKw, gangSees, Turn.frag, modGang_twice]
      exact ⟨_, rfl⟩
    obtain ⟨z, hT⟩ := hT
    refine ⟨_, _, by rw [he, hE]; rfl, hG, ?_⟩
    have hF := put_gang (turnOf_spec hx).2.2.2 hT hG
    refine ⟨?_, ?_, ?_, ?_, hF, ?_, ?_⟩
    all_goals subst hy; simp only [noteOf, advance, raiseFlags, (hv hwf _ _).1, (hv hwf _ _).2, f1, f2, f3, f4]
    · exact sget_sset_same _ _ _ _
    · exact fun n hn => sget_sset_ne _ _ _ hn
    · obtain ⟨a1, a2, a3, a4, -, a6, a7⟩ := f5
      exact ⟨a1, a2, a3, a4, rfl, a6, a7⟩
    · intro l hl hlive
      exact advance_pc { x.g with live := x.g.live, pc := (x.gangAt d.gang).pc } x.addr x.len hl hlive
  · intro s x hx hr
    have hspec := hx
    unfold fturnOf at hspec
    split at hspec
    · rename_i blk a len insn hact
      split at hspec
      · rename_i b hb
        obtain ⟨f, hf, rfl⟩ := Option.map_eq_some_iff.mp hspec
        have hb2 : getBlk (feederSees s ⟨blk, a, len, insn, b, f⟩) blk = some _ := getBlk_modBlk_same hb rfl
        have hkk : partyK (feederSees s ⟨blk, a, len, insn, b, f⟩) blk .feeder = f.k := by
          simp only [partyK, hb2, Option.map_some, Option.getD_some, Block.kOf, hf]
        have hqq : partyQ (feederSees s ⟨blk, a, len, insn, b, f⟩) blk .feeder = f.q := by
          simp only [partyQ, hb2, Option.map_some, Option.getD_some, Block.qOf, hf]
        have hE : runUni s d = fstepped ⟨blk, a, len, insn, b, f⟩ (applyUni (feederSees s ⟨blk, a, len, insn, b, f⟩) blk .feeder d (d.eval f.k f.q)) := by
          simp only [runUni, runGang_feeder hx hr, FTurn.iss, hkk, hqq]
        have hT : ∃ z, fstepped ⟨blk, a, len, insn, b, f⟩ (applyUni (feederSees s ⟨blk, a, len, insn, b, f⟩) blk .feeder d (d.eval f.k f.q))
            = modFeeder s blk (fun _ => z) ∧ z.k = sset 0 f.k kd.toNat (BitVec.ofNat 64 (d.eval f.k f.q).1) ∧ z.q = f.q
            ∧ z.pc = FTurn.next ⟨blk, a, len, insn, b, f⟩ := by
          simp only [fstepped, applyUni, hk, setKw, feederSees, setWait, modFeeder_twice]
          exact ⟨_, modFeeder_known _ hb hf, rfl, rfl, rfl⟩
        obtain ⟨z, hT, z1, z2, z3⟩ := hT
        refine ⟨_, _, z, by rw [he, hE, hT]; rfl, getBlk_modBlk_same hb rfl, by simp [hf], ?_⟩
        rw [z1, z2, z3]
        simp only [(hv hwf _ _).1]
        exact ⟨sget_sset_same _ _ _ _, fun n hn => sget_sset_ne _ _ _ hn, trivial, trivial, rfl⟩
      · cases hspec
    · cases hspec

end Sys2Proof.Machine
end

