-- ==== Sys2Proof/Tests/Slice0.lean ====
section
/-! SUPPORT. Tests/Slice0.lean: tests of the decoder and of single steps against the words and tables that the spec writes
out, the ill-formed terms that each check of WellFormed refuses, and for every statement with hypotheses states and operands
that meet them. -/

namespace Sys2Proof.Tests

open Sys2Proof Sys2Proof.Machine

/- One theorem at a time: many kernel evaluations under way together reserve more memory than a check may use. -/
set_option Elab.async false

/-! ### States that the witnesses start from -/

/-- One block with one gang of one thread, which stands at its own instruction. -/
def w0 : State :=
  { State.reset.withFetchWord 64 0 with
    cur := [], active := some { who := .group 0 65536 [{ blk := placeId, gang := 0, mask := 1 }], len := 8, insn := 0 } }
/-- The same with the gang, the block or the machine changed. -/
def wg (f : Gang → Gang) : State := modGang w0 placeId 0 f
def wb (f : Block → Block) : State := modBlk w0 placeId f
/-- The same with the feeder's instruction carried out. -/
def wf (f : Feeder → Feeder) : State :=
  { modFeeder w0 placeId f with active := some { who := .feeder placeId 65536, len := 8, insn := 0 } }
/-- Translation buffers that hold the page. -/
def filled (s : State) : State := modCore s 0 (fun c => { c with tlb := [{ ctx := placeCtx, va := 65536, size := 65536 }] })
/-- Uniform registers 0, 1, 2 … -/
def ks (l : List W64) : Store W64 := l.zipIdx.foldl (fun s p => sset 0 s p.2 p.1) []
/-- Main registers 0, 1, 2 … of lane 0. -/
def vs (l : List W32) : Store W32 := l.zipIdx.foldl (fun s p => sset 0 s (reg p.2 0) p.1) []

/-! ### What a witness shows -/

/-- A lane instruction of the state is well formed and ready. -/
def laneMet (s : State) (i : Instr) : Bool :=
  i.wf && (turnOf s).any (fun x => (laneOf s i).any (fun d => laneReady x d))
/-- A gang-issued instruction is ready and its condition holds. -/
def gangMet (s : State) (d : GangDesc) (cond : State → Turn → Block → Gang → Bool) : Bool :=
  (turnOf s).any (fun x => gangReady s x d && (getBlk (gangSees s x d) x.blk).any (fun b =>
    (sfind b.gangs x.gang).any (fun y => cond (gangSees s x d) x b y)))
/-- A feeder's instruction can run and its condition holds. -/
def feederMet (s : State) (d : GangDesc) (cond : State → FTurn → Block → Bool) : Bool :=
  (fturnOf s).any (fun x => feederCan s x d && (getBlk (feederSees s x) x.blk).any (fun b => cond (feederSees s x) x b))
/-- An instruction of a gang or a feeder meets its condition in both states. -/
def partyMet (s t : State) (d : GangDesc) (cond : State → Iss → Block → Store W64 → Bool) : Bool :=
  gangMet s d (fun s x b _ => cond s x.iss b x.g.k) && feederMet t d (fun s x b => cond s x.iss b x.f.k)
/-- A per-thread instruction is ready and its condition holds. -/
def memMet (s : State) (d : MemDesc) (cond : State → Turn → Bool) : Bool :=
  (turnOf s).any (fun x => memReady s x d && cond (memState s x d) x)

/-! ### The integer, float, conversion and cross-lane groups -/

abbrev ga : Guard := Guard.always
abbrev d4 : Dst := .v 4
abbrev s2d : Dst := .v 2
abbrev s2 : Src := .v 2
abbrev s6 : Src := .v 6
abbrev s8 : Src := .v 8
abbrev k1 : Src := .k 1
abbrev k2 : Src := .k 2

/-- R209 to R216: for every integer instruction, at widths 32 and 64, under a guard and without. -/
theorem wit_integer_group : (
    [Instr.iadd ga .s32 true d4 s2 (.imm 5), .isub ga .n64 false d4 s2 s6, .iadd3 ga .s32 true d4 s2 s6 s8, .imul ga .n64 d4 s2 s6,
     .imulh ga .s64 d4 s2 s6, .imad ga .s64 true d4 s2 s6 s8, .idiv ga .s32 d4 s2 (.inl (-1)), .irem ga .n64 d4 s2 (.inl 0),
     .imin ga .s32 d4 s2 s6, .imax ga .n32 d4 s2 s6, .iabs ga .s64 true d4 s2, .ineg ga .s32 false d4 s2,
     .and ga .n32 d4 s2 s6, .or ga .n64 d4 s2 s6, .xor ga .n32 d4 s2 s6, .andn ga .n64 d4 s2 s6, .not ga .n64 d4 s2,
     .shl ga .n32 d4 s2 (.imm 32), .shr ga .n64 d4 s2 (.inl 64), .sar ga .n32 d4 s2 s6, .rot ga .n64 d4 s2 s6, .fshl ga .n32 d4 s2 s6 s8,
     .fshl ga .n64 d4 s2 s6 (.inl 0), .popc ga .n64 d4 s2, .clz ga .n32 d4 s2, .ctz ga .n64 d4 s2, .brev ga .n64 d4 s2,
     .bfe ga .s64 d4 s2 s6, .bfi ga .n32 d4 s2 s6 s8, .prmb ga d4 s2 s6 s8, .bmask ga .eq .b128 d4 (.v 4) s6 s8, .bmask ga .rng .n64 d4 s2 s6 s8,
     .bmask ga .set .n32 d4 s2 s6 s8, .clmul ga d4 s2 s6, .clmulh ga d4 s2 s6, .clmul ga d4 s2 (.inl (-1)), .icmp ga .lt .s64 3 s2 s6,
     .icmp ga .eq .n32 7 s2 s6, .sel ga .n64 d4 s2 s6 ⟨true, 2⟩, .lea ga .s64 d4 s2 s6 31, .mov ga .b128 d4 (.v 8), .movi ga .s64 d4 s2 (.imm62 5)]).all
    (laneMet w0) = true := by decide +kernel

/-- R217 to R219: for every float instruction, in each type of its own. -/
theorem wit_float_group : (
    [Instr.fadd ga .f32 .rne d4 s2 s6, .fsub ga .f16 .rz d4 s2 s6, .fmul ga .bf16x2 .rdn d4 s2 s6, .ffma ga .f16x2 .rsr d4 s2 s6 s8,
     .fmin ga .f32 d4 s2 s6, .fmax ga .bf16 d4 s2 s6, .fcmp ga .uno .f16 3 s2 s6, .fclass ga .f32 d4 s2, .frcp ga .rup d4 s2, .frsq ga .rna d4 s2,
     .fsqrt ga .rne d4 s2, .fdiv ga .rne d4 s2 s6, .fexp2 ga d4 s2, .flog2 ga d4 s2, .fsin ga d4 s2, .fcos ga d4 s2, .ftanh ga d4 s2,
     .fsigm ga d4 s2, .fscale ga .f32 .rne d4 s2 s6, .frnd ga .bf16 .rz d4 s2, .fcopys ga .f16x2 d4 s2 s6]).all (laneMet w0) = true := by
  decide +kernel

/-- R218: operands for which the rule's table names a result: no numbers, the infinities, zeros, one, a negative number. -/
theorem wit_special_operands : ([0x7FC00000, 0xFFFFFFFF, 0x7F800000, 0xFF800000, 0, 0x80000000, 0x3F800000, 0xBF800000].all (fun n =>
    (turnOf (wg (fun g => { g with v := vs [0, 0, n] }))).any (fun x => laneReady x (shape ga (.lane d4 1) [(s2, 1)]) && x.on ga == 1
      && x.rd 0 (.flt .f32) s2 == n.toNat))) = true := by decide +kernel

/-- 04 R83: values that a format can hold, at both ends of their range. -/
theorem wit_float_values : unpackF .f16 0x7BFF = .fin false 2047 5 ∧ unpackF .f16 0x8001 = .fin true 1 (-24)
    ∧ roundF .f16 .rsr 9 {} (.fin false 2047 5) = (0x7BFF, 0) := by decide +kernel

/-- 04 R83 to R85, R87: values that f16 and e4m3 cannot hold: a tie that goes to the even number, the same rounded by each other
mode, a value below the smallest number, values beyond the largest. -/
theorem wit_rounding :
    (let r := fun (f : Fmt) (m : Rnd) (u : Nat) (s : Bool) (n : Nat) (e : Int) => roundF f m u {} (.fin s n e)
     r .f16 .rne 0 false 2049 0 == (0x6800, flNX) && r .f16 .rna 0 false 2049 0 == (0x6801, flNX) && r .f16 .rup 0 false 2049 0 == (0x6801, flNX)
      && r .f16 .rdn 0 true 2049 0 == (0xE801, flNX) && r .f16 .rz 0 true 2049 0 == (0xE800, flNX)
      && r .f16 .rsr 0x7FFFFFFF false 2049 0 == (0x6801, flNX) && r .f16 .rsr 0x80000000 false 2049 0 == (0x6800, flNX)
      && r .f16 .rne 0 false 1 (-26) == (0, flUF ||| flNX) && r .f16 .rup 0 false 1 (-26) == (1, flUF ||| flNX)
      && r .f16 .rne 0 false 65519 0 == (0x7BFF, flNX) && r .f16 .rne 0 false 65520 0 == (0x7C00, flOF ||| flNX) && r .f16 .rz 0 true 65536 0 == (0xFBFF, flOF ||| flNX)
      && r .e4m3 .rne 0 false 480 0 == (0x7E, flOF ||| flNX)) = true := by decide +kernel

/-- R220 to R225: for every conversion. -/
theorem wit_conversions : (
    [Instr.cvt ga .e4m3 .f32 .rsr true false d4 s2 none, .cvt ga .s8 .n64 .rne false true d4 s2 none, .cvt ga .f16x2 .f32 .rne false false d4 s2 (some s6),
     .qgrp ga .s8 .f32 .rne d4 s2, .dqgrp ga .bf16 .e2m1 d4 s2, .pkparcel ga .e4m3 d4 s2 4, .unparcel ga .s4 d4 s2 8, .planes ga d4 s2 7]).all
    (laneMet w0) = true := by decide +kernel

/-- 08 R221: a finite value, infinities and no number as operands of a conversion to an integer. -/
theorem wit_conversion_values : unpackF .f16 0xC000 = .fin true 1024 (-9) ∧ unpackF .e5m2 0x7C = .inf false ∧ unpackF .bf16 0xFFC0 = .nan
    ∧ (unpackF .e4m3 0x7E).isNan = false := by decide +kernel

/-- R226 to R230, R234 to R236, R295 to R297: for every instruction across the lanes and every one that reads the machine; SREAD
of each special register. -/
theorem wit_cross_lane_group : (
    [Instr.shfl ga .idx .n64 d4 (.v 8) s6, .shfl ga .up .n64 d4 s2 s6, .shfl ga .dn .n32 d4 s2 s6, .shfl ga .xor .n32 d4 s2 s6, .vote ga (.any 3) ⟨true, 1⟩,
     .vote ga (.all 3) ⟨false, 7⟩, .vote ga (.ballot d4) ⟨false, 1⟩, .matchv ga (.any d4) .n64 s2, .matchv ga (.all 2) .n32 s2,
     .scan ga .add .s64 true d4 s2, .scan ga .max .f32 false d4 s2, .red ga .and .n64 d4 s2, .red ga .min .f32 d4 s2, .topk ga d4 s2 s6 (.inl 4),
     .plop ga false 3 0 1 2 0x80, .rng ga .b128 d4, .rng ga .f32 d4, .rngx ga .b64 d4 (.v 8), .clk ga d4]
    ++ [0x00, 0x01, 0x02, 0x03, 0x04, 0x05, 0x06, 0x08, 0x09, 0x0A, 0x0B, 0x0C, 0x0D, 0x0E, 0x10, 0x11, 0x12, 0x14, 0x15, 0x18, 0x19, 0x1A, 0x1C, 0x1D,
        0x1E, 0x20, 0x21, 0x22].map (fun n => Instr.sread ga n d4)).all (laneMet w0) = true := by decide +kernel

/-- R36, R45, R46: a source that is a latch, with its valid bit; a guard that some thread fails. -/
theorem wit_latch_source_and_guard :
    laneMet (wg (fun g => { g with lat := [(reg 1 0, 7)], latValid := [(1, 1)] })) (.iadd ga .s64 true .none (.l 1) s2) = true
    ∧ (turnOf (wg (fun g => { g with live := 3 }))).any (fun x => x.on ⟨true, 2⟩ == 1 && x.on ⟨false, 2⟩ == 0) = true := by
  decide +kernel

/-- 02 R45: the frame of a lane instruction: a ready one that writes its own source. -/
theorem wit_lane_frame : (turnOf w0).any (fun x => (laneOf w0 (.iadd ga .n32 false s2d s2 s2)).any (fun d =>
    d.custom.isNone && laneReady x d)) = true := by decide +kernel

/-! ### The uniform group -/

/-- R231, R295: for every uniform operation, in a gang and in a feeder. -/
theorem wit_uniform_group : (
    [(Instr.kadd ga .s32 true 4 k1 (.imm 5), [(k1, 1), (.imm 5, 1)], [4]), (.ksub ga .n64 false 4 k1 k2, [(k1, 2), (k2, 2)], [4]), (.kmul ga .s64 4 k1 k2, [(k1, 2), (k2, 2)], [4]),
     (.kmad ga .s64 true 4 k1 k2 (.inl 3), [(k1, 2), (k2, 2), (.inl 3, 2)], [4]), (.kand ga .n64 4 k1 k2, [(k1, 2), (k2, 2)], [4]), (.kor ga .n32 4 k1 k2, [(k1, 1), (k2, 1)], [4]),
     (.kxor ga .n64 4 k1 k2, [(k1, 2), (k2, 2)], [4]), (.kshl ga .n64 4 k1 (.inl 64), [(k1, 2), (.inl 64, 2)], [4]), (.kshr ga .n32 4 k1 (.inl 31), [(k1, 1), (.inl 31, 2)], [4]),
     (.ksar ga .s64 4 k1 k2, [(k1, 2), (k2, 2)], [4]), (.kmin ga .s32 4 k1 k2, [(k1, 1), (k2, 1)], [4]), (.kmax ga .n64 4 k1 k2, [(k1, 2), (k2, 2)], [4]),
     (.ksel ga .n64 4 k1 k2 ⟨true, 3⟩, [(k1, 2), (k2, 2)], [4]), (.kmov ga .n64 4 k1, [(k1, 2)], [4]), (.kmovi ga .n64 false 4 (.imm62 7), [(.imm62 7, 2)], [4]),
     (.kmovi ga .n64 true 4 (.imm 7), [(.imm 7, 1)], [4]), (.kcmp ga .lt .s64 6 k1 k2, [(k1, 2), (k2, 2)], []), (.kcmp ga .eq .n32 7 k1 k2, [(k1, 1), (k2, 1)], []),
     (.plop ga true 3 0 1 2 0x80, [], [])] : List (Instr × List (Src × Nat) × List (BitVec 6))).all (fun t => t.1.wf
      && gangMet w0 (uniShape ga t.2.1 t.2.2) (fun _ _ _ _ => true) && feederMet (wf id) (uniShape ga t.2.1 t.2.2) (fun _ _ _ => true)) = true := by
  decide +kernel

/-- R233: KREADLANE of the last lane, where no thread lives, and of the first; KBCAST of a pair. -/
theorem wit_readlane_and_bcast :
    ((Instr.kreadlane ga .s32 4 (.v 2) (.inl 63)).wf && gangMet w0 { guard := ga, srcs := [.inl 63], kdst := [4], lsrcs := [(.v 2, 1)] }
        (fun _ x _ _ => poisonLanes x.g (srcBad 1 (.v 2)) (laneBit 63 &&& x.g.live) == 0 && !x.g.live.getLsbD 63)
      && (Instr.kreadlane ga .n64 4 (.v 2) (.inl 0)).wf && gangMet w0 { guard := ga, srcs := [.inl 0], kdst := [4], lsrcs := [(.v 2, 2)] }
        (fun _ x _ _ => poisonLanes x.g (srcBad 2 (.v 2)) (laneBit 0 &&& x.g.live) == 0 && x.g.live.getLsbD 0)
      && (Instr.kbcast ga .n64 d4 k1).wf && gangMet w0 { guard := ga, srcs := [k1], words := [2], ldst := some (d4, 2) } (fun _ _ _ _ => true)) = true := by
  decide +kernel

/-! ### Encodings, the step and issue -/

/-- 02 R29 to R43: an instruction of each length with its words. -/
theorem wit_round_trip : (
    [Instr.ffma ⟨false, 3⟩ .f32 .rne (.o 2) (.v 10) (.l 1) (.inl 2), .iadd ga .s32 false (.v 4) (.v 4) (.imm 1000), .kmovi ga .n64 false 0 (.imm62 (-1)),
     .pair (.iadd ⟨false, 1⟩ .n32 false (.v 8) (.v 8) (.k 5)) (.kadd ⟨false, 1⟩ .n64 false 5 (.k 5) (.inl 64)), .nop ga .base, .nop ga .ext, .nop ga .long]).all
    (fun i => i.wf && (encode i).any (fun x => decodeBits (joinBits x) == .ok i x.ext.bytes)) = true := by decide +kernel

/-- 02 R43: words that decode, at each length, and words that no instruction has. -/
theorem wit_words :
    (decodeBits 0x083024240A408D0C == .ok (.ffma ⟨false, 3⟩ .f32 .rne (.o 2) (.v 10) (.l 1) (.inl 2)) 8
      && ((0x3 : BitVec 128).extractLsb' 0 2).toNat == 3
      && ((0xF0 * 4 : BitVec 128).extractLsb' 2 8).toNat == 0xF0 && ((0x1F * 4 : BitVec 128).extractLsb' 2 8).toNat == 0x1F
      && ((0xF * 1024 : BitVec 128).extractLsb' 10 4) == 15) = true := by decide +kernel

/-- 02 R44: an issue that stands at its bytes. -/
theorem wit_step_runs_decoded :
    (State.reset.withFetchWord 64 0x0000000305001C28).dev.power ≠ 0 ∧
    (match (State.reset.withFetchWord 64 0x0000000305001C28).cur with
      | y :: rest =>
        let s0 := { State.reset.withFetchWord 64 0x0000000305001C28 with cur := rest }
        (stillThere s0 y).any (fun z => match fetchFor s0 z with
          | some (.instr i len _) => i == .trap ga (.inl 5) && len == 8
          | _ => false)
      | [] => false) = true := by decide +kernel

/-- 02 R29, R30: bytes of a legal word, of a reserved major opcode, and at the end of a 32-byte sector. -/
theorem wit_fetch_finds_bytes : (
    [(0x0000000305001C28, (65536 : W64), 8), (0x000000000000007D, 65536, 12), (0, 65536 + 28, 8)].all (fun p =>
      let s := State.reset.withFetchWord 128 p.1
      p.2.1.toNat % 4 == 0 && (match fetchBytes s placeCtx 0 [] p.2.1 8 with
        | .ok base => lenBytes (base.headD 0) == p.2.2 && (match fetchBytes s placeCtx 0 [] (p.2.1 + 8) (p.2.2 - 8) with
          | .ok _ => true
          | .error _ => false)
        | .error _ => false))) = true := by decide +kernel

/-! ### Control flow and exceptions -/

/-- The gang with a return stack of lane 0. -/
def wr (l : List W64) (s : Nat) (v : List W32) : State := wg (fun g => { g with v := vs v, rstack := [(0, { chip := l, spilled := s })] })
/-- The hypotheses of a branch, call or return. -/
def branchMet (s : State) (d : MemDesc) (cond : State → Turn → Bool) : Bool :=
  memMet s d (fun _ x => (List.range 64).all (fun l => let r := sget ({} : RStack) x.g.rstack l
    decide (r.spilled ≤ 252) && decide (r.chip.length ≤ 4) && (r.chip != [] || r.spilled == 0)) && cond s x)
abbrev m0 : MemDesc := { guard := ga, srcs := [] }
abbrev m2 : MemDesc := { guard := ga, srcs := [(s2, 2)] }
abbrev g0 : GangDesc := { guard := ga, srcs := [] }
abbrev gf : GangDesc := { guard := ga, srcs := [], feederOk := true }

/-- R299, R300: a branch back, one to an operand, calls with one free entry, a return of the only entry; and each of their
faults: a target of 2 modulo 4, a full stack, an empty one, two targets. -/
theorem wit_branches :
    (branchMet w0 m0 (fun _ x => (x.addr + (0xFFFFFFE0 : BitVec 32).signExtend 64).toNat % 4 == 0)
      && feederMet (wf id) gf (fun _ _ _ => true)
      && branchMet (wr [] 0 [0, 0, 65540]) m2 (fun _ x => x.rd 0 (.int 64) s2 == 65540)
      && branchMet (wr [4, 8, 12] 0 [0, 0, 65540]) m2 (fun _ x => (retList x.g 0).length == 3 && x.b.kd.sd == 0 && x.rd 0 (.int 64) s2 % 4 == 0)
      && branchMet (wr [4, 8, 12] 0 []) m0 (fun _ x => (retList x.g 0).length == 3)
      && branchMet (wr [4] 0 []) m0 (fun _ x => retList x.g 0 == [4] && !refillBad x.g 0)
      && memMet (wr [] 0 [0, 0, 65538]) m2 (fun _ x => x.rd (lowestLane (x.on ga)) (.int 64) s2 % 4 == 2)
      && memMet (wr [4, 8, 12, 16] 0 [0, 0, 65540]) m2 (fun _ x => (sget ({} : RStack) x.g.rstack (lowestLane (x.on ga))).depth == 4 + x.b.kd.sd
        && x.rd (lowestLane (x.on ga)) (.int 64) s2 % 4 == 0)
      && memMet w0 m0 (fun _ x => (sget ({} : RStack) x.g.rstack (lowestLane (x.on ga))).depth == 0 && (topRet x.g 0).toNat % 4 == 0)
      && memMet { wg (fun g => { g with live := 3, pc := [(0, 65536), (1, 65536)], v := [(reg 2 0, 65540)] }) with
          active := some { who := .group 0 65536 [{ blk := placeId, gang := 0, mask := 3 }], len := 8, insn := 0 } } m2
        (fun _ x => lowestLane (x.on ga) == 0 && x.rd 1 (.int 64) s2 != x.rd 0 (.int 64) s2)) = true := by decide +kernel

/-- R301 to R303, R358: NOP, EXIT, YIELD with a gang pending and without, TRAP with a number of 16 bits, BKPT without debug. -/
theorem wit_nop_exit_yield_trap :
    (let gives := fun (s : State) (x : Turn) => (x.on ga ||| x.g.parked ||| x.g.atSwap) &&& x.g.live == x.g.live && (getCore s x.b.core).pendReady
     memMet w0 m0 (fun _ _ => true) && feederMet (wf id) gf (fun _ _ _ => true)
      && memMet (modCore w0 0 (fun c => { c with pendReady := true })) { m0 with swap := true }
        (fun s x => gives s x)
      && memMet w0 { m0 with swap := true } (fun s x => !gives s x)
      && memMet w0 { guard := ga, srcs := [(.imm 65535, 1)] } (fun _ x => x.rd 0 (.int 16) (.imm 65535) == 65535)
      && memMet w0 m0 (fun s x => !debugOn s x.b.ctx)) = true := by decide +kernel

/-- The handler action in the root region. -/
def wh : State := modCtx w0 placeCtx (fun c => { c with rootRegion := { c.rootRegion with action := 0, handler := 65536 } })
/-- A gang in handler mode, its fault precise or not. -/
def whm (async : Bool) : State := wg (fun g => { g with handler := some { resume := [(0, 65544)], faulting := 1, len := 12, report := {}, async := async } })

/-- R355 to R357, R359: a fault of a gang outside handler mode whose region has a handler; a gang in handler mode and out. -/
theorem wit_handler :
    ((getBlk wh placeId).any (fun b => (sfind b.gangs 0).any (fun g => !g.exited && g.handler.isNone
        && (regionOf wh b.ctx b.region).action == 0 && (regionOf wh b.ctx b.region).handler != 0))
      && [true, false].all (fun a => gangMet (whm a) { g0 with guard := .always } (fun _ x _ _ => x.g.handler.any (fun h => h.async == a && h.faulting.getLsbD 0)))
      && gangMet (whm false) { g0 with kdst := [63] } (fun _ x _ _ => x.g.handler.isSome)
      && [[], [63]].all (fun k => gangMet w0 { g0 with kdst := k } (fun _ x _ _ => x.g.handler.isNone))) = true := by decide +kernel

/-! ### Events, special registers, counters -/

/-- Some answer, none, and an error of a class and cause. -/
def okB {ε α : Type} (x : Except ε α) : Bool := match x with | .ok _ => true | .error _ => false
def errB {α : Type} (x : Except Flt α) (cls cause : Nat) : Bool := match x with | .ok _ => false | .error f => f.cls == cls && f.cause == cause
/-- Both parties of the block with uniform registers 0, 1, 2 … -/
def wk (l : List W64) (f : Block → Block) : State := modBlk (wg (fun g => { g with k := ks l })) placeId f
def wkf (l : List W64) (f : Block → Block) : State := modBlk (wf (fun g => { g with k := ks l })) placeId f
/-- The condition holds of a gang and of a feeder of such a block, its page in the translation buffers. -/
def kMet (l : List W64) (f : Block → Block) (d : GangDesc) (cond : State → Iss → Block → Store W64 → Bool) : Bool :=
  partyMet (filled (wk l f)) (filled (wkf l f)) d cond
/-- The same with the page in no translation buffer: an access to it waits. -/
def kCold (l : List W64) (f : Block → Block) (d : GangDesc) (va : Store W64 → W64) (cond : State → Iss → Block → Store W64 → Bool) : Bool :=
  partyMet (wk l f) (wkf l f) d (fun s i b k => (missAt s b.ctx b.core (partyRef b.id i.party) (va k)).isSome && cond s i b k)
/-- The page is in the translation buffers; every translation of `t` was there before; one was not, and a walk serves the party. -/
def held (s : State) (b : Block) (va : W64) : Bool := tlbHolds s b.ctx b.core va.toNat
def hot (s : State) (b : Block) (t : State) : Bool := (getCore t b.core).tlb.all (fun e => tlbHolds s e.ctx b.core e.va)
def cold (s : State) (b : Block) (p : Party) (t : State) : Bool :=
  ((getCore t b.core).tlb.find? (fun e => !tlbHolds s e.ctx b.core e.va)).any (fun e =>
    (missAt s b.ctx b.core (partyRef b.id p) (BitVec.ofNat 64 e.va)).isSome)
/-- Event state of both parties. -/
def withEv (e : Events) (b : Block) : Block :=
  { b with gangs := b.gangs.map (fun (p : Nat × Gang) => (p.1, { p.2 with ev := e })), feeder := b.feeder.map (fun f => { f with ev := e }) }
/-- An open record queue of two records with one opener, whose descriptor is at address 65536. -/
def rq0 : RecQueue :=
  { id := 5, ctx := placeCtx, handle := 65536, level := 0, base := 65536, size := 256, rsize := 128, group := 1, timer := 0, left := 1, lpb := 0, arg := 0,
    seed := 0, rcb := 0, gauge := 0, queue := 0, grid := 7 }
/-- The same block at level 0 with that record queue and its uniform register 1 at the descriptor. -/
def wq (q : RecQueue) (f : Block → Block) : State := { wk [0, 65536, 65536, 9] (fun b => f { b with level := 0 }) with rqs := [q] }

/-- R304 to R309: each source of a binding, the highest barrier and the first that does not exist; every change of the masks. -/
theorem wit_event_bindings :
    (kMet [] id { gf with mem := true } (fun _ _ _ _ => true)
      && kMet [] id { gf with srcs := evSrcs (.bar (.inl 0) 8), mem := true } (fun _ _ b k => decide ((readUni k (.inl 0)).toNat < b.kd.nbar))
      && kMet [] id { gf with srcs := evSrcs (.bar (.inl 1) 8), mem := true } (fun _ _ b k => decide (b.kd.nbar ≤ (readUni k (.inl 1)).toNat))
      && kMet [0, 65536] id { gf with srcs := evSrcs (.gauge 1 (.inl 4) 8), mem := true }
        (fun s i b k => match gaugePlace s b .watch .page (sget 0 k 1) with
          | .ok l => !gaugeOwed s b i.party l && held s b (sget 0 k 1)
          | .error _ => false)
      && kCold [0, 65536] id { gf with srcs := evSrcs (.gauge 1 (.inl 4) 8), mem := true } (fun k => sget 0 k 1)
        (fun s i b k => match gaugePlace s b .watch .page (sget 0 k 1) with
          | .ok l => !gaugeOwed s b i.party l
          | .error _ => false)
      && kMet [] id { gf with srcs := evSrcs (.mbox (.inl 0) 8), mem := true } (fun _ _ b k => decide ((readUni k (.inl 0)).toNat < b.kd.nmbox))
      && kMet [] id { gf with srcs := evSrcs (.gate 8), mem := true } (fun _ _ _ _ => true)
      && gangMet (filled (wq rq0 id)) { gf with srcs := evSrcs (.rq 1 8), mem := true } (fun s x b _ => !accessOwed b (.gang x.gang)
          && (match openRq s b (x.k 1) with | .ok (_, r) => hot s b r | .error _ => false))
      && kMet [] id { gf with srcs := [.imm 65535] } (fun s i _ _ => !maskOwed s i 0xFFFF)
      && kMet [] id { gf with kdst := [63] } (fun _ _ _ _ => true)) = true := by decide +kernel

/-- R306, R310: slot 15 pending; bound and not pending; masked; not bound. -/
theorem wit_waitany :
    (let c : Src := .imm 0x8000
     let e : Events := { slots := [(15, { kind := 1, handler := 65536 })], pend := 0x8000 }
     let d : GangDesc := { guard := ga, srcs := [c], swap := true, feederOk := true }
     let mask := fun (k : Store W64) => ((readUni k c).setWidth 16 : BitVec 16)
     let usable := fun (s : State) (i : Iss) (k : Store W64) => let e := partyEv s i.blk i.party; mask k &&& boundMask e &&& ~~~e.emask != 0
     let found := fun (s : State) (i : Iss) (k : Store W64) => candidate (partyEv (evalLevels s i.blk i.party) i.blk i.party) (mask k)
     let quiet := fun (s : State) (i : Iss) => !maskOwed s i (BitVec.allOnes 16)
     kMet [] (withEv e) d (fun s i _ k => usable s i k && quiet s i && found s i k == some 15)
      && kMet [] (withEv { e with pend := 0 }) d (fun s i _ k => usable s i k && quiet s i && found s i k == none)
      && kMet [] (withEv { e with emask := 0x8000 }) d (fun s i _ k => !usable s i k)
      && kMet [] (withEv {}) d (fun s i _ k => !usable s i k)
      && kMet [] (withEv e) { d with swap := false } (fun s i _ k => quiet s i && found s i k == some 15)
      && kMet [] (withEv {}) { d with swap := false } (fun s i _ k => quiet s i && found s i k == none)
      && (getBlk (wk [] (withEv e)) placeId).any (fun b => (sfind b.gangs 0).isSome)) = true := by decide +kernel

/-- An operation of a class that is not done. -/
def opOf (id cls : Nat) (body : OpBody) : Op := { id := id, cls := cls, done := false, lanes := 1, addr := 65536, walks := [], body := body }

/-- R286, R296 to R298: both readings of special registers, both writings, and a fence with and without what it waits for. -/
theorem wit_special_registers_and_fences :
    (memMet w0 { m0 with wide := true, kdst := [4] } (fun _ x => !flagsPend x.g)
      && feederMet (wf id) gf (fun _ _ _ => !srIsGang 0x12 && srIsGang 0x05)
      && memMet w0 m2 (fun _ _ => true) && memMet w0 { guard := ga, srcs := [(s2, 1)] } (fun _ x => !flagsPend x.g)
      && memMet w0 m0 (fun _ x => !fenceWaits x.g (x.on ga) .ar)
      && memMet (wg (fun g => { g with ops := [opOf 9 1 (.store [] false)] })) m0 (fun _ x => !fenceWaits x.g (x.on ga) .acq && fenceWaits x.g (x.on ga) .rel)
      && memMet (wg (fun g => { g with ops := [opOf 9 0 (.load .n32 4 (.uni 4) [] false false)] })) m0 (fun _ x => fenceWaits x.g (x.on ga) .acq)) = true := by
  decide +kernel

/-- The context in debug mode, with a region identifier that stops. -/
def inDebug (s : State) : State := modCtx s placeCtx (fun c => { c with debug := true, stopIds := [7] })
/-- A capture that stops at a mismatch. -/
def capturing (s : State) : State := modCtx s placeCtx (fun c => { c with capture := some { opts := 4 } })

/-- R311 to R315: the region stack with room for one more and full; leaving outside debug mode, in it, and past a stop; a watch
in each of its four states. -/
theorem wit_regions_and_watches :
    (let id1 : Src := .inl 1
     let one : GangDesc := { guard := ga, srcs := [id1] }
     let rid := fun (x : Turn) (a : Src) => ((x.uni a).setWidth 16 : BitVec 16)
     let dw : GangDesc := { guard := ga, srcs := [], kdst := [4], swap := true }
     let watch := fun (w : Watch) => wg (fun g => { g with watch := w })
     gangMet (wg (fun g => { g with regions := List.replicate 15 2 })) one (fun s x b _ => decide (x.g.regions.length < 16) && !isStopId s b.ctx (rid x id1))
      && gangMet (wg (fun g => { g with regions := List.replicate 16 2 })) one (fun _ x _ _ => decide (16 ≤ x.g.regions.length))
      && gangMet w0 one (fun s _ b _ => !debugOn s b.ctx)
      && gangMet (inDebug (wg (fun g => { g with regions := [1] }))) one (fun s x b _ => debugOn s b.ctx && x.g.regions.head? == some (rid x id1)
          && !isStopId s b.ctx (rid x id1))
      && gangMet (inDebug (wg (fun g => { g with regions := [7], stopNext := true }))) { one with srcs := [.inl 7] } (fun s x b y => debugOn s b.ctx
          && x.g.regions.head? == some (rid x (.inl 7)) && isStopId s b.ctx (rid x (.inl 7)) && y.stopNext)
      && gangMet (inDebug w0) { one with srcs := [.inl 7] } (fun s x b _ => decide (x.g.regions.length < 16) && isStopId s b.ctx (rid x (.inl 7)))
      && gangMet (inDebug w0) { one with srcs := [.inl 7] } (fun s x b y => !y.stopNext && isStopId s b.ctx (rid x (.inl 7)))
      && gangMet (capturing (inDebug (wg (fun g => { g with regions := [2] })))) one (fun s x b y => !y.stopNext && debugOn s b.ctx
          && x.g.regions.head? != some (rid x id1) && stopsOnMismatch s b.ctx)
      && gangMet (capturing (inDebug (wg (fun g => { g with stopNext := true })))) one (fun s x b y => debugOn s b.ctx
          && x.g.regions.head? != some (rid x id1) && y.stopNext)
      && gangMet (inDebug w0) one (fun s x b _ => debugOn s b.ctx && x.g.regions.head? != some (rid x id1)
          && !isStopId s b.ctx (rid x id1) && !stopsOnMismatch s b.ctx)
      && gangMet (filled (wk [0, 65536] id)) { guard := ga, srcs := [k1, .inl 0], mem := true }
          (fun s x b _ => okB (gaugePlace s b .watch .page (x.k 1 + x.uni (.inl 0))) && held s b (x.k 1 + x.uni (.inl 0)))
      && gangMet (wk [0, 65536] id) { guard := ga, srcs := [k1, .inl 0], mem := true }
          (fun s x b _ => okB (gaugePlace s b .watch .page (x.k 1 + x.uni (.inl 0)))
            && (missAt s b.ctx b.core (gangRef b.id x.gang) (x.k 1 + x.uni (.inl 0))).isSome)
      && gangMet w0 g0 (fun _ _ _ _ => true)
      && gangMet (watch { restored := true }) dw (fun _ x _ _ => x.g.watch.restored)
      && gangMet (watch { triggered := true, armed := true }) dw (fun _ x _ _ => !x.g.watch.restored && x.g.watch.triggered)
      && gangMet w0 dw (fun _ x _ _ => !x.g.watch.restored && !x.g.watch.triggered && !x.g.watch.armed)
      && gangMet (watch { armed := true }) dw (fun _ x _ _ => !x.g.watch.restored && !x.g.watch.triggered && x.g.watch.armed)) = true := by
  decide +kernel

/-- R18, R207, R208, R343: WAITC at its count and above it; GROW within what is held and beyond; SHRINK of nothing, of
something, and to a count that is no multiple of 8; PHASE of a block whose feeder is done and of one whose is not. -/
theorem wit_counters_pool_phase :
    (let d := fun (n : Src) => ({ guard := ga, srcs := [n], swap := true } : GangDesc)
     let ds := fun (n : Src) => ({ guard := ga, srcs := [n] } : GangDesc)
     let want := fun (x : Turn) (n : Src) => (x.uni n).toNat
     let few := fun (x : Turn) (b : Block) (n : Src) => want x n % 8 == 0 && decide (8 * b.kd.rmin ≤ want x n)
     let alloc := fun (a lo hi : Nat) => modBlk (wg (fun g => { g with alloc := a })) placeId (fun b => { b with kd := { b.kd with rmin := lo, rmax := hi } })
     let two := wg (fun g => { g with ops := [opOf 9 0 (.load .n32 4 (.uni 4) [] false false), opOf 10 0 (.load .n32 4 (.uni 4) [] false false)] })
     let dp : GangDesc := { guard := ga, srcs := [], swap := true, mem := true }
     let ended := wb (fun b => { b with feeder := none })
     gangMet two (d (.inl 2)) (fun _ x _ _ => waitcMet x.g .ld 2) && gangMet two (d (.inl 1)) (fun _ x _ _ => !waitcMet x.g .all 1)
      && gangMet (alloc 64 1 8) (d (.inl 64)) (fun _ x b _ => few x b (.inl 64) && decide (want x (.inl 64) ≤ 8 * b.kd.rmax) && decide (want x (.inl 64) ≤ x.g.alloc))
      && gangMet (alloc 8 1 8) (d (.inl 64)) (fun s x b _ => few x b (.inl 64) && decide (want x (.inl 64) ≤ 8 * b.kd.rmax) && decide (x.g.alloc < want x (.inl 64))
          && (getCtx s b.ctx).any (fun cx => decide (b.chunks + (want x (.inl 64) - x.g.alloc) / 8 ≤ min 384 (min cx.chunks (minRegshare cx b.region)))))
      && gangMet (alloc 8 1 8) (ds (.inl 8)) (fun _ x b _ => few x b (.inl 8) && decide (x.g.alloc ≤ want x (.inl 8)))
      && gangMet (alloc 64 1 8) (ds (.inl 8)) (fun _ x b _ => few x b (.inl 8) && decide (want x (.inl 8) < x.g.alloc))
      && gangMet (alloc 64 2 8) (ds (.inl 8)) (fun _ x b _ => !few x b (.inl 8))
      && gangMet ended dp (fun s x b y => !owesChecksum b y phaseBar && [0, 2, 3].all (fun c => classCount y c == 0) && phaseReady s b x.gang
          && openForks s b == [] && b.stat != .killed && !ctxHalted s b.ctx && boundaryFault b == none && !matrixHeld s b)
      && gangMet w0 dp (fun s x b y => !owesChecksum b y phaseBar && !phaseReady s b x.gang)
      && gangMet (modGang ended placeId 0 (fun g => { g with ops := [opOf 9 2 (.gaugeAdd {} 0)] })) dp (fun _ _ b y => !owesChecksum b y phaseBar
          && classCount y 2 != 0)) = true := by decide +kernel

/-! ### Memory -/

/-- The same state with the instruction's page read-only, not executable (the bytes of its leaf in the level 3 table). -/
def readOnly (s : State) : State :=
  let t := tableLevel 3
  devWrite s (placeTab 3 + 8 * fld placeVa t.1 t.2.1) (le 8 (placeKey * 2 ^ 44 + placePa + 2 ^ 5 + 2 ^ 4))
/-- The same state with the next page's addresses mapped to the same memory, tracked (R60, R61). -/
def alsoTracked (s : State) : State :=
  let t := tableLevel 3
  devWrite s (placeTab 3 + 8 * (fld placeVa t.1 t.2.1 + 1)) (le 8 (placeKey * 2 ^ 44 + placePa + 2 ^ 62 + 2 ^ 6 + 2 ^ 5 + 2 ^ 4))
/-- Lane 0's register pair 2 holds an address; register 6 a datum; uniform register 1 the same address. -/
def wm (a : Nat) : State :=
  wg (fun g => { g with v := vs [0, 0, BitVec.ofNat 32 a, 0, BitVec.ofNat 32 a, 0, 7], k := ks [0, BitVec.ofNat 64 a, 9] })
def wmf (a : Nat) : State := wf (fun g => { g with k := ks [0, BitVec.ofNat 64 a, 9] })
abbrev i0 : Src := .inl 0

/-- R187 to R194, R200, R203, R232: addresses that an access can reach, at each width; and one that is not aligned. -/
theorem wit_global_loads_and_stores :
    (let ea := fun (x : Turn) => x.each ga (x.ea s2 i0)
     let ek := fun (x : Turn) (n : Nat) => x.each ga (fun l => x.ea k1 i0 l + BitVec.ofNat 64 (l * n))
     let chk := fun (need : Need) (access n : Nat) (poison : Poi) (vas : Turn → List (Nat × W64)) (s : State) (x : Turn) =>
       checkGlobal s x.b.ctx x.b.core x.b.views need access n poison (vas x)
     let ok := fun (need : Need) (access n : Nat) (poison : Poi) (vas : Turn → List (Nat × W64)) (s : State) (x : Turn) =>
       okB (chk need access n poison vas s x) && walkRoom s x.b.ctx x.b.core ((vas x).map (·.2))
     let ld : MemDesc := { guard := ga, mem := true, srcs := [(s2, 2), (i0, 1)], dst := some (.v 8, 4), cls := some 0 }
     let ldk : MemDesc := { guard := ga, mem := true, srcs := [(k1, 2), (i0, 1)], dst := some (d4, 1), cls := some 0 }
     let st : MemDesc := { guard := ga, mem := true, srcs := [(s2, 2), (i0, 1), (s6, 1)], cls := some 1 }
     let stk : MemDesc := { guard := ga, mem := true, srcs := [(k1, 2), (i0, 1), (s6, 2)], cls := some 1 }
     let kld : GangDesc := { guard := ga, srcs := [k1, i0], kdst := [4], feederOk := true, mem := true }
     let kst : GangDesc := { guard := ga, srcs := [k1, i0, k2], words := [2, 2, 2], feederOk := true, mem := true }
     let lines := fun (x : Turn) => ((ea x).map (·.2)).filter (fun va => va.toNat % 4 == 0 && decide (va.toNat < 2 ^ 57))
     let fails := fun (need : Need) (poison : Poi) (s : State) (_ : Iss) (b : Block) (k : Store W64) => errB (checkUni s b need 8 poison (sget 0 k 1)) 6 2
     memMet (wm 65536) ld (ok .rd 1 16 .all ea) && memMet (wm 65540) ld (fun s x => errB (chk .rd 1 16 .all ea s x) 5 0)
      && memMet (readOnly (wm 65536)) ldk (ok .rdk 1 4 .all (fun x => ek x 4)) && memMet (wm 65536) ldk (fun s x => errB (chk .rdk 1 4 .all (fun x => ek x 4) s x) 6 3)
      && memMet (wm 65536) st (ok .wr 2 1 .no ea) && memMet (readOnly (wm 65536)) st (fun s x => errB (chk .wr 2 1 .no ea s x) 6 3)
      && memMet (wm 65536) stk (ok .wr 2 8 .no (fun x => ek x 8)) && memMet (wm (2 ^ 57)) stk (fun s x => errB (chk .wr 2 8 .no (fun x => ek x 8) s x) 6 2)
      && [65536, 65538].all (fun a => memMet (wm a) { guard := ga, srcs := [(s2, 2), (i0, 1)] } (fun s x => walkRoom s x.b.ctx x.b.core (lines x)))
      && partyMet (wm (2 ^ 57)) (wmf (2 ^ 57)) kld (fails .rd .all) && partyMet (wm (2 ^ 57)) (wmf (2 ^ 57)) kst (fails .wr .no)
      && feederMet (wmf 65536) kst (fun s x b => okB (checkUni s b .wr 8 .no (x.k 1 + x.uni i0)) && (missAt s b.ctx b.core (feederRef b.id) (x.k 1)).isSome)
      && gangMet (wm 65536) kld (fun s x b y => okB (checkUni s b .rd 8 .all (x.k 1 + x.uni i0)) && !classFull y 0 && walkRoom s b.ctx b.core [x.k 1])
      && feederMet (filled (wmf 65536)) kld (fun s x b => okB (checkUni s b .rd 8 .all (x.k 1 + x.uni i0)) && tlbHolds s b.ctx b.core (x.k 1).toNat)
      && feederMet (wmf 65536) kld (fun s x b => okB (checkUni s b .rd 8 .all (x.k 1 + x.uni i0)) && (missAt s b.ctx b.core (feederRef b.id) (x.k 1)).isSome)
      && gangMet (wm 65536) kst (fun s x b y => okB (checkUni s b .wr 8 .no (x.k 1 + x.uni i0)) && !classFull y 1 && walkRoom s b.ctx b.core [x.k 1])
      && feederMet (filled (wmf 65536)) kst (fun s x b => match checkUni s b .wr 8 .no (x.k 1 + x.uni i0) with
        | .ok l => (match locWrite s b.views l (le 8 (x.k 2).toNat) with
          | .ok _ => l.ap == 0 && s.forks.isEmpty && b.views.isEmpty && tlbHolds s b.ctx b.core (x.k 1).toNat
          | _ => false)
        | .error _ => false)) = true := by decide +kernel

/-- R182 to R186, R202: the last bytes of the scratchpad, and the first past it; a clique's own core; a parcel that is empty and
a terrace of one plane. -/
theorem wit_scratchpad :
    (let at_ := fun (x : Turn) => (x.each ga (x.spa s2 i0)).map (fun p => (p.1, some x.b, p.2))
     let lds := ldsDesc ga .n32 d4 s2 i0
     let sts := stsDesc ga .n32 .rel s2 i0 s6
     let far := fun (s : State) (x : Turn) => x.each ga (fun l => (cliqueBlock s x.b (x.rd l (.int 64) i0), x.spa s2 i0 l))
     let ldc := ldcDesc ga .n32 d4 s2 i0 i0
     let stc := stcDesc ga .n32 s2 i0 s6 i0
     let ldq := fun (ter : Bool) => ldqDesc ga d4 s2 i0 ter 0
     let unchecked := fun (d : MemDesc) => { d with early := fun _ _ _ => none }
     let out := fun (access n : Nat) (l : List (Nat × Option Block × Nat)) => (spRange access n l).isSome
     let low := fun (x : Turn) => (x.each ga (x.spa s2 i0)).filter (fun p => decide (p.1 < 24))
     let free := fun (s : State) (x : Turn) (m : Nat) => !spHeld s x.b x.gang x.g m (x.each ga (x.spa s2 i0))
     let terrace := modBlk (wm 0) placeId (fun b => { b with scratch := [(0, 0x48), (1, 1), (2, 1), (128, 0x40), (129, 1)] })
     let unaligned := fun (s : State) => modGang s placeId 0 (fun g => { g with v := vs [0, 0, 2] })
     let inClique := modBlk (wm 0) placeId (fun b => { b with clique := 3, kd := { b.kd with clique := some (1, 2) } })
     memMet (wm 1020) lds (fun s x => checkScratch 1 4 4 true (at_ x) == none && free s x 4) && memMet (wm 1018) lds (fun _ x => (checkScratch 1 4 4 true (at_ x)).isSome)
      && memMet (wm 1024) (unchecked lds) (fun _ x => out 1 4 (at_ x)) && memMet (wm 1024) (unchecked sts) (fun _ x => out 2 4 (at_ x))
      && memMet (wm 0) (unchecked ldc) (fun s x => out 1 4 (far s x)) && memMet (wm 0) (unchecked stc) (fun s x => out 2 4 (far s x))
      && memMet (wm 1024) (unchecked (ldq false)) (fun _ x => out 1 128 ((low x).map (fun p => (p.1, some x.b, p.2))))
     
      && memMet (wm 1020) sts (fun s x => checkScratch 2 4 4 false (at_ x) == none && free s x 4 && !spPending x.g && x.parts ga == [0]) && memMet (wm 1018) sts (fun _ x => (checkScratch 2 4 4 false (at_ x)).isSome)
      && memMet inClique ldc (fun s x => checkScratch 1 4 4 true (far s x) == none) && memMet inClique stc (fun s x => checkScratch 2 4 4 false (far s x) == none)
      && memMet (unaligned inClique) ldc (fun s x => (checkScratch 1 4 4 true (far s x)).isSome) && memMet (unaligned inClique) stc (fun s x => (checkScratch 2 4 4 false (far s x)).isSome)
      && memMet (wm 64) (ldq false) (fun _ x => (checkScratch 1 128 128 true ((low x).map (fun p => (p.1, some x.b, p.2)))).isSome)
      && memMet (modBlk (wm 0) placeId (fun b => { b with scratch := [(0, 0xFF)] })) (ldq false) (fun s x => free s x 128
          && checkScratch 1 128 128 true ((low x).map (fun p => (p.1, some x.b, p.2))) == none && (ldqFormat x.b false 1 (low x)).isSome)
      && memMet (wm 0) (ldq false) (fun s x => free s x 128 && checkScratch 1 128 128 true ((low x).map (fun p => (p.1, some x.b, p.2))) == none && ldqFormat x.b false 1 (low x) == none)
      && memMet terrace (ldq true) (fun s x => free s x 256 && checkScratch 1 256 128 true ((low x).map (fun p => (p.1, some x.b, p.2))) == none
          && ldqFormat x.b true 1 (low x) == none)) = true := by decide +kernel

/-- The state with one operation outstanding. -/
def wo (o : Op) : State := wg (fun g => { g with ops := [o] })
/-- The operation is not done and nothing holds it back. -/
def opMet (s : State) (id : Nat) (rel : Op → Bool) (cond : Block → Gang → Op → Bool) : Bool :=
  (getBlk s placeId).any (fun b => (sfind b.gangs 0).any (fun y => (y.ops.find? (fun o => o.id == id && !o.done)).any (fun o =>
    opReady s placeId 0 y o (rel o) && !childHeld s b.views && cond b y o)))
/-- A place of local memory under the block's key. -/
def here (a : Nat) : Loc := { addr := placePa + a, key := placeKey, va := BitVec.ofNat 64 (placeVa + a) }

/-- R193, R194: a store of two lanes that meet at a sector's end. -/
theorem wit_stored_bytes :
    (let acc : List LaneAcc := [{ lane := 0, loc := here 28, data := le 4 1 }, { lane := 1, loc := here 32, data := le 4 2 }]
     let s := wo (opOf 9 1 (.store acc false))
     opMet s 9 opRel (fun b _ o => o.sampled.isNone && o.group == 0 && s.forks.isEmpty && b.views.isEmpty && o.body == .store acc false
       && acc.all (fun x => x.sp.isNone && !x.fin && x.loc.ap == 0 && x.loc.key == placeKey))) = true := by decide +kernel

/-- R176, R195 to R198, R204 to R206: a global and a scratchpad atomic of each width; WSIG with its payload and gauge. -/
theorem wit_atomics :
    (let ea := fun (x : Turn) => x.each ga (x.ea s2 i0)
     let desc := fun (n : Nat) => ({ guard := ga, mem := true, srcs := [(s2, 2), (i0, 1), (s6, n), (s6, n)], dst := some (d4, n), cls := some 2 } : MemDesc)
     let free := fun (n : Nat) (k : AtomKind) (s : State) (x : Turn) => match checkGlobal s x.b.ctx x.b.core x.b.views .rw 3 n .all (ea x) with
       | .ok hits => orderDependent x.b s k hits == none && walkRoom s x.b.ctx x.b.core ((ea x).map (·.2))
       | .error _ => false
     let sp := fun (n : Nat) => atomsDesc (n == 2) .rel ga d4 s2 i0 s6 s6
     let own := fun (n : Nat) (s : State) (x : Turn) => !spHeld s x.b x.gang x.g (4 * n) (x.each ga (x.spa s2 i0)) && checkScratch 3 (4 * n) (4 * n) true ((x.each ga (x.spa s2 i0)).map (fun p => (p.1, some x.b, p.2))) == none
     let gas := fun (x : Turn) => x.each ga (fun l => BitVec.ofNat 64 (x.rd l (.int 64) (.v 4)))
     memMet (wm 65544) (desc 2) (free 8 (.int .nmax)) && memMet (wm 65536) (desc 1) (free 4 .cas)
      && memMet (modBlk (wm 65536) placeId (fun b => { b with level := 0 })) (desc 1) (free 4 (.flt .add)) && memMet (wm 65536) (desc 1) (free 4 (.flt .max))
      && memMet (wm 1016) (sp 2) (own 2) && memMet (wm 1020) (sp 1) (own 1)
      && memMet (wm 1020) { sp 2 with early := fun _ _ _ => none } (fun _ x => (spRange 3 8 ((x.each ga (x.spa s2 i0)).map (fun p => (p.1, some x.b, p.2)))).isSome)
      && memMet (wm 65536) { guard := ga, mem := true, srcs := [(s2, 2), (s6, 2), (.v 4, 2), (i0, 1)], cls := some 1 }
        (fun s x => okB (checkWsig s x.b 8 (ea x) (gas x)) && walkRoom s x.b.ctx x.b.core ((ea x ++ gas x).map (·.2)))) = true := by decide +kernel

/-! ### The matrix unit -/

/-- The block's core as given, the gate with the gang or not. -/
def wc (f : Core → Core) (k : List W64) : State := modCore (wk k id) 0 f
def gated (f : Core → Core) : State := wc (fun c => f { c with gate := some (placeId, 0) }) [0, 0, 384, 65536]

/-- R238, R264 to R268: the gate held, free, and held by another; a bank free, the gang's own and another's; the shape of the
clique; a restart region open, closed and forbidden; the last position of a bank. -/
theorem wit_matrix_gate_and_state :
    (let dt : GangDesc := { guard := ga, srcs := [], swap := true }
     let dk : GangDesc := { guard := ga, srcs := [], kdst := [4] }
     let core := fun (s : State) (b : Block) => getCore s b.core
     let mine := fun (s : State) (x : Turn) (b : Block) => (core s b).gate == some (b.id, x.gang)
     let may := fun (s : State) (x : Turn) (b : Block) => !gateBarred s (b.id, x.gang)
     let grant := fun (s : State) (x : Turn) (b : Block) => (core s b).gate == none && gateGrantable s (b.id, x.gang)
     let other := wc (fun c => { c with gate := some (placeId, 7) }) []
     let own : Bank := { claim := some (placeId, 0), s32 := true }
     let theirs : Bank := { claim := some (placeId, 7) }
     let region : Restart := { label := 0, carry := {}, alloc := 8, regions := [], rstack := [], spill := [], draw := [] }
     let last : Src := .imm 0xBF7F
     let stopping := fun (s : State) => modBlk s placeId (fun b => { b with stat := .stopping })
     gangMet (gated (fun c => c)) dt (fun s x b _ => may s x b && mine s x b)
      && gangMet w0 dt (fun s x b _ => may s x b && grant s x b && !(core s b).gateQ.any (gateGrantable s))
      && gangMet other dt (fun s x b _ => !mine s x b && !(grant s x b && !(core s b).gateQ.any (gateGrantable s)))
      && gangMet (stopping (gated (fun c => c))) dt (fun s x b _ => !may s x b && mine s x b)
      && gangMet (gated (fun c => c)) g0 (fun s x b _ => may s x b && mine s x b)
      && gangMet w0 g0 (fun s x b _ => may s x b && grant s x b && (core s b).gateQ == [])
      && gangMet other g0 (fun s x b _ => !mine s x b && !(grant s x b && (core s b).gateQ == []))
      && gangMet (stopping (gated (fun c => c))) g0 (fun s x b _ => !may s x b && mine s x b)
      && gangMet (gated (fun c => { c with acc0 := own })) g0 (fun s x b _ => mine s x b && (getBank (core s b) false).claim == some (b.id, x.gang))
      && gangMet (gated (fun c => c)) g0 (fun s x b _ => mine s x b && (getBank (core s b) true).claim == none)
      && gangMet (gated (fun c => { c with acc1 := theirs })) g0 (fun s x b _ => mine s x b && (getBank (core s b) true).claim.any (fun o => o != (b.id, x.gang)))
      && gangMet (modBlk (wk [0, 65536] id) placeId (fun b => { b with clique := 3, cliqueIdx := 15, kd := { b.kd with clique := some (4, 4) } }))
        { guard := ga, srcs := [.inl 15, k1], kdst := [4], mem := true }
        (fun s x b _ => b.kd.clique == some (4, 4) && (x.uni (.inl 15)).toNat == 3 + 4 * 3 && okB (gaugePlace s b .rw .page (x.k 1))
          && (missAt s b.ctx b.core (gangRef b.id x.gang) (x.k 1)).isSome)
      && gangMet (filled (modBlk (wk [0, 65536] id) placeId (fun b => { b with clique := 3, cliqueIdx := 15, kd := { b.kd with clique := some (4, 4) } })))
        { guard := ga, srcs := [.inl 15, k1], kdst := [4], mem := true }
        (fun s x b _ => b.kd.clique == some (4, 4) && (x.uni (.inl 15)).toNat == 3 + 4 * 3 && okB (gaugePlace s b .rw .page (x.k 1)) && held s b (x.k 1))
      && gangMet w0 g0 (fun s x b y => !holdsBank s b x.gang && y.restart == none)
      && gangMet (gated (fun c => { c with acc0 := own })) g0 (fun s x b _ => holdsBank s b x.gang)
      && gangMet (wg (fun g => { g with restart := some region })) g0 (fun _ _ _ y => y.restart.isSome)
      && gangMet w0 dk (fun _ _ _ _ => true)
      && gangMet (wc (fun c => { c with acc1 := own }) []) { dk with srcs := [last] } (fun s x b _ => (x.uni last).toNat % 256 == 127
          && (x.uni last).toNat / 256 == 191 && (getBank (core s b) true).claim == some (b.id, x.gang)
          && !(getBank (core s b) true).bad.contains (192 * 127 + 191))) = true := by decide +kernel

/-- R242 to R248, R259, R261, R263: tiles of each form that lie in the scratchpad, a row of activations, two rows of a drain. -/
theorem wit_matrix_data :
    (let core := fun (s : State) (b : Block) => getCore s b.core
     let mine := fun (s : State) (x : Turn) (b : Block) => (core s b).gate == some (b.id, x.gang)
     let at_ := fun (x : Turn) => (x.k 1).toNat % 2 ^ 32
     let quiet := fun (s : State) (x : Turn) (b : Block) (y : Gang) (m : MldwSpec) => !runsOwed s b x.gang y (mldwRuns m x.g.k)
     let dd : GangDesc := { guard := ga, srcs := [k1, k2], mem := true }
     let free := fun (s : State) (x : Turn) (b : Block) (y : Gang) => !classFull y 3 && !runsOwed s b x.gang y (drainRuns .bf16 1 k2 2 x.g.k)
     let room := fun (s : State) => modBlk s placeId (fun b => { b with kd := { b.kd with scratch := 147456 } })
     let fits := fun (b : Block) (runs : List (Nat × Nat)) => runs.all (fun r => decide (r.1 + r.2 ≤ b.kd.scratch) && !spBad b r.1 r.2)
     let terraces := fun (b : Block) => { b with scratch := (List.range 39).flatMap (fun t => [(384 * t, (0x48 : Byte)), (384 * t + 1, 40), (384 * t + 2, 8),
       (384 * t + 128, 0x40), (384 * t + 129, 40), (384 * t + 256, 0x41), (384 * t + 257, 40)]) }
     let rd := fun (x : Turn) (b : Block) (t i : Nat) => (sget 0 b.scratch (at_ x + t * (x.uni k2).toNat + i)).toNat
     let own : Bank := { claim := some (placeId, 0) }
     let plane : Plane := { fmt := .e4m3, parcel := true }
     gangMet (room (gated (fun c => c))) { guard := ga, srcs := mldwSrcs (.bare .f32 1), mem := true }
        (fun s x b y => quiet s x b y (.bare .f32 1) && mine s x b && at_ x % 128 == 0 && fits b [(at_ x, 36864 * 4)])
      && gangMet (room (gated (fun c => c))) { guard := ga, srcs := mldwSrcs (.par .s8 1), mem := true }
        (fun s x b y => quiet s x b y (.par .s8 1) && mine s x b && at_ x % 128 == 0 && fits b [(at_ x, 192 * 256)]
          && (List.range 192).all (fun n => (parcelRuns .s8 (at_ x + 256 * n) 8).all (fun p => parcelCheck b .s8 p == none)))
      && gangMet (room (modBlk (gated (fun c => c)) placeId terraces)) { guard := ga, srcs := mldwSrcs (.ter 1 k2 1), mem := true }
        (fun s x b y => quiet s x b y (.ter 1 k2 1) && mine s x b && at_ x % 128 == 0 && (x.uni k2).toNat % 128 == 0 && decide (384 ≤ (x.uni k2).toNat)
          && fits b ((List.range 39).map (fun t => (at_ x + t * (x.uni k2).toNat, 384)))
          && (List.range 39).all (fun t => terraceFault (rd x b t) 2 == none))
      && [MldwSpec.bare .f32 1, .par .s8 1, .ter 1 k2 1].all (fun m => gangMet w0 { guard := ga, srcs := mldwSrcs m, mem := true }
          (fun s x b y => quiet s x b y m && !mine s x b))
      && memMet w0 { guard := ga, srcs := [(s2, 2)], wide := true, mem := true } (fun s x => !mine s x x.b)
      && memMet (gated (fun c => c)) { guard := ga, srcs := [(s2, 2)], wide := true, mem := true }
          (fun s x => mine s x x.b && (getBank (core s x.b) true).claim != some (x.b.id, x.gang))
      && gangMet w0 dd (fun s x b y => free s x b y && (getBank (core s b) false).claim != some (b.id, x.gang))
      && memMet (modGang (gated (fun c => { c with acc1 := own, active := some plane })) placeId 0 (fun g => { g with v := vs [0, 0, 0, 0xFFFFFFFF] }))
        { guard := ga, srcs := [(s2, 2)], wide := true, mem := true }
        (fun s x =>
          let c := getCore s x.b.core
          let rows := mstrRows x.g (x.on ga) s2
          c.gate == some (x.b.id, x.gang) && (getBank c true).claim == some (x.b.id, x.gang) && c.active == some plane
            && pairType true .e5m2 plane == some false && !(getBank c true).s32 && rows.length == 1
            && rows.all (fun r => r.2.2 % 128 == 0 && fits x.b (rowRuns true .e5m2 8 r.2.2)
              && (parcelRuns .e5m2 r.2.2 8).all (fun a => parcelCheck x.b .e5m2 a == none)))
      && gangMet (gated (fun c => { c with acc0 := own })) dd
        (fun s x b y =>
          let k := getBank (core s b) false
          let p := (x.uni k2).toNat
          free s x b y && k.claim == some (b.id, x.gang) && drainPair .bf16 k.s32 && at_ x % 16 == 0 && p % 16 == 0 && decide (384 ≤ p)
            && [0, 1].all (fun m => decide (at_ x + m * p + 384 ≤ b.kd.scratch)) && k.bad.all (fun e => decide (384 ≤ e)))) = true := by decide +kernel

/-! ### The streamer, barriers, gauges and mailboxes -/

/-- R142 to R148, R163: each command with its checks passed, on a channel with room and on a full one; a row that ends past the
scratchpad; a gang. -/
theorem wit_streamer_commands :
    (let srcs := fun (k : Option Src) => k.toList ++ [.k 2] ++ (List.range 8).map (fun j => Src.k (8 + BitVec.ofNat 6 j))
     let d := fun (k : Option Src) => ({ guard := ga, srcs := srcs k, feederOk := true, feederOnly := true } : GangDesc)
     let cmd := fun (kind : CmdKind) (ka : W64) (s : State) (x : FTurn) =>
       ({ id := s.nextId, kind := kind, ch := 3, tag := some 7, ka := ka, kb := x.k 2, kn := (List.range 8).map (fun j => x.k (8 + BitVec.ofNat 6 j)),
          func := 0, addr := x.addr } : Cmd)
     let full := fun (b : Block) => { b with chans := List.replicate 16 { id := 1, kind := .copy 0 false, ch := 3, tag := none, ka := 0, kb := 0, kn := [], func := 0, addr := 0 } }
     let k := fun (extent : W64) => [0, 65536, 0, 0, 0, 0, 0, 0, extent, 0, 0, 0, 0, 0, 0]
     let passes := fun (s : State) (b : Block) (c : Cmd) => cmdEarly s b c == none && cmdFault c == none
     let kinds : List (CmdKind × Option Src) := [(.copy 3 true, some k1), (.gather .ter false, some k1), (.gather .x64 true, some k1), (.scatter false false, some k1),
       (.fill 0 false, none), (.fill 1 true, some k1)]
     kinds.all (fun t => feederMet (wkf (k 0) (fun b => b)) (d t.2) (fun s x b => passes s b (cmd t.1 (if t.2.isSome then 65536 else 0) s x) && decide (chanLen b 3 < 16))
       && feederMet (wkf (k 0) full) (d t.2) (fun s x b => passes s b (cmd t.1 (if t.2.isSome then 65536 else 0) s x) && decide (16 ≤ chanLen b 3)))
      && (fturnOf (wkf (k 1024) (fun b => b))).any (fun x => (cmdEarly w0 x.b (cmd (.copy 0 false) 65536 w0 x)).any (fun f => f.cls == 12 && f.cause == 3))
      && feederMet (wkf (k 0 ++ [1]) (fun b => b)) (d (some k1)) (fun s x b => cmdEarly s b (cmd (.gather .x64 true) 65536 s x) == none
          && (cmdFault (cmd (.gather .x64 true) 65536 s x)).any (fun f => f.cls == 5))
      && (turnOf w0).any (fun x => x.mask != 0 && x.mask == x.g.live && stalledLanes x.g (d none).names [] x.g.live == 0)) = true := by decide +kernel

/-- R141, R148, R164 to R167: an inlet queue with 15 and with 16 values, a gang that does not exist, the closed value; a value, no
feeder, neither; a slot in each of its states; a command that names it; a count of 2, of 1 and of 0. -/
theorem wit_inlets_and_guard_slots :
    (let dq : GangDesc := { guard := ga, srcs := [.k 0, .k 1], feederOk := true, feederOnly := true }
     let dp : GangDesc := { guard := ga, srcs := [], kdst := [4], swap := true, mem := true }
     let fo : GangDesc := { gf with feederOnly := true }
     let who := fun (x : FTurn) => (x.uni (.k 0)).toNat
     let fair := fun (x : FTurn) (b : Block) => decide (who x < b.gangs.length) && x.uni (.k 1) != closedValue
     let inlet := fun (l : List W64) (b : Block) => { b with gangs := b.gangs.map (fun (p : Nat × Gang) => (p.1, { p.2 with inlet := [(3, l)] })) }
     let slot := fun (v : GSlot) (b : Block) => putSlot b 7 v
     let ds : GangDesc := { guard := ga, srcs := [k1], feederOk := true, mem := true }
     let waiting := fun (b : Block) => { b with chans := [{ id := 1, kind := .copy 0 false, ch := 0, tag := some 7, ka := 0, kb := 0, kn := [], func := 0, addr := 0 }] }
     let dl : GangDesc := { guard := ga, srcs := [k1], kdst := [1], feederOk := true }
     feederMet (wkf [0, 5] (inlet (List.replicate 15 1))) dq (fun s x b => fair x b && !inletFull s x.blk (who x) 3)
      && feederMet (wkf [0, 5] (inlet (List.replicate 16 1))) dq (fun s x b => fair x b && inletFull s x.blk (who x) 3)
      && feederMet (wkf [1, 5] id) dq (fun _ x b => !fair x b) && feederMet (wkf [0, -1] id) dq (fun _ x b => !fair x b)
      && gangMet (wk [] (inlet [5])) dp (fun _ _ _ y => sget [] y.inlet 3 == [5])
      && gangMet (wk [] (fun b => { b with feeder := none })) dp (fun _ _ b y => sget [] y.inlet 3 == [] && feederDone b)
      && gangMet (wk [] id) dp (fun _ _ b y => sget [] y.inlet 3 == [] && !feederDone b)
      && kMet [0, 9] (slot .isTrue) ds (fun _ _ b k => slotOf b 7 == .isTrue && sget 0 k 1 != 0)
      && kMet [0, 0] (slot .isTrue) ds (fun _ _ b k => slotOf b 7 != .unresolved && slotOf b 7 != .isFalse && sget 0 k 1 == 0)
      && kMet [0, 9] id ds (fun _ i b k => slotOf b 7 == .unresolved && sget 0 k 1 != 0
          && (match i.party with | .gang gi => (sfind b.gangs gi).any (fun y => !pendingFor y y.live) | .feeder => true))
      && kMet [0, 0] id ds (fun _ _ b k => slotOf b 7 == .unresolved && sget 0 k 1 == 0)
      && feederMet (wkf [] id) fo (fun _ _ b => !b.chans.any (fun c => c.tag == some 7))
      && feederMet (wkf [] waiting) fo (fun _ _ b => b.chans.any (fun c => c.tag == some 7))
      && kMet [0, 2] id dl (fun _ _ _ k => decide (1 < (sget 0 k 1).toNat)) && [0, 1].all (fun n => kMet [0, n] id dl (fun _ _ _ k => decide ((sget 0 k 1).toNat ≤ 1)))) = true := by
  decide +kernel

/-- R154 to R157, R168 to R171: a barrier idle and in use; the largest count; an arrival that fits and one too many; bytes up to
the limit and past it; either phase; no such barrier; a barrier about to complete. -/
theorem wit_barriers :
    (let di : GangDesc := { guard := ga, srcs := [i0, k1], feederOk := true, mem := true }
     let da : GangDesc := { di with rel := true }
     let dw := fun (a : Src) => ({ guard := ga, srcs := [a], swap := true, feederOk := true } : GangDesc)
     let bar := fun (b : Block) => sget ({} : Barrier) b.bars 0
     let named := fun (b : Block) (k : Store W64) (a : Src) => decide ((readUni k a).toNat < b.kd.nbar)
     let idle := fun (b : Block) => (bar b).arrivals == 0 && (bar b).balance == 0
     let set := fun (x : Barrier) (b : Block) => { b with bars := [(0, x)] }
     let cnt := fun (k : Store W64) => (readUni k k1).toNat
     let fits := fun (b : Block) (k : Store W64) => decide (0 ≤ byteCount k k1) && decide ((bar b).balance + byteCount k k1 ≤ 2 ^ 63 - 1)
     [1, 65535].all (fun n => kMet [0, n] id di (fun _ _ b k => named b k i0 && idle b && decide (1 ≤ cnt k) && decide (cnt k ≤ 65535)))
      && kMet [] id { di with srcs := [i0] } (fun _ _ b k => named b k i0 && idle b)
      && kMet [] (set { arrivals := 1 }) { di with srcs := [i0] } (fun _ _ b k => named b k i0 && (bar b).arrivals != 0)
      && kMet [0, 2] (set { expected := 3, arrivals := 1 }) da (fun _ i b k => named b k i0 && !arrivalBad (bar b) (partyName i.party) (cnt k)
          && (bar b).mode == 0)
      && kMet [0, 1] (set { expected := 2, mode := 2 }) da (fun _ i b k => named b k i0 && !arrivalBad (bar b) (partyName i.party) (cnt k)
          && (match i.party with | .gang gi => (sfind b.gangs gi).any (fun y => !owesChecksum b y 0) | .feeder => true))
      && kMet [0, 3] (set { expected := 3, arrivals := 1 }) da (fun _ i b k => named b k i0 && arrivalBad (bar b) (partyName i.party) (cnt k))
      && kMet [0, 0x7FFFFFFFFFFFFFFF] id di (fun _ _ b k => named b k i0 && fits b k) && kMet [0, 0x7FFFFFFFFFFFFFFF] (set { balance := 1 }) di (fun _ _ b k => named b k i0 && !fits b k)
      && kMet [0, -1] id di (fun _ _ b k => named b k i0 && !fits b k)
      && kMet [] (set { phase := true }) (dw i0) (fun _ i b k => named b k i0 && (bar b).phase != uniBit (b.qOf i.party) 0)
      && kMet [] (set { phase := true }) (dw i0) (fun _ i b k => named b k i0 && (bar b).phase == uniBit (b.qOf i.party) 7)
      && kMet [] id (dw (.inl 1)) (fun _ _ b k => !named b k (.inl 1))
      && (getBlk (wb (set { expected := 2, arrivals := 2 })) placeId).any (fun b => (bar b).expected != 0 && (bar b).arrivals == (bar b).expected
          && (bar b).balance == 0 && (bar b).mode == 0)
      && [1, 2].all (fun m => (getBlk (wb (set { expected := 2, arrivals := 2, mode := m })) placeId).any (fun b => (bar b).expected != 0
          && (bar b).arrivals == (bar b).expected && (bar b).balance == 0 && (bar b).mode != 0))) = true := by decide +kernel

/-- R153, R160, R172 to R175: a gauge to be added to and read, an increment of 2^63 − 1 and of 2^63, a target reached and not; a
mailbox with 7, with 8 and with no messages, of an ended block, and one that does not exist. -/
theorem wit_gauges_and_mailboxes :
    (let big : W64 := 0x7FFFFFFFFFFFFFFF
     let da : GangDesc := { guard := ga, srcs := [k1, k2], feederOk := true, mem := true }
     let dw : GangDesc := { da with swap := true }
     let dm : GangDesc := { guard := ga, srcs := [i0, k2], feederOk := true, mem := true, rel := true }
     let dr := fun (a : Src) => ({ guard := ga, srcs := [a], kdst := [4], swap := true, mem := true } : GangDesc)
     let k := fun (n : W64) => [0, 65536, n]
     let va := fun (k : Store W64) => sget 0 k 1
     let small := fun (k : Store W64) => decide ((readUni k k2).toNat < 2 ^ 63)
     let reached := fun (s : State) (b : Block) (k : Store W64) => match gaugePlace s b .watch .all (va k) with
       | .ok l => if gaugeOwed s b (.gang 0) l || !held s b (va k) then none else some (decide ((gaugeTarget k k2).toNat ≤ gaugeValue s b l))
       | .error _ => none
     let box := fun (n : Nat) (b : Block) => { b with mboxes := [(0, List.replicate n (5 : W64))] }
     let room := fun (s : State) (b : Block) (k : Store W64) => match targetBad i0 b k, mboxTarget s b (readUni k i0) with
       | none, none => some true
       | none, some y => some (decide (mboxLen y 0 < 8))
       | some _, _ => none
     let gone := fun (b : Block) => { b with stat := BStat.killed }
     gangMet (wk (k big) id) da (fun s x b y => okB (gaugePlace s b .rw .all (va x.g.k)) && small x.g.k && !classFull y 2 && walkRoom s b.ctx b.core [va x.g.k])
      && feederMet (filled (wkf (k big) id)) da (fun s x b => small x.f.k && held s b (va x.f.k) && (match gaugePlace s b .rw .all (va x.f.k) with
          | .ok l => (match gaugeAddLoc s b.views l (x.uni k2) with | .ok (.ok _) => true | _ => false)
          | .error _ => false))
      && feederMet (wkf (k big) id) da (fun s x b => small x.f.k && okB (gaugePlace s b .rw .all (va x.f.k)) && (missAt s b.ctx b.core (feederRef b.id) (va x.f.k)).isSome)
      && kCold (k 0) id dw va (fun s i b k => match gaugePlace s b .watch .all (va k) with | .ok l => !gaugeOwed s b i.party l | .error _ => false)
      && kMet (k (big + 1)) id da (fun s _ b k => okB (gaugePlace s b .rw .all (va k)) && !small k)
      && kMet (k 0) id dw (fun s _ b k => reached s b k == some true) && kMet (k 1) id dw (fun s _ b k => reached s b k == some false)
      && kMet (k 9) (box 7) dm (fun s _ b k => room s b k == some true) && kMet (k 9) (box 8) dm (fun s _ b k => room s b k == some false)
      && kMet (k 9) (fun b => gone (box 8 b)) dm (fun s _ b k => room s b k == some true)
      && kMet (k 9) id { dm with srcs := [.inl 1, k2] } (fun _ _ b k => (targetBad (.inl 1) b k).isSome)
      && gangMet (wk [] (box 1)) (dr i0) (fun _ x b _ => decide ((x.uni i0).toNat < b.kd.nmbox) && sget [] b.mboxes 0 == [5] && mboxWaiters b 0 == [])
      && gangMet (wk [] id) (dr i0) (fun _ x b _ => decide ((x.uni i0).toNat < b.kd.nmbox) && sget [] b.mboxes 0 == [])
      && gangMet (wk [] id) (dr (.inl 1)) (fun _ x b _ => decide (b.kd.nmbox ≤ (x.uni (.inl 1)).toNat))) = true := by decide +kernel

/-! ### Tasks, record queues, forks, pairs -/

/-- An image of n bytes with fields (offset, bytes, value). -/
def img (n : Nat) (fs : List (Nat × Nat × Nat)) : List Byte := fs.foldl (fun l f => l.take f.1 ++ le f.2.1 f.2.2 ++ l.drop (f.1 + f.2.1)) (zeros n)
/-- Bytes at an address of the instruction's page, under its key. -/
def withMem (s : State) (a : Nat) (bs : List Byte) : State :=
  let pa := placePa + (a - placeVa)
  hbmWrite { s with sectorKey := (sectorsOf pa bs.length).foldl (fun k x => sset 0 k x (keyMat s placeKey)) s.sectorKey } (keyMat s placeKey) pa bs
/-- Fields of a kernel of one thread that starts at an address (R320), and of a grid of one block of it. -/
def kernelAt (a : Nat) : List (Nat × Nat × Nat) :=
  [(0, 8, a), (0x10, 2, 1), (0x12, 2, 1), (0x14, 2, 1), (0x16, 1, 1), (0x17, 1, 1), (0x20, 16, 2 ^ 128 - 1), (0x30, 16, 2 ^ 128 - 1)]
def gridOf (a : Nat) : List (Nat × Nat × Nat) := kernelAt a ++ [(0x40, 4, 1), (0x44, 2, 1), (0x46, 2, 1), (0x49, 1, 1), (0x50, 8, 0), (0x58, 4, 1)]
/-- A launch body at 65536 that names the block at 65664 (R319, R320). -/
def launchImg : List Byte := img 256 ([(0, 1, 1), (8, 8, 65664)] ++ (gridOf 65536).map (fun f => (f.1 + 128, f.2)))
/-- A fork descriptor of two children and one window, at 65536, with its kernel's bytes after it (R127). -/
def forkImg (w : Nat) : List Byte := img 384 ([(0, 8, 65536 + 384), (8, 4, 2), (0x0D, 1, 1), (0x40, 8, w), (0x48, 8, 32)]
  ++ (kernelAt (65536 + 384)).map (fun f => (f.1 + 320, f.2)))

def gr0 : Grid := { id := placeId, ctx := placeCtx, lp := { rcount := 10, minchunk := 2 }, nblocks := 2, rangeNext := 9 }

/-- R330, R344 to R349: a range with one index left and with none, at level 0 and above, and no range; a launch; a queue with a free
record, with none, with waiters, closed; a commit of a record that the gang holds; a last opener and one too many. -/
theorem wit_ranges_launches_records :
    (let dr : GangDesc := { guard := ga, srcs := [], kdst := [4], feederOk := true }
     let dl : GangDesc := { guard := ga, srcs := [k1], mem := true, rel := true }
     let dc : GangDesc := { guard := ga, srcs := [k1, k2, .k 3], mem := true, rel := true }
     let grid := fun (s : State) (g : Grid) => { s with grids := [g] }
     let both := fun (g : Grid) (f : Block → Block) => partyMet (grid (wk [] f) g) (grid (wkf [] f) g) dr
     let lv := fun (n w : Nat) (b : Block) => { b with level := n, wave := w }
     let spent : Grid := { gr0 with rangeNext := 10 }
     let index := fun (i : Iss) (b : Block) (g : Grid) => b.wave + max 1 g.nblocks * partyRange b i.party
     let launching := fun (f : Block → Block) => withMem (wk [0, 65536] f) 65536 launchImg
     let launched := fun (s : State) (x : Turn) (b : Block) => if (x.k 1).toNat % 64 != 0 then none else match structLoad s b.ctx (some b.core) b.views (x.k 1) 64 with
       | .ok (s0, l) => if !launchMbz l then none else (parseLaunch l).bind (fun body => match checkLaunch s0 b.ctx (some b.core) b.views body (some b.region) with
         | .ok (s1, k, lp) => some (weirAdmit (addGrid s1 b.ctx 1 (some b.grid) b.queue b.level body k lp).2)
         | .error _ => none)
       | .error _ => none
     let rq := fun (s : State) (x : Turn) (b : Block) => if accessOwed b (.gang x.gang) then .error { cls := 0 } else openRq s b (x.k 1)
     let wq := fun (q : RecQueue) (f : Block → Block) => filled (wq q f)
     let unopened := withMem (wk [0, 65536] (fun b => { b with level := 0 })) 65536 (img 256 ([(0, 8, 65536), (8, 8, 256), (0x10, 2, 128), (0x12, 2, 1), (0x18, 4, 1),
       (0x20, 8, 65664)] ++ (gridOf 65536).map (fun f => (f.1 + 128, f.2))))
     let put := fun (s : State) (x : Turn) (n : Nat) => setK s x.blk (.gang x.gang) 4 (BitVec.ofNat 64 n)
     let queued := fun (s : State) (x : Turn) (q : RecQueue) => modRq s q.id (fun q => { q with rqwait := q.rqwait ++ [(x.blk, x.gang)] })
     let commits := fun (s : State) (x : Turn) (b : Block) (q : RecQueue) => modRq s q.id (fun q => { q with
       allocated := q.allocated.filter (fun y => y != (x.k 2).toNat), committed := q.committed ++ [{ addr := (x.k 2).toNat, key := x.uni (.k 3), depth := b.depth + 1 }] })
     let closes := fun (s : State) (q : RecQueue) => rqDone (modRq s q.id (fun q => { q with left := q.left - 1, closed := q.left == 1 })) q.id
     let taken : RecQueue := { rq0 with allocated := [65536], taken := [65664] }
     let free := fun (s : State) (x : Turn) (b : Block) => match rq s x b with
       | .ok (q, s1) => !q.closed && q.rqwait == [] && (freeRecord q).any (fun a => match takeRecord s1 b q a with
         | .ok s2 => hot s b (put s2 x a)
         | .error _ => false)
       | .error _ => false
     let full := fun (s : State) (x : Turn) (b : Block) => match rq s x b with
       | .ok (q, s1) => !q.closed && b.level == 0 && freeRecord q == none && hot s b (queued s1 x q) && hot s b (put s1 x 0)
       | .error _ => false
     both gr0 (lv 0 0) (fun s _ b _ => (getGrid s b.grid).any (fun g => g.lp.rcount != 0 && b.level == 0 && decide (g.rangeNext < g.lp.rcount)))
      && both spent (lv 0 0) (fun s _ b _ => (getGrid s b.grid).any (fun g => g.lp.rcount != 0 && b.level == 0 && decide (g.lp.rcount ≤ g.rangeNext)))
      && both gr0 (lv 2 9) (fun s i b _ => (getGrid s b.grid).any (fun g => g.lp.rcount != 0 && b.level != 0 && decide (index i b g < g.lp.rcount)))
      && both gr0 (lv 1 10) (fun s i b _ => (getGrid s b.grid).any (fun g => g.lp.rcount != 0 && b.level != 0 && decide (g.lp.rcount ≤ index i b g)))
      && both { gr0 with lp := {} } id (fun s _ b _ => (getGrid s b.grid).any (fun g => g.lp.rcount == 0))
      && gangMet (filled (launching id)) dl (fun s x b _ => (launched s x b).any (hot s b))
      && gangMet (launching id) dl (fun s x b _ => (launched s x b).any (cold s b (.gang x.gang)))
      && gangMet (wk [0, 65568] id) dl (fun _ x _ _ => (x.k 1).toNat % 64 != 0)
      && gangMet (wq rq0 id) (rqallocDesc ga 4 1 true) (fun s x b _ => free s x b)
      && gangMet (wq taken id) (rqallocDesc ga 4 1 true) (fun s x b _ => full s x b)
      && gangMet (wq { rq0 with rqwait := [(7, 0)] } id) (rqallocDesc ga 4 1 true) (fun s x b _ => match rq s x b with
          | .ok (q, s1) => !q.closed && b.level == 0 && q.rqwait != [] && hot s b (queued s1 x q)
          | .error _ => false)
      && gangMet (wq rq0 id) (rqallocDesc ga 4 1 false) (fun s x b _ => free s x b) && gangMet (wq taken id) (rqallocDesc ga 4 1 false) (fun s x b _ => full s x b)
      && gangMet (wq taken (fun b => { b with depth := 63 })) dc (fun s x b _ => match rq s x b with
          | .ok (q, s1) => q.allocated.contains (x.k 2).toNat && decide (b.depth + 1 ≤ 64)
            && (match structWrite s1 b.ctx (some b.core) b.views (BitVec.ofNat 64 (x.k 2).toNat) (le64 (x.uni (.k 3)) ++ zeros 8 ++ le 4 (b.depth + 1) ++ zeros 12) with
              | .ok s2 => hot s b (commits s2 x b q)
              | .error _ => false)
          | .error _ => false)
      && gangMet unopened { gf with srcs := evSrcs (.rq 1 8), mem := true } (fun s x b _ => match rq s x b with
          | .ok (_, r) => cold s b (.gang x.gang) r
          | .error _ => false)
      && [1, 0].all (fun n => gangMet (wq { rq0 with left := n } id) { guard := ga, srcs := [k1], mem := true, rel := true } (fun s x b _ => match rq s x b with
          | .ok (q, s1) => q.left == n && hot s b (closes s1 q)
          | .error _ => false))) = true := by decide +kernel

/-- A fork of two children, opened by the block, at block scope with tag 255. -/
def fork0 : Fork :=
  { id := 9, ctx := placeCtx, tag := 255, scope := .block, opener := some placeId, openerGrid := none, packetQueue := none, parentView := [], desc := 65536, count := 2,
    retry := 0, quota := 64, arg := 0, gauge := 0, gadd := 0, frec := 0, seed := 0, kd := {}, region := 0, level := 1, wins := [],
    children := [{ idx := 0 }, { idx := 1 }] }
def wfork (f : Fork) (k : List W64) (h : Block → Block) : State := { wk k h with forks := [f] }

/-- R132 to R136: a fork that opens, one whose window an outstanding store has yet to reach, and one whose descriptor is not aligned; a tag whose bucket has ended, whose bucket has not,
and that names nothing; a child and a block that is none. -/
theorem wit_fork_instructions :
    (let df : GangDesc := { guard := ga, srcs := [k1], mem := true, rel := true }
     let dj : GangDesc := { guard := ga, srcs := [.imm 255], kdst := [4], swap := true, mem := true }
     let opener := fun (b : Block) => ({ ctx := b.ctx, view := b.views, blk := some b.id, grid := some b.grid, queue := b.queue, level := b.level, region := b.region, core := some b.core } : Opener)
     let open_ := fun (s : State) (x : Turn) (b : Block) => openFork s (opener b) .block (x.k 1)
     let late := fun (s : State) (x : Turn) (b : Block) => match open_ s x b with
       | .ok (s1, id) => some (((getFork s1 id).map (winPending s1)).getD false, s1)
       | .error _ => none
     let storing : Gang := { live := 1, pc := [(0, 65536)], ops := [opOf 9 1 (.store [{ lane := 0, loc := here 1024, data := le 4 1 }] false)] }
     gangMet (filled (withMem (wk [0, 65536] id) 65536 (forkImg 131072))) df (fun s x b _ => (late s x b).any (fun r => !r.1 && hot s b r.2))
      && gangMet (withMem (wk [0, 65536] id) 65536 (forkImg 131072)) df (fun s x b _ => (late s x b).any (fun r => !r.1 && cold s b (.gang x.gang) r.2))
      && gangMet (withMem (alsoTracked (wk [0, 65536] (fun b => { b with gangs := b.gangs ++ [(1, storing)] }))) 65536 (forkImg 132096)) df (fun s x b _ => (late s x b).any (fun r => r.1))
      && gangMet (wk [0, 65600] id) df (fun s x b _ => errB (open_ s x b) 5 0)
      && gangMet (wfork { fork0 with ended := true, outcome := 5 } [] id) dj (fun s _ b _ => (findTag s b 255).any (fun f => f.bucketEnded 255 && !joinFails (f.status 255).1))
      && gangMet (wfork fork0 [] id) dj (fun s _ b _ => (findTag s b 255).any (fun f => !f.bucketEnded 255))
      && gangMet w0 dj (fun s _ b _ => findTag s b 255 == none)
      && gangMet (wfork { fork0 with opener := none } [] (fun b => { b with views := [(9, 1)] })) g0 (fun _ _ b _ => b.views == [(9, 1)])
      && gangMet w0 g0 (fun _ _ b _ => b.views == []) && gangMet w0 { g0 with kdst := [4] } (fun _ _ _ _ => true)
      && gangMet (wk [0, 65536] id) { guard := ga, srcs := [k1, .inl 8], kdst := [4] } (fun _ _ _ _ => true)) = true := by decide +kernel

/-- R37: a pair under a true and under a false uniform guard. -/
theorem wit_pairs :
    (let met : State → Guard → Bool := fun s gd => (turnOf s).any (fun (x : Turn) =>
       (laneDesc (.iadd gd .n32 false (.v 8) (.v 8) (.k 5))).any (fun (d : LaneDesc) => (uniDesc (.kadd gd .n64 false 5 (.k 5) (.inl 64))).any (fun (u : UniDesc) =>
         let prep := fun (off : Bool) => prepLane x.g x.g.live ⟨off, 7⟩ d.srcs (d.dst.names ++ (u.srcs.flatMap (fun p => srcNames 1 p.1)) ++ [kBase + 5]) false
         d.custom.isNone && x.mask != (0 : Mask) && x.mask == x.g.live && stalledLanes x.g (pairNames d u) d.latches x.g.live == (0 : Mask)
           && !(d.wide && spPending x.g) && (d.priv x.g x.g.live).isNone && u.kdst == some 5
           && (if guardUni x.g.q d.guard then (match prep false with
               | .ok (g1, m) => m == x.g.live && (d.bad g1 x.g.live).isNone && poisonLanes g1 (u.srcs.flatMap (fun p => srcBad p.2 p.1)) x.g.live == 0
               | .error _ => false)
             else (match prep true with
               | .ok (_, m) => m == (0 : Mask)
               | .error _ => false)))))
     met w0 ⟨false, 7⟩ && met w0 ⟨true, 1⟩ && met w0 ⟨false, 1⟩) = true := by decide +kernel

/-! ### Issue, completions, the streamer at work, waits that end -/

/-- The state with the translation of the instruction's page in the core's buffer and no issue chosen. -/
def warm (s : State) : State := modCore { s with active := none } 0 (fun c => { c with tlb := [{ ctx := placeCtx, va := 65536, size := 65536 }] })

/-- R287 to R294, R137: a core with nothing chosen; a gang that stands at two instructions of the gang; an entry that has waited 64
cycles; a feeder whose code is translated and one whose code is not; a pending gang; a thread that waits for its fetch. -/
theorem wit_issue :
    (let split := warm { State.reset.withFetchWord 128 (0x1EA0 + 0x1EA0 * 2 ^ 64) with cur := [] }
     let two := modGang split placeId 0 (fun g => { g with live := 3, pc := [(0, 65536), (1, 65544)] })
     let fetch := wg (fun g => { g with fetchWait := 1, pc := [(0, 65536)] })
     let fed := fun (s : State) (miss : Bool) => (nextFeeder s 0).any (fun x => fetchMisses s x.1 x.2.pc == miss)
     w0.cur.isEmpty && (uniformityFault { w0 with active := none } 0).isNone && two.cur.isEmpty && (uniformityFault two 0).isSome
      && fed (warm w0) false && fed { w0 with active := none } true
      && decide ((activeGangs (wg (fun g => { g with active := false })) 0).length < 8)
      && (nextPending (warm (wg (fun g => { g with active := false }))) 0).isSome
      && (getBlk fetch placeId).any (fun b => b.core == 0 && (sfind b.gangs 0).any (fun y => y.fetchWait.getLsbD 0 && sget 0 y.pc 0 == 65536))
      && fetch.blocks.length == 1) = true := by decide +kernel

/-- A load of lane 0 from the instruction's page. -/
def ld0 : Op := opOf 9 0 (.load .n32 4 (.lane (.v 4)) [{ lane := 0, loc := here 0 }] false false)
/-- An atomic request of lane 0. -/
def at0 : AtomReq := { id := 12, loc := here 0, w64 := false, kind := .int .add, lanes := [{ blk := placeId, gang := 0, op := 9, lane := 0, opnd := 1, cmp := 0 }] }
/-- A walk of the instruction's page that runs. -/
def walk0 : Walk := { id := 3, ctx := placeCtx, page := 1, running := true, cores := [0], ops := [(placeId, 0, 9)] }

/-- R69, R172, R176, R192 to R196, R200, R248: each outstanding operation about to complete; a load whose answer from a peer is poisoned, and a WSIG at a poisoned
gauge; a load with another of its issue group that can complete and with one that cannot; a walk of a mapped page and of an unmapped one. -/
theorem wit_operations_and_walks :
    (let yes := fun (_ : Block) (_ : Gang) (_ : Op) => true
     let acc : List LaneAcc := [{ lane := 0, loc := here 0, data := le 4 1 }]
     let done := fun (s : State) (b : Block) => !(performLanes b acc s).blocked
     let far : Loc := { ap := 2, addr := 64, peer := 9, ent := 1 }
     let remote := { modCtx (wo (opOf 9 0 (.load .n32 4 (.lane (.v 4)) [{ lane := 0, loc := far }] false false))) placeCtx
         (fun c => { c with peers := [(1, { valid := true, serial := 9, ports := 4 })] }) with
       ports := [(2, { up := true, serial := 9 })], peerBad := [peerSector far] }
     let loadOf := fun (o : Op) => match o.body with | .load _ _ _ acc _ _ => acc | _ => []
     let mates := fun (walks : List Nat) => wg (fun g => { g with ops := [{ ld0 with group := 5 }, { opOf 10 0 (.load .n32 4 (.lane (.v 4)) [{ lane := 1, loc := here 0 }] false false) with lanes := 2, group := 5, walks := walks }] })
     let gauge := wo (opOf 9 2 (.gaugeAdd (here 0) 5))
     let sig := setBad (wo (opOf 9 1 (.wsig acc [(0, here 8)] true))) (placePa / 32) true
     let atom := { wo (opOf 9 2 (.atomic 1 (.v 4) [0] false false)) with atoms := [at0] }
     let walking := modDie (wo { ld0 with walks := [3] }) 0 (fun d => { d with walks := [{ walk0 with ops := walk0.ops ++ [prefetchRef placeId 65536] }] })
     let lost := modDie (wo { ld0 with walks := [3] }) 0 (fun d => { d with walks := [{ walk0 with page := 2 }] })
     opMet (wo ld0) 9 opRel (fun b _ o => o.group == 0 && (loadOf o).all (fun a => !accPoison (wo ld0) b a))
      && opMet remote 9 opRel (fun b _ o => o.group == 0 && ((loadOf o).filter (accPoison remote b)).length == 1)
      && opMet (mates []) 9 opRel (fun _ _ o => (opMates (mates []) o).length == 1 && (opMates (mates []) o).all (mateReady (mates [])))
      && opMet (mates [3]) 9 opRel (fun _ _ o => !(opMates (mates [3]) o).all (mateReady (mates [3])))
      && opMet (wo (opOf 9 1 (.store acc true))) 9 opRel (fun b _ _ => done (wo (opOf 9 1 (.store acc true))) b)
      && opMet (wo (opOf 9 1 (.wsig acc [(0, here 8)] false))) 9 opRel (fun b _ _ => done (wo (opOf 9 1 (.wsig acc [(0, here 8)] false))) b)
      && opMet (wo (opOf 9 1 (.wsig acc [(0, here 8)] true))) 9 (fun _ => true) (fun b _ _ =>
          (signalGauges b [(0, here 8)] (wo (opOf 9 1 (.wsig acc [(0, here 8)] true)))).2.1.isEmpty
            && (signalGauges b [(0, here 8)] (wo (opOf 9 1 (.wsig acc [(0, here 8)] true)))).2.2.isEmpty)
      && opMet sig 9 (fun _ => true) (fun b _ _ => (signalGauges b [(0, here 8)] sig).2.1.isEmpty
          && (signalGauges b [(0, here 8)] sig).2.2.head?.any (fun x => x.1 == 0 && x.2.1 == 8))
      && opMet (wo (opOf 9 3 (.drain 0 false .f32 0 768 [[1]] false 0 none false))) 9 (fun _ => false)
          (fun b y _ => !y.exited && (match coopAdd w0 b none with | .ok _ => true | .error _ => false))
      && (atom.atoms.find? (fun x => x.id == 12)).any (fun r => r.lanes.head?.any (fun a => (getBlk atom a.blk).any (fun b => atomReady atom r
          && r.lanes.all (fun a => (getBlk atom a.blk).any (fun z => !blockLost atom z r.loc && !childHeld atom z.views)) && (match locWrite atom b.views r.loc (le 4 7) with | .ok _ => true | _ => false))))
      && opMet gauge 9 opRel yes && gauge.atoms.isEmpty && opMet gauge 9 (fun _ => true) (fun b _ _ => !blockLost gauge b (here 0) && (match gaugeStep gauge b.views (here 0) 5 with
          | .ok (.ok _) => true
          | _ => false))
      && ((getDie walking 0).walks.find? (fun x => x.id == 3 && x.running)).any (fun w =>
          match walk walking false (((getCtx walking w.ctx).map (fun c => c.root)).getD 0) (w.page * 65536) with
          | .leaf _ lv => lv == 3
          | .fault _ _ => false)
      && ((getDie lost 0).walks.find? (fun x => x.id == 3 && x.running)).any (fun w =>
          match walk lost false (((getCtx lost w.ctx).map (fun c => c.root)).getD 0) (w.page * 65536) with
          | .leaf _ _ => false
          | .fault _ _ => true)) = true := by decide +kernel

/-- A copy of one byte from address 65536 to the scratchpad, behind guard slot 7. -/
def cmd0 : Cmd := { id := 11, kind := .copy 0 false, ch := 3, tag := some 7, ka := 65536, kb := 0, kn := List.replicate 8 0, func := 0, addr := 65536 }

/-- R142, R146 to R148, R151, R152, R157: a command at the head of its channel behind a true and behind a false slot, its list
missing, or its page in no translation buffer; a piece to deliver, its source unmapped or missed, its target read-only; a command delivered; a delivery of all the bytes that are expected and of one more. -/
theorem wit_streamer_runs :
    (let queued := fun (c : Cmd) (v : GSlot) => filled (wb (fun b => { putSlot b 7 v with chans := [c] }))
     let coldQueue := fun (c : Cmd) => wb (fun b => { putSlot b 7 .isTrue with chans := [c] })
     let under := fun (c : Cmd) => filled (wb (fun b => { b with started := [c] }))
     let cold := wb (fun b => { b with started := [cmd0] })
     let locked := readOnly (under { cmd0 with kind := .fill 0 true })
     let head := fun (s : State) (f : Block → Cmd → Bool) => (getBlk s placeId).any (fun b => streamerOn s b && !childHeld s b.views
       && (b.chans.find? (fun x => x.ch == 3)).any (f b))
     let going := fun (s : State) (f : Block → Cmd → Bool) => (getBlk s placeId).any (fun b => !childHeld s b.views && (b.started.find? (fun x => x.id == 11)).any (f b))
     let noList : Cmd := { cmd0 with kind := .gather .x32 false, kn := List.replicate 7 0 ++ [16] }
     let listed : Cmd := { cmd0 with kind := .gather .x32 false, kn := List.replicate 7 0 ++ [65536] }
     let bal := fun (n : Int) => wb (fun b => { b with bars := [(0, { balance := n })] })
     let gauged := fun (s : State) (b : Block) (c : Cmd) => match cmdGauge s b c with | .ok (_, x) => x | .error _ => false
     head (queued cmd0 .isTrue) (fun b c => slotOf b 7 == .isTrue && okB (readList (queued cmd0 .isTrue) b c) && listMiss (queued cmd0 .isTrue) b c == none)
      && head (coldQueue listed) (fun b c => slotOf b 7 == .isTrue && okB (readList (coldQueue listed) b c) && (listMiss (coldQueue listed) b c).isSome)
      && head (queued noList .isTrue) (fun b c => slotOf b 7 == .isTrue && !okB (readList (queued noList .isTrue) b c))
      && head (queued cmd0 .isFalse) (fun b c => slotOf b 7 == .isFalse && gauged (queued cmd0 .isFalse) b c)
      && going (under cmd0) (fun b c => (c.piece b 0).any (fun p => !c.delivered.contains 0 && (match pieceSource (under cmd0) b c p with
          | .ok bs => pieceMiss (under cmd0) b c p == none && (match putPiece (pieceSeen (under cmd0) b c p) b c p bs with | .ok _ => true | _ => false)
          | .error _ => false)))
      && going cold (fun b c => (c.piece b 0).any (fun p => !c.delivered.contains 0 && okB (pieceSource cold b c p) && (pieceMiss cold b c p).isSome))
      && going locked (fun b c => (c.piece b 0).any (fun p => !c.delivered.contains 0 && (match pieceSource locked b c p with
          | .ok bs => pieceMiss locked b c p == none && (match putPiece (pieceSeen locked b c p) b c p bs with | .fault _ _ => true | _ => false)
          | .error _ => false)))
      && going (under { cmd0 with ka := 0 }) (fun b c => (c.piece b 0).any (fun p => !c.delivered.contains 0 && !okB (pieceSource (under { cmd0 with ka := 0 }) b c p)))
      && going (under { cmd0 with delivered := [0] }) (fun b c => c.allDelivered b && gauged (under { cmd0 with delivered := [0] }) b c && !c.gbind)
      && [(5 : Int), 4].all (fun n => (getBlk (bal n) placeId).any (fun b => (sget ({} : Barrier) b.bars 0).balance == n && (sget ({} : Barrier) b.bars 0).mode == 0))) = true := by
  decide +kernel

/-- R164, R171 to R175, R179, R180, R238, R306, R313, R375: each wait with what ends it. -/
theorem wit_waits_end :
    (let waits := fun (w : Wait) (f : Block → Block) => modBlk (modGang w0 placeId 0 (fun g => { g with wait := w, alloc := 8 })) placeId f
     let met := fun (s : State) (c : Block → Gang → Bool) => (getBlk s placeId).any (fun b => b.runs && (sfind b.gangs 0).any (c b))
     let fed := fun (f : Block → Block) => modBlk (wf (fun x => { x with wait := .pushq 0 3 5 })) placeId f
     let gw := waits (.gaugewait (here 0) 0) id
     let mg := modCore (waits .mgate id) 0 (fun c => { c with gateQ := [(placeId, 0)] })
     let gr := modCore (waits (.grow 64) (fun b => { b with kd := { b.kd with rmin := 1, rmax := 8 } })) 0 (fun c => { c with growQ := [(placeId, 0)] })
     let lack := modCore (modGang (waits (.grow 3080) id) placeId 0 (fun g => { g with alloc := 3072 })) 0 (fun c => { c with growQ := [(placeId, 0)] })
     let stuck := modCore (waits (.grow 64) id) 0 (fun c => { c with growQ := [(placeId, 0)], sinceGrant := 4096 })
     let ev := modGang (waits (.waitany 1) id) placeId 0 (fun g => { g with ev := { slots := [(0, { kind := 1 })], pend := 1 } })
     met (modGang (waits (.mwait 4) id) placeId 0 (fun g => { g with watch := { triggered := true } })) (fun _ y => y.wait == .mwait 4 && y.watch.triggered)
      && met (waits (.barwait 0 true) id) (fun b y => y.wait == .barwait 0 true && !(sget ({} : Barrier) b.bars 0).phase)
      && met gw (fun b y => y.wait == .gaugewait (here 0) 0 && !locPoison gw b.views (here 0) && decide (0 ≤ gaugeValue gw b (here 0)))
      && met (waits (.mbrecv 4 0) (fun b => { b with mboxes := [(0, [5])] })) (fun b y => y.wait == .mbrecv 4 0 && sget [] b.mboxes 0 == [5] && (mboxWaiters b 0).head? == some 0)
      && met (waits (.mbsend 0 0 5) (fun b => { b with mboxes := [(0, List.replicate 7 1)] })) (fun b y => y.wait == .mbsend 0 0 5
          && (cmdBlock w0 b 0).any (fun z => z.stat != .ended && z.stat != .killed && decide (mboxLen z 0 < 8)))
      && met (modGang (waits (.popq 4 3) id) placeId 0 (fun g => { g with inlet := [(3, [5])] })) (fun _ y => y.wait == .popq 4 3 && sget [] y.inlet 3 == [5])
      && (getBlk (fed id) placeId).any (fun b => b.runs && partyWait (fed id) placeId .feeder == .pushq 0 3 5 && !inletFull (fed id) placeId 0 3)
      && met ev (fun _ y => y.wait == .waitany 1 && candidate y.ev 1 == some 0)
      && (getCore mg 0).gate == none && (getCore mg 0).gateQ.find? (gateGrantable mg) == some (placeId, 0) && partyWait mg placeId (.gang 0) == .mgate
      && growNext gr 0 == .grant placeId 0 && growNext lack 0 == .lacks && partyWait gr placeId (.gang 0) == .grow 64
      && poolStuck stuck 0 && (leastBy (fun (b : Block) => 2 ^ 64 - b.admitted) (stuck.blocks.filter (fun b => b.core == 0 && b.stat == .resident))).any (fun x => x.clique == 0)
      && met (modGang (waits .checksum id) placeId 0 (fun g => { g with ckAt := some 0 })) (fun b y => !ctxHalted w0 b.ctx && y.wait == .checksum && [0, 2, 3].all (fun c => classCount y c == 0)
          && y.ckAt == some 0)) = true := by decide +kernel

/-! ### Packets, management commands, the device, forks and blocks -/

/-- A packet at the head of queue 3, with the queue or the machine changed. -/
def wp (fs : List (Nat × Nat × Nat)) (f : Queue → Queue) (g : State → State) : State :=
  g { w0 with active := none, queues := [(3, f { bound := true, ctx := placeCtx, ring := 65536, tail := 1, reads := [(1, 0)], pkt := some (img 64 fs) })] }
/-- The premises of a packet of a type hold, and its condition. -/
def pktMet (s : State) (ty fl : Nat) (cond : State → Queue → List Byte → Bool) : Bool :=
  let q := getQueue s 3
  (getCtx s q.ctx).any (fun c => q.bound && !q.stopped && q.unread != 0 && !levelHolds c q && !earlierRead s 3 q && c.goesOn
    && (match headPacket s q with
      | .ok l => packetOk l && natAt l 0 1 == ty && (ty == 1 || natAt l 1 1 == fl) && !heldPacket (packetRead s q) 3 q l && cond (packetRead s q) q l
      | .error _ => false))
/-- Bytes placed at the page, as a change of the machine. -/
def atPage (bs : List Byte) (s : State) : State := withMem s 65536 bs
/-- An RCB that gives every field, as the root's has to. -/
def rcbFull : List (Nat × Nat × Nat) := [(8, 4, 1023), (0x10, 4, 1), (0x14, 4, 1), (0x18, 8, 64), (0x20, 4, 1)]

/-- R317 to R322, R324, R342, R391, R397: each packet at the head of its queue, with what makes it succeed and what makes it fail; a
pending level change; a queue with room for a tail write; a stopped queue. -/
theorem wit_packets :
    (let full := fun (_ : State) (_ : Queue) (_ : List Byte) => true
     let fork := fun (w : Nat) => (forkImg w).take 128 ++ le 8 65920 ++ le 4 65536 ++ le 1 1 ++ zeros 19 ++ le 4 1 ++ le 2 1 ++ le 2 1 ++ (forkImg w).drop 168 ++ zeros 128
     let gauge := fun (a : Nat) (ty : Nat) (n : Nat) => wp [(0, 1, ty), (8, 8, a), (0x10, 8, n)] id (atPage (zeros 32))
     let lv := { modCtx w0 placeCtx (fun c => { c with pendingLevels := [(3, 7), (2, 5)] }) with grids := [{ gr0 with read := 5 }] }
     let busy : Gang := { live := 1, pc := [(0, 65536)], ops := [opOf 9 1 (.store [{ lane := 0, loc := here 1024, data := le 4 1 }] false)] }
     let storing := alsoTracked { wb (fun b => { b with gangs := b.gangs ++ [(1, busy)] }) with active := none }
     let opened := fun (s : State) (q : Queue) (l : List Byte) => match nameRegion s q.ctx none [] (w64At l 0x10) with
       | .ok s1 => (match openFork s1 { ctx := q.ctx, queue := 3, packet := true, level := levelOf s q.ctx, region := w64At l 0x10 } .chip (w64At l 8) with
         | .ok (s2, id) => some (((getFork s2 id).map (winPending s2)).getD false)
         | .error _ => none)
       | .error _ => none
     let owns := fun (s : State) => ownsQueue s .pf (getQueue s 3) && s.dev.ready && queueAt s .pf 3 == 3
     let launch := fun (s : State) (q : Queue) (l : List Byte) => (parseLaunch l).map (fun b => okB (checkLaunch s q.ctx none [] b none))
     let chain := fun (s : State) (q : Queue) (l : List Byte) => (scanRcb q.ctx none [] true regionFuel [] s (w64At l 8)).2
     pktMet (wp [(0, 1, 1), (8, 8, 65664)] id (atPage launchImg)) 1 0 (fun s q l => launch s q l == some true)
      && pktMet (wp [(0, 1, 1), (8, 8, 0)] id id) 1 0 (fun s q l => launch s q l == some false)
      && pktMet (wp [(0, 1, 1), (8, 8, 1)] id id) 1 0 (fun _ _ l => parseLaunch l == none)
      && pktMet (wp [(0, 1, 2), (8, 8, 65536)] id (atPage (fork 131072))) 2 0 (fun s q l => opened s q l == some false)
      && pktMet (wp [(0, 1, 2), (8, 8, 65536)] id (fun s => atPage (fork 132096) { storing with queues := s.queues })) 2 0 (fun s q l => opened s q l == some true)
      && pktMet (wp [(0, 1, 2), (8, 8, 65536), (0x10, 8, 128)] id id) 2 0 (fun s q l => !okB (nameRegion s q.ctx none [] (w64At l 0x10)))
      && pktMet (wp [(0, 1, 2), (1, 1, 1), (0x19, 1, 1)] id id) 2 1 full
      && pktMet (wp [(0, 1, 3), (8, 1, 2)] id id) 3 0 full && pktMet (wp [(0, 1, 4)] id id) 4 0 full
      && (getCtx lv placeCtx).any (fun c => c.pendingLevels.all (fun x => x == (2, 5) || decide (5 < x.2)) && c.pendingLevels.contains (2, 5))
        && lv.grids.all (fun g => g.ctx != placeCtx || decide (5 ≤ g.read)) && !unreadBefore lv placeCtx 5
      && pktMet (gauge 65536 5 0) 5 0 (fun s q l => okB (packetGauge s q.ctx .watch (w64At l 8)))
      && pktMet (gauge 65537 5 0) 5 0 (fun s q l => !okB (packetGauge s q.ctx .watch (w64At l 8)))
      && pktMet (gauge 65536 6 5) 6 0 (fun s q l => match packetGauge s q.ctx .rw (w64At l 8) with
          | .ok g => (match gaugeAddLoc s [] g (w64At l 0x10) with | .ok (.ok _) => true | _ => false)
          | .error _ => false)
      && pktMet (wp [(0, 1, 7), (8, 8, 128), (0x24, 4, 7)] id id) 7 0 (fun _ _ l => decide (natAt l 0x24 4 < 8) && (w64At l 8).toNat % 128 == 0)
      && pktMet (wp [(0, 1, 7), (1, 1, 1), (8, 8, 65536)] id (atPage (zeros 512))) 7 1 (fun s q l => (getCtx s q.ctx).any (fun c => (w64At l 8).toNat % 128 == 0
          && okB (structWrite s q.ctx none [] (w64At l 8) (stopRecord c))))
      && pktMet (wp [(0, 1, 8), (8, 8, 65536)] id (atPage (zeros 128))) 8 0 (fun s q l => chain s q l == none)
      && pktMet (wp [(0, 1, 8), (8, 8, 65600)] id (atPage (zeros 128))) 8 0 (fun s q l => (chain s q l).isSome)
      && pktMet (wp [(0, 1, 8), (1, 1, 1), (8, 8, 65536)] id (atPage (img 128 rcbFull))) 8 1 (fun s q l => match structLoad s q.ctx none [] (w64At l 8) 128 with
          | .ok (_, b) => (parseRcb (w64At l 8) b).any (fun r => r.parent == 0 && r.imask == 1023)
          | .error _ => false)
      && [img 128 [(0, 8, 65664)], img 128 rcbFull ++ img 128 [(0, 8, 1)]].all (fun bs => pktMet (wp [(0, 1, 8), (1, 1, 1), (8, 8, if bs.length = 128 then 65536 else 65664)] id (atPage bs)) 8 1
          (fun s q l => match structLoad s q.ctx none [] (w64At l 8) 128 with
            | .ok (_, b) => (parseRcb (w64At l 8) b).all (fun r => r.parent != 0 || r.imask != 1023)
            | .error _ => false))
      && pktMet (wp [(0, 1, 9), (8, 1, 4)] id id) 9 0 (fun s q l => (getCtx s q.ctx).all (fun c => c.owner == .pf) && decide (1 ≤ natAt l 8 1) && decide (natAt l 8 1 ≤ 4))
      && (let s := wp [] id id
          owns s && [(2 : BitVec 32), 64].all (fun t => (t - (getQueue s 3).tail).toNat != 0 && decide ((t - (getQueue s 3).head).toNat ≤ (getQueue s 3).entries))
           && decide ((getQueue s 3).unread ≤ (getQueue s 3).entries) && decide ((getQueue (passPacket s 3) 3).unread ≤ (getQueue s 3).entries))) = true := by
  decide +kernel

/-- A request of 256 bytes. -/
def reqOf (fs : List (Nat × Nat × Nat)) : Request := BitVec.ofNat 2048 (natOf (img 256 fs))
/-- The premises of a command hold, and its condition. -/
def cmdMet (s : State) (fs : List (Nat × Nat × Nat)) (used : Nat) (cond : List Byte → Bool) : Bool :=
  let l := reqBytes (reqOf fs)
  (fs.head?.any (fun f => f.1 == 0 && natAt l 0 1 == f.2.2)) && s.dev.ready && !s.dev.tripped && fnRuns s .pf && !(getMbox s .pf).doorbell && allZero l 1 7 && allZero l used (256 - used) && cond l

/-- R381 to R388, R393, R402, R374: each command with its conditions met, and each failure that the rules name. -/
theorem wit_management :
    (let id8 : Nat × Nat × Nat := (8, 4, placeCtx)
     let s0 : State := { w0 with active := none }
     let wc := fun (f : Ctx → Ctx) => modCtx s0 placeCtx f
     let owns := fun (s : State) (l : List Byte) (f : Ctx → Bool) => (getCtx s (natAt l 8 4)).any (fun c => c.owner == .pf && f c)
     let none_ := fun (fs : List (Nat × Nat × Nat)) (used : Nat) => cmdMet s0 (fs.take 1 ++ [id8] ++ fs.drop 1) used (fun l => owns s0 l (fun _ => true))
     let create : List (Nat × Nat × Nat) := [(0, 1, 1), (8, 4, 255), (0x0C, 1, 1), (0x10, 2, 1), (0x30, 4, 16), (0x80, 8, 2 ^ 21), (0x88, 8, 2 ^ 21)]
     let map : List (Nat × Nat × Nat) := [(0, 1, 4), id8, (0x10, 8, 131072), (0x18, 8, 65536), (0x20, 8, placeKey * 2 ^ 44 + 2 ^ 7 + 2 ^ 6), (0x28, 8, 2 ^ 22)]
     let image := wb (fun b => { b with stat := .waitHost, image := .preempted })
     let peer := modCtx { image with ports := [(2, { up := true })] } placeCtx (fun c => { c with peers := [(1, { valid := true, ports := 4 })] })
     let shut := alsoTracked { s0 with forks := [{ fork0 with wins := [{ base := 131072, len := 32, segs := [] }] }] }
     let tracked := fun (fs : List (Nat × Nat × Nat)) (used : Nat) => cmdMet shut fs used (fun l => owns shut l (fun c =>
       windowRange shut c.id c.root (natAt l 0x10 8) (natAt l 0x18 8)))
     let gone := fun (f : Block → Block) => let t := wc (fun c => { c with dying := some (some .pf) }); { t with blocks := t.blocks.map f }
     let queued := { s0 with queues := [(3, { bound := true, ctx := placeCtx })] }
     let stop := none_ [(0, 1, 7), (0x0C, 4, 2), (0x10, 8, 9)] 0x18 && none_ [(0, 1, 8), (0x0C, 4, 2), (0x10, 8, 9)] 0x18 && (stopTarget (img 256 [(0x0C, 4, 2)])).isSome
     let param := fun (s : State) (n : Nat) (lo hi : Nat) (ok : Nat → Bool) => [lo, hi].all (fun v => cmdMet s [(0, 1, 0x0D), (8, 8, n), (0x10, 8, v)] 0x18 (fun l =>
       natAt l 8 8 == n && decide (lo ≤ natAt l 0x10 8) && decide (natAt l 0x10 8 ≤ hi) && ok (natAt l 0x10 8)))
     let any_ := fun (_ : Nat) => true
     cmdMet s0 create 0x100 (fun l => (List.range 1024).find? (fun i => (getCtx s0 i).isNone) == some 0 && (parseCtx .pf 0 l).any (fun c =>
          s0.ctxs.all (fun d => !poolsMeet c d) && decide ((s0.ctxs.map (fun c => c.tags)).foldl (· + ·) c.tags ≤ 256) && c.pools.all (fun p => decide (spillBytes c ≤ p.2.2))
           && (carve { s0 with ctxs := s0.ctxs ++ [{ c with carved := spillCut c }] } 0 131072).isSome))
      && cmdMet s0 [(0, 1, 2), id8] 0x0C (fun l => owns s0 l (fun c => c.id == natAt l 8 4))
      && cmdMet (wc (fun c => { c with halt := .halted })) [(0, 1, 3), id8] 0x0C (fun l => owns (wc (fun c => { c with halt := .halted })) l (fun c => c.halt == .halted))
      && cmdMet s0 [(0, 1, 3), id8] 0x0C (fun l => owns s0 l (fun c => c.halt != .halted)) && cmdMet s0 [(0, 1, 2), (8, 4, 5)] 0x0C (fun l => !owns s0 l (fun _ => true))
      && cmdMet s0 map 0x31 (fun l => owns s0 l (fun c => mapSize (natAt l 0x30 1) == some (16, 3) && allZero l 0x0C 4 && natAt l 0x10 8 % 65536 == 0 && natAt l 0x18 8 / 65536 == 1
          && natAt l 0x28 8 % 65536 == 0 && decide (natAt l 0x10 8 + natAt l 0x18 8 ≤ 2 ^ 57) && !windowRange s0 c.id c.root (natAt l 0x10 8) (natAt l 0x18 8)
          && pageOk s0 c 3 65536 (natAt l 0x10 8) (natAt l 0x28 8) (leafWord (natAt l 0x20 8) (natAt l 0x28 8))
          && (mapRun c 3 16 (natAt l 0x20 8) 1 s0 (natAt l 0x10 8) (natAt l 0x28 8)).isSome))
      && cmdMet s0 [(0, 1, 5), id8, (0x10, 8, 65536), (0x18, 8, 65536)] 0x20 (fun l => owns s0 l (fun c => (rangeLeaves s0 c.root 65536 65536).length == 1 && (rangeLeaves s0 c.root 65536 65536).all (fun p => p.1 == 65536 && p.2.1 == 65536 && p.2.2.1 == 3)
          && natAt l 0x10 8 == 65536 && natAt l 0x18 8 == 65536 && !windowRange s0 c.id c.root 65536 65536))
      && tracked map 0x31 && tracked [(0, 1, 5), id8, (0x10, 8, 131072), (0x18, 8, 65536)] 0x20
      && (getCtx (gone id) placeCtx).any (fun c => c.dying == some (some .pf)) && drained (gone id) placeCtx
      && !drained (gone (fun b => { b with started := [cmd0] })) placeCtx
      && cmdMet s0 [(0, 1, 6), (8, 4, 3), (0x0C, 4, placeCtx), (0x10, 8, 4096), (0x18, 4, 64)] 0x1C (fun l => (getCtx s0 (natAt l 0x0C 4)).any (fun c => c.owner == .pf)
          && !(getQueue s0 (natAt l 8 4)).bound && isPow2 (natAt l 0x18 4) && (w64At l 0x10).toNat % (64 * natAt l 0x18 4) == 0)
      && cmdMet queued [(0, 1, 6), (8, 4, 3), (0x0C, 4, 0xFFFFFFFF)] 0x1C (fun l => natAt l 0x0C 4 == 0xFFFFFFFF && (getQueue queued (natAt l 8 4)).bound
          && (getCtx queued (getQueue queued (natAt l 8 4)).ctx).any (fun c => c.owner == .pf) && (getQueue queued (natAt l 8 4)).unread == 0)
      && stop
      && cmdMet image [(0, 1, 9), id8, (0x0C, 4, placeCtx), (0x10, 1, 0xFF)] 0x11 (fun l => owns image l (fun c => natAt l 0x10 1 == 0xFF && image.blocks.any (waitingImage c)))
      && cmdMet peer [(0, 1, 9), id8, (0x10, 1, 1)] 0x11 (fun l => owns peer l (fun c => (sfind c.peers (natAt l 0x10 1)).any (fun p => p.valid && !p.self && peerUp peer p)
          && peer.blocks.any (waitingImage c)))
      && none_ [(0, 1, 0x0A)] 0x0C && [0, 1].all (fun m => none_ [(0, 1, 0x0B), (0x0C, 4, m)] 0x22)
      && cmdMet s0 [(0, 1, 0x0C), id8, (0x0C, 4, 15), (0x1A, 1, 1)] 0x30 (fun l => owns s0 l (fun _ => (parsePeer l 0x10).isSome && decide (natAt l 0x0C 4 < 16)))
      && param { s0 with ctxs := [] } 1 1 16 any_ && param s0 1 1 16 (fun _ => s0.ctxs != []) && param s0 2 1 168 any_ && param s0 3 1 4096 any_ && param s0 4 1 4096 any_
      && param s0 5 1 65535 any_ && param s0 6 1 4 any_ && param s0 7 0 64 (fun v => v % 64 == 0) && param s0 8 64 (2 ^ 20) isPow2
      && cmdMet s0 [(0, 1, 0x0E)] 0x18 (fun l => [true, false].all (fun ok =>
        (verifyImage s0.dev.trust s0.dev.fused (stagedImage s0 (natAt l 8 8) (natAt l 0x10 8) { sigOk := ok, version := 3 })).isSome == ok))) = true := by
  decide +kernel

/-- R394 to R396, R73: a session in each of its phases on a device that is up; an open session with a key slot free, with a slot of
another context, with a slot that this context shares and with one that it has alone. -/
theorem wit_attestation :
    (let up := { w0 with active := none }
     let at_ := fun (n : Nat) => setSession up .pf { getSession up .pf with phase := n }
     let two := { at_ 5 with ctxs := { id := 3 } :: (at_ 5).ctxs }
     let slot := fun (l : List Nat) (s : State) => { s with keys := sput s.keys 7 { present := true, grants := l } }
     let keyed := fun (s : State) => reeveUp s && (getSession s .pf).phase == 5 && (getCtx s placeCtx).any (fun c => c.owner == .pf)
     (List.range 6).all (fun n => reeveUp (at_ n) && (getSession (at_ n) .pf).phase == n)
      && (List.range 7).all (fun i => (measurement (at_ 3) .pf i).isSome == (i != 0))
      && keyed (at_ 5) && (emptyKeySlot (at_ 5)).isSome
      && keyed (slot [3] two) && (sfind (slot [3] two).keys 7).any (fun k => grantedTo (slot [3] two) .pf k && !k.grants.contains placeCtx)
      && [[3, placeCtx], [placeCtx]].all (fun l => keyed (slot l two) && (sfind (slot l two).keys 7).any (fun k => k.grants == l && k.grants.contains placeCtx))) = true := by
  decide +kernel

/-- R380, R393, R397 to R400, R403, R404: images that verify, one that does not and one that is too old; a trip without a log ring;
each way to a power state; a function to start, to stop, and one with a context; a port with 15 and with 16 failures. -/
theorem wit_device_events :
    (let s : State := State.reset
     let img := fun (ok : Bool) (v : BitVec 6) => ({ sigOk := ok, version := v, key := s.dev.trust } : FwImage)
     let w := { w0 with active := none }
     let target := fun (p : Nat) (s : State) => { s with dev := { s.dev with target := some p, changed := [0, 1, 2, 3, 4, 5, 6] } }
     let vf := { w with dev := { w.dev with vfRun := [4] } }
     let port := fun (u : Bool) (n : Nat) => { s with ports := [(15, { up := u, fails := List.replicate n 7, serial := 1 })] }
     verifyAll s.dev.trust ([img true 3, img true 3, img true 5] ++ s.dev.staged.toList) s.dev.fused == (5, true) && verifyAll s.dev.trust ([img true 3, img false 3, img true 5] ++ s.dev.staged.toList) s.dev.fused == (3, false)
      && verifyImage s.dev.trust 3 (img true 3) == some 3 && verifyImage s.dev.trust 4 (img true 3) == none
      && !w.dev.tripped && w.dev.errRing == 0 && !w.dev.tripdie.getLsbD 8 && ({ w.dev with tripdie := 0x100 } : Device).tripdie.getLsbD 8
      && (target 3 w).dev.target == some 3 && ((target 3 w).dev.changed ++ [7]).eraseDups.length == 8
      && (target 1 s).dev.target == some 1 && (target 1 s).blocks.all (fun b => !b.onCore) && s.ctxs.isEmpty
      && !s.dev.vfRun.contains 1022 && vf.dev.vfRun.contains 4 && vf.ctxs.all (fun c => c.owner != .vf 4)
      && ((modCtx vf placeCtx (fun c => { c with owner := .vf 4 })).ctxs.filter (fun c => c.owner == .vf 4 && c.dying.isNone)).length == 1
      && [true, false].all (fun u => (sget ({} : Port) (port u 16).ports 15).up == u && (sget ({} : Port) (port u 16).ports 15).fails.head? == some 7
          && decide (16 ≤ (sget ({} : Port) (port u 16).ports 15).fails.length) && (sget ({} : Port) (port u 16).ports 15).serial != 0)) = true := by
  decide +kernel

/-- A fork of two children over 32 bytes of the instruction's page, opened by nobody that still runs. -/
def forkOn (redop : Nat) (sc : ForkScope) (f : Fork → Fork) : State :=
  let s := withMem { w0 with active := none } 65536 (zeros 64)
  { s with forks := [f { fork0 with scope := sc, opener := none, wins := [{ base := 65536, len := 32, segs := [{ pa := placePa, len := 32, va := 65536, redop := redop, redtype := 0, key := placeKey }] }] }] }

/-- R74, R76, R109, R387, R403: bad sectors within the device; a host access to sound and to poisoned sectors, into an open window
and beside it; a peer's access that an entry admits, and one byte past its end. -/
theorem wit_errors_host_and_peers :
    (let s : State := { w0 with active := none }
     let peer := modCtx s placeCtx (fun c => { c with peers := [(1, { valid := true, serial := 9, ctx := 2, base := placePa, size := 65536, key := placeKey })] })
     let admits := fun (a : Nat) => (getCtx peer placeCtx).any (fun c => (admitPeer c 9 2 a (remoteBytes (.gaugeAdd 1))).any (fun p => p.key == placeKey
       && !poolFrame peer a 8 && (keyFault peer placeCtx { ap := 0, addr := a, key := p.key }).isNone && remoteAligned a (.gaugeAdd 1)))
     let withTwin := forkOn 0 .block (fun f => { f with twins := [{ gran := placePa / 32, bytes := 0 }], vers := [{ child := 1, gran := placePa / 32, bytes := 1 }] })
     decide (hbmSectors - 1 < hbmSectors) && stackOf (hbmSectors - 1) / 2 == 7 && stackOf 0 == 0
      && (getFork withTwin 9).any (fun f => !f.ended && !ctxHalted withTwin f.ctx && f.scope != .chip && (stepGrans f 1).any (fun g => g.1 == placePa / 32)
          && (twinOf f (placePa / 32)).isSome && (forkSeg f placePa).isSome && (headOf withTwin f).isSome)
      && (sectorsOf placePa 33).all (fun x => !sectorBad s x)
      && (sectorsOf (2 ^ 40 - 32) 32).any (fun x => sectorBad (setBad s (2 ^ 35 - 1) true) x)
      && inOpenWindow (forkOn 0 .block id) (placePa + 31) 2 && !inOpenWindow (forkOn 0 .block id) (placePa + 32) 2
      && (getGang s placeId 0).isSome && admits placePa && admits (placePa + 65528) && !admits (placePa + 65536)
      && (getCtx peer placeCtx).any (fun c => (admitPeer c 9 2 (placePa + 65529) 8).isNone)
      && poolFrame (modCtx peer placeCtx (fun c => { c with pools := [(0, placePa + 8, 65536)] })) (placePa + 1) 8) = true := by decide +kernel

/-- R196, the example of 07_registers.md, asked by a peer (R403): three lanes compare and exchange on one location that holds 5. -/
theorem test_peer_atomic :
    (let s := withMem { w0 with active := none } 65536 (le 4 5)
     let peer := modCtx s placeCtx (fun c => { c with peers := [(1, { valid := true, serial := 9, ctx := 2, base := placePa, size := 65536, key := placeKey })] })
     match exec (.remoteAccess placeCtx 9 2 placePa (.atomic .cas false [(9, 5), (7, 5), (1, 9)])) peer with
     | .next t => t.linkStatus == 0 && t.linkReply == le 4 5 ++ le 4 9 ++ le 4 9 ++ [0]
         && locNat t [] { ap := 0, addr := placePa, key := placeKey } 4 == 1
     | _ => false) = true := by decide +kernel

/-- R112 to R117, R122 to R130: a complete head with a version to commit, behind a poisoned twin, in conflict with an earlier child;
a blocked child with and without room; a blocked head alone and with a holder; a contribution and a broadcast of a slice. -/
theorem wit_fork_events :
    (let complete := fun (f : Fork) => { f with children := [{ idx := 0, st := .complete }, { idx := 1 }], vers := [{ child := 0, gran := placePa / 32, bytes := 1 }] }
     let twin := fun (t : Twin) (f : Fork) => { complete f with twins := [t] }
     let t0 : Twin := { gran := placePa / 32, bytes := 0 }
     let head := fun (s : State) (c : Fork → Child → Bool) => (getFork s 9).any (fun f => !f.ended && (headOf s f).any (c f))
     let ready := fun (s : State) (f : Fork) (h : Child) => f.scope != .chip && !childHeld s f.parentView && h.st == .complete
     let s1 := forkOn 1 .block complete
     let s2 := forkOn 0 .block (twin { t0 with poisoned := true })
     let s3 := forkOn 0 .block (twin { t0 with chg := [(0, some 5)] })
     let blocked := fun (need : Nat) (more : List Version) => forkOn 0 .block (fun f => { f with quota := 1, vers := { child := 0, gran := 0, bytes := 0 } :: more, children := [{ idx := 0, st := .blocked, need := need }, { idx := 1, st := .running }] })
     let empty := forkOn 0 .block (fun f => { f with quota := 0, children := [{ idx := 0, st := .blocked, need := 1 }, { idx := 1 }] })
     let granted := forkOn 0 .block (fun f => { f with quota := 1, children := [{ idx := 0, st := .blocked, need := 1 }, { idx := 1, st := .running, granted := 1 }] })
     let held := blocked 1 [{ child := 1, gran := 4, bytes := 0 }]
     let running := { held with blocks := held.blocks ++ ((getBlk held placeId).map (fun b => { b with id := 77, views := [(9, 1)] })).toList }
     let bad := fun (retry : Nat) => forkOn 0 .block (fun f => { complete f with retry := retry, vers := [{ child := 0, gran := placePa / 32, bytes := 1, poisoned := true }] })
     let spoilt := fun (st : State) (p : Fork → Child → Bool) => head st (fun f h => ready st f h && (stepPoison st f (stepGrans f h.idx)).isNone && (childPoison f h.idx).isSome && p f h)
     let chip := modCtx (forkOn 0 .chip (fun f => { f with tag := 0, homes := [2], sliceSize := 65536, slots := [(2, 0, false), (2, 0, false)], slices := [{ win := 0, slice := 0 }] })) placeCtx
       (fun c => { c with peers := [(2, { valid := true, self := true })] })
     let k : Contribution := { win := 0, slice := 0, child := 1, backup := false, device := 2, final := false, data := [(0, 5)] }
     head s1 (fun f h => ready s1 f h && (stepPoison s1 f (stepGrans f h.idx)).isNone && (childPoison f h.idx).isNone && (stepGrans f h.idx).length == 1
          && (conflictReport f h.idx (stepConflicts s1 f (stepGrans f h.idx))).isNone && (stepRoom s1 f (stepNeed s1 f (stepGrans f h.idx))).isNone)
      && head s2 (fun f h => ready s2 f h && (stepPoison s2 f (stepGrans f h.idx)).isSome)
      && head s3 (fun f h => ready s3 f h && (stepPoison s3 f (stepGrans f h.idx)).isNone && (childPoison f h.idx).isNone
          && (conflictReport f h.idx (stepConflicts s3 f (stepGrans f h.idx))).isSome)
      && (getFork (blocked 0 []) 9).any (fun f => (slotWinner f).any (fun c => c.idx == 0))
      && head granted (fun f h => h.st == .blocked && (slotWinner f).isNone && grantsOut f h.idx)
      && [ForkScope.block, .chip].all (fun sc => head (modCtx (modFork empty 9 (fun f => { f with scope := sc, slots := [(2, 0, false), (2, 0, false)] })) placeCtx
          (fun c => { c with peers := [(2, { valid := true, self := true })] })) (fun f h => f.scope == sc && h.st == .blocked
          && (slotWinner f).isNone && !grantsOut f h.idx && holders f h.idx == []))
      && head held (fun f h => h.st == .blocked && (slotWinner f).isNone && !grantsOut f h.idx && (holders f h.idx).getLast? == some 1) && held.blocks.all (fun b => b.views == [])
      && head running (fun f h => h.st == .blocked && (slotWinner f).isNone && !grantsOut f h.idx && (holders f h.idx).getLast? == some 1)
      && running.blocks.any (fun b => b.views.head? == some (9, 1) && b.stat != .ended)
      && spoilt (bad 1) (fun f h => decide (h.reruns < f.retry) && !h.noRerun) && spoilt (bad 0) (fun f h => decide (f.retry ≤ h.reruns))
      && (getFork chip 9).any (fun f => f.scope == .chip && !f.ended && homedHere chip f 0 0 && decide (k.child < f.count) && !f.tagsDone.contains f.tag
          && (f.slices.find? (fun x => x.win == 0 && x.slice == 0)).any (fun st => chip.accepted.isEmpty && !st.written && st.outcome == 0 && decide (st.next ≤ k.child))
          && !sliceWritten f 0 0
          && ({ chip with accepted := [{ ctx := placeCtx, fork := 9, tag := 0, level := 0, region := 0, queue := 0, opener := none, k := k }] } : State).accepted.any
            (fun x => x.fork == 9 && x.k == k && !x.void && !k.final))) = true := by decide +kernel

/-- R318, R331 to R333, R336 to R341, R347, R356, R360 to R363, R367 to R369, R372, R140: a queued block that fits and an image that no
longer does; a record queue with a group ready and with a timer; a grid to retire; blocks about to end, to stop, to be saved,
to take a fault, to be dumped. -/
theorem wit_blocks_come_and_go :
    (let base : State := { w0 with active := none }
     let blk := fun (f : Block → Block) => modBlk base placeId f
     let at_ := fun (s : State) (c : Block → Bool) => (getBlk s placeId).any (fun b => (getCtx s b.ctx).all (fun c => c.halt == .running) && c b)
     let live := fun (s : State) => decide (s.dev.power ≥ 2) && s.dev.target != some 1
     let chosen := fun (s : State) (past : Bool) => live s && (choosePhase s 0).any (fun p => (phaseOver s p.1).isSome == past && p.1.blks.any (fun x => x.id == placeId))
     let queued := blk (fun b => { b with stat := .queued })
     let image := blk (fun b => { b with stat := .queued, image := .preempted })
     let done := fun (b : Block) => { b with gangs := b.gangs.map (fun (p : Nat × Gang) => (p.1, { p.2 with exited := true })), feeder := b.feeder.map (fun f => { f with exited := true }) }
     let g : Grid := { id := placeId, ctx := placeCtx, completed := true, lp := { est := 64 } }
     let q : RecQueue := { rq0 with id := 11, grid := placeId, group := 1, timer := 5, level := 0, committed := [{ addr := 65536, key := 0, depth := 1 }] }
     let rq := { base with grids := [g], rqs := [q] }
     let starts := (getRq rq q.id).isSome && (getGrid rq q.grid).any (fun g => !g.killed && (getCtx rq q.ctx).any (fun c => c.halt == .running && rampFits rq c q.rcb g.lp.est))
       && (recOrder rq q).take q.group != []
     let waiter := wq { rq0 with rqwait := [(placeId, 0)] } (fun b => { b with gangs := b.gangs.map (fun (p : Nat × Gang) => (p.1, { p.2 with wait := .rqalloc 4 rq0.handle })) })
     let stopped := blk (fun b => { b with stat := .stopped })
     let halting := modCtx base placeCtx (fun c => { c with halt := .halting })
     chosen queued false && chosen image false
      && chosen (modCtx image placeCtx (fun c => { c with gangPlaces := 0 })) true
      && (let d := getDie base 1
          decide (1024 ≤ 1024 + 1024 * d.fall) && decide (1024 + 1024 * d.rise ≤ 1024 + 1024 * d.rise) && decide (base.dev.power ≥ 2))
      && decide ({ base with dev := { base.dev with power := 1 } }.dev.power < 2)
      && starts && groupReady q && q.level == 0 && q.timer != 0 && (getGrid { base with grids := [g] } placeId).any (fun x => x.completed && descendantsDone { base with grids := [g] } placeId)
      && (getBlk waiter placeId).any (fun b => b.runs && partyWait waiter placeId (.gang 0) == .rqalloc 4 rq0.handle
            && (waiter.rqs.find? (fun q => q.ctx == b.ctx && q.handle == rq0.handle)).any (fun q => (freeRecord q).any (fun a =>
            okB (takeRecord (modRq waiter q.id (fun q => { q with rqwait := q.rqwait.filter (fun x => x != (placeId, 0)) })) b q a)) && q.rqwait == [(placeId, 0)]))
      && at_ (blk done) (fun b => b.stat == .resident && endReady (blk done) b)
      && (let k := blk (fun b => { done b with stat := .killed })
          at_ k (fun b => opsDone b && b.started.isEmpty && allForksEnded k b && (getBlk (implicitJoins k b) placeId).any (fun b1 => !ctxHalted (implicitJoins k b) b1.ctx)))
      && at_ (blk (fun b => { b with async := [{ cls := 8 }] })) (fun b => b.runs && b.async.head?.any (canTake b))
      && at_ (blk (fun b => { b with stat := .stopping })) (fun b => !phaseIssued b && b.gangs.all (fun (p : Nat × Gang) => !matrixBound base b p.1))
      && at_ stopped (fun b => !landing stopped b && !endReady (discardRestart stopped b) b)
      && (getCtx halting placeCtx).any (fun c => c.halt == .halting && !c.dumped.contains 0) && dumpBlocks halting placeCtx 0 != []
      && (dumpBlocks halting placeCtx 0).all (fun x => opsDone x && x.started.isEmpty)
      && (((base.blocks.filter (fun x => x.ctx == placeCtx && x.onCore)).map (fun x => x.core)).eraseDups == [0])
      && (sampleGangs (wb (fun b => { b with gangs := b.gangs.take 1 })) placeCtx 0).length == 1 && (getCore base 0).rotSample == 0) = true := by decide +kernel

/-! ### Decoding: the worked encodings of the spec -/

/-- Whether a word decodes to an instruction of a length. -/
def reads (w : BitVec 128) (i : Instr) (len : Nat) : Bool := decodeBits w == .ok i len

/-- 11: `?p1 bra`, `callx v20`, `exit`, `yield`, `plop.p p2, p0, p1, pt, 0x30`, `evbind.gate e2`, `waitany 7`; 02 R301: the three NOPs. -/
theorem test_decode_control : (reads 0xFFFFFFE00000000000000405 (.bra ⟨false, 1⟩ 0xFFFFFFE0) 12 && reads 0x0000000014001C14 (.callx ga (.v 20)) 8
    && reads 0x1C20 (.exit ga) 8 && reads 0x1C24 (.yield ga) 8 && reads 0x00030001C8009C40 (.plop ga false 2 0 1 7 0x30) 8
    && reads 0x4080000000001C39 (.evbind ga 2 (.gate 0)) 12 && reads 0x0000000307001C34 (.waitany ga (.inl 7)) 8
    && reads 0x1C00 (.nop ga .base) 8 && reads 0x1C01 (.nop ga .ext) 12 && reads 0x1C02 (.nop ga .long) 16) = true := by decide +kernel

/-- 10: `fence.ar.dev`; 07: `grow 64`; 12: `phase`; 13: `trap 5`, `bkpt`, `rte`, `rte.rd k4, 2`. -/
theorem test_decode_system : (reads 0x2800000000001C4C (.fence ga .ar .dev) 8 && reads 0x0000000340001C70 (.grow ga (.inl 64)) 8
    && reads 0x1C78 (.phase ga) 8 && reads 0x0000000305001C28 (.trap ga (.inl 5)) 8 && reads 0x1C2C (.bkpt ga) 8 && reads 0x1C30 .rte 8
    && reads 0x2000000302011C30 (.rteRd 4 2) 8) = true := by decide +kernel

/-- 02: `iadd.s32 v4, v4, 1000`, the pair; 08: `clmul v3, v2, -1`, `topk`; 15: `bmask.eq.b128 v12, v8, 0x22, 0`. -/
theorem test_decode_lane : (reads 0x000003E80100000004011C81 (.iadd ga .s32 false d4 (.v 4) (.imm 1000)) 12
    && reads 0x02000D020501430B0000081408020482 (.pair (.iadd ⟨false, 1⟩ .n32 false (.v 8) (.v 8) (.k 5)) (.kadd ⟨false, 1⟩ .n64 false 5 (.k 5) (.inl 64))) 16
    && reads 0x00000FFC0200DCCC (.clmul ga (.v 3) s2 (.inl (-1))) 8 && reads 0x0430401404029DD4 (.topk ga (.v 10) (.v 4) (.v 5) (.inl 4)) 8
    && reads 0x0D300C8808031CC8 (.bmask ga .eq .b128 (.v 12) s8 (.inl 0x22) (.inl 0)) 8) = true := by decide +kernel

/-- 02: `?p3 ffma.f32.rne o2, v10, l1, 2`; 08 R220 by R31 to R41: `cvt.e4m3.f32.sat v3, v2`; 02's KADD as an instruction of its own. -/
theorem test_decode_float_conversion_uniform : (reads 0x083024240A408D0C (.ffma ⟨false, 3⟩ .f32 .rne (.o 2) (.v 10) (.l 1) (.inl 2)) 8
    && reads 0x584080000200DD80 (.cvt ga .e4m3 .f32 .rne false true (.v 3) s2 none) 8
    && reads 0x02000D0205015F08 (.kadd ga .n64 false 5 (.k 5) (.inl 64)) 8) = true := by decide +kernel

/-- 07: `ld.b32 v6, [v8+16]`; 16: `ldq.ter.f32 v20, sp[v12+0], 0, 4`; 07 R204 by R31 to R40: `atom.add.b32 v4, [v8+0], v6`. -/
theorem test_decode_memory : (reads 0x00000C4008019E00 (.ld ga .n32 .weak .none (.v 6) s8 (.inl 16)) 8
    && reads 0x402C0C000C051E20 (.ldq ga .f32 (.v 20) (.v 12) (.inl 0) true 3 0) 8
    && reads 0x01006C0008011E40 (.atom ga .add false .relaxed .dev d4 s8 (.inl 0) s6) 8) = true := by decide +kernel

/-- 09: `mswap`, `mend`, `mstr.bf16 acc1, v4, 8`, `mdrain.e4m3.rel acc0, k2, k3, 4`. -/
theorem test_decode_matrix : (reads 0x1E84 (.mswap ga) 8 && reads 0x1EA0 (.mend ga) 8 && reads 0x0540700004001E88 (.mstr ga false .bf16 true (.v 4) 7) 8
    && reads 0x1580380E02001E90 (.mdrain ga true false .e4m3 false 2 (.k 3) 3) 8) = true := by decide +kernel

/-- 06: `scopy.2d.ld.c1 k2, k3, k8`, `setgs.t gs3`, `loopk k4`; 16: `sgather.ter.ls.c0 k4, k5, k16`. -/
theorem test_decode_streamer : (reads 0x4060880E02001EC0 (.scopy ga 1 false 1 none 2 3 8) 8 && reads 0x10C0000000001ED8 (.setgs ga 3 .t) 8
    && reads 0xFFFFFFC00000000000011EFD (.loopk ga 4 0xFFFFFFC0) 12 && reads 0xA021081604001EC4 (.sgather ga .ter true 0 none 4 5 16) 8) = true := by decide +kernel

/-- 05: `fork.die k4`, `join k6, 3`, `abandon`; 12: `range k4`, `launch k6`. -/
theorem test_decode_fork_and_task : (reads 0x0800000204001F80 (.fork ga .die 4) 8 && reads 0x0000000303019F84 (.join ga 6 (.inl 3)) 8
    && reads 0x1F88 (.abandon ga) 8 && reads 0x11F90 (.range ga 4) 8 && reads 0x0000000206001F94 (.launch ga 6) 8) = true := by decide +kernel

/-- 02 R29, R31 to R39: length code 3 (cause 1), a reserved major opcode (2), guard 1111, a reserved source code, a subfield that
must be zero. -/
theorem test_decode_refuses : ([0x3, 0x1F * 4 + 0x1C00, 0x1C20 + 0x2000, 0x000000010C001C14, 0x1000000000001C20].all (fun w => match decodeBits w with
    | .ok _ _ => false
    | .illegal _ _ => true)) = true := by decide +kernel

/-! ### Ill-formed terms that the checks of WellFormed refuse -/

/-- R32 the guard; R33 to R35 destinations, classes and alignment; R36 immediates; R40 types; R42 kinds and scopes; R300 displacements. -/
theorem test_wf_operands : (
    [Instr.exit ⟨true, 7⟩, .iadd ga .n64 false (.v 3) s2 s6, .iadd ga .n64 false d4 (.v 3) s6, .iadd ga .f32 false d4 s2 s6, .iadd ga .n32 false d4 (.imm 1) s6,
     .iadd ga .n32 false d4 s2 (.imm62 1), .iabs ga .n32 false d4 s2, .and ga .s32 d4 s2 s6, .mov ga .b128 (.v 2) s8, .mov ga .b128 d4 (.k 1), .lea ga .n32 d4 s2 s6 1,
     .fadd ga .n32 .rne d4 s2 s6, .fadd ga .f16 .rne d4 s2 (.imm 0x10000), .frnd ga .f32 .rsr d4 s2, .fscale ga .f16x2 .rne d4 s2 s6, .bra ga 2, .brx ga (.v 3), .trap ga (.inl (-1)),
     .waitc ga .ld (.inl 64), .sread ga 0x07 d4, .sread ga 0x08 (.v 5), .sreadK ga 0x00 4, .swrite ga 0x10 s2, .fence ga .ar .none, .rng ga .b128 (.v 2), .rngx ga .b32 d4 (.v 6),
     .monitor ga 1 (.k 2), .shfl ga .idx .s32 d4 s2 s6, .vote ga (.ballot (.v 5)) ⟨false, 1⟩, .scan ga .and .n32 false d4 s2, .red ga .xor .f32 d4 s2, .topk ga .none s2 s6 (.inl 4),
     .pair (.iadd ga .n32 false d4 s2 s6) (.kadd ⟨false, 1⟩ .n64 false 5 (.k 5) (.inl 1)), .pair (.exit ga) (.kadd ga .n64 false 5 (.k 5) (.inl 1)),
     .pair (.iadd ga .n32 false d4 s2 (.imm 1)) (.kadd ga .n64 false 5 (.k 5) (.inl 1))]).all (fun i => !i.wf) = true := by decide +kernel

/-- R220 conversions; R187 to R206 memory; R259 to R266 matrix; R163 to R175 streamer and synchronisation; R231 to R233 uniform; R132 on. -/
theorem test_wf_groups : (
    [Instr.cvt ga .s4 .f32 .rne false false d4 s2 none, .cvt ga .e4m3 .f32 .rne true true d4 s2 none, .cvt ga .f32 .f16 .rne true false d4 s2 none,
     .cvt ga .n32 .s32 .rz false false d4 s2 none, .cvt ga .f16x2 .f32 .rne false false d4 s2 none, .qgrp ga .f32 .f32 .rne d4 s2, .dqgrp ga .f16 .e4m3 d4 s2,
     .pkparcel ga .e4m3 d4 s2 5, .unparcel ga .s4 d4 s2 9, .ld ga .f32 .weak .none d4 s8 (.inl 0), .ld ga .n32 .weak .dev d4 s8 (.inl 0), .ld ga .n32 .rel .dev d4 s8 (.inl 0),
     .ld ga .n64 .weak .none (.v 5) s8 (.inl 0), .ld ga .n32 .weak .none d4 (.v 7) (.inl 0), .lds ga .n32 .strong .dev d4 s8 (.inl 0), .lds ga .n32 .weak .none d4 s8 (.imm62 0),
     .ldc ga .n32 .strong .blk d4 s8 (.inl 0) (.inl 0), .ldc ga .n32 .weak .none d4 s8 (.inl 16) (.inl 0), .st ga .n32 .acq .dev s8 (.inl 0) s2, .ldq ga .f16 d4 s8 (.inl 0) false 0 0,
     .ldq ga .f32 d4 s8 (.inl 0) false 1 0, .ldq ga .f32 d4 s8 (.inl 0) true 1 40, .atom ga .add true .ar .dev d4 s8 (.inl 0) (.v 3), .atoms ga .add false .ar d4 s8 (.imm62 1) s2,
     .mldw ga (.bare .s8 2), .mldw ga (.par .f32 2), .mstr ga false .s8 false s2 0, .mdrain ga false false .e3m2 false 2 (.k 3) 0, .mcoop ga 4 (.inl 16) 6, .mrestart ga 1,
     .mstatAcc ga false 4 (.imm 128), .scopy ga 0 false 0 none 1 2 9, .pushq ga 0 (.inl 32) k1, .barinit ga (.imm 1) .blk, .bararr ga 1 (.inl 0) (.inl (-1)), .gaugeadd ga .none 1 k2,
     .mbsend ga (.inl (-1)) k2, .mbrecv ga 4 (.inl 32), .kmov ga .f32 4 k1, .kmov ga .n32 4 (.imm 1), .kadd ga .n64 false 4 (.v 1) k2, .kmovi ga .s64 false 4 (.imm 1), .kld ga .b128 4 1 (.inl 0),
     .kreadlane ga .n64 4 (.v 3) (.inl 0), .kbcast ga .n64 (.v 5) k1, .join ga 4 (.inl (-1)), .viewAddr ga 4 1 (.k 2), .rqcommit ga 1 2 (.imm 3)]).all (fun i => !i.wf) = true := by
  decide +kernel

/-! ### Single steps against the spec's worked values -/

/-- 08: v2 = 0x104, a quote at bytes 2 and 8, gives v3 = 0xFC; 08 R209: 0xFFFFFFFF + 1 wraps, and saturates as s32. -/
theorem test_lane_values :
    (let after := fun (v : List W32) (i : Instr) (n : Nat) => match exec i (wg (fun g => { g with v := vs v })) with
       | .next t => (getGang t placeId 0).map (fun g => sget 0 g.v (reg n 0))
       | _ => none
     after [0, 0, 0x104] (.clmul ga (.v 3) s2 (.inl (-1))) 3 == some 0xFC
      && after [0, 0, 0xFFFFFFFF] (.iadd ga .n32 false d4 s2 (.inl 1)) 4 == some 0
      && after [0, 0, 0x7FFFFFFF] (.iadd ga .s32 true d4 s2 (.inl 1)) 4 == some 0x7FFFFFFF) = true := by decide +kernel

/-- 08 R217 by hand: 3.0 × 2.0 + 1.0 in one rounding; 08 R219: the minimum of two zeros of different sign is −0. -/
theorem test_float_values :
    (let after := fun (v : List W32) (i : Instr) (n : Nat) => match exec i (wg (fun g => { g with v := vs v })) with
       | .next t => (getGang t placeId 0).map (fun g => sget 0 g.v (reg n 0))
       | _ => none
     after [0, 0, 0x40400000, 0x40000000, 0x3F800000] (.ffma ga .f32 .rne (.v 5) s2 (.v 3) (.v 4)) 5 == some 0x40E00000
      && after [0, 0, 0x80000000, 0] (.fmin ga .f32 (.v 5) s2 (.v 3)) 5 == some 0x80000000) = true := by decide +kernel

end Sys2Proof.Tests
end

section
/-! SUPPORT. What the instructions of forks do (05 R132 to R136): what an opened fork holds and leaves unchanged, and the gang's
turn at FORK, JOIN, ABANDON and VIEW. -/

namespace Sys2Proof.Machine

/-! ### Reads of structures leave memory, forks and blocks unchanged -/

/-- Two states with the same memory, forks and blocks: what a read of a structure may change is elsewhere (buffers, L2). -/
def SameWork (s t : State) : Prop := t.mem = s.mem ∧ t.forks = s.forks ∧ t.blocks = s.blocks

theorem SameWork.refl (s : State) : SameWork s s := ⟨rfl, rfl, rfl⟩

theorem SameWork.trans {s t u : State} (h : SameWork s t) (k : SameWork t u) : SameWork s u :=
  ⟨k.1.trans h.1, k.2.1.trans h.2.1, k.2.2.trans h.2.2⟩

theorem sameWork_foldl {α : Type} {f : State → α → State} (hf : ∀ s a, SameWork s (f s a)) (l : List α) (s : State) :
    SameWork s (l.foldl f s) := by
  induction l generalizing s with
  | nil => exact .refl s
  | cons a l ih => exact (hf s a).trans (ih (f s a))

theorem sameWork_fillLine (s : State) (line key cache : Nat) : SameWork s (fillLine s line key cache) := by
  unfold fillLine
  split <;> exact ⟨rfl, rfl, rfl⟩

theorem sameWork_touchLine (s : State) (l : Loc) : SameWork s (touchLine s l) := by
  unfold touchLine
  split
  · split
    · exact ⟨rfl, rfl, rfl⟩
    · exact sameWork_fillLine ..
  · exact .refl s

theorem sameWork_touchRun (s : State) (l : Loc) (n : Nat) : SameWork s (touchRun s l n) := by
  unfold touchRun
  split
  · exact sameWork_foldl (fun s _ => sameWork_touchLine s _) _ s
  · exact .refl s

theorem sameWork_walkSeen (s : State) (ctx va : Nat) : SameWork s (walkSeen s ctx va) :=
  sameWork_foldl (fun s _ => sameWork_fillLine s _ 0 0) _ s

theorem sameWork_fillTlbs (s : State) (core : Nat) (e : Tlb) : SameWork s (fillTlbs s core e) := by
  unfold fillTlbs
  exact ⟨modDie_mem .., modDie_forks .., modDie_blocks ..⟩

theorem sameWork_fillAt (s : State) (ctx core va : Nat) : SameWork s (fillAt s ctx core va) := by
  unfold fillAt
  split
  · exact .refl s
  · split
    · exact (sameWork_walkSeen s ctx va).trans (sameWork_fillTlbs ..)
    · exact .refl s

theorem sameWork_runSeen (s : State) (ctx : Nat) (core : Option Nat) (need : Need) (va : W64) (n : Nat) :
    SameWork s (runSeen s ctx core need va n) := by
  unfold runSeen
  split
  · exact .refl s
  · rename_i l _
    refine SameWork.trans ?_ (sameWork_foldl (fun s p => sameWork_touchRun s p.1 p.2) l _)
    cases core with
    | none => exact .refl s
    | some c => exact sameWork_foldl (fun s p => sameWork_fillAt s ctx c _) _ s

theorem sameWork_structLoad {s t : State} {ctx : Nat} {core : Option Nat} {v : View} {va : W64} {n : Nat} {l : List Byte}
    (h : structLoad s ctx core v va n = .ok (t, l)) : SameWork s t := by
  unfold structLoad at h
  split at h
  · cases h
  · cases h
    exact sameWork_runSeen ..

theorem sameWork_codeLoad {s t : State} {ctx : Nat} {core : Option Nat} {v : View} {va : W64} {n : Nat} {l : List Byte}
    (h : codeLoad s ctx core v va n = .ok (t, l)) : SameWork s t := by
  unfold codeLoad at h
  split at h
  · cases h
  · split at h
    · cases h
    · cases h
      exact sameWork_runSeen ..

theorem sameWork_modDies (s : State) (dies : List Nat) (f : Die → Die) : SameWork s (dies.foldl (fun s i => modDie s i f) s) :=
  sameWork_foldl (fun _ _ => ⟨modDie_mem .., modDie_forks .., modDie_blocks ..⟩) dies s

/-! ### FORK -/

/-- A fork as R104, R105 and R110 open it: its children unstarted, no version and no twin. -/
def Opened (o : Opener) (sc : ForkScope) (id : Nat) (f : Fork) : Prop :=
  f.id = id ∧ f.scope = sc ∧ f.ctx = o.ctx ∧ f.parentView = o.view ∧ f.ended = false ∧ f.vers = [] ∧ f.twins = []
    ∧ f.children.map (fun c => c.idx) = List.range f.count ∧ ∀ c ∈ f.children, c.st = .unstarted

theorem children_unstarted (n : Nat) :
    ((List.range n).map (fun i => ({ idx := i } : Child))).map (fun c => c.idx) = List.range n
      ∧ ∀ c ∈ (List.range n).map (fun i => ({ idx := i } : Child)), c.st = .unstarted := by
  refine ⟨by simp [Function.comp_def], fun c hc => ?_⟩
  obtain ⟨i, -, rfl⟩ := List.mem_map.mp hc
  rfl

theorem ok_of_guarded {ε α : Type} {c : Prop} [Decidable c] {e : ε} {r : Except ε α} {x : α}
    (h : (if c then .error e else r) = .ok x) : r = .ok x := by
  split at h
  · cases h
  · exact h

/-- What a FORK that passes every check does (R132): one fork more, memory and blocks unchanged. -/
theorem openFork_opens {s s1 : State} {o : Opener} {sc : ForkScope} {va : W64} {id : Nat} (h : openFork s o sc va = .ok (s1, id)) :
    ∃ f, Opened o sc id f ∧ s1.forks = s.forks ++ [f] ∧ s1.mem = s.mem ∧ s1.blocks = s.blocks := by
  unfold openFork at h
  replace h := ok_of_guarded h
  generalize hdesc : structLoad s o.ctx o.core o.view va 256 = r, getCtx s o.ctx = rc at h
  match r, rc with
  | .error _, _ => cases h
  | .ok _, none => cases h
  | .ok (t, l), some c =>
  dsimp -zeta only at h
  have hs : SameWork s t := sameWork_structLoad hdesc
  generalize parseFork (sc == .chip) l = r at h
  cases r with
  | none => cases h
  | some d =>
  dsimp -zeta only at h
  generalize hcode : codeLoad t o.ctx o.core o.view (d.entry - 64) 64 = r at h
  match r with
  | .error _ => cases h
  | .ok (t2, kl) =>
  replace hs := hs.trans (sameWork_codeLoad hcode)
  dsimp -zeta only at h
  generalize parseKdesc kl = r at h
  cases r with
  | none => cases h
  | some kd =>
  dsimp -zeta only at h
  iterate 8 replace h := ok_of_guarded h
  split at h
  · cases h
  rename_i t3 slots hslots
  replace hs : SameWork s t3 := by
    split at hslots
    · split at hslots
      · cases hslots
      · rename_i hload
        split at hslots
        · cases hslots
        · cases hslots
          exact hs.trans (sameWork_structLoad hload)
    · cases hslots
      exact hs
  obtain ⟨hmem, hforks, hblocks⟩ := hs
  cases h
  obtain ⟨hidx, hst⟩ := children_unstarted d.count
  obtain ⟨dmem, dforks, dblocks⟩ := sameWork_modDies _ (homeDies t2 c.root d.wins)
    (fun x => { x with reserved := x.reserved + d.quota.getD (effRegion c o.region).quota })
  refine ⟨_, ?_, dforks.trans (congrArg (· ++ [_]) hforks), dmem.trans hmem, dblocks.trans hblocks⟩
  exact ⟨rfl, rfl, rfl, rfl, rfl, rfl, rfl, hidx, hst⟩

/-- A gang's turn runs the body on the block and the gang that it sees. -/
theorem withGang_turn {s : State} {x : Turn} {b : Block} {y : Gang} (f : Block → Nat → Gang → GRes) (hb : getBlk s x.blk = some b)
    (hy : sfind b.gangs x.gang = some y) : withGang s x.iss f = f b x.gang y := by
  simp only [withGang, Turn.iss, hb, hy]

theorem sees_own_gang {s : State} {x : Turn} {d : GangDesc} {b : Block} (hx : turnOf s = some x)
    (hb : getBlk (gangSees s x d) x.blk = some b) : ∃ y, sfind b.gangs x.gang = some y := by
  obtain rfl := Option.some.inj ((gangSees_blk d hx).symm.trans hb)
  exact ⟨_, gangSees_sfind d hx⟩

/-- The opener that FORK names for a block (R104). -/
abbrev blockOpener (b : Block) : Opener :=
  { ctx := b.ctx, view := b.views, blk := some b.id, grid := some b.grid, queue := b.queue, level := b.level, region := b.region,
    core := some b.core }

/-- Whether a store of the context has yet to reach a window of the fork: FORK then takes effect after it. -/
abbrev windowsBusy (s : State) (id : Nat) : Bool := ((getFork s id).map (winPending s)).getD false

/-- What FORK needs of its turn before it may open a fork. -/
abbrev forkDesc (g : Guard) (ka : BitVec 6) : GangDesc := { guard := g, srcs := [.k ka], mem := true, rel := true }

theorem readUni_turn (x : Turn) (i : BitVec 6) : readUni x.g.k (.k i) = x.k i := rfl

section
variable (g : Guard) (sc : ForkScope) (ka kd : BitVec 6) (a : Src)

theorem fork_opens (s1 : State) (id : Nat) : GangGives (.fork g sc ka) (forkDesc g ka)
    (fun s x b _ => openFork s (blockOpener b) sc (x.k ka) = .ok (s1, id) ∧ windowsBusy s1 id = false ∧ warmed s b s1)
    (fun _ _ _ _ => s1) := by
  refine gang_gives (fun _ => rfl) ?_
  rintro s x b y hx hb hy ⟨ho, hfree, hwarm⟩
  obtain ⟨hk, -⟩ := seen_fields hx hb hy
  simp only [withGang_turn _ hb hy, hk, readUni_turn, ho, hfree, Bool.false_eq_true, if_false]
  exact orMisses_warm hwarm

/-- FORK takes effect after the stores of its context into the windows: its gang stands where it stood. -/
theorem fork_stalls {s s1 : State} {x : Turn} {b : Block} {id : Nat} (hx : turnOf s = some x) (hr : gangReady s x (forkDesc g ka) = true)
    (hb : getBlk (gangSees s x (forkDesc g ka)) x.blk = some b)
    (ho : openFork (gangSees s x (forkDesc g ka)) (blockOpener b) sc (x.k ka) = .ok (s1, id)) (hbusy : windowsBusy s1 id = true) :
    exec (.fork g sc ka) s = .next (marked s x.frag x.addr x.mask 0 none) := by
  obtain ⟨y, hy⟩ := sees_own_gang hx hb
  obtain ⟨hk, -⟩ := seen_fields hx hb hy
  refine congrArg _ ((runGang_ready hx hr).trans ?_)
  simp only [withGang_turn _ hb hy, hk, readUni_turn, ho, hbusy, if_true, orMisses]

theorem fork_awaits_walk (s1 : State) (id : Nat) (r : State) : GangWaits (.fork g sc ka) (forkDesc g ka)
    (fun s x b _ => openFork s (blockOpener b) sc (x.k ka) = .ok (s1, id) ∧ windowsBusy s1 id = false ∧ Colds s b (.gang x.gang) s1 r)
    (fun _ _ _ _ => r) (fun _ _ _ _ => .blocked) := by
  refine gang_waits (fun _ => rfl) ?_
  rintro s x b y hx hb hy ⟨ho, hfree, hcold⟩
  obtain ⟨hk, -⟩ := seen_fields hx hb hy
  simp only [withGang_turn _ hb hy, hk, readUni_turn, ho, hfree, Bool.false_eq_true, if_false]
  exact orMisses_cold hcold

theorem fork_faults (f : Flt) : GangFaults (.fork g sc ka) (forkDesc g ka)
    (fun s x b _ => openFork s (blockOpener b) sc (x.k ka) = .error f) (fun _ _ _ _ => f) := by
  refine gang_faults (fun _ => rfl) ?_
  intro s x b y hx hb hy ho
  obtain ⟨hk, -⟩ := seen_fields hx hb hy
  simp only [withGang_turn _ hb hy, hk, readUni_turn, ho, orMisses]

/-! ### JOIN -/

/-- What JOIN needs of its turn. -/
abbrev joinDesc (g : Guard) (kd : BitVec 6) (a : Src) : GangDesc := { guard := g, srcs := [a], kdst := [kd], swap := true, mem := true }

/-- The end of a JOIN whose bucket has ended (R120, R133): flags, status word, tag and place. -/
abbrev joined (s : State) (x : Turn) (f : Fork) (kd : BitVec 6) (t : Nat) : State :=
  jumpTo (releaseTag (setK (modGang s x.blk x.gang (fun y => { y with fstat := y.fstat ||| (f.status t).2.2.setWidth 6 })) x.blk
    (.gang x.gang) kd (statusWord (f.status t))) f t) x.blk (.gang x.gang) x.next

theorem join_ended (f : Fork) : GangPlaces (.join g kd a) (joinDesc g kd a)
    (fun s x b _ => findTag s b (x.uni a).toNat = some f ∧ f.bucketEnded (x.uni a).toNat = true
      ∧ joinFails (f.status (x.uni a).toNat).1 = false)
    (fun s x _ _ => joined s x f kd (x.uni a).toNat) := by
  refine gang_places (fun _ => rfl) ?_
  rintro s x b y hx hb hy ⟨ht, he, hok⟩
  obtain ⟨hk, -⟩ := seen_fields hx hb hy
  rw [Turn.uni, ← hk] at ht he hok ⊢
  simp only [withGang_turn _ hb hy, ht, he, hok, Bool.not_true, Bool.false_eq_true, if_false]
  rfl

theorem join_waits (f : Fork) : GangWaits (.join g kd a) (joinDesc g kd a)
    (fun s x b _ => findTag s b (x.uni a).toNat = some f ∧ f.bucketEnded (x.uni a).toNat = false)
    (fun s _ _ _ => s) (fun _ x _ _ => .join (x.uni a).toNat) := by
  refine gang_waits (fun _ => rfl) ?_
  rintro s x b y hx hb hy ⟨ht, he⟩
  obtain ⟨hk, -⟩ := seen_fields hx hb hy
  rw [Turn.uni, ← hk] at ht he ⊢
  simp only [withGang_turn _ hb hy, ht, he, Bool.not_false, if_true]

theorem join_without_tag : GangFaults (.join g kd a) (joinDesc g kd a) (fun s x b _ => findTag s b (x.uni a).toNat = none)
    (fun _ _ _ _ => { cls := 17, cause := 6 }) := by
  refine gang_faults (fun _ => rfl) ?_
  rintro s x b y hx hb hy ht
  obtain ⟨hk, -⟩ := seen_fields hx hb hy
  rw [Turn.uni, ← hk] at ht
  simp only [withGang_turn _ hb hy, ht]

/-! ### ABANDON and VIEW -/

theorem abandon_ends_child (f c : Nat) (rest : View) : GangPlaces (.abandon g) { guard := g, srcs := [] }
    (fun _ _ b _ => b.views = (f, c) :: rest)
    (fun s _ _ _ => modChild (modFork (stopChild s f c) f (fun x => dropVersions x c)) f c (fun x => { x with ending := .abandoned })) := by
  refine gang_places (fun _ => rfl) ?_
  intro s x b y hx hb hy hv
  simp only [withGang_turn _ hb hy, hv]

theorem abandon_outside_forks : GangFaults (.abandon g) { guard := g, srcs := [] } (fun _ _ b _ => b.views = [])
    (fun _ _ _ _ => { cls := 17, cause := 5 }) := by
  refine gang_faults (fun _ => rfl) ?_
  intro s x b y hx hb hy hv
  simp only [withGang_turn _ hb hy, hv]

theorem viewInfo_reads_view : GangGives (.viewInfo g kd) { guard := g, srcs := [], kdst := [kd] } (fun _ _ _ _ => True)
    (fun s x b _ => setK s x.blk (.gang x.gang) kd (BitVec.ofNat 64 (viewInfo s b))) :=
  gang_gives (fun _ => rfl) fun _ _ _ _ _ hb hy _ => withGang_turn _ hb hy

theorem viewAddr_reads_window : GangGives (.viewAddr g kd ka a) { guard := g, srcs := [.k ka, a], kdst := [kd] } (fun _ _ _ _ => True)
    (fun s x b _ => setK s x.blk (.gang x.gang) kd (viewAddrWord s b (x.k ka + x.uni a))) := by
  refine gang_gives (fun _ => rfl) fun s x b y hx hb hy _ => ?_
  obtain ⟨hk, -⟩ := seen_fields hx hb hy
  rw [withGang_turn _ hb hy, hk]
  rfl

end

/-- Settles O47: each clause is the turn at one instruction; a fork that FORK opens stands behind the others with its children
unstarted. -/
theorem forkInstructions : Obligations.ForkInstructions := by
  unfold Obligations.ForkInstructions
  intro g sc ka kd a
  refine ⟨fork_opens g sc ka, fun s s1 x b id hx hr hb => fork_stalls g sc ka hx hr hb, fork_awaits_walk g sc ka, fork_faults g sc ka,
    join_ended g kd a, join_waits g kd a, join_without_tag g kd a, abandon_ends_child g, abandon_outside_forks g,
    viewInfo_reads_view g kd, viewAddr_reads_window g ka kd a, ?_⟩
  intro s s1 o va id h
  obtain ⟨f, ⟨h1, h2, h3, h4, h5, h6, h7, h8, h9⟩, hf, hm, hb⟩ := openFork_opens h
  exact ⟨f, hf, h1, h2, h3, h4, h5, h6, h7, h8, h9, hm, hb⟩

end Sys2Proof.Machine
end

section
/-! SUPPORT. What the events of forks do (05 R112 to R117, R122 to R130): the commit step of a head, grants and rollbacks of slots,
and at chip scope what a slice's home and its readers do. -/

namespace Sys2Proof.Machine

/-- A fork whose events take place: it has not ended, and its context goes on. -/
def ForkGoesOn (s : State) (f : Fork) : Prop := f.ended = false ∧ ctxHalted s f.ctx = false

/-! ### When the events of a fork may take place -/

/-- The head of a fork below chip scope is complete, and its parent view is not that of a child that waits: its step is made. -/
def StepsAt (s : State) (f : Fork) (h : Child) : Prop :=
  ForkGoesOn s f ∧ f.scope ≠ .chip ∧ childHeld s f.parentView = false ∧ headOf s f = some h ∧ h.st = .complete

/-- What a step looks at before its checks. -/
theorem StepsAt.reads {s : State} {f : Fork} {h : Child} (hs : StepsAt s f h) :
    (f.ended || f.scope == .chip || childHeld s f.parentView || ctxHalted s f.ctx) = false
      ∧ headOf s f = some h ∧ ¬h.st ≠ .complete := by
  obtain ⟨⟨hend, hhalt⟩, hscope, hheld, hhead, hst⟩ := hs
  simp [hend, hhalt, hscope, hheld, hhead, hst]

/-- The head of a fork is Blocked, and the fork has no slots for its lowest Blocked child: a rollback may be made (R123). -/
def HeadBlocked (s : State) (f : Fork) (h : Child) : Prop :=
  ForkGoesOn s f ∧ headOf s f = some h ∧ h.st = .blocked ∧ slotWinner f = none

/-- What a rollback looks at before it chooses. -/
theorem HeadBlocked.reads {s : State} {f : Fork} {h : Child} (hh : HeadBlocked s f h) :
    (f.ended || h.st != .blocked || (slotWinner f).isSome || ctxHalted s f.ctx) = false ∧ headOf s f = some h := by
  obtain ⟨⟨hend, hhalt⟩, hhead, hst, hwin⟩ := hh
  simp [hend, hhalt, hhead, hst, hwin]

theorem exec_prefixStep (fork : Nat) (s : State) : exec (.prefixStep fork) s = execPrefixStep fork s := rfl
theorem exec_slotGrant (fork : Nat) (s : State) : exec (.slotGrant fork) s = execSlotGrant fork s := rfl
theorem exec_forkRollback (fork : Nat) (s : State) : exec (.forkRollback fork) s = execForkRollback fork s := rfl
theorem exec_contributionArrival (fork : Nat) (k : Contribution) (s : State) :
    exec (.contributionArrival fork k) s = execContributionArrival fork k s := rfl
theorem exec_sliceBroadcast (fork : Nat) (b : Broadcast) (s : State) :
    exec (.sliceBroadcast fork b) s = execSliceBroadcast fork b s := rfl

/-! ### Commit steps of the head (R112 to R117) -/
section
variable {s : State} {fork : Nat} {f : Fork} {h : Child} (hf : getFork s fork = some f) (hs : StepsAt s f h)
include hf hs

/-- The first of a step's checks: a poisoned twin or granule of the parent view ends the fork at the head (R116). -/
theorem prefixStep_poisoned_twin {va : Nat} (hp : stepPoison s f (stepGrans f h.idx) = some va) :
    exec (.prefixStep fork) s = .next (failAtChild s fork h.idx 4 (forkPoison f h.idx 7 va)) := by
  simp only [exec_prefixStep, execPrefixStep, hf, hs.reads, Bool.false_eq_true, if_false, hp]

/-- A head with a poisoned version fails: it is run again while its fork allows it (R117). -/
theorem prefixStep_reruns {rep : Report} (hp : stepPoison s f (stepGrans f h.idx) = none) (hv : childPoison f h.idx = some rep)
    (hretry : h.reruns < f.retry) (hmay : h.noRerun = false) :
    exec (.prefixStep fork) s = .next (modChild (failChild s fork h.idx rep false) fork h.idx
      (fun c => { c with st := .unstarted, reruns := c.reruns + 1 })) := by
  have hagain : (decide (h.reruns < f.retry) && !h.noRerun) = true := by simp [hretry, hmay]
  simp only [exec_prefixStep, execPrefixStep, hf, hs.reads, Bool.false_eq_true, if_false, hp, hv, hagain, if_true]

/-- Its failure is final once its reruns are used up (R117). -/
theorem prefixStep_fails_for_good {rep : Report} (hp : stepPoison s f (stepGrans f h.idx) = none)
    (hv : childPoison f h.idx = some rep) (hretry : f.retry ≤ h.reruns) :
    exec (.prefixStep fork) s = .next (failAtChild (failChild s fork h.idx rep false) fork h.idx 2 { rep with kind := 4 }) := by
  have hagain : (decide (h.reruns < f.retry) && !h.noRerun) = false := by simp [Nat.not_lt.mpr hretry]
  simp only [exec_prefixStep, execPrefixStep, hf, hs.reads, Bool.false_eq_true, if_false, hp, hv, hagain]

/-- A conflict with an earlier child ends the fork at the head (R114). -/
theorem prefixStep_conflicts {rep : Report} (hp : stepPoison s f (stepGrans f h.idx) = none) (hv : childPoison f h.idx = none)
    (hc : conflictReport f h.idx (stepConflicts s f (stepGrans f h.idx)) = some rep) :
    exec (.prefixStep fork) s = .next (failAtChild s fork h.idx 1 rep) := by
  simp only [exec_prefixStep, execPrefixStep, hf, hs.reads, Bool.false_eq_true, if_false, hp, hv, hc]

/-- Where no check fails and the parent has the slots, the head's versions are committed and it is Merged (R113, R115). -/
theorem prefixStep_commits {r : State} {fl : Flags} (hp : stepPoison s f (stepGrans f h.idx) = none) (hv : childPoison f h.idx = none)
    (hc : conflictReport f h.idx (stepConflicts s f (stepGrans f h.idx)) = none)
    (hroom : stepRoom s f (stepNeed s f (stepGrans f h.idx)) = none)
    (hr : commitAll s fork h.idx (stepGrans f h.idx) = (r, fl)) :
    exec (.prefixStep fork) s = .next (forkSettle (countCtr (modChild (modFork r fork (fun f =>
      dropVersions { f with mflags := f.mflags ||| fl.setWidth 5 } h.idx)) fork h.idx (fun c => { c with st := .merged }))
      f.ctx 12 1) fork) := by
  simp only [exec_prefixStep, execPrefixStep, hf, hs.reads, Bool.false_eq_true, if_false, hp, hv, hc, hroom, hr]

end

/-! ### Slots (R122, R123) -/

theorem slotGrant_grants {s : State} {fork : Nat} {f : Fork} {c : Child} (hf : getFork s fork = some f) (hon : ForkGoesOn s f)
    (hc : slotWinner f = some c) :
    exec (.slotGrant fork) s
      = .next (modChild s fork c.idx (fun c => { c with st := .running, granted := c.need, need := 0 })) := by
  obtain ⟨hend, hhalt⟩ := hon
  simp only [exec_slotGrant, execSlotGrant, hf, hc, hend, hhalt, Bool.or_self, Bool.false_eq_true, if_false]

/-- Whether a block of a child has still to end. -/
theorem any_live_block {s : State} {fork c : Nat} :
    s.blocks.any (fun b => b.views.head? == some (fork, c) && b.stat != .ended) = true
      ↔ ∃ b ∈ s.blocks, b.views.head? = some (fork, c) ∧ b.stat ≠ .ended := by
  simp only [List.any_eq_true, Bool.and_eq_true, beq_iff_eq, bne_iff_ne]

section
variable {s : State} {fork : Nat} {f : Fork} {h : Child} (hf : getFork s fork = some f) (hh : HeadBlocked s f h)
include hf hh

/-- Grants not yet taken go back first. -/
theorem forkRollback_withdraws (hg : grantsOut f h.idx = true) :
    exec (.forkRollback fork) s = .next (modFork s fork (fun f => withdrawGrants f h.idx)) := by
  simp only [exec_forkRollback, execForkRollback, hf, hh.reads, Bool.false_eq_true, if_false, hg, if_true]

/-- With no other child to roll back the quota is exhausted: the fork ends at the head, at chip scope by the head's final
contribution. -/
theorem forkRollback_exhausts (hg : grantsOut f h.idx = false) (hnone : holders f h.idx = []) :
    let t := modFork s fork (fun f => { f with slotsAtExh := slotsHeld f })
    let rep : Report := { cls := 20, cause := 1, kind := 4, level := f.level, ctx := f.ctx, child := h.idx }
    exec (.forkRollback fork) s
      = .next (if f.scope = .chip then failChild t fork h.idx rep true else failAtChild t fork h.idx 3 rep) := by
  simp only [exec_forkRollback, execForkRollback, hf, hh.reads, Bool.false_eq_true, if_false, hg, hnone, List.getLast?_nil]

/-- The highest holder is rolled back. Where no block of it is left, it is Unstarted at once and its grids leave. -/
theorem forkRollback_restarts {c : Nat} (hg : grantsOut f h.idx = false) (hlast : (holders f h.idx).getLast? = some c)
    (hgone : ∀ b ∈ s.blocks, b.views.head? = some (fork, c) → b.stat = .ended) :
    let t := modFork (stopChild s fork c) fork (fun f => dropVersions f c)
    exec (.forkRollback fork) s = .next (countCtr (modChild
      ((t.grids.filter (fun g => g.fork == some fork && g.child == some c)).foldl dropChildGrid t) fork c
      (fun x => { x with st := .unstarted, granted := 0, need := 0, ending := .no })) f.ctx 11 1) := by
  have hlive : s.blocks.any (fun b => b.views.head? == some (fork, c) && b.stat != .ended) = false := by
    rw [Bool.eq_false_iff, ne_eq, any_live_block]
    rintro ⟨b, hb, hv, hne⟩
    exact hne (hgone b hb hv)
  simp only [exec_forkRollback, execForkRollback, hf, hh.reads, Bool.false_eq_true, if_false, hg, hlast, hlive]

/-- Where a block of it has yet to end, it stays Running until then. -/
theorem forkRollback_stops {c : Nat} {b : Block} (hg : grantsOut f h.idx = false) (hlast : (holders f h.idx).getLast? = some c)
    (hb : b ∈ s.blocks) (hv : b.views.head? = some (fork, c)) (hne : b.stat ≠ .ended) :
    exec (.forkRollback fork) s = .next (countCtr (modChild (modFork (stopChild s fork c) fork (fun f => dropVersions f c)) fork c
      (fun x => { x with st := .running, granted := 0, need := 0, ending := .rolledBack })) f.ctx 11 1) := by
  have hlive := any_live_block.mpr ⟨b, hb, hv, hne⟩
  simp only [exec_forkRollback, execForkRollback, hf, hh.reads, Bool.false_eq_true, if_false, hg, hlast, hlive, if_true]

end

/-! ### Chip scope (R127 to R130) -/

/-- The copy of a contribution that its home has accepted. -/
abbrev copyOf (fork : Nat) (k : Contribution) (x : Accepted) : Bool :=
  x.fork == fork && x.k.win == k.win && x.k.slice == k.slice && x.k.child == k.child

theorem contributionArrival_accepts {s : State} {fork : Nat} {f : Fork} {k : Contribution} {st : SliceSt}
    (hf : getFork s fork = some f) (hscope : f.scope = .chip) (hend : f.ended = false)
    (hhome : homedHere s f k.win k.slice = true) (hk : k.child < f.count)
    (hsl : f.slices.find? (fun x => x.win == k.win && x.slice == k.slice) = some st)
    (hnew : s.accepted.find? (copyOf fork k) = none) (htag : f.tagsDone.contains (f.tag + k.win) = false)
    (hw : st.written = false) (ho : st.outcome = 0) (hnext : st.next ≤ k.child) :
    exec (.contributionArrival fork k) s = .next (acceptContribution s f k) := by
  rw [exec_contributionArrival, execContributionArrival]
  simp only [hnew, hf, hsl, hscope, hend, hhome, htag, hw, ho]
  rw [if_neg (by simp; omega), if_neg (by simp; omega)]

theorem contributionArrival_compares {s : State} {fork : Nat} {k : Contribution} {x : Accepted}
    (hx : s.accepted.find? (copyOf fork k) = some x)
    (hvoid : x.void = false) (hfin : k.final = false) :
    let t := { s with accepted := s.accepted.filter (fun x => !copyOf fork k x) }
    exec (.contributionArrival fork k) s = .next (if x.k.data = k.data then t else backupDivergence t x k) := by
  rw [exec_contributionArrival, execContributionArrival]
  simp [hx, hvoid, hfin]

/-- A granule of a broadcast, written into the parent view (R130). -/
def broadcastGranule (f : Fork) (w : Nat) (s : State) (p : Nat × BitVec 256) : State :=
  match offGran f w p.1 with
  | some g => notifyWrite (parentWrite s (keyMat s g.2.key) g.1 p.2 f.parentView) f.parentView
      { ap := 0, addr := 32 * g.1, key := g.2.key }
  | none => s

/-- A slice's outcome as its broadcast says it (R130). -/
abbrev broadcastSlice (b : Broadcast) (f : Fork) : Fork :=
  modSlice f b.win b.slice (fun x => { x with
    written := true, outcome := b.outcome, merged := b.merged, mflags := b.mflags, fail := sliceFailure b })

theorem sliceBroadcast_writes {s : State} {fork : Nat} {f g : Fork} {b : Broadcast} (hf : getFork s fork = some f)
    (hscope : f.scope = .chip) (hon : ForkGoesOn s f) (hw : sliceWritten f b.win b.slice = false)
    (hsl : ∃ x ∈ f.slices, x.win = b.win ∧ x.slice = b.slice) :
    let t := modFork (b.data.foldl (broadcastGranule f b.win) s) fork (broadcastSlice b)
    getFork t fork = some g →
    exec (.sliceBroadcast fork b) s = .next (if g.bucketEnded (g.tag + b.win) then endBucket t fork (g.tag + b.win) else t) := by
  intro t hg
  obtain ⟨hend, hhalt⟩ := hon
  have hany : f.slices.any (fun x => x.win == b.win && x.slice == b.slice) = true := by
    simpa [List.any_eq_true] using hsl
  have hrun : ¬(f.scope ≠ .chip ∨ f.ended ∨ ctxHalted s f.ctx ∨ sliceWritten f b.win b.slice
      ∨ !f.slices.any (fun x => x.win == b.win && x.slice == b.slice)) := by
    simp [-List.any_eq_true, -List.any_eq_false, hscope, hend, hhalt, hw, hany]
  rw [exec_sliceBroadcast, execSliceBroadcast]
  simp only [hf, if_neg hrun]
  split
  · rename_i hnone
    cases hnone.symm.trans hg
  · rename_i g' hg'
    cases hg'.symm.trans hg
    rfl

/-- Settles O58: each clause is one outcome of a head's step, of a grant or a rollback of slots, or of a message at chip scope. -/
theorem forkEvents : Obligations.ForkEvents := by
  unfold Obligations.ForkEvents
  intro s fork f h hf
  refine ⟨fun _ _ hs => prefixStep_commits hf hs, fun _ hs => prefixStep_poisoned_twin hf hs, fun _ hs => prefixStep_conflicts hf hs,
    fun _ hs => prefixStep_reruns hf hs, fun _ hs => prefixStep_fails_for_good hf hs, fun _ => slotGrant_grants hf,
    fun hon hhead hst hwin => forkRollback_withdraws hf ⟨hon, hhead, hst, hwin⟩,
    fun hon hhead hst hwin hg hnone => ?exhausts,
    fun _ hon hhead hst hwin => forkRollback_restarts hf ⟨hon, hhead, hst, hwin⟩,
    fun _ _ hon hhead hst hwin => forkRollback_stops hf ⟨hon, hhead, hst, hwin⟩,
    fun _ => ⟨fun _ => contributionArrival_accepts hf, fun _ => contributionArrival_compares⟩,
    fun _ _ => sliceBroadcast_writes hf⟩
  case exhausts =>
    have hex := forkRollback_exhausts hf ⟨hon, hhead, hst, hwin⟩ hg hnone
    exact ⟨fun hscope => by rw [hex, if_neg hscope], fun hscope => by rw [hex, if_pos hscope]⟩

end Sys2Proof.Machine
end
